-- ==== Sys2Proof/Word.lean ====
section
/-! DEFINITION. The widths the spec fixes (00_scope.md R7, R10): a frame byte is 8 bits, `data_length` and the checksum 16, an address 24. -/

namespace Sys2Proof

/-- A frame byte (R7). -/
abbrev Byte := BitVec 8

/-- A 16-bit quantity: `data_length`, an EEPROM address, the checksum (R7, R14). -/
abbrev Half := BitVec 16

/-- A 24-bit address of FLASH or CFG (R7, R50). -/
abbrev Addr := BitVec 24

end Sys2Proof
end

