-- ==== Sys2Proof/Syntax.lean ====
section
/-! DEFINITION. The requests of the command block: one constructor per row of spec/opcode_table.json (30_encoding.md R75, R78, R80). -/

namespace Sys2Proof

/-- The header operands of a frame, assembled (30_encoding.md R75, R78): bytes 1 to 8. -/
structure Header where
  /-- `data_length`, bytes 1 and 2 -/
  dlen : Half
  /-- `unlock_key_1`, byte 3 -/
  key1 : Byte
  /-- `unlock_key_2`, byte 4 -/
  key2 : Byte
  /-- the address, bytes 5 to 7 -/
  addr : Addr
  /-- the reserved byte 8, accepted with any value and never read by a command (R86) -/
  rsv  : Byte
  deriving DecidableEq, Repr

/-- A request. The write-class commands (R76, R82) carry their payload; the default arm carries its command byte (R81). -/
inductive Instr where
  /-- 0x00 (43_dispatch_and_reads.md R170) -/
  | readVersion (h : Header)
  /-- 0x01 (R172) -/
  | readFlash (h : Header)
  /-- 0x02 (44_writes_and_control.md R200) -/
  | writeFlash (h : Header) (data : List Byte)
  /-- 0x03 (R206) -/
  | eraseFlash (h : Header)
  /-- 0x04 (R175) -/
  | readEEData (h : Header)
  /-- 0x05 (R211) -/
  | writeEEData (h : Header) (data : List Byte)
  /-- 0x06 (R178) -/
  | readConfig (h : Header)
  /-- 0x07 (R216) -/
  | writeConfig (h : Header) (data : List Byte)
  /-- 0x08 (R181) -/
  | calcChecksum (h : Header)
  /-- 0x09 (R224) -/
  | resetDevice (h : Header)
  /-- 0x0A to 0xFF (R228) -/
  | invalid (code : Byte) (h : Header)
  deriving DecidableEq, Repr

/-- The header of a request. -/
def Instr.header : Instr → Header
  | .readVersion h => h
  | .readFlash h => h
  | .writeFlash h _ => h
  | .eraseFlash h => h
  | .readEEData h => h
  | .writeEEData h _ => h
  | .readConfig h => h
  | .writeConfig h _ => h
  | .calcChecksum h => h
  | .resetDevice h => h
  | .invalid _ h => h

end Sys2Proof
end

