-- ==== Sys2Proof/WellFormed.lean ====
section
/-! DEFINITION. Which terms of `Instr` are requests: a write-class request carries as many payload bytes as its length field says, up to
the capacity of what holds it (30_encoding.md R76; 40_frame_codec.md R103, R104), and the default arm's code is unrecognised (R81). -/

namespace Sys2Proof

/-- A write-class payload: `data_length` bytes on the wire, of which a buffer of `cap` payload bytes keeps `min dlen cap`
(R103, R104). -/
def payloadOk (cap : Nat) (h : Header) (data : List Byte) : Bool :=
  data.length == min h.dlen.toNat cap

/-- Well-formedness against a payload capacity: `W` for the frame buffer (R21), 65535 for a frame on the wire (R7). -/
def Instr.wf (cap : Nat) : Instr → Bool
  | .readVersion _ => true
  | .readFlash _ => true
  | .writeFlash h data => payloadOk cap h data
  | .eraseFlash _ => true
  | .readEEData _ => true
  | .writeEEData h data => payloadOk cap h data
  | .readConfig _ => true
  | .writeConfig h data => payloadOk cap h data
  | .calcChecksum _ => true
  | .resetDevice _ => true
  | .invalid code _ => decide (0x0A ≤ code.toNat)

end Sys2Proof
end

