-- ==== Sys2Proof/Decode.lean ====
section
/-! DEFINITION. The frame encoding (30_encoding.md R75 to R82, R87): the decoder, total on any bytes and rejecting by name, and the encoder. -/

namespace Sys2Proof

/-- Why bytes are no request yet: fewer than nine of them, or fewer payload bytes than the length field asks for. -/
inductive DecodeError where
  | shortHeader
  | shortPayload
  deriving DecidableEq, Repr

/-- `{hi, lo}` (R78). -/
def assemble16 (lo hi : Byte) : Half := hi ++ lo

/-- `{upper, high, low}` (R78). -/
def assemble24 (low high upper : Byte) : Addr := upper ++ high ++ low

/-- Bits 7:0 of a 16-bit quantity. -/
def lowByte (v : Half) : Byte := v.extractLsb' 0 8

/-- Bits 15:8 of a 16-bit quantity. -/
def highByte (v : Half) : Byte := v.extractLsb' 8 8

/-- Byte `k` of an address, byte 0 the low one (R75). -/
def addrByte (k : Nat) (a : Addr) : Byte := a.extractLsb' (8 * k) 8

/-- `WRITE_CLASS = {2, 5, 7}`: the codes whose request carries a payload (R76, R82). -/
def isWriteClass (code : Byte) : Bool := code == 2 || code == 5 || code == 7

/-- The total length of a request with these first three bytes (R76, R87, 40_frame_codec.md R102). -/
def requestLength (code lenLo lenHi : Byte) : Nat :=
  if isWriteClass code then 9 + (assemble16 lenLo lenHi).toNat else 9

/-- The opcode map of R80: the whole command byte selects (R79), and every other value is the default arm (R81). -/
def selectInstr (code : Byte) (h : Header) (data : List Byte) : Instr :=
  match code.toNat with
  | 0 => .readVersion h
  | 1 => .readFlash h
  | 2 => .writeFlash h data
  | 3 => .eraseFlash h
  | 4 => .readEEData h
  | 5 => .writeEEData h data
  | 6 => .readConfig h
  | 7 => .writeConfig h data
  | 8 => .calcChecksum h
  | 9 => .resetDevice h
  | _ => .invalid code h

/-- Decode one request and give back the bytes after it. `cap` is the payload capacity of what holds the bytes: the frame buffer keeps
`min dlen W` payload bytes of a write-class frame (R103, R104), the wire carries all of them. -/
def decode (cap : Nat) : List Byte → Except DecodeError (Instr × List Byte)
  | code :: l0 :: l1 :: key1 :: key2 :: a0 :: a1 :: a2 :: rsv :: rest =>
    let h : Header := ⟨assemble16 l0 l1, key1, key2, assemble24 a0 a1 a2, rsv⟩
    let k := if isWriteClass code then min h.dlen.toNat cap else 0
    if rest.length < k then .error .shortPayload
    else .ok (selectInstr code h (rest.take k), rest.drop k)
  | _ => .error .shortHeader

/-- The command byte of a request (R80). -/
def commandByte : Instr → Byte
  | .readVersion _ => 0x00
  | .readFlash _ => 0x01
  | .writeFlash _ _ => 0x02
  | .eraseFlash _ => 0x03
  | .readEEData _ => 0x04
  | .writeEEData _ _ => 0x05
  | .readConfig _ => 0x06
  | .writeConfig _ _ => 0x07
  | .calcChecksum _ => 0x08
  | .resetDevice _ => 0x09
  | .invalid code _ => code

/-- The payload a request carries (R75, R76). -/
def payloadOf : Instr → List Byte
  | .readVersion _ => []
  | .readFlash _ => []
  | .writeFlash _ data => data
  | .eraseFlash _ => []
  | .readEEData _ => []
  | .writeEEData _ data => data
  | .readConfig _ => []
  | .writeConfig _ data => data
  | .calcChecksum _ => []
  | .resetDevice _ => []
  | .invalid _ _ => []

/-- Header bytes 1 to 8 in wire order (R75). -/
def encodeHeader (h : Header) : List Byte :=
  [lowByte h.dlen, highByte h.dlen, h.key1, h.key2, addrByte 0 h.addr, addrByte 1 h.addr, addrByte 2 h.addr, h.rsv]

/-- The bytes of a request in wire order (R75, R88). -/
def encode (i : Instr) : List Byte := commandByte i :: encodeHeader i.header ++ payloadOf i

/-- `n` bytes of a number, the least significant first. -/
def bytesOfNat : Nat → Nat → List Byte
  | 0, _ => []
  | n + 1, w => BitVec.ofNat 8 w :: bytesOfNat n (w / 256)

/-- A whole frame on the wire from the low `nbits` bits of `w`, byte 0 the least significant; every later byte is 0, and there are as
many as the length rule asks for (R76). -/
def frameOfWord (nbits w : Nat) : List Byte :=
  let given := bytesOfNat ((nbits + 7) / 8) (w % 2 ^ nbits)
  let len := requestLength (given.getD 0 0) (given.getD 1 0) (given.getD 2 0)
  (given ++ List.replicate (len - given.length) 0).take len

/-- The request the decoder reads from a frame whose bits are `w`. -/
def decodeTableWord (nbits w : Nat) : Option Instr :=
  match decode 65535 (frameOfWord nbits w) with
  | .ok (i, _) => some i
  | .error _ => none

end Sys2Proof
end

