-- ==== Sys2Proof/Config.lean ====
section
/-! DEFINITION. What an implementation fixes (00_scope.md R6, 92_eei_decisions.md section 2) and the free values of the model.
The parameters are a record that a state carries unchanged (log 1), so that what is stated of every state is stated of every configuration. -/

namespace Sys2Proof

/-- An unlock pair `(c1, c2)` (42_unlock_sequence.md R148). -/
structure KeyPair where
  first  : Byte
  second : Byte
  deriving DecidableEq, Repr

/-- `EE_STRIDE`: address advance per byte of Write EE Data (44_writes_and_control.md R212, D10). -/
inductive EEStride where
  | one
  | two
  deriving DecidableEq, Repr

/-- `CHECKSUM_MODE` (43_dispatch_and_reads.md R181, D11). -/
inductive ChecksumMode where
  | byteSum
  | leWordSum
  deriving DecidableEq, Repr

/-- `FLASH_PROGRAM`: how a written byte combines with the cell (20_memory.md R60, U7). -/
inductive FlashProgram where
  | replace
  | and
  deriving DecidableEq, Repr

/-- `STALE_ROW_BUFFER`: the fate of buffered bytes after an unhonored commit or an aborted Write Flash (R60, R277, U6). -/
inductive StaleRowBuffer where
  | kept
  | dropped
  deriving DecidableEq, Repr

/-- The addresses `base, ..., base + size - 1`, implemented by a memory collaborator (20_memory.md R56). -/
structure AddrRange where
  base : Nat
  size : Nat
  deriving DecidableEq, Repr

/-- The implementation parameters of 00_scope.md R6, of R60 (`FLASH_PROGRAM`, `STALE_ROW_BUFFER`) and of R270
(`APP_VECTOR_ADDR`, `APP_VECTOR_WIDTH`), and the address ranges the memories implement (R56; log 3). -/
structure Params where
  /-- `W`, `WRITE_BLOCK_SIZE` -/
  w              : Nat
  /-- `E`, `erase_block_size` -/
  e              : Nat
  /-- `L`, the reserved-region ceiling -/
  floor          : Nat
  /-- `FLASH_END`, exclusive -/
  flashEnd       : Nat
  /-- `CONFIG_END`, exclusive -/
  configEnd      : Nat
  nvmKey         : KeyPair
  cfgThreshold   : Nat
  cfgKeyLo       : KeyPair
  cfgKeyHi       : KeyPair
  syncByte       : Byte
  versionMinor   : Byte
  versionMajor   : Byte
  maxPacketSize  : Half
  devidAddr      : Addr
  idlocAddr      : Addr
  eeStride       : EEStride
  checksumMode   : ChecksumMode
  flashProgram   : FlashProgram
  staleRowBuffer : StaleRowBuffer
  appVectorAddr  : Addr
  appVectorWidth : Nat
  flashMap       : List AddrRange
  eeMap          : List AddrRange
  cfgMap         : List AddrRange
  deriving DecidableEq, Repr

/-- A power of two up to 2^24, the size of the flash address space. -/
abbrev isPowerOfTwo (n : Nat) : Prop := ∃ k ∈ List.range 25, n = 2 ^ k

/-- The constraints of R6's last column (D17). -/
abbrev Params.wf (p : Params) : Prop :=
  isPowerOfTwo p.w ∧ 16 ≤ p.w ∧ isPowerOfTwo p.e ∧
  p.w ∣ p.floor ∧ p.e ∣ p.floor ∧ p.w ∣ p.flashEnd ∧ p.e ∣ p.flashEnd ∧
  p.floor < p.flashEnd ∧ p.flashEnd ≤ 2 ^ 24 ∧ p.configEnd ≤ 2 ^ 24

namespace Config

/-- The example configuration `CFG-EX` (00_scope.md R8). DESIGN CHOICE (unsafe, log 1): the parameters `State.reset` carries.
DESIGN CHOICE (unsafe, log 2): the four parameters CFG-EX does not value. DESIGN CHOICE (unsafe, log 3): the three maps. -/
def cfgEx : Params where
  w              := 16
  e              := 64
  floor          := 0x000800
  flashEnd       := 0x020000
  configEnd      := 0x30000E
  nvmKey         := ⟨0x55, 0xAA⟩
  cfgThreshold   := 0x300008
  cfgKeyLo       := ⟨0x55, 0xAA⟩
  cfgKeyHi       := ⟨0xA5, 0x5A⟩
  syncByte       := 0x55
  versionMinor   := 0x08
  versionMajor   := 0x00
  maxPacketSize  := 25
  devidAddr      := 0x3FFFFE
  idlocAddr      := 0x200000
  eeStride       := .one
  checksumMode   := .byteSum
  flashProgram   := .replace
  staleRowBuffer := .kept
  appVectorAddr  := 0x000800
  appVectorWidth := 16
  flashMap       := [⟨0, 0x020000⟩]
  eeMap          := [⟨0, 0x10000⟩]
  cfgMap         := [⟨0x200000, 4⟩, ⟨0x300000, 14⟩, ⟨0x3FFFFE, 2⟩]

/-- The `k`-th draw of a byte: what a read of an unimplemented address, or of an EEPROM byte being written, returns
(20_memory.md R56, R63; U8, U9). A free value: it has no body (log 5). -/
opaque freeByte : Nat → Byte

/-- The `k`-th draw of the length of an EEPROM busy condition, in steps (R62, U10; log 6). A free value: it has no body (log 6). -/
opaque freeBusy : Nat → Nat

/-- The row buffer a device reset leaves (R64, U14). A free value: it has no body (log 12). -/
opaque freeRowBuffer : Nat → List (Addr × Byte)

/-- Whether a device reset leaves the EEPROM busy, and for how many steps more (R64, U14). A free value: it has no body (log 12). -/
opaque freeEEBusy : Nat → Option Nat

end Config

end Sys2Proof
end

