-- ==== Sys2Proof/Machine/Memory.lean ====
section
/-! DEFINITION. Memory as data: (address, byte) cells in one canonical form, for the three byte spaces (20_memory.md R50), the flash row
buffer (R59) and the recorded config bytes (R63). -/

namespace Sys2Proof.Machine

/-- Cells listed by address. -/
abbrev Cells := List Host.Cell

/-- Addresses strictly rising. -/
abbrev cellsSorted (c : Cells) : Prop := c.Pairwise (fun x y => x.1 < y.1)

/-- The byte listed at an address. -/
def cellsFind : Cells → Nat → Option Byte
  | [], _ => none
  | (k, v) :: rest, a => if k = a then some v else cellsFind rest a

/-- List a byte at an address, in place of the one listed there. -/
def cellsInsert : Cells → Nat → Byte → Cells
  | [], a, v => [(a, v)]
  | (k, x) :: rest, a, v =>
    if a < k then (a, v) :: (k, x) :: rest
    else if a = k then (a, v) :: rest
    else (k, x) :: cellsInsert rest a v

/-- The cells outside `[lo, hi)`. -/
def cellsOutside (lo hi : Nat) (c : Cells) : Cells := c.filter (fun x => decide (x.1 < lo ∨ hi ≤ x.1))

/-- Cells from a list of entries, a later one in place of an earlier one at the same address. -/
def cellsOf (entries : List (Nat × Byte)) : Cells := entries.foldl (fun c x => cellsInsert c x.1 x.2) []

/-- A byte space; an unlisted address reads as `Memory.blank`. -/
abbrev Memory := Cells

/-- What a byte that nothing has written reads as: the erased fill pattern of R61. DESIGN CHOICE (unsafe, log 4): the spec gives the
memories no contents before the block runs. -/
def Memory.blank : Byte := 0xFF

/-- The durable byte at an address. -/
def Memory.read (m : Memory) (a : Nat) : Byte := (cellsFind m a).getD Memory.blank

/-- Make a byte durable; a blank byte is not listed. -/
def Memory.write (m : Memory) (a : Nat) (v : Byte) : Memory :=
  if v = Memory.blank then cellsOutside a (a + 1) m else cellsInsert m a v

/-- Fill `[lo, hi)` with the erased fill pattern, which is what an unlisted address reads as (R61, log 25). -/
def Memory.eraseRange (m : Memory) (lo hi : Nat) : Memory := cellsOutside lo hi m

/-- The canonical form: addresses strictly rising, no entry equal to what an unlisted address reads as. -/
abbrev Memory.wf (m : Memory) : Prop := cellsSorted m ∧ ∀ c ∈ m, c.2 ≠ Memory.blank

/-- How a written byte combines with a flash cell: `FLASH_PROGRAM` (R60, U7). -/
def programByte (mode : FlashProgram) (old new : Byte) : Byte :=
  match mode with
  | .replace => new
  | .and => old &&& new

/-- Make every cell of the row buffer within `[lo, hi)` durable (R60). -/
def Memory.commitRange (mode : FlashProgram) (lo hi : Nat) (buffered : Cells) (m : Memory) : Memory :=
  buffered.foldl
    (fun acc c => if lo ≤ c.1 ∧ c.1 < hi then Memory.write acc c.1 (programByte mode (Memory.read acc c.1) c.2) else acc) m

end Sys2Proof.Machine
end

