-- ==== Sys2Proof/Machine/State.lean ====
section
/-! DEFINITION. The state of the machine as plain data: the block (10_state.md R20 to R35), the collaborators' state a request observes
(R32; 20_memory.md R56 to R64), the ports and inputs of the environment (R33; 70_reset_and_hazards.md R260 to R271), the parameters
(00_scope.md R6), and two fields of the model's own: how far a step goes, and a counter of free values. -/

namespace Sys2Proof.Machine

/-- The phase register (R25). -/
inductive Phase where
  | recv
  | dispatch
  | xmit
  | resetHold
  deriving DecidableEq, Repr

/-- The unlock state machine's state (42_unlock_sequence.md R146). -/
inductive UState where
  | locked
  | half
  | armed
  deriving DecidableEq, Repr

/-- What the transmitter is sending: the sync byte, which the spec numbers -1, or a byte of the frame buffer (R29, R110). -/
inductive TxIndex where
  | sync
  | byte (t : Nat)
  deriving DecidableEq, Repr

/-- The command-local state of R28. A command that needs no unlock pair has none; `sum` is 0 but in Calc Checksum. -/
structure Loc where
  /-- the 24-bit cursor, or the 16-bit EEPROM cursor zero-extended -/
  cur    : Addr
  /-- the loop index -/
  i      : Nat
  /-- the element count -/
  n      : Nat
  /-- the unlock pair the command requires -/
  pair   : Option KeyPair
  /-- the checksum accumulator -/
  sum    : Half
  /-- the position within an element that takes two port operations (R27): the second one is next -/
  second : Bool
  deriving DecidableEq, Repr

/-- An EEPROM write in progress (20_memory.md R62): the address, and the byte it will hold. -/
structure EEWrite where
  addr : Half
  val  : Byte
  deriving DecidableEq, Repr

/-- The EEPROM's busy condition (R62): the write it comes from, and how many more steps it lasts. A condition that a device reset leaves
need not come from a write (R64, U14). -/
structure EEBusy where
  write : Option EEWrite
  left  : Nat
  deriving DecidableEq, Repr

/-- How far one step of the machine goes in `DISPATCH` (00_scope.md R9; log 7): one port operation, or a whole request, where no device
reset is to come. -/
inductive Pace where
  | operation
  | request
  deriving DecidableEq, Repr

/-- Who runs after the boot decision (70_reset_and_hazards.md R271). -/
inductive Owner where
  | block
  | application
  deriving DecidableEq, Repr

/-- The three byte spaces (20_memory.md R50, 00_scope.md R17). -/
inductive Space where
  | flash
  | ee
  | cfg
  deriving DecidableEq, Repr

/-- Why the machine stops. No run from reset reaches one of these: they stand for reads the spec forbids. -/
inductive Fault where
  /-- Raised by the receiver's length rule, the dispatcher's fetch and the transmitter when they read a frame-buffer byte that holds no
  value (10_state.md R21, U13). Safe: the machine stops where the spec gives no value. -/
  | bufNoValue
  /-- Raised by the transmitter in `XMIT` when `resp_len` or `tx_index` holds no value (R29), and by the dispatcher when a suspended
  command lacks a piece of command-local state its arm reads (R28). Safe: as above. -/
  | localNoValue
  deriving DecidableEq, Repr

/-- Why an instruction or a move of the host has no meaning. -/
inductive Refusal where
  /-- Raised by an arm of `exec` whose instruction has no meaning yet; no arm does. Safe. -/
  | notModelled (mnemonic : String)
  /-- Raised by a write-class meaning for a term that is no request: fewer payload bytes than `data_length` says. The decoder yields
  no such term (log 22). Safe. -/
  | illFormedPayload
  /-- Raised by the host's move `hostSend` while the block is in `DISPATCH` or is sending a response: the model gives such a host no move
  (R280, D35, U12). No step of the machine raises it. Unsafe for a claim about such hosts, as the spec says (log 11). -/
  | hostSendsDuringResponse
  deriving DecidableEq, Repr

/-- The machine. -/
structure State where
  /-- the implementation parameters; no step changes them (log 1) -/
  params       : Params
  /-- the frame buffer: 9 + W bytes, each with or without a value (R21) -/
  buf          : List (Option Byte)
  /-- unlock-key register `K1` (R23) -/
  k1           : Byte
  /-- unlock-key register `K2` (R23) -/
  k2           : Byte
  /-- `reset_pending` (R24) -/
  resetPending : Bool
  /-- `phase` (R25) -/
  phase        : Phase
  /-- `rx_count` (R26) -/
  rxCount      : Nat
  /-- `rx_expected` (R26) -/
  rxExpected   : Nat
  /-- the command-local state of a command that is suspended in `DISPATCH`; no value otherwise (R28, log 21) -/
  loc          : Option Loc
  /-- `resp_len`, live from the end of a command until the last byte of its response is accepted (R28) -/
  respLen      : Option Nat
  /-- `tx_index`, live in `XMIT` while bytes are being sent (R29) -/
  txIndex      : Option TxIndex
  /-- the unlock state machine (R31, R146) -/
  ustate       : UState
  /-- the `reset_request` output (R33, R265) -/
  resetRequest : Bool
  /-- durable Program Flash -/
  flash        : Memory
  /-- durable Data EEPROM -/
  ee           : Memory
  /-- durable Configuration Words -/
  cfg          : Memory
  /-- the flash row buffer (R32, R59) -/
  rowBuf       : Cells
  /-- config bytes recorded and not yet committed (R63) -/
  cfgRec       : Cells
  /-- the EEPROM busy condition (R32, R62) -/
  eeBusy       : Option EEBusy
  /-- request bytes the transport has still to deliver, the next one first (R33) -/
  rxQueue      : List Byte
  /-- response bytes the transport has accepted, the first one first (R33) -/
  sent         : List Byte
  /-- whether the transport accepts a byte (R110, R247) -/
  txReady      : Bool
  /-- whether the EEPROM never leaves busy (R62, R247) -/
  eeStuck      : Bool
  /-- the device reset the environment makes next: none, or after how many more steps (R260; log 8) -/
  resetAfter   : Option Nat
  /-- the boot decision's request line, true when asserted (R270, U16) -/
  requestLine  : Bool
  /-- who runs (R271) -/
  owner        : Owner
  /-- how far a step goes in `DISPATCH`; the model's own field (log 7) -/
  pace         : Pace
  /-- how many free values the machine has taken; the model's own field (log 5) -/
  draws        : Nat
  deriving DecidableEq, Repr

/-- The machine right after a power-up that entered the block, for any parameters: 10_state.md R35. -/
def State.resetWith (p : Params) : State where
  params       := p
  buf          := List.replicate (9 + p.w) none
  k1           := 0
  k2           := 0
  resetPending := false
  phase        := .recv
  rxCount      := 0
  rxExpected   := 9
  loc          := none
  respLen      := none
  txIndex      := none
  ustate       := .locked
  resetRequest := false
  flash        := []
  ee           := []
  cfg          := []
  rowBuf       := []
  cfgRec       := []
  eeBusy       := none
  rxQueue      := []
  sent         := []
  txReady      := true
  eeStuck      := false
  resetAfter   := none
  requestLine  := false
  owner        := .block
  pace         := .operation
  draws        := 0

/-- The machine right after reset, under the example configuration of R8 (log 1, 2, 3, 4, 14, 27). -/
def State.reset : State := State.resetWith Config.cfgEx

end Sys2Proof.Machine
end

