-- ==== Sys2Proof/Machine/Operands.lean ====
section
/-! DEFINITION. Operand forms: the derived quantities of a frame (00_scope.md R14), cursors and rows (20_memory.md R57, R58), the address
guard (41_address_guard.md R125 to R131), the required pair (42_unlock_sequence.md R148), the checksum count (30_encoding.md R89). -/

namespace Sys2Proof.Machine

/-- `ee_addr = {buf[6], buf[5]}`; `buf[7]` is ignored (R14, R50, R78). -/
def eeAddr (h : Header) : Half := h.addr.extractLsb' 0 16

/-- The cursor of the next byte of FLASH or CFG: `+_24 1` (R58). -/
def nextAddr (cur : Addr) : Addr := cur + 1

/-- The cursor of the next erase row: `+_24 E` (R58). -/
def nextRow (p : Params) (cur : Addr) : Addr := cur + BitVec.ofNat 24 p.e

/-- An EEPROM address as a cursor. -/
def eeCursor (a : Half) : Addr := a.zeroExtend 24

/-- The EEPROM address a cursor holds. -/
def eeOfCursor (cur : Addr) : Half := cur.extractLsb' 0 16

/-- The cursor of the next byte read from the EEPROM: `+_16 1` (R58, R175). -/
def nextEERead (cur : Addr) : Addr := eeCursor (eeOfCursor cur + 1)

/-- `EE_STRIDE` as a number (44_writes_and_control.md R212). -/
def strideOf (s : EEStride) : Half :=
  match s with
  | .one => 1
  | .two => 2

/-- The cursor of the next byte written to the EEPROM: `+_16 EE_STRIDE` (R58, R211, R212). -/
def nextEEWrite (p : Params) (cur : Addr) : Addr := eeCursor (eeOfCursor cur + strideOf p.eeStride)

/-- `a AND NOT(n-1)` on 24 bits: the start of the row of `n` bytes that holds `a` (R57). -/
def alignTo (n : Nat) (a : Addr) : Addr := a &&& ~~~(BitVec.ofNat 24 (n - 1))

/-- The write row of an address (R57, 44_writes_and_control.md R203). -/
def writeRow (p : Params) (a : Addr) : Addr := alignTo p.w a

/-- The erase row of an address (R57, R207). -/
def eraseRowOf (p : Params) (a : Addr) : Addr := alignTo p.e a

/-- `AboveFloor` (R125). -/
def aboveFloor (p : Params) (a : Addr) : Bool := decide (p.floor ≤ a.toNat)

/-- `InFlash` (R125). -/
def inFlash (p : Params) (a : Addr) : Bool := decide (p.floor ≤ a.toNat ∧ a.toNat < p.flashEnd)

/-- `InCfg` (R125). -/
def inCfg (p : Params) (a : Addr) : Bool := decide (p.floor ≤ a.toNat ∧ a.toNat < p.configEnd)

/-- The capacity check's failure, `dlen > W` (R131). -/
def overCapacity (p : Params) (h : Header) : Bool := decide (p.w < h.dlen.toNat)

/-- The commit point of a Write Flash after byte `i` of `n` at `cur` (R203). -/
def commitPoint (p : Params) (cur : Addr) (i n : Nat) : Bool :=
  decide ((cur.toNat + 1) % p.w = 0 ∨ i + 1 = n)

/-- The required pair of a Write Config, selected once from the start address (R148, R217). -/
def configPair (p : Params) (addr : Addr) : KeyPair :=
  if addr.toNat < p.cfgThreshold then p.cfgKeyLo else p.cfgKeyHi

/-- `LEN_EXT = (FLASH_END > 0x10000)` (00_scope.md R6, D12). -/
def lenExt (p : Params) : Bool := decide (0x10000 < p.flashEnd)

/-- The count of bytes Calc Checksum sums (30_encoding.md R89, 43_dispatch_and_reads.md R181). -/
def checksumCount (p : Params) (h : Header) : Nat :=
  if lenExt p then (h.key1 ++ h.dlen).toNat else h.dlen.toNat

/-- One byte into the checksum (R181); `i` is its index in the range. -/
def sumByte (mode : ChecksumMode) (i : Nat) (sum : Half) (b : Byte) : Half :=
  match mode with
  | .byteSum => sum + b.zeroExtend 16
  | .leWordSum => if i % 2 = 0 then sum + b.zeroExtend 16 else sum + (b ++ (0 : Byte))

/-- Whether a collaborator implements an address (20_memory.md R56). -/
def inRanges (ranges : List AddrRange) (a : Nat) : Bool :=
  ranges.any (fun r => decide (r.base ≤ a ∧ a < r.base + r.size))

/-- The implemented ranges of a space (R56, log 3). -/
def implementedRanges (p : Params) (sp : Space) : List AddrRange :=
  match sp with
  | .flash => p.flashMap
  | .ee => p.eeMap
  | .cfg => p.cfgMap

/-- Whether a space implements an address (R56). -/
def implemented (p : Params) (sp : Space) (a : Nat) : Bool := inRanges (implementedRanges p sp) a

end Sys2Proof.Machine
end

