-- ==== Sys2Proof/Machine/Flags.lean ====
section
/-! DEFINITION. The block has no condition codes (10_state.md R30). What plays their part: the status byte a command leaves in `buf[9]`
(30_encoding.md R84), and the unlock state machine that decides whether a memory operation is honored (42_unlock_sequence.md R146, R147). -/

namespace Sys2Proof.Machine

/-- `COMMAND_SUCCESS` (R84). -/
def statusSuccess : Byte := 0x01

/-- `ERROR_ADDRESS_OUT_OF_RANGE` (R84). -/
def statusOutOfRange : Byte := 0xFE

/-- `ERROR_INVALID_COMMAND` (R84). -/
def statusInvalid : Byte := 0xFF

/-- `UW(v)`: a write of byte `v` to the unlock register, under the required pair (R146). -/
def unlockWrite (pair : KeyPair) (u : UState) (v : Byte) : UState :=
  match u with
  | .locked => if v = pair.first then .half else .locked
  | .half => if v = pair.second then .armed else .locked
  | .armed => .locked

/-- `STROBE`: the next state, and whether the operation is honored (R146). -/
def unlockStrobe (u : UState) : UState × Bool :=
  match u with
  | .armed => (.locked, true)
  | .half => (.locked, false)
  | .locked => (.locked, false)

/-- The unlock sequence of one port operation: lock, write both keys, strobe (R147). -/
def unlockSequence (pair : KeyPair) (k1 k2 : Byte) : UState × Bool :=
  unlockStrobe (unlockWrite pair (unlockWrite pair .locked k1) k2)

/-- Whether the sequence honors the operation (R147). -/
def honored (pair : KeyPair) (s : State) : Bool := (unlockSequence pair s.k1 s.k2).2

end Sys2Proof.Machine
end

