-- ==== Sys2Proof/Machine/Ops.lean ====
section
/-! DEFINITION. The named operations every command is written from: the frame buffer and the keys, the port primitives of the memories
(20_memory.md R56 to R63), the end of a command and its abort (00_scope.md R13), and how a command's port operations run, one by one and all together. -/

namespace Sys2Proof.Machine

/-! ## Frame buffer and unlock-key registers -/

/-- `buf[j]`, if that byte holds a value (R11, R21). -/
def bufByte (s : State) (j : Nat) : Option Byte := s.buf.getD j none

/-- `buf[j] <- v` (R11, R22). -/
def bufSet (j : Nat) (v : Byte) (s : State) : State := { s with buf := s.buf.set j (some v) }

/-- `buf[j], buf[j+1], ... <- bytes`. -/
def bufSetList (j : Nat) : List Byte → State → State
  | [], s => s
  | v :: rest, s => bufSetList (j + 1) rest (bufSet j v s)

/-- The dispatch-start load of `K1`, `K2` from the frame (42_unlock_sequence.md R145). -/
def loadKeys (h : Header) (s : State) : State := { s with k1 := h.key1, k2 := h.key2 }

/-- `clear_keys()`: the registers and the echoed key bytes (R150, R152). -/
def clearKeys (s : State) : State := { s with k1 := 0, k2 := 0, buf := (s.buf.set 3 (some 0)).set 4 (some 0) }

/-! ## The end of a command -/

/-- `finish(status, len)`: the status byte, if any, the response length, and `DISPATCH -> XMIT` with the transmitter at the sync byte;
the command-local state holds no value any more (R13, R25, R28, R110, 43_dispatch_and_reads.md R165). -/
def finish (status : Option Byte) (len : Nat) (s : State) : State :=
  { s with
    buf     := match status with
               | some v => s.buf.set 9 (some v)
               | none => s.buf
    respLen := some len
    txIndex := some .sync
    loc     := none
    phase   := .xmit }

/-- `abort(ERROR_ADDRESS_OUT_OF_RANGE)`: the block's only error path inside a command. It saves nothing and goes nowhere: the status byte
and the response length are all of it, and no port operation follows (R13, R134, 60_exceptions.md R243). -/
def abortOutOfRange (s : State) : State := finish (some statusOutOfRange) 10 s

/-- The normal end of a mutating command: clear the keys, status `0x01`, length 10 (R150, R200). -/
def completeMutation (s : State) : State := finish (some statusSuccess) 10 (clearKeys s)

/-! ## Port primitives -/

/-- The durable bytes of a space. -/
def spaceOf (sp : Space) (s : State) : Memory :=
  match sp with
  | .flash => s.flash
  | .ee => s.ee
  | .cfg => s.cfg

/-- The EEPROM write in progress, if the EEPROM is busy with one (R62). -/
def eeWriting (s : State) : Option EEWrite := s.eeBusy.bind EEBusy.write

/-- Whether the EEPROM is writing this address (R63). -/
def eeBusyAt (a : Nat) (s : State) : Bool :=
  match eeWriting s with
  | some w => w.addr.toNat == a
  | none => false

/-- Whether a read returns a draw: the address is not implemented (R56), or it is an EEPROM byte being written (R63). -/
def readIsDraw (sp : Space) (a : Nat) (s : State) : Bool :=
  !implemented s.params sp a || (sp == .ee && eeBusyAt a s)

/-- The byte `MemRead(S, a, 1)` returns (R56). -/
def memValue (sp : Space) (a : Nat) (s : State) : Byte :=
  if readIsDraw sp a s then Config.freeByte s.draws else Memory.read (spaceOf sp s) a

/-- What `MemRead(S, a, 1)` leaves: nothing but the model's count of draws (R56, R65). -/
def afterRead (sp : Space) (a : Nat) (s : State) : State :=
  { s with draws := if readIsDraw sp a s then s.draws + 1 else s.draws }

/-- `BufWrite(FLASH, a, v)` (R59). -/
def bufWrite (a : Addr) (v : Byte) (s : State) : State := { s with rowBuf := cellsInsert s.rowBuf a.toNat v }

/-- The entries of the row buffer for `[lo, hi)` after a commit that was not honored: `STALE_ROW_BUFFER` (R60, U6). -/
def staleAfterUnhonored (mode : StaleRowBuffer) (lo hi : Nat) (c : Cells) : Cells :=
  match mode with
  | .kept => c
  | .dropped => cellsOutside lo hi c

/-- The row buffer after a Write Flash aborted in its loop: `STALE_ROW_BUFFER` (R277, U6; log 15). -/
def staleAfterAbort (mode : StaleRowBuffer) (c : Cells) : Cells :=
  match mode with
  | .kept => c
  | .dropped => []

/-- `Commit(FLASH, row, pair)` (R60): one unlock sequence; if honored, the row's buffered bytes become durable and leave the buffer. -/
def commitFlash (row : Addr) (pair : KeyPair) (s : State) : State :=
  { s with
    ustate := (unlockSequence pair s.k1 s.k2).1
    flash  := if honored pair s then
                Memory.commitRange s.params.flashProgram row.toNat (row.toNat + s.params.w) s.rowBuf s.flash
              else s.flash
    rowBuf := if honored pair s then cellsOutside row.toNat (row.toNat + s.params.w) s.rowBuf
              else staleAfterUnhonored s.params.staleRowBuffer row.toNat (row.toNat + s.params.w) s.rowBuf }

/-- `EraseRow(row, pair)` (R61): one unlock sequence; if honored, the `E` bytes of the row become the fill pattern. -/
def eraseRow (row : Addr) (pair : KeyPair) (s : State) : State :=
  { s with
    ustate := (unlockSequence pair s.k1 s.k2).1
    flash  := if honored pair s then Memory.eraseRange s.flash row.toNat (row.toNat + s.params.e) else s.flash }

/-- The EEPROM with the write in progress, if there is one, complete (R62). -/
def eeAfterBusy (s : State) : Memory :=
  match eeWriting s with
  | some w => Memory.write s.ee w.addr.toNat w.val
  | none => s.ee

/-- The busy condition ends: the byte holds its value (R62). -/
def completeEE (s : State) : State := { s with ee := eeAfterBusy s, eeBusy := none }

/-- `EEWrite(a, v, pair)` (R62): one unlock sequence; if honored, the EEPROM is busy for a drawn number of steps. -/
def eeWrite (a : Half) (v : Byte) (pair : KeyPair) (s : State) : State :=
  { s with
    ustate := (unlockSequence pair s.k1 s.k2).1
    eeBusy := if honored pair s then some ⟨some ⟨a, v⟩, Config.freeBusy s.draws⟩ else s.eeBusy
    draws  := if honored pair s then s.draws + 1 else s.draws }

/-- `CfgWrite(a, v)` (R63). -/
def cfgWrite (a : Addr) (v : Byte) (s : State) : State := { s with cfgRec := cellsInsert s.cfgRec a.toNat v }

/-- The config words with the byte recorded for `a`, if there is one, durable (R63). -/
def cfgAfterCommit (a : Nat) (s : State) : Memory :=
  match cellsFind s.cfgRec a with
  | some v => Memory.write s.cfg a v
  | none => s.cfg

/-- `Commit(CFG, a, pair)` (R63; log 16). -/
def commitCfg (a : Addr) (pair : KeyPair) (s : State) : State :=
  { s with
    ustate := (unlockSequence pair s.k1 s.k2).1
    cfg    := if honored pair s then cfgAfterCommit a.toNat s else s.cfg
    cfgRec := if honored pair s then cellsOutside a.toNat (a.toNat + 1) s.cfgRec else s.cfgRec }

/-- The command is in `DISPATCH` where its command-local state says (R27, R28). -/
def suspend (l : Loc) (s : State) : State := { s with loc := some l }

/-! ## Time outside the block -/

/-- One step nearer to the device reset the environment will make, if it will (R260; log 8). -/
def tickReset (s : State) : State := { s with resetAfter := s.resetAfter.map (· - 1) }

/-- Whether the busy condition ends with this step: one that never ends does not (R62; log 6). -/
def eeEnds (s : State) : Bool :=
  match s.eeBusy with
  | some b => !s.eeStuck && b.left == 0
  | none => false

/-- The busy condition one step later, where it has not ended (R62). -/
def eeShortened (s : State) : Option EEBusy :=
  s.eeBusy.map (fun b => if s.eeStuck then b else { b with left := b.left - 1 })

/-- One step of the EEPROM's busy condition: it shortens, and at its end the byte being written holds its value (R62; log 6). -/
def tickEE (s : State) : State :=
  { s with
    ee     := if eeEnds s then eeAfterBusy s else s.ee
    eeBusy := if eeEnds s then none else eeShortened s }

/-- What one step of the block lets happen outside it. -/
def tick (s : State) : State := tickReset (tickEE s)

/-! ## The port operations of a command, one by one and all together -/

/-- How one port operation of a command ends, its check before it included: the command is at its next operation, it has aborted with `0xFE`,
or it stays where it is because the port is not ready. -/
inductive Ctl where
  | go (l : Loc) (s : State)
  | abort (s : State)
  | stop (s : State)
  deriving DecidableEq, Repr

/-- What the dispatch start of a command leads to (43_dispatch_and_reads.md R165): its port operations, its end where it has none to perform,
or nothing where the term is no request. -/
inductive Start where
  | loop (l : Loc) (s : State)
  | ended (s : State)
  | refused (r : Refusal)
  deriving DecidableEq, Repr

/-- The command-local state at the start of a loop (R28). -/
def startLoc (cur : Addr) (n : Nat) (pair : Option KeyPair) : Loc := ⟨cur, 0, n, pair, 0, false⟩

/-- The command-local state of the next element. -/
def nextLoc (cur : Addr) (l : Loc) : Loc := { l with cur := cur, i := l.i + 1, second := false }

/-- The command-local state between the two port operations of an element. -/
def secondNext (l : Loc) : Loc := { l with second := true }

/-- A command that starts with `n` elements from `cur` on (R165 (1), R28). -/
def startLoop (h : Header) (cur : Addr) (n : Nat) (pair : Option KeyPair) (s : State) : Start :=
  .loop (startLoc cur n pair) (loadKeys h s)

/-- A command that a check refuses at its start (41_address_guard.md R127, R131). -/
def startAbort (h : Header) (s : State) : Start := .ended (abortOutOfRange (loadKeys h s))

/-- A port operation once its port is ready: a busy EEPROM leaves busy, unless it never does (R62; log 6). -/
def whenReady (op : Loc → State → Ctl) (l : Loc) (s : State) : Ctl :=
  match op l s with
  | .go l' s' => .go l' s'
  | .abort s' => .abort s'
  | .stop s' => if s.eeStuck then .stop s' else op l (completeEE s)

/-- All port operations of one element, one or two, in order (R66). -/
def element (op : Loc → State → Ctl) (l : Loc) (s : State) : Ctl :=
  match whenReady op { l with second := false } s with
  | .go l' s' => if l'.second then op l' s' else .go l' s'
  | .abort s' => .abort s'
  | .stop s' => .stop s'

/-- `for i in 0 .. n-1` (44_writes_and_control.md, preamble): one element at a time, upwards. -/
def runLoop (body : Loc → State → Ctl) : Nat → Loc → State → Ctl
  | 0, l, s => .go l s
  | k + 1, l, s =>
    match body l s with
    | .go l' s' => runLoop body k l' s'
    | .abort s' => .abort s'
    | .stop s' => .stop s'

/-- The elements of a command from where its command-local state stands (R28). -/
def continueLoop (op : Loc → State → Ctl) (l : Loc) (s : State) : Ctl := runLoop (element op) (l.n - l.i) l s

/-- The end of a command after its elements: its normal end, its abort, or the state it stays in. -/
def endCommand (r : Ctl) (normal : Loc → State → State) : Host.Outcome State Fault Refusal :=
  match r with
  | .go l s => .next (normal l s)
  | .abort s => .next (abortOutOfRange s)
  | .stop s => .next s

/-- A whole command: its start, all its port operations, its end. -/
def runCommand (start : Start) (op : Loc → State → Ctl) (normal : Loc → State → State) : Host.Outcome State Fault Refusal :=
  match start with
  | .loop l s => endCommand (continueLoop op l s) normal
  | .ended s => .next s
  | .refused r => .refused r

/-- One port operation of a command, in `DISPATCH` (00_scope.md R9). After the last one, or where there is none, the command ends; where the
port is not ready the block holds, and the EEPROM's busy condition is one step on (60_exceptions.md R247; log 6, 9). DESIGN CHOICE (safe, log
7): a per-element check that fails after earlier operations (R126, R201) ends the command in a step of its own, which performs no port
operation. -/
def operate (op : Loc → State → Ctl) (normal : Loc → State → State) (l : Loc) (s : State) : Host.Outcome State Fault Refusal :=
  if l.i < l.n then
    match op l s with
    | .go l' s' => if l'.i < l'.n then .next (suspend l' s') else .next (normal l' s')
    | .abort s' => .next (abortOutOfRange s')
    | .stop s' => .next (tickEE s')
  else .next (normal l s)

end Sys2Proof.Machine
end

