-- ==== Sys2Proof/Machine/Boot.lean ====
section
/-! DEFINITION. The device reset and the boot decision (10_state.md R35; 20_memory.md R64; 70_reset_and_hazards.md R260 to R272). -/

namespace Sys2Proof.Machine

/-- Every piece of block state at its reset value (R35, R260). -/
def blockReset (s : State) : State :=
  { s with
    buf          := List.replicate (9 + s.params.w) none
    k1           := 0
    k2           := 0
    resetPending := false
    phase        := .recv
    rxCount      := 0
    rxExpected   := 9
    loc          := none
    respLen      := none
    txIndex      := none
    ustate       := .locked
    resetRequest := false }

/-- The EEPROM's busy condition after a reset: whether there is one, and how long it lasts, is free; the write in progress, if there was one,
goes on under it and is lost without it (R64, U14; log 12). -/
def eeBusyAfterReset (s : State) : Option EEBusy := (Config.freeEEBusy (s.draws + 1)).map (fun left => ⟨eeWriting s, left⟩)

/-- The collaborators after a reset: every durable byte survives; the row buffer and the busy condition are free (R64, U14; log 12). -/
def collaboratorsReset (s : State) : State :=
  { s with
    rowBuf := cellsOf ((Config.freeRowBuffer s.draws).map (fun c => (c.1.toNat, c.2)))
    eeBusy := eeBusyAfterReset s
    draws  := s.draws + 2 }

/-- The environment after its reset: it is done, and the transport holds no request byte from before (log 12). -/
def environmentReset (s : State) : State := { s with resetAfter := none, rxQueue := [] }

/-- A little-endian word of `n` bytes of flash, read through the flash port. -/
def readFlashWord : Nat → Addr → State → Nat × State
  | 0, _, s => (0, s)
  | n + 1, a, s =>
    let rest := readFlashWord n (nextAddr a) (afterRead .flash a.toNat s)
    ((memValue .flash a.toNat s).toNat + 256 * rest.1, rest.2)

/-- `read_application_reset_vector()`: `APP_VECTOR_WIDTH` bits at `APP_VECTOR_ADDR` (R270; log 13). -/
def readAppVector (s : State) : Nat × State :=
  let r := readFlashWord ((s.params.appVectorWidth + 7) / 8) s.params.appVectorAddr s
  (r.1 % 2 ^ s.params.appVectorWidth, r.2)

/-- The boot decision (R271): no application, or the request line asserted, and the block runs; else the application does. -/
def bootDecision (s : State) : State :=
  let r := readAppVector s
  { r.2 with
    owner := if r.1 = 2 ^ s.params.appVectorWidth - 1 then .block
             else if s.requestLine then .block else .application }

/-- The environment resets the device (R260, R266, R271). -/
def deviceReset (s : State) : State := bootDecision (environmentReset (collaboratorsReset (blockReset s)))

end Sys2Proof.Machine
end

