-- ==== Sys2Proof/Machine/Codec.lean ====
section
/-! DEFINITION. The frame codec around a dispatch: receiving a request byte by byte, fetching the frame the dispatcher runs, transmitting
the response, and the idle point (40_frame_codec.md; 70_reset_and_hazards.md R265). -/

namespace Sys2Proof.Machine

/-! ## Receive -/

/-- `RecvByte()`: the transport delivers its next byte (R101, 10_state.md R33). -/
def takeByte (rest : List Byte) (s : State) : State := { s with rxQueue := rest }

/-- `rx_expected <- n` (R102). -/
def setExpected (n : Nat) (s : State) : State := { s with rxExpected := n }

/-- `phase <- DISPATCH` (R104). -/
def enterDispatch (s : State) : State := { s with phase := .dispatch }

/-- The byte `b` into the frame buffer, or discarded past its end (R101, R103). -/
def storeByte (b : Byte) (s : State) : State :=
  { s with
    buf     := if s.rxCount < 9 + s.params.w then s.buf.set s.rxCount (some b) else s.buf
    rxCount := s.rxCount + 1 }

/-- The length rule, once three bytes are in (R102); `none` where one of them holds no value. -/
def lengthRule (s : State) : Option State :=
  if s.rxCount = 3 then
    match bufByte s 0, bufByte s 1, bufByte s 2 with
    | some code, some l0, some l1 => some (setExpected (requestLength code l0 l1) s)
    | _, _, _ => none
  else some s

/-- The frame is complete: `RECV -> DISPATCH` (R104). -/
def frameComplete (s : State) : State := if s.rxCount = s.rxExpected then enterDispatch s else s

/-- Step `RX`: accept one request byte; with none to accept the block holds (R101, R106, 60_exceptions.md R247). -/
def recvStep (s : State) : Host.Outcome State Fault Refusal :=
  match s.rxQueue with
  | [] => .next (tick s)
  | b :: rest =>
    match lengthRule (storeByte b (takeByte rest s)) with
    | some s1 => .next (tick (frameComplete s1))
    | none => .fault .bufNoValue

/-! ## Fetch -/

/-- The leading bytes of the frame buffer that hold a value. -/
def leadingValues : List (Option Byte) → List Byte
  | some b :: rest => b :: leadingValues rest
  | _ => []

/-- The request in the frame buffer (R104). -/
def fetchInstr (s : State) : Except DecodeError Instr :=
  match decode s.params.w (leadingValues s.buf) with
  | .ok (i, _) => .ok i
  | .error e => .error e

/-! ## Transmit and the idle point -/

/-- Where the block is once its response is sent: a pending reset keeps it from receiving (R265). -/
def phaseAfterResponse (pending : Bool) : Phase :=
  match pending with
  | true => .xmit
  | false => .recv

/-- The idle point, after the last byte of a response: the receive counters start again, and so does receiving, unless a reset is pending
(R265, R26, R100). -/
def idlePoint (s : State) : State :=
  { s with
    respLen    := none
    txIndex    := none
    rxCount    := 0
    rxExpected := 9
    phase      := phaseAfterResponse s.resetPending }

/-- `phase <- RESET_HOLD; assert reset_request`: the pending reset is acted on, a step of its own (R265; 00_scope.md R9). -/
def assertReset (s : State) : State := { s with phase := .resetHold, resetRequest := true }

/-- `tx_index <- t` (R110). -/
def setTxIndex (t : Nat) (s : State) : State := { s with txIndex := some (.byte t) }

/-- After a byte has been accepted: on to frame byte `t`, or to the idle point after the last of `n` (R110, R265). -/
def advanceTx (n t : Nat) (s : State) : State :=
  if t < n then setTxIndex t s else idlePoint s

/-- `SendByte(v)`, accepted (R110). -/
def sendByte (v : Byte) (s : State) : State := { s with sent := s.sent ++ [v] }

/-- Step `TX`: send the sync byte or a byte of the frame buffer; while the transport does not accept the block holds (R110, R247). With the
response sent and a reset pending, the step asserts the reset (R265). -/
def xmitStep (s : State) : Host.Outcome State Fault Refusal :=
  match s.respLen, s.txIndex with
  | some n, some ix =>
    if s.txReady then
      match ix with
      | .sync => .next (tick (advanceTx n 0 (sendByte s.params.syncByte s)))
      | .byte t =>
        match bufByte s t with
        | some b => .next (tick (advanceTx n (t + 1) (sendByte b s)))
        | none => .fault .bufNoValue
    else .next (tick s)
  | none, none => if s.resetPending then .next (tick (assertReset s)) else .fault .localNoValue
  | _, _ => .fault .localNoValue

end Sys2Proof.Machine
end

