-- ==== Sys2Proof/Machine/Control.lean ====
section
/-! DEFINITION. Reset Device and the default arm (44_writes_and_control.md R224 to R228): each ends at its dispatch start, with no port
operation. -/

namespace Sys2Proof.Machine

/-- `reset_pending <- 1` (R225, 10_state.md R24). -/
def setResetPending (s : State) : State := { s with resetPending := true }

/-- All of Reset Device: the reset is only requested; it is acted on at the idle point (R224, R225). -/
def resetDeviceEnd (h : Header) (s : State) : State := finish (some statusSuccess) 10 (setResetPending (loadKeys h s))

/-- `RESET_DEVICE` (R224, R225). -/
def execResetDevice (h : Header) (s : State) : Host.Outcome State Fault Refusal := .next (resetDeviceEnd h s)

/-- All of the default arm: status `0xFF` (R228). -/
def invalidEnd (_code : Byte) (h : Header) (s : State) : State := finish (some statusInvalid) 10 (loadKeys h s)

/-- `INVALID`, the default arm (R228). -/
def execInvalid (code : Byte) (h : Header) (s : State) : Host.Outcome State Fault Refusal := .next (invalidEnd code h s)

end Sys2Proof.Machine
end

