-- ==== Sys2Proof/Machine/Reads.lean ====
section
/-! DEFINITION. The read-class commands: Read Version, Read Flash, Read EE Data, Read Config, Calc Checksum (43_dispatch_and_reads.md). Each
is its dispatch start, one port operation, and its end. -/

namespace Sys2Proof.Machine

/-- One byte of a read: `buf[9+i] <- MemRead(S, cur, 1)` (R172, R175, R178). -/
def readOp (sp : Space) (next : Addr → Addr) (l : Loc) (s : State) : Ctl :=
  .go (nextLoc (next l.cur) l) (bufSet (9 + l.i) (memValue sp l.cur.toNat s) (afterRead sp l.cur.toNat s))

/-- The end of a read: response length `9 + n`, no status byte (R172, R175, R178, R84). -/
def finishRead (l : Loc) (s : State) : State := finish none (9 + l.n) s

/-- The address of the `k`-th of the six bytes Read Version reads through the config port (R170). -/
def versionAddr (p : Params) (k : Nat) : Addr :=
  match k with
  | 0 => p.devidAddr
  | 1 => p.devidAddr + 1
  | k + 2 => p.idlocAddr + BitVec.ofNat 24 k

/-- The index in the frame buffer that byte goes to (R170). -/
def versionSlot (k : Nat) : Nat :=
  match k with
  | 0 => 15
  | 1 => 16
  | k + 2 => 21 + k

/-- One byte of Read Version that is read from the config words (R170). -/
def versionOp (l : Loc) (s : State) : Ctl :=
  .go (nextLoc (versionAddr s.params (l.i + 1)) l)
    (bufSet (versionSlot l.i) (memValue .cfg l.cur.toNat s) (afterRead .cfg l.cur.toNat s))

/-- The other bytes of Read Version's payload, in the layout of R170 (D13, D14), and response length 25. DESIGN CHOICE (safe, log 7): these ten
bytes, which come from no port, are all written in the step of the last config read. -/
def finishVersion (_ : Loc) (s : State) : State :=
  finish none 25
    (bufSetList 17 [0x00, 0x00, BitVec.ofNat 8 s.params.e, BitVec.ofNat 8 s.params.w]
      (bufSetList 9 [s.params.versionMinor, s.params.versionMajor, lowByte s.params.maxPacketSize, highByte s.params.maxPacketSize,
        0x00, 0x00] s))

/-- The dispatch start of Read Version: no check (R170). -/
def startReadVersion (h : Header) (s : State) : Start := startLoop h (versionAddr s.params 0) 6 none s

/-- `READ_VERSION` (R170). -/
def execReadVersion (h : Header) (s : State) : Host.Outcome State Fault Refusal :=
  runCommand (startReadVersion h s) versionOp finishVersion

/-- The dispatch start of Read Flash: capacity check; no guard, no unlock (R172). -/
def startReadFlash (h : Header) (s : State) : Start :=
  if overCapacity s.params h then startAbort h s else startLoop h h.addr h.dlen.toNat none s

/-- `READ_FLASH` (R172). -/
def execReadFlash (h : Header) (s : State) : Host.Outcome State Fault Refusal :=
  runCommand (startReadFlash h s) (readOp .flash nextAddr) finishRead

/-- The dispatch start of Read EE Data: capacity check; 16-bit address; no guard, no unlock, no wait (R175). -/
def startReadEEData (h : Header) (s : State) : Start :=
  if overCapacity s.params h then startAbort h s else startLoop h (eeCursor (eeAddr h)) h.dlen.toNat none s

/-- `READ_EE_DATA` (R175). -/
def execReadEEData (h : Header) (s : State) : Host.Outcome State Fault Refusal :=
  runCommand (startReadEEData h s) (readOp .ee nextEERead) finishRead

/-- The dispatch start of Read Config: capacity check, then the start address against the floor only (R178, D24). -/
def startReadConfig (h : Header) (s : State) : Start :=
  if overCapacity s.params h then startAbort h s
  else if aboveFloor s.params h.addr then startLoop h h.addr h.dlen.toNat none s
  else startAbort h s

/-- `READ_CONFIG` (R178). -/
def execReadConfig (h : Header) (s : State) : Host.Outcome State Fault Refusal :=
  runCommand (startReadConfig h s) (readOp .cfg nextAddr) finishRead

/-- One byte of the checksum (R181). -/
def checksumOp (l : Loc) (s : State) : Ctl :=
  let b := memValue .flash l.cur.toNat s
  .go { nextLoc (nextAddr l.cur) l with sum := sumByte s.params.checksumMode l.i l.sum b } (afterRead .flash l.cur.toNat s)

/-- The response of Calc Checksum: the sum little-endian in `buf[9]`, `buf[10]`, length 11, no status byte (R181, D11). -/
def finishChecksum (l : Loc) (s : State) : State :=
  finish none 11 (bufSet 10 (highByte l.sum) (bufSet 9 (lowByte l.sum) s))

/-- The dispatch start of Calc Checksum: no guard, no capacity check, no unlock (R181, R89). -/
def startCalcChecksum (h : Header) (s : State) : Start := startLoop h h.addr (checksumCount s.params h) none s

/-- `CALC_CHECKSUM` (R181, R89). -/
def execCalcChecksum (h : Header) (s : State) : Host.Outcome State Fault Refusal :=
  runCommand (startCalcChecksum h s) checksumOp finishChecksum

end Sys2Proof.Machine
end

