-- ==== Sys2Proof/Machine/Writes.lean ====
section
/-! DEFINITION. The mutating commands: Write Flash, Erase Flash, Write EE Data, Write Config (44_writes_and_control.md). Each is its dispatch
start, its port operations, and its end. -/

namespace Sys2Proof.Machine

/-- Payload byte `i` of a request whose payload is at least that long. -/
def payloadByte (data : List Byte) (i : Nat) : Byte := data.getD i 0

/-- The normal end of a mutating command: keys cleared and `0x01` (R150, R200). -/
def finishMutation (_ : Loc) (s : State) : State := completeMutation s

/-- What an abort in the loop of a Write Flash leaves in the row buffer (R277, U6; log 15). -/
def dropStale (s : State) : State := { s with rowBuf := staleAfterAbort s.params.staleRowBuffer s.rowBuf }

/-- A port operation of a Write Flash (R200, R203): guard and buffer, and after that, at a commit point, commit. -/
def writeFlashOp (pair : KeyPair) (data : List Byte) (l : Loc) (s : State) : Ctl :=
  if l.second then .go (nextLoc (nextAddr l.cur) l) (commitFlash (writeRow s.params l.cur) pair s)
  else if inFlash s.params l.cur then
    .go (if commitPoint s.params l.cur l.i l.n then secondNext l else nextLoc (nextAddr l.cur) l)
      (bufWrite l.cur (payloadByte data l.i) s)
  else .abort (dropStale s)

/-- The dispatch start of Write Flash: capacity check, then the start address against the floor (R200). -/
def startWriteFlash (h : Header) (data : List Byte) (s : State) : Start :=
  if overCapacity s.params h then startAbort h s
  else if data.length < h.dlen.toNat then .refused .illFormedPayload
  else if aboveFloor s.params h.addr then startLoop h h.addr h.dlen.toNat (some s.params.nvmKey) s
  else startAbort h s

/-- `WRITE_FLASH` (R200 to R203). -/
def execWriteFlash (h : Header) (data : List Byte) (s : State) : Host.Outcome State Fault Refusal :=
  runCommand (startWriteFlash h data s) (writeFlashOp s.params.nvmKey data) finishMutation

/-- One row of an Erase Flash (R206): guard, erase. -/
def eraseFlashOp (pair : KeyPair) (l : Loc) (s : State) : Ctl :=
  if inFlash s.params l.cur then .go (nextLoc (nextRow s.params l.cur) l) (eraseRow l.cur pair s)
  else .abort s

/-- The dispatch start of Erase Flash: the start is rounded down to its erase row and checked against the floor; no capacity check
(R206, R207). -/
def startEraseFlash (h : Header) (s : State) : Start :=
  if aboveFloor s.params (eraseRowOf s.params h.addr) then
    startLoop h (eraseRowOf s.params h.addr) h.dlen.toNat (some s.params.nvmKey) s
  else startAbort h s

/-- `ERASE_FLASH` (R206, R207). -/
def execEraseFlash (h : Header) (s : State) : Host.Outcome State Fault Refusal :=
  runCommand (startEraseFlash h s) (eraseFlashOp s.params.nvmKey) finishMutation

/-- A port operation of a Write EE Data (R211, R213): `WaitEEReady`, which holds while the EEPROM is busy, and after that the write. -/
def writeEEOp (pair : KeyPair) (data : List Byte) (l : Loc) (s : State) : Ctl :=
  if l.second then .go (nextLoc (nextEEWrite s.params l.cur) l) (eeWrite (eeOfCursor l.cur) (payloadByte data l.i) pair s)
  else if s.eeBusy.isSome then .stop (suspend l s)
  else .go (secondNext l) s

/-- The dispatch start of Write EE Data: capacity check; no guard (R211). -/
def startWriteEEData (h : Header) (data : List Byte) (s : State) : Start :=
  if overCapacity s.params h then startAbort h s
  else if data.length < h.dlen.toNat then .refused .illFormedPayload
  else startLoop h (eeCursor (eeAddr h)) h.dlen.toNat (some s.params.nvmKey) s

/-- `WRITE_EE_DATA` (R211 to R213). -/
def execWriteEEData (h : Header) (data : List Byte) (s : State) : Host.Outcome State Fault Refusal :=
  runCommand (startWriteEEData h data s) (writeEEOp s.params.nvmKey data) finishMutation

/-- A port operation of a Write Config (R216): guard and record, and after that commit. -/
def writeConfigOp (pair : KeyPair) (data : List Byte) (l : Loc) (s : State) : Ctl :=
  if l.second then .go (nextLoc (nextAddr l.cur) l) (commitCfg l.cur pair s)
  else if inCfg s.params l.cur then .go (secondNext l) (cfgWrite l.cur (payloadByte data l.i) s)
  else .abort s

/-- The dispatch start of Write Config: capacity check, then the start address against the floor; the pair is selected once, from the start
address (R216, R217). -/
def startWriteConfig (h : Header) (data : List Byte) (s : State) : Start :=
  if overCapacity s.params h then startAbort h s
  else if data.length < h.dlen.toNat then .refused .illFormedPayload
  else if aboveFloor s.params h.addr then startLoop h h.addr h.dlen.toNat (some (configPair s.params h.addr)) s
  else startAbort h s

/-- `WRITE_CONFIG` (R216, R217). -/
def execWriteConfig (h : Header) (data : List Byte) (s : State) : Host.Outcome State Fault Refusal :=
  runCommand (startWriteConfig h data s) (writeConfigOp (configPair s.params h.addr) data) finishMutation

end Sys2Proof.Machine
end

