-- ==== Sys2Proof/Machine/Dispatch.lean ====
section
/-! DEFINITION. The command dispatch multiplexer (43_dispatch_and_reads.md R165): one arm per row of the opcode table. -/

namespace Sys2Proof.Machine

def exec (i : Instr) (s : State) : Host.Outcome State Fault Refusal :=
  match i with
  | .readVersion h => Sys2Proof.Machine.execReadVersion h s
  | .readFlash h => Sys2Proof.Machine.execReadFlash h s
  | .writeFlash h data => Sys2Proof.Machine.execWriteFlash h data s
  | .eraseFlash h => Sys2Proof.Machine.execEraseFlash h s
  | .readEEData h => Sys2Proof.Machine.execReadEEData h s
  | .writeEEData h data => Sys2Proof.Machine.execWriteEEData h data s
  | .readConfig h => Sys2Proof.Machine.execReadConfig h s
  | .writeConfig h data => Sys2Proof.Machine.execWriteConfig h data s
  | .calcChecksum h => Sys2Proof.Machine.execCalcChecksum h s
  | .resetDevice h => Sys2Proof.Machine.execResetDevice h s
  | .invalid code h => Sys2Proof.Machine.execInvalid code h s

end Sys2Proof.Machine
end

