-- ==== Sys2Proof/Machine/Operate.lean ====
section
/-! DEFINITION. A command run one port operation at a time (00_scope.md R9): its dispatch start, and how it goes on from its command-local
state (10_state.md R27, R28). -/

namespace Sys2Proof.Machine

/-- The dispatch start of a request (43_dispatch_and_reads.md R165). -/
def startOf (i : Instr) (s : State) : Start :=
  match i with
  | .readVersion h => startReadVersion h s
  | .readFlash h => startReadFlash h s
  | .writeFlash h data => startWriteFlash h data s
  | .eraseFlash h => startEraseFlash h s
  | .readEEData h => startReadEEData h s
  | .writeEEData h data => startWriteEEData h data s
  | .readConfig h => startReadConfig h s
  | .writeConfig h data => startWriteConfig h data s
  | .calcChecksum h => startCalcChecksum h s
  | .resetDevice h => .ended (resetDeviceEnd h s)
  | .invalid code h => .ended (invalidEnd code h s)

/-- A mutating command goes on under the pair it selected at its start (42_unlock_sequence.md R148). -/
def withPair (l : Loc) (k : KeyPair → Host.Outcome State Fault Refusal) : Host.Outcome State Fault Refusal :=
  match l.pair with
  | some pair => k pair
  | none => .fault .localNoValue

/-- The next port operation of a request. The two commands that end at their start have none. -/
def operateOn (i : Instr) (l : Loc) (s : State) : Host.Outcome State Fault Refusal :=
  match i with
  | .readVersion _ => operate versionOp finishVersion l s
  | .readFlash _ => operate (readOp .flash nextAddr) finishRead l s
  | .writeFlash _ data => withPair l (fun pair => operate (writeFlashOp pair data) finishMutation l s)
  | .eraseFlash _ => withPair l (fun pair => operate (eraseFlashOp pair) finishMutation l s)
  | .readEEData _ => operate (readOp .ee nextEERead) finishRead l s
  | .writeEEData _ data => withPair l (fun pair => operate (writeEEOp pair data) finishMutation l s)
  | .readConfig _ => operate (readOp .cfg nextAddr) finishRead l s
  | .writeConfig _ data => withPair l (fun pair => operate (writeConfigOp pair data) finishMutation l s)
  | .calcChecksum _ => operate checksumOp finishChecksum l s
  | .resetDevice _ => .fault .localNoValue
  | .invalid _ _ => .fault .localNoValue

/-- The first step of a request that runs one port operation at a time: its dispatch start and, if it has one, its first operation. -/
def openRequest (i : Instr) (s : State) : Host.Outcome State Fault Refusal :=
  match startOf i s with
  | .loop l t => operateOn i l t
  | .ended t => .next t
  | .refused r => .refused r

end Sys2Proof.Machine
end

