-- ==== Sys2Proof/Machine/Run.lean ====
section
/-! DEFINITION. What one step of the block does in each phase (10_state.md R25, R27), and a frame placed in the buffer as a whole. -/

namespace Sys2Proof.Machine

/-- `phase = DISPATCH`: the request in the frame buffer runs one port operation at a time (00_scope.md R9, 43_dispatch_and_reads.md R165); or
all of it at once, where that pace is set and no device reset is to come (log 7). -/
def dispatchStep (s : State) : Host.Outcome State Fault Refusal :=
  match fetchInstr s with
  | .error _ => .fault .bufNoValue
  | .ok i =>
    match s.loc with
    | some l => operateOn i l (tickReset s)
    | none => if s.pace = .request ∧ s.resetAfter = none then exec i s else openRequest i (tickReset s)

/-- One step of the block by its phase (R25); in `RESET_HOLD` it takes none until the reset (R266). -/
def blockStep (s : State) : Host.Outcome State Fault Refusal :=
  match s.phase with
  | .recv => recvStep s
  | .dispatch => dispatchStep s
  | .xmit => xmitStep s
  | .resetHold => .next (tick s)

/-- The frame buffer with a frame's bytes from index 0; bytes past its end are discarded (R103). -/
def loadFrame : List Byte → List (Option Byte) → List (Option Byte)
  | b :: bytes, _ :: rest => some b :: loadFrame bytes rest
  | [], rest => rest
  | _ :: _, [] => []

end Sys2Proof.Machine
end

