-- ==== Sys2Proof/Machine/Step.lean ====
section
/-! DEFINITION. One step of the machine: a byte received, a port operation, a byte sent, the reset asserted, a device reset, or a hold
(00_scope.md R9; 10_state.md R25, R27). -/

namespace Sys2Proof.Machine

/-- One step of the machine. A device reset that is due comes first, in any phase (R260); while the application runs the block takes no
step (R271). -/
def step (s : State) : Host.Outcome State Fault Refusal :=
  if s.resetAfter = some 0 then .next (deviceReset s)
  else
    match s.owner with
    | .block => blockStep s
    | .application => .next (tick s)

/-- `s` with the request whose bits are `w` received and the block at its dispatch, at the pace of whole requests, so that the next step runs
it: the block's receiver does the same byte by byte (R101 to R104; log 20). -/
def State.withFetchWord (s : State) (nbits w : Nat) : State :=
  { s with
    buf        := loadFrame (frameOfWord nbits w) s.buf
    rxCount    := (frameOfWord nbits w).length
    rxExpected := (frameOfWord nbits w).length
    phase      := .dispatch
    loc        := none
    resetAfter := none
    owner      := .block
    pace       := .request }

end Sys2Proof.Machine
end

