-- ==== Sys2Proof/Machine/Env.lean ====
section
/-! DEFINITION. The moves of the outside between two steps (70_reset_and_hazards.md R280; 10_state.md R33). No step calls them. -/

namespace Sys2Proof.Machine

/-- A request is being executed, or its response is still being sent (R280, U12). -/
def answering (s : State) : Bool :=
  match s.owner, s.phase with
  | .block, .dispatch => true
  | .block, .xmit => s.respLen.isSome
  | .block, .recv => false
  | .block, .resetHold => false
  | .application, _ => false

/-- The host hands request bytes to the transport, which holds them until the receiver takes them or a device reset loses them (log 12). The
model gives a host that sends before its last request has been answered no move (R280, D35, U12; log 11). -/
def hostSend (bytes : List Byte) (s : State) : Host.Outcome State Fault Refusal :=
  if answering s then .refused .hostSendsDuringResponse else .next { s with rxQueue := s.rxQueue ++ bytes }

/-- The transport starts or stops accepting response bytes (R110, R247). -/
def setTransportReady (ready : Bool) (s : State) : State := { s with txReady := ready }

/-- The environment will reset the device after `k` more steps (R260). -/
def scheduleReset (k : Nat) (s : State) : State := { s with resetAfter := some k }

/-- The request line is asserted or not (R270). -/
def setRequestLine (asserted : Bool) (s : State) : State := { s with requestLine := asserted }

/-- The EEPROM stops or starts answering (R247 (c)). -/
def setEEStuck (stuck : Bool) (s : State) : State := { s with eeStuck := stuck }

/-- The EEPROM's busy condition ends now, between two steps, unless it never does (R62; log 6). -/
def endEEBusy (s : State) : State := if s.eeStuck then s else completeEE s

/-- How far a step goes in `DISPATCH` (00_scope.md R9; log 7). -/
def setPace (pace : Pace) (s : State) : State := { s with pace := pace }

end Sys2Proof.Machine
end

