-- ==== Sys2Proof/Safety.lean ====
section
/-! DEFINITION. The words the statements use: what a request leaves unchanged, how it answers, and the invariant of the machine. -/

namespace Sys2Proof.Safety

open Sys2Proof.Machine

/-! ## What a request leaves unchanged -/

/-- Every piece of block state that no request writes (10_state.md R22 to R31): the parameters, the receive counters, the unlock state
machine's resting state, the reset output. -/
def SameControl (s t : State) : Prop :=
  t.params = s.params ∧ t.rxCount = s.rxCount ∧ t.rxExpected = s.rxExpected ∧
  (s.ustate = .locked → t.ustate = .locked) ∧ t.resetRequest = s.resetRequest

/-- The ports and inputs of the environment, and the pace: no request writes them (R33). -/
def SamePorts (s t : State) : Prop :=
  t.rxQueue = s.rxQueue ∧ t.sent = s.sent ∧ t.txReady = s.txReady ∧ t.eeStuck = s.eeStuck ∧
  t.resetAfter = s.resetAfter ∧ t.requestLine = s.requestLine ∧ t.owner = s.owner ∧ t.pace = s.pace

/-- Every byte of a space reads as before. -/
def SameSpace (sp : Space) (s t : State) : Prop :=
  ∀ a, Memory.read (spaceOf sp t) a = Memory.read (spaceOf sp s) a

/-- The flash side: every byte, and the row buffer. -/
def SameFlash (s t : State) : Prop := SameSpace .flash s t ∧ t.rowBuf = s.rowBuf

/-- The EEPROM side: every byte, and the busy condition. -/
def SameEE (s t : State) : Prop := SameSpace .ee s t ∧ t.eeBusy = s.eeBusy

/-- The config side: every byte, and the recorded bytes. -/
def SameCfg (s t : State) : Prop := SameSpace .cfg s t ∧ t.cfgRec = s.cfgRec

/-- All of memory, for a request that stores nothing. -/
def SameMemory (s t : State) : Prop := SameFlash s t ∧ SameEE s t ∧ SameCfg s t

/-- Every byte of the frame buffer but those at the indices `p` names is as before. -/
def SameBufBut (p : Nat → Prop) (s t : State) : Prop := ∀ j, ¬p j → bufByte t j = bufByte s j

/-- What a step lets happen outside the block: the EEPROM's busy condition and the coming device reset, one step on (log 6, 8). -/
def TimePasses (s t : State) : Prop :=
  t.ee = (tickEE s).ee ∧ t.eeBusy = (tickEE s).eeBusy ∧ t.resetAfter = s.resetAfter.map (· - 1)

/-- The memories the step of time does not touch, the keys and the command's state: what receiving leaves unchanged (10_state.md R22, R23,
R28). -/
def SameBesidesCodec (s t : State) : Prop :=
  t.params = s.params ∧ t.k1 = s.k1 ∧ t.k2 = s.k2 ∧ t.resetPending = s.resetPending ∧ t.loc = s.loc ∧ t.ustate = s.ustate ∧
  SameFlash s t ∧ SameCfg s t ∧ t.txReady = s.txReady ∧ t.eeStuck = s.eeStuck ∧ t.requestLine = s.requestLine ∧
  t.owner = s.owner ∧ t.pace = s.pace

/-! ## Steps -/

/-- `k` steps of the machine, up to the first stop. -/
def runSteps : Nat → State → Host.Outcome State Fault Refusal
  | 0, s => .next s
  | k + 1, s =>
    match step s with
    | .next t => runSteps k t
    | .fault r => .fault r
    | .refused r => .refused r

/-- A port operation under the pair of a command-local state; a command without a pair performs none (42_unlock_sequence.md R148). -/
def underPair (l : Loc) (f : KeyPair → State → State) (s : State) : State :=
  match l.pair with
  | some pair => f pair s
  | none => s

/-- The one port operation of a step, at the address and under the pair of the command-local state (00_scope.md R9, R12; R170 to R217). A check
that fails performs none, but that a Write Flash may drop its stale entries with it (R60, log 15); a wait finds the EEPROM ready, or lets it
come one step nearer to that (20_memory.md R62, log 6). -/
def portOperation (i : Instr) (l : Loc) (s : State) : State :=
  match i with
  | .readVersion _ => afterRead .cfg l.cur.toNat s
  | .readFlash _ => afterRead .flash l.cur.toNat s
  | .writeFlash _ data =>
    if l.second then underPair l (commitFlash (writeRow s.params l.cur)) s
    else if inFlash s.params l.cur then bufWrite l.cur (data.getD l.i 0) s
    else dropStale s
  | .eraseFlash _ => if inFlash s.params l.cur then underPair l (eraseRow l.cur) s else s
  | .readEEData _ => afterRead .ee l.cur.toNat s
  | .writeEEData _ data =>
    if l.second then underPair l (eeWrite (eeOfCursor l.cur) (data.getD l.i 0)) s
    else if s.eeBusy.isSome then tickEE s
    else s
  | .readConfig _ => afterRead .cfg l.cur.toNat s
  | .writeConfig _ data =>
    if l.second then underPair l (commitCfg l.cur) s
    else if inCfg s.params l.cur then cfgWrite l.cur (data.getD l.i 0) s
    else s
  | .calcChecksum _ => afterRead .flash l.cur.toNat s
  | .resetDevice _ => s
  | .invalid _ _ => s

/-- What is next after a step of a request: the same wait again, the second operation of the same element, the element at a cursor, or
nothing, because a check has failed. -/
inductive NextUp where
  | wait
  | second
  | element (cur : Addr)
  | aborted
  deriving DecidableEq, Repr

/-- What is next after the step at a command-local state (R170 to R217). -/
def nextUp (i : Instr) (l : Loc) (s : State) : NextUp :=
  match i with
  | .readVersion _ => .element (versionAddr s.params (l.i + 1))
  | .readFlash _ => .element (l.cur + 1)
  | .writeFlash _ _ =>
    if l.second then .element (l.cur + 1)
    else if inFlash s.params l.cur then if commitPoint s.params l.cur l.i l.n then .second else .element (l.cur + 1)
    else .aborted
  | .eraseFlash _ => if inFlash s.params l.cur then .element (l.cur + BitVec.ofNat 24 s.params.e) else .aborted
  | .readEEData _ => .element (eeCursor (eeOfCursor l.cur + 1))
  | .writeEEData _ _ =>
    if l.second then .element (eeCursor (eeOfCursor l.cur + strideOf s.params.eeStride))
    else if s.eeBusy.isSome then .wait
    else .second
  | .readConfig _ => .element (l.cur + 1)
  | .writeConfig _ _ => if l.second then .element (l.cur + 1) else if inCfg s.params l.cur then .second else .aborted
  | .calcChecksum _ => .element (l.cur + 1)
  | .resetDevice _ => .aborted
  | .invalid _ _ => .aborted

/-- The collaborators' state is the same, and so is the count of draws. -/
def SameCollaborators (s t : State) : Prop :=
  t.flash = s.flash ∧ t.ee = s.ee ∧ t.cfg = s.cfg ∧ t.rowBuf = s.rowBuf ∧ t.cfgRec = s.cfgRec ∧ t.eeBusy = s.eeBusy ∧
  t.draws = s.draws

/-- The command is in `DISPATCH` with an operation to come, its keys as they were (10_state.md R27, R28). -/
def GoesOn (l : Loc) (s t : State) : Prop := t.phase = .dispatch ∧ t.loc = some l ∧ t.k1 = s.k1 ∧ t.k2 = s.k2

/-- The command has ended: the transmitter is to send its response (10_state.md R25, R28). -/
def HasEnded (t : State) : Prop := t.phase = .xmit ∧ t.txIndex = some .sync ∧ t.respLen.isSome = true ∧ t.loc = none

/-- A step of a request at the command-local state `l`, from `s` to `t`: its one port operation and no other, and after it the command-local
state of what is next; after the last element, or a check that fails, the command has ended (00_scope.md R9; log 7). -/
def OperationStep (i : Instr) (l : Loc) (s t : State) : Prop :=
  SameCollaborators (portOperation i l s) t ∧
  match nextUp i l s with
  | .wait => GoesOn l s t
  | .second => GoesOn { l with second := true } s t
  | .element cur =>
    (l.i + 1 < l.n → ∃ sum, GoesOn ⟨cur, l.i + 1, l.n, l.pair, sum, false⟩ s t) ∧ (l.n ≤ l.i + 1 → HasEnded t)
  | .aborted => HasEnded t ∧ t.respLen = some 10

/-! ## How a request answers -/

/-- The command has ended: the block is at the start of a response of `len` frame bytes (R25, R13, R110). -/
def Answers (len : Nat) (t : State) : Prop :=
  t.phase = .xmit ∧ t.respLen = some len ∧ t.txIndex = some .sync ∧ t.loc = none

/-- The keys as the dispatch loaded them (42_unlock_sequence.md R145, R151, R153). -/
def KeysLoaded (h : Header) (t : State) : Prop := t.k1 = h.key1 ∧ t.k2 = h.key2

/-- The keys cleared, registers and echoed bytes (R150, R152). -/
def KeysCleared (t : State) : Prop := t.k1 = 0 ∧ t.k2 = 0 ∧ bufByte t 3 = some 0 ∧ bufByte t 4 = some 0

/-- The answer of a failed check: status `0xFE` at `buf[9]`, length 10, keys as loaded, no other byte of the frame buffer changed
(41_address_guard.md R131, R134; 42_unlock_sequence.md R151). -/
def AnswersOutOfRange (h : Header) (s t : State) : Prop :=
  Answers 10 t ∧ bufByte t 9 = some 0xFE ∧ KeysLoaded h t ∧ SameBufBut (· = 9) s t ∧ t.resetPending = s.resetPending

/-- The answer of a mutating command that reached its end: status `0x01`, length 10, keys cleared (42_unlock_sequence.md R150, R152). -/
def AnswersMutated (s t : State) : Prop :=
  Answers 10 t ∧ bufByte t 9 = some 0x01 ∧ KeysCleared t ∧ SameBufBut (fun j => j = 3 ∨ j = 4 ∨ j = 9) s t ∧
  t.resetPending = s.resetPending

/-- The frame buffer has its `9 + W` bytes (10_state.md R21) and `W >= 16` (00_scope.md R6). -/
def BufOk (s : State) : Prop := s.buf.length = 9 + s.params.w ∧ 16 ≤ s.params.w

/-- No device reset is about to strike. -/
def NoReset (s : State) : Prop := s.resetAfter = none

/-- The block runs and no device reset strikes before its next step. -/
def Running (s : State) : Prop := s.owner = .block ∧ s.resetAfter ≠ some 0

/-! ## Requests by class -/

/-- `MUTATING = {2, 3, 5, 7}` (30_encoding.md R82). -/
def isMutating : Instr → Bool
  | .readVersion _ => false
  | .readFlash _ => false
  | .writeFlash _ _ => true
  | .eraseFlash _ => true
  | .readEEData _ => false
  | .writeEEData _ _ => true
  | .readConfig _ => false
  | .writeConfig _ _ => true
  | .calcChecksum _ => false
  | .resetDevice _ => false
  | .invalid _ _ => false

/-- `PAYLOAD_INDEXED = {1, 2, 4, 5, 6, 7}` (30_encoding.md R82). -/
def isPayloadIndexed : Instr → Bool
  | .readVersion _ => false
  | .readFlash _ => true
  | .writeFlash _ _ => true
  | .eraseFlash _ => false
  | .readEEData _ => true
  | .writeEEData _ _ => true
  | .readConfig _ => true
  | .writeConfig _ _ => true
  | .calcChecksum _ => false
  | .resetDevice _ => false
  | .invalid _ _ => false

/-- The unlock pair a mutating request must carry (42_unlock_sequence.md R148). -/
def requiredPair (p : Params) : Instr → Option KeyPair
  | .readVersion _ => none
  | .readFlash _ => none
  | .writeFlash _ _ => some p.nvmKey
  | .eraseFlash _ => some p.nvmKey
  | .readEEData _ => none
  | .writeEEData _ _ => some p.nvmKey
  | .readConfig _ => none
  | .writeConfig h _ => some (configPair p h.addr)
  | .calcChecksum _ => none
  | .resetDevice _ => none
  | .invalid _ _ => none

/-- The request's own key bytes are the pair. -/
def KeysMatch (pair : KeyPair) (h : Header) : Prop := h.key1 = pair.first ∧ h.key2 = pair.second

/-- The part of a request a buffer of `cap` payload bytes holds (40_frame_codec.md R103). -/
def heldPart (cap : Nat) : Instr → Instr
  | .readVersion h => .readVersion h
  | .readFlash h => .readFlash h
  | .writeFlash h data => .writeFlash h (data.take cap)
  | .eraseFlash h => .eraseFlash h
  | .readEEData h => .readEEData h
  | .writeEEData h data => .writeEEData h (data.take cap)
  | .readConfig h => .readConfig h
  | .writeConfig h data => .writeConfig h (data.take cap)
  | .calcChecksum h => .calcChecksum h
  | .resetDevice h => .resetDevice h
  | .invalid code h => .invalid code h

/-! ## Readings of the spec's quantities -/

/-- The first `n` addresses of a space from `a` on, modulo 2^24, are implemented (20_memory.md R56). -/
def ImplementedFrom (s : State) (sp : Space) (a : Addr) (n : Nat) : Prop :=
  ∀ i < n, implemented s.params sp (a + BitVec.ofNat 24 i).toNat = true

/-- The write rows the bytes `addr, ..., addr + n - 1` lie in hold the address `a` (20_memory.md R57, 44_writes_and_control.md R203). -/
def InTouchedRow (p : Params) (addr : Addr) (n a : Nat) : Prop :=
  ∃ i < n, (writeRow p (addr + BitVec.ofNat 24 i)).toNat ≤ a ∧ a < (writeRow p (addr + BitVec.ofNat 24 i)).toNat + p.w

/-- The flash after `n` bytes of `data` from `addr` on, modulo 2^24, have been committed with their rows: the bytes themselves, what the row
buffer already held for the rest of those rows, and nothing else (20_memory.md R60). -/
def FlashCommitted (s t : State) (addr : Addr) (n : Nat) (data : List Byte) : Prop :=
  (∀ i < n, Memory.read t.flash (addr + BitVec.ofNat 24 i).toNat =
    programByte s.params.flashProgram (Memory.read s.flash (addr + BitVec.ofNat 24 i).toNat) (data.getD i 0)) ∧
  (∀ a, (∀ i < n, (addr + BitVec.ofNat 24 i).toNat ≠ a) → InTouchedRow s.params addr n a →
    Memory.read t.flash a =
      match cellsFind s.rowBuf a with
      | some v => programByte s.params.flashProgram (Memory.read s.flash a) v
      | none => Memory.read s.flash a) ∧
  (∀ a, ¬InTouchedRow s.params addr n a → Memory.read t.flash a = Memory.read s.flash a)

/-- The row buffer after those commits: the touched rows' entries are gone, the others stay (20_memory.md R60). -/
def RowsEmptied (s t : State) (addr : Addr) (n : Nat) : Prop :=
  ∀ a, (InTouchedRow s.params addr n a → cellsFind t.rowBuf a = none) ∧
    (¬InTouchedRow s.params addr n a → cellsFind t.rowBuf a = cellsFind s.rowBuf a)

/-- The EEPROM address of byte `i` of a Write EE Data: `ee_addr +_16 i * EE_STRIDE` (44_writes_and_control.md R212). -/
def eeTarget (p : Params) (h : Header) (i : Nat) : Half := eeAddr h + BitVec.ofNat 16 i * strideOf p.eeStride

/-- The address of byte `i` of a Write Flash or Write Config: `addr +_24 i` (R200, R216). -/
def byteTarget (h : Header) (i : Nat) : Addr := h.addr + BitVec.ofNat 24 i

/-- The start of row `i` of an Erase Flash: `base +_24 i * E`, `base` the address rounded down to a multiple of `E` (R206, R207). -/
def eraseTarget (p : Params) (h : Header) (i : Nat) : Addr :=
  BitVec.ofNat 24 (h.addr.toNat - h.addr.toNat % p.e + i * p.e)

/-! ## The invariant -/

/-- Byte `j` of the frame buffer holds a value (10_state.md R21). -/
def HasByte (s : State) (j : Nat) : Prop := (bufByte s j).isSome = true

/-- How far a request in the middle of its port operations has come: a read's payload so far is in the buffer and fits it, a byte whose second
operation is next has passed its guard, an erase is at the start of a row, and a command that ends at its start is never in the middle
(10_state.md R28; 40_frame_codec.md R107; 44_writes_and_control.md R200, R207, R216). -/
def SoFar (i : Instr) (l : Loc) (s : State) : Prop :=
  match i with
  | .readVersion _ => l.n = 6 ∧ ∀ k < l.i, HasByte s (versionSlot k)
  | .readFlash _ => l.n ≤ s.params.w ∧ ∀ j < 9 + l.i, HasByte s j
  | .writeFlash _ _ => l.second = true → inFlash s.params l.cur = true
  | .eraseFlash _ => eraseRowOf s.params l.cur = l.cur
  | .readEEData _ => l.n ≤ s.params.w ∧ ∀ j < 9 + l.i, HasByte s j
  | .writeEEData _ _ => True
  | .readConfig _ => l.n ≤ s.params.w ∧ ∀ j < 9 + l.i, HasByte s j
  | .writeConfig _ _ => l.second = true → inCfg s.params l.cur = true
  | .calcChecksum _ => True
  | .resetDevice _ => False
  | .invalid _ _ => False

/-- A request in the middle of its port operations: an element is to come, the pair is the one the command requires, the key registers hold
the request's own keys (10_state.md R28; 42_unlock_sequence.md R145, R148). -/
def InProgress (i : Instr) (l : Loc) (s : State) : Prop :=
  l.i < l.n ∧ l.pair = requiredPair s.params i ∧ KeysLoaded i.header s ∧ SoFar i l s

/-- What holds at reset and after every step, whatever the outside does: the parameters obey R6, the frame buffer and the memories keep
their form, the unlock state machine rests in LOCKED, and each phase finds the values it reads. -/
structure Inv (s : State) : Prop where
  /-- R6, D17 -/
  params     : s.params.wf
  /-- R21 -/
  buf        : s.buf.length = 9 + s.params.w
  flash      : Memory.wf s.flash
  ee         : Memory.wf s.ee
  cfg        : Memory.wf s.cfg
  rowBuf     : cellsSorted s.rowBuf
  cfgRec     : cellsSorted s.cfgRec
  /-- 42_unlock_sequence.md R147: LOCKED again after every sequence -/
  ustate     : s.ustate = .locked
  /-- R26, R31 -/
  counters   : 9 ≤ s.rxExpected ∧ s.rxExpected ≤ 65544 ∧ s.rxCount ≤ s.rxExpected
  /-- 40_frame_codec.md R101, R104: what has been received is in the buffer -/
  received   : s.phase = .recv ∨ s.phase = .dispatch → ∀ j < s.rxCount, j < 9 + s.params.w → HasByte s j
  /-- 40_frame_codec.md R102 -/
  expected   : s.phase = .recv ∨ s.phase = .dispatch →
    (s.rxCount < 3 → s.rxExpected = 9) ∧
    (3 ≤ s.rxCount → ∃ c l0 l1, bufByte s 0 = some c ∧ bufByte s 1 = some l0 ∧ bufByte s 2 = some l1 ∧
      s.rxExpected = requestLength c l0 l1)
  receiving  : s.phase = .recv → s.rxCount < s.rxExpected
  dispatching : s.phase = .dispatch → s.rxCount = s.rxExpected
  /-- R28 -/
  suspended  : ∀ l, s.loc = some l → s.phase = .dispatch ∧ ∃ i, fetchInstr s = .ok i ∧ InProgress i l s
  /-- 43_dispatch_and_reads.md R166, 70_reset_and_hazards.md R265 -/
  pending    : s.resetPending = true → s.phase = .xmit ∨ s.phase = .resetHold
  /-- 70_reset_and_hazards.md R265, R266 -/
  request    : s.resetRequest = true ↔ s.phase = .resetHold
  holding    : s.phase = .resetHold → s.resetPending = true
  /-- R28, R29, 40_frame_codec.md R107, R108: no response carries a byte without a value; R265: or it is sent and a reset is pending -/
  responding : s.phase = .xmit →
    (∃ n, s.respLen = some n ∧ 9 ≤ n ∧ n ≤ 9 + s.params.w ∧ (∀ j < n, HasByte s j) ∧
      ∃ ix, s.txIndex = some ix ∧ ∀ t, ix = .byte t → t < n) ∨
    (s.respLen = none ∧ s.txIndex = none ∧ s.resetPending = true)
  quiet      : s.phase ≠ .xmit → s.respLen = none ∧ s.txIndex = none

end Sys2Proof.Safety
end

