-- ==== Sys2Proof/Certificates/Slice0/Obligations.lean ====
section
/-! DEFINITION. The statements about the machine, from the spec's numbered rules. A statement with parameters holds for every
configuration: the parameters are part of the state. -/

open Sys2Proof Sys2Proof.Machine Sys2Proof.Safety

/-! ## Encoding -/

/-- Three frames written out from 30_encoding.md R75, R78, R88 (the example of R88, S8's request, V69's request). -/
def Obligations.SpecFramesDecode : Prop :=
  decode 65535 [0x02, 0x02, 0x00, 0x55, 0xAA, 0x00, 0x08, 0x00, 0x00, 0xDE, 0xAD] =
      .ok (.writeFlash ⟨2, 0x55, 0xAA, 0x000800, 0x00⟩ [0xDE, 0xAD], []) ∧
  decode 65535 [0xC8, 0x00, 0x00, 0x12, 0x34, 0xEF, 0xCD, 0xAB, 0x99] =
      .ok (.invalid 0xC8 ⟨0, 0x12, 0x34, 0xABCDEF, 0x99⟩, []) ∧
  decode 65535 [0x08, 0x02, 0x01, 0x00, 0x00, 0x00, 0x08, 0x00, 0x00] =
      .ok (.calcChecksum ⟨0x102, 0x00, 0x00, 0x000800, 0x00⟩, [])

/-- Decoding an encoded request gives it back, with every operand at every value (R75 to R82). -/
def Obligations.DecodeOfEncode : Prop :=
  ∀ (cap : Nat) (i : Instr) (rest : List Byte), i.wf cap = true → decode cap (encode i ++ rest) = .ok (i, rest)

/-- Every byte sequence the decoder accepts is the encoding of the request it answers: no bit is dropped or read twice (R75 to R82). -/
def Obligations.EncodeOfDecode : Prop :=
  ∀ (cap : Nat) (bytes : List Byte) (i : Instr) (rest : List Byte),
    decode cap bytes = .ok (i, rest) → i.wf cap = true ∧ encode i ++ rest = bytes

/-- Every nine bytes whose first is no write-class code are a request, whatever their values, and it takes exactly those nine (R76, R86,
40_frame_codec.md R105). -/
def Obligations.ReadClassFramesAlwaysDecode : Prop :=
  ∀ (cap : Nat) (c l0 l1 k1 k2 a0 a1 a2 r : Byte) (rest : List Byte), c ≠ 2 → c ≠ 5 → c ≠ 7 →
    ∃ i, decode cap (c :: l0 :: l1 :: k1 :: k2 :: a0 :: a1 :: a2 :: r :: rest) = .ok (i, rest) ∧ commandByte i = c

/-- The request length rule (R76): 9 bytes plus `data_length` for codes 2, 5 and 7, else 9. -/
def Obligations.RequestLengthRule : Prop :=
  ∀ i : Instr, i.wf 65535 = true →
    (encode i).length =
      if commandByte i = 2 ∨ commandByte i = 5 ∨ commandByte i = 7 then 9 + i.header.dlen.toNat else 9

/-! ## Dispatch -/

/-- Where the frame buffer's leading bytes decode to a request and a step runs a whole request (the pace of log 7, with no device reset to
come), the step is `exec` of that request at that state, and nothing else (43_dispatch_and_reads.md R165). -/
def Obligations.StepRunsDecodedRequest : Prop :=
  ∀ (s : State) (i : Instr) (rest : List Byte), s.owner = .block → NoReset s → s.pace = .request → s.phase = .dispatch → s.loc = none →
    decode s.params.w (leadingValues s.buf) = .ok (i, rest) → step s = exec i s

/-- A step at the pace of R9 performs one port operation of the request in the frame buffer and no other, the one its command-local state is at,
at its address and under its pair, and goes on from there (00_scope.md R9; 20_memory.md R65; 10_state.md R28). The first step of a request
loads the keys before it; the step of the last operation ends the command; a check that fails after an earlier operation ends it in a step of its
own; a request refused or finished at its start performs none (how these fall into steps is the model's choice, log 7; the steps of a wait,
log 6; what an aborted Write Flash drops, log 15). -/
def Obligations.OneOperationPerStep : Prop :=
  ∀ (i : Instr) (s t : State), Running s → s.phase = .dispatch → s.pace = .operation → fetchInstr s = .ok i → step s = .next t →
    (∀ l, s.loc = some l → l.i < l.n → OperationStep i l (tickReset s) t) ∧
    (s.loc = none →
      (∀ l u, startOf i (tickReset s) = .loop l u →
        u = loadKeys i.header (tickReset s) ∧ l.i = 0 ∧ l.second = false ∧ l.pair = requiredPair s.params i ∧
        (0 < l.n → OperationStep i l u t) ∧ (l.n = 0 → SameCollaborators s t ∧ HasEnded t)) ∧
      (∀ u, startOf i (tickReset s) = .ended u → t = u ∧ SameCollaborators s t ∧ HasEnded t ∧ KeysLoaded i.header t))

/-- Port operation by port operation, and with a step of its own for every step of a wait (log 6), a request arrives where `exec`, which runs
it as a whole (log 7), says: with no device reset to come, some number of steps from the dispatch of a decoded request gives exactly the
state `exec` gives (00_scope.md R9; 20_memory.md R62, R66; 43_dispatch_and_reads.md R165). -/
def Obligations.OperationsReachTheRequestsEnd : Prop :=
  ∀ (s : State) (i : Instr) (rest : List Byte), s.owner = .block → NoReset s → s.phase = .dispatch → s.loc = none →
    decode s.params.w (leadingValues s.buf) = .ok (i, rest) → ∃ k, runSteps (k + 1) s = exec i s

/-- A request is authorised by its own key bytes only: what the key registers held before its dispatch makes no difference
(42_unlock_sequence.md R145, R156). -/
def Obligations.OldKeysMakeNoDifference : Prop :=
  ∀ (i : Instr) (s : State) (a b : Byte), exec i { s with k1 := a, k2 := b } = exec i s

/-- Every request is answered (43_dispatch_and_reads.md R167, 40_frame_codec.md R108): with an EEPROM that leaves busy, each well-formed
request of every code, whatever its operands, ends in `XMIT` with a response of 9 to `9 + W` bytes. -/
def Obligations.EveryRequestIsAnswered : Prop :=
  ∀ (i : Instr) (s : State), BufOk s → s.eeStuck = false → i.wf s.params.w = true →
    ∃ t len, exec i s = .next t ∧ Answers len t ∧ 9 ≤ len ∧ len ≤ 9 + s.params.w

/-- Only one thing keeps a request in `DISPATCH` for ever (43_dispatch_and_reads.md R167, 60_exceptions.md R247 (c)): a Write EE Data whose
EEPROM never leaves busy; it then stands before the wait of one of its bytes. -/
def Obligations.OnlyHoldKeepsDispatch : Prop :=
  ∀ (i : Instr) (s t : State), s.phase = .dispatch → exec i s = .next t → t.phase = .dispatch →
    ∃ h data l, i = .writeEEData h data ∧ t.eeStuck = true ∧ t.eeBusy.isSome = true ∧
      t.loc = some l ∧ l.i < l.n ∧ l.second = false ∧ l.cur = eeCursor (eeTarget s.params h l.i)

/-! ## Receive -/

/-- Step `RX` (40_frame_codec.md R101 to R104): the byte is stored or discarded, the length rule fires at the third byte, and the frame
completes when the count meets the expected length. -/
def Obligations.ReceiveOneByte : Prop :=
  ∀ (s : State) (b : Byte) (rest : List Byte), Running s → BufOk s → s.phase = .recv → s.rxQueue = b :: rest →
    (s.rxCount = 2 → (bufByte s 0).isSome = true ∧ (bufByte s 1).isSome = true) →
    ∃ t, step s = .next t ∧
      (s.rxCount < 9 + s.params.w → bufByte t s.rxCount = some b ∧ SameBufBut (· = s.rxCount) s t) ∧
      (9 + s.params.w ≤ s.rxCount → t.buf = s.buf) ∧
      t.rxCount = s.rxCount + 1 ∧
      (s.rxCount ≠ 2 → t.rxExpected = s.rxExpected) ∧
      (s.rxCount = 2 → ∀ c l0, bufByte s 0 = some c → bufByte s 1 = some l0 →
        t.rxExpected = if c = 2 ∨ c = 5 ∨ c = 7 then 9 + (l0.toNat + 256 * b.toNat) else 9) ∧
      (t.rxCount = t.rxExpected → t.phase = .dispatch) ∧ (t.rxCount ≠ t.rxExpected → t.phase = .recv) ∧
      t.rxQueue = rest ∧ t.sent = s.sent ∧ t.respLen = s.respLen ∧ t.txIndex = s.txIndex ∧ t.resetRequest = s.resetRequest ∧
      SameBesidesCodec s t

/-- Receiving a whole frame byte by byte is decoding it: from the start of `RECV`, after as many steps as the request has bytes, the block
is at the dispatch of that request, less the payload bytes past the buffer's capacity (R100 to R104, R112). -/
def Obligations.ReceiverRefinesDecoder : Prop :=
  ∀ (s : State) (i : Instr) (later : List Byte), s.owner = .block → NoReset s → BufOk s → s.phase = .recv → s.rxCount = 0 →
    s.rxExpected = 9 → i.wf 65535 = true → s.rxQueue = encode i ++ later →
    ∃ t, runSteps (encode i).length s = .next t ∧
      t.phase = .dispatch ∧ fetchInstr t = .ok (heldPart s.params.w i) ∧ t.rxQueue = later ∧ t.loc = s.loc ∧
      (∀ j < (encode i).length, j < 9 + s.params.w → bufByte t j = (encode i)[j]?) ∧
      (∀ j, (encode i).length ≤ j → bufByte t j = bufByte s j) ∧ t.flash = s.flash ∧ t.cfg = s.cfg

/-- In every step of the block outside a dispatch, the EEPROM's busy condition and the coming device reset are one step on: the model's
measure of time (log 6, 8). -/
def Obligations.TimePassesOutsideDispatch : Prop :=
  ∀ s t : State, Running s → s.phase ≠ .dispatch → step s = .next t → TimePasses s t

/-! ## Transmit and the idle point -/

/-- Step `TX` (40_frame_codec.md R110, R111): an accepted byte is handed over, the sync byte or a byte of the frame buffer, and the transmitter
is at the next one, or the response is at its end (R265, R26; with a reset pending the phase stays `XMIT` up to the step that asserts it, log
24). It writes nothing else: no request byte is taken, no byte of the frame buffer and no key register is written, no memory is touched. -/
def Obligations.TransmitOneByte : Prop :=
  ∀ (s : State) (n : Nat) (ix : TxIndex) (b : Byte), Running s → s.phase = .xmit → s.respLen = some n → s.txIndex = some ix → 0 < n →
    s.txReady = true → (ix = .sync → b = s.params.syncByte) → (∀ t, ix = .byte t → bufByte s t = some b) →
    ∃ t next, step s = .next t ∧ (ix = .sync → next = 0) ∧ (∀ k, ix = .byte k → next = k + 1) ∧
      t.sent = s.sent ++ [b] ∧ t.buf = s.buf ∧ t.rxQueue = s.rxQueue ∧ t.resetRequest = s.resetRequest ∧ t.draws = s.draws ∧
      SameBesidesCodec s t ∧
      (next < n → t.phase = .xmit ∧ t.txIndex = some (.byte next) ∧ t.respLen = some n ∧ t.rxCount = s.rxCount ∧
        t.rxExpected = s.rxExpected) ∧
      (n ≤ next → t.txIndex = none ∧ t.respLen = none ∧ t.rxCount = 0 ∧ t.rxExpected = 9 ∧
        t.phase = (if s.resetPending then .xmit else .recv))

/-- A response of `n` bytes goes out as the sync byte and then `buf[0 .. n-1]` (40_frame_codec.md R110, R112): after `k` steps, for every `k` up
to `n`, the first `k` of these have been handed over, the block is in `XMIT` and no reset is requested. After one step more, and so not before,
the block is at its idle point (70_reset_and_hazards.md R265): in `RECV`, or, if a reset is pending, one step before `RESET_HOLD` (log 24).
No request byte is accepted meanwhile (R111), and but for the EEPROM's time nothing else changes. -/
def Obligations.TransmitterSendsWholeResponse : Prop :=
  ∀ (s : State) (bytes : List Byte), s.owner = .block → NoReset s → s.txReady = true → s.phase = .xmit → 0 < bytes.length →
    s.respLen = some bytes.length → s.txIndex = some .sync → (∀ j < bytes.length, bufByte s j = bytes[j]?) →
    (∀ k ≤ bytes.length, ∃ u, runSteps k s = .next u ∧ u.phase = .xmit ∧ u.respLen = some bytes.length ∧
      u.resetRequest = s.resetRequest ∧ u.sent = s.sent ++ (s.params.syncByte :: bytes).take k ∧ u.rxQueue = s.rxQueue) ∧
    ∃ t, runSteps (bytes.length + 1) s = .next t ∧
      t.sent = s.sent ++ s.params.syncByte :: bytes ∧ t.buf = s.buf ∧ t.rxQueue = s.rxQueue ∧
      t.phase = (if s.resetPending then .xmit else .recv) ∧ t.resetRequest = s.resetRequest ∧
      t.rxCount = 0 ∧ t.rxExpected = 9 ∧ t.respLen = none ∧ t.txIndex = none ∧ t.draws = s.draws ∧ SameBesidesCodec s t ∧
      (s.resetPending = true → ∃ u, step t = .next u ∧ u.phase = .resetHold ∧ u.resetRequest = true)

/-- The idle point (70_reset_and_hazards.md R265): when the last byte of a response has been accepted, `reset_pending` decides. If it is 0 the
block is in `RECV`; if it is 1 the next step asserts the reset (00_scope.md R9; that this is a separate step is the model's reading, log 24),
before any byte of a next request is accepted. -/
def Obligations.IdlePointActsOnPendingReset : Prop :=
  ∀ (s : State) (n : Nat) (b : Byte), s.owner = .block → NoReset s → s.phase = .xmit → s.respLen = some (n + 1) →
    s.txIndex = some (.byte n) → s.txReady = true → bufByte s n = some b → s.resetRequest = false →
    ∃ t, step s = .next t ∧ t.sent = s.sent ++ [b] ∧ t.resetRequest = false ∧
      (s.resetPending = false → t.phase = .recv ∧ t.rxCount = 0 ∧ t.rxExpected = 9) ∧
      (s.resetPending = true → ∃ u, step t = .next u ∧ u.phase = .resetHold ∧ u.resetRequest = true ∧ u.rxQueue = s.rxQueue ∧
        u.sent = t.sent ∧ u.buf = s.buf ∧ SameBesidesCodec t u)

/-- A reset is requested only when the whole response has been handed to the transport (70_reset_and_hazards.md R266): the step that asserts
it finds no byte left to send, and the only step that leads to such a state (log 24) from another is the one that hands over the last byte. -/
def Obligations.ResetRequestedOnlyAfterLastByte : Prop :=
  ∀ s t : State, Inv s → step s = .next t →
    (s.resetRequest = false → t.resetRequest = true → s.phase = .xmit ∧ s.resetPending = true ∧ s.respLen = none ∧ t.sent = s.sent) ∧
    ((s.phase = .xmit → s.respLen.isSome = true) → t.phase = .xmit → t.respLen = none →
      s.phase = .xmit ∧ s.resetPending = true ∧ s.txReady = true ∧
      ∃ n b, s.respLen = some (n + 1) ∧ s.txIndex = some (.byte n) ∧ bufByte s n = some b ∧ t.sent = s.sent ++ [b])

/-! ## Holds -/

/-- Where the block holds it takes no step (60_exceptions.md R247; 40_frame_codec.md R106; 70_reset_and_hazards.md R266, R271): (a) in `RECV` with no
byte to accept, (b) in `XMIT` while the transport does not accept, (c) in a wait of Write EE Data while the EEPROM never leaves busy, (d) in
`RESET_HOLD`, and while the application runs. The machine's step then only lets time pass (the model's form of a hold, log 9). That nothing else
changes while the application runs, no byte of memory among it, is the model's choice (log 13): R271 says only that the block does not run. -/
def Obligations.HoldsOnlyLetTimePass : Prop :=
  ∀ s : State, s.resetAfter ≠ some 0 →
    (s.owner = .block → s.phase = .recv → s.rxQueue = [] → step s = .next (tick s)) ∧
    (s.owner = .block → s.phase = .xmit → s.respLen.isSome = true → s.txIndex.isSome = true → s.txReady = false →
      step s = .next (tick s)) ∧
    (s.owner = .block → s.phase = .dispatch → s.eeStuck = true → s.eeBusy.isSome = true →
      (∃ h data l, fetchInstr s = .ok (.writeEEData h data) ∧ s.loc = some l ∧ l.pair.isSome = true ∧ l.i < l.n ∧ l.second = false) →
      step s = .next (tick s) ∧ (NoReset s → tick s = s)) ∧
    (s.owner = .block → s.phase = .resetHold → step s = .next (tick s)) ∧
    (s.owner = .application → step s = .next (tick s))

/-! ## Reset and boot -/

/-- Reset, from any phase (70_reset_and_hazards.md R260, 10_state.md R35; 20_memory.md R64): every piece of block state at its reset value, and
no durable byte of any memory changed. The spec is silent on the rest, which is the model's choice: the coming reset is done with (log 8),
request bytes not yet delivered are lost, bytes already sent stay sent, and recorded config bytes stay recorded (log 12). -/
def Obligations.DeviceResetRestoresBlock : Prop :=
  ∀ s : State, s.resetAfter = some 0 →
    ∃ t, step s = .next t ∧ t.params = s.params ∧
      t.buf.length = 9 + s.params.w ∧ (∀ j, bufByte t j = none) ∧ t.k1 = 0 ∧ t.k2 = 0 ∧ t.resetPending = false ∧
      t.phase = .recv ∧ t.rxCount = 0 ∧ t.rxExpected = 9 ∧ t.loc = none ∧ t.respLen = none ∧ t.txIndex = none ∧
      t.ustate = .locked ∧ t.resetRequest = false ∧ t.resetAfter = none ∧ t.rxQueue = [] ∧ t.sent = s.sent ∧
      SameSpace .flash s t ∧ SameSpace .ee s t ∧ SameCfg s t

/-- The boot decision (70_reset_and_hazards.md R271), for an application vector of `n` whole bytes in implemented flash: an all-ones
vector, or an asserted request line, runs the block; otherwise the application runs. The vector is read through the flash port (log 13). -/
def Obligations.BootDecisionChoosesOwner : Prop :=
  ∀ (s : State) (n : Nat), s.resetAfter = some 0 → s.params.appVectorWidth = 8 * n →
    ImplementedFrom s .flash s.params.appVectorAddr n →
    ∃ t, step s = .next t ∧
      ((∀ i < n, Memory.read s.flash (s.params.appVectorAddr + BitVec.ofNat 24 i).toNat = 0xFF) → t.owner = .block) ∧
      (s.requestLine = true → t.owner = .block) ∧
      ((∃ i < n, Memory.read s.flash (s.params.appVectorAddr + BitVec.ofNat 24 i).toNat ≠ 0xFF) → s.requestLine = false →
        t.owner = .application)

/-! ## Read-class commands -/

/-- Read Version (43_dispatch_and_reads.md R170): the 16 payload bytes, length 25 whatever `data_length` is; an unimplemented address
gives some byte. -/
def Obligations.ReadVersionAnswers : Prop :=
  ∀ (h : Header) (s : State), BufOk s →
    ∃ (t : State) (d0 d1 i0 i1 i2 i3 : Byte), exec (.readVersion h) s = .next t ∧ Answers 25 t ∧
      (List.range 16).map (fun k => bufByte t (9 + k)) =
        [some s.params.versionMinor, some s.params.versionMajor,
         some (BitVec.ofNat 8 s.params.maxPacketSize.toNat), some (BitVec.ofNat 8 (s.params.maxPacketSize.toNat / 256)),
         some 0, some 0, some d0, some d1, some 0, some 0,
         some (BitVec.ofNat 8 s.params.e), some (BitVec.ofNat 8 s.params.w), some i0, some i1, some i2, some i3] ∧
      (ImplementedFrom s .cfg s.params.devidAddr 2 →
        d0 = Memory.read s.cfg s.params.devidAddr.toNat ∧ d1 = Memory.read s.cfg (s.params.devidAddr + 1).toNat) ∧
      (ImplementedFrom s .cfg s.params.idlocAddr 4 →
        i0 = Memory.read s.cfg s.params.idlocAddr.toNat ∧ i1 = Memory.read s.cfg (s.params.idlocAddr + 1).toNat ∧
        i2 = Memory.read s.cfg (s.params.idlocAddr + 2).toNat ∧ i3 = Memory.read s.cfg (s.params.idlocAddr + 3).toNat) ∧
      SameBufBut (fun j => 9 ≤ j ∧ j < 25) s t ∧ KeysLoaded h t ∧ t.resetPending = s.resetPending ∧
      SameControl s t ∧ SameMemory s t ∧ SamePorts s t

/-- Read Flash (R172). -/
def Obligations.ReadFlashAnswers : Prop :=
  ∀ (h : Header) (s : State), BufOk s →
    ∃ t, exec (.readFlash h) s = .next t ∧ SameControl s t ∧ SameMemory s t ∧ SamePorts s t ∧
      (s.params.w < h.dlen.toNat → AnswersOutOfRange h s t) ∧
      (h.dlen.toNat ≤ s.params.w → Answers (9 + h.dlen.toNat) t ∧ KeysLoaded h t ∧ t.resetPending = s.resetPending ∧
        SameBufBut (fun j => 9 ≤ j ∧ j < 9 + h.dlen.toNat) s t ∧
        ∀ i < h.dlen.toNat, HasByte t (9 + i) ∧
          (implemented s.params .flash (h.addr + BitVec.ofNat 24 i).toNat = true →
            bufByte t (9 + i) = some (Memory.read s.flash (h.addr + BitVec.ofNat 24 i).toNat)))

/-- Read EE Data (R175): the 16-bit address, byte 7 of the header ignored, no wait; a byte being written gives some byte. -/
def Obligations.ReadEEDataAnswers : Prop :=
  ∀ (h : Header) (s : State), BufOk s →
    ∃ t, exec (.readEEData h) s = .next t ∧ SameControl s t ∧ SameMemory s t ∧ SamePorts s t ∧
      (s.params.w < h.dlen.toNat → AnswersOutOfRange h s t) ∧
      (h.dlen.toNat ≤ s.params.w → Answers (9 + h.dlen.toNat) t ∧ KeysLoaded h t ∧ t.resetPending = s.resetPending ∧
        SameBufBut (fun j => 9 ≤ j ∧ j < 9 + h.dlen.toNat) s t ∧
        ∀ i < h.dlen.toNat, HasByte t (9 + i) ∧
          (implemented s.params .ee ((h.addr.toNat + i) % 65536) = true → eeBusyAt ((h.addr.toNat + i) % 65536) s = false →
            bufByte t (9 + i) = some (Memory.read s.ee ((h.addr.toNat + i) % 65536))))

/-- Read Config (R178): capacity, then the start address against the floor, and no other check. -/
def Obligations.ReadConfigAnswers : Prop :=
  ∀ (h : Header) (s : State), BufOk s →
    ∃ t, exec (.readConfig h) s = .next t ∧ SameControl s t ∧ SameMemory s t ∧ SamePorts s t ∧
      (s.params.w < h.dlen.toNat ∨ h.addr.toNat < s.params.floor → AnswersOutOfRange h s t) ∧
      (h.dlen.toNat ≤ s.params.w → s.params.floor ≤ h.addr.toNat →
        Answers (9 + h.dlen.toNat) t ∧ KeysLoaded h t ∧ t.resetPending = s.resetPending ∧
        SameBufBut (fun j => 9 ≤ j ∧ j < 9 + h.dlen.toNat) s t ∧
        ∀ i < h.dlen.toNat, HasByte t (9 + i) ∧
          (implemented s.params .cfg (h.addr + BitVec.ofNat 24 i).toNat = true →
            bufByte t (9 + i) = some (Memory.read s.cfg (h.addr + BitVec.ofNat 24 i).toNat)))

/-- Calc Checksum (R181, 30_encoding.md R89): the sum modulo 65536, little-endian, of `count` bytes, where the count takes `buf[3]` as bits 23:16
when `LEN_EXT` holds; byte `i` counts `b`, or `256 * b` for odd `i` in `LE_WORD_SUM`; where an address is not implemented the sum is some
value. -/
def Obligations.CalcChecksumAnswers : Prop :=
  ∀ (h : Header) (s : State), BufOk s →
    ∃ (t : State) (sum : Half), exec (.calcChecksum h) s = .next t ∧ Answers 11 t ∧
      bufByte t 9 = some (BitVec.ofNat 8 sum.toNat) ∧ bufByte t 10 = some (BitVec.ofNat 8 (sum.toNat / 256)) ∧
      (∀ count, count = (if 0x10000 < s.params.flashEnd then 65536 * h.key1.toNat + h.dlen.toNat else h.dlen.toNat) →
        ImplementedFrom s .flash h.addr count →
          sum.toNat = ((List.range count).map (fun i => (Memory.read s.flash (h.addr + BitVec.ofNat 24 i).toNat).toNat *
            (if s.params.checksumMode = .leWordSum ∧ i % 2 = 1 then 256 else 1))).sum % 65536) ∧
      SameBufBut (fun j => j = 9 ∨ j = 10) s t ∧ KeysLoaded h t ∧ t.resetPending = s.resetPending ∧
      SameControl s t ∧ SameMemory s t ∧ SamePorts s t

/-- The split property of the checksum (R182), flash unchanged between the requests: requests over `[a, a+m)` and `[a+m, a+m+n)` give,
added modulo 65536, what one request over the whole range gives; in `BYTE_SUM` at every split point, in `LE_WORD_SUM` where `m` is even. -/
def Obligations.ChecksumSplits : Prop :=
  ∀ (s1 s2 s3 : State) (h1 h2 h3 : Header) (m n : Nat) (t1 t2 t3 : State),
    BufOk s1 → BufOk s2 → BufOk s3 → s2.params = s1.params → s3.params = s1.params →
    SameSpace .flash s1 s2 → SameSpace .flash s1 s3 → (s1.params.checksumMode = .byteSum ∨ m % 2 = 0) →
    checksumCount s1.params h1 = m → checksumCount s1.params h2 = n → checksumCount s1.params h3 = m + n →
    h2.addr = h1.addr + BitVec.ofNat 24 m → h3.addr = h1.addr → ImplementedFrom s1 .flash h1.addr (m + n) →
    exec (.calcChecksum h1) s1 = .next t1 → exec (.calcChecksum h2) s2 = .next t2 → exec (.calcChecksum h3) s3 = .next t3 →
    ∃ b0 b1 c0 c1 d0 d1, bufByte t1 9 = some b0 ∧ bufByte t1 10 = some b1 ∧ bufByte t2 9 = some c0 ∧ bufByte t2 10 = some c1 ∧
      bufByte t3 9 = some d0 ∧ bufByte t3 10 = some d1 ∧
      (d0.toNat + 256 * d1.toNat) = (b0.toNat + 256 * b1.toNat + (c0.toNat + 256 * c1.toNat)) % 65536

/-- The read-class commands write no header byte: the response header is the request header as received, keys included (R186). -/
def Obligations.ReadClassEchoesHeader : Prop :=
  ∀ (h : Header) (s t : State),
    (exec (.readVersion h) s = .next t ∨ exec (.readFlash h) s = .next t ∨ exec (.readEEData h) s = .next t ∨
      exec (.readConfig h) s = .next t ∨ exec (.calcChecksum h) s = .next t) →
    ∀ j < 9, bufByte t j = bufByte s j

/-! ## The address guard -/

/-- The capacity check (41_address_guard.md R131): an over-long payload-indexed request answers `0xFE` and touches no memory. -/
def Obligations.OverCapacityAnswersOutOfRange : Prop :=
  ∀ (i : Instr) (s : State), BufOk s → isPayloadIndexed i = true → s.params.w < i.header.dlen.toNat →
    ∃ t, exec i s = .next t ∧ AnswersOutOfRange i.header s t ∧ SameControl s t ∧ SameMemory s t ∧ SamePorts s t ∧ t.draws = s.draws

/-- The start check (R127, R134): a write or erase that starts below the floor answers `0xFE` and touches no memory; an erase start is
first masked to its row. -/
def Obligations.BelowFloorAnswersOutOfRange : Prop :=
  ∀ (h : Header) (data : List Byte) (s : State), BufOk s → data.length = min h.dlen.toNat s.params.w →
    (h.addr.toNat < s.params.floor →
      (∃ t, exec (.writeFlash h data) s = .next t ∧ AnswersOutOfRange h s t ∧ SameControl s t ∧ SameMemory s t ∧ SamePorts s t) ∧
      (∃ t, exec (.writeConfig h data) s = .next t ∧ AnswersOutOfRange h s t ∧ SameControl s t ∧ SameMemory s t ∧ SamePorts s t)) ∧
    ((eraseRowOf s.params h.addr).toNat < s.params.floor →
      ∃ t, exec (.eraseFlash h) s = .next t ∧ AnswersOutOfRange h s t ∧ SameControl s t ∧ SameMemory s t ∧ SamePorts s t)

/-- Any element outside its writable range makes the request answer `0xFE` with the unlock state as loaded (R126, R134, R135). -/
def Obligations.OutOfRangeElementAnswersOutOfRange : Prop :=
  ∀ (h : Header) (data : List Byte) (s : State), BufOk s → data.length = min h.dlen.toNat s.params.w →
    ((∃ i < h.dlen.toNat, inFlash s.params (h.addr + BitVec.ofNat 24 i) = false) →
      ∃ t, exec (.writeFlash h data) s = .next t ∧ AnswersOutOfRange h s t) ∧
    ((∃ i < h.dlen.toNat, inFlash s.params (eraseRowOf s.params h.addr + BitVec.ofNat 24 (i * s.params.e)) = false) →
      ∃ t, exec (.eraseFlash h) s = .next t ∧ AnswersOutOfRange h s t) ∧
    ((∃ i < h.dlen.toNat, inCfg s.params (h.addr + BitVec.ofNat 24 i) = false) →
      ∃ t, exec (.writeConfig h data) s = .next t ∧ AnswersOutOfRange h s t)

/-- The boundary behaviour of the guard (R136), for any parameters that obey R6. -/
def Obligations.GuardBoundaries : Prop :=
  ∀ p : Params, p.wf → 0 < p.floor →
    inFlash p (BitVec.ofNat 24 (p.floor - 1)) = false ∧ inFlash p (BitVec.ofNat 24 p.floor) = true ∧
    inFlash p (BitVec.ofNat 24 (p.flashEnd - 1)) = true ∧
    (p.flashEnd < 2 ^ 24 → inFlash p (BitVec.ofNat 24 p.flashEnd) = false) ∧
    aboveFloor p (eraseRowOf p (BitVec.ofNat 24 p.floor)) = true ∧
    aboveFloor p (eraseRowOf p (BitVec.ofNat 24 (p.floor - p.e))) = false ∧
    eraseRowOf p (BitVec.ofNat 24 (p.floor - 1)) = BitVec.ofNat 24 (p.floor - p.e) ∧
    aboveFloor p (eraseRowOf p (BitVec.ofNat 24 (p.floor - 1))) = false

/-- `a AND NOT(n-1)` rounds down to the row of `n` bytes (20_memory.md R57, 44_writes_and_control.md R207). -/
def Obligations.RowMaskRoundsDown : Prop :=
  ∀ (n : Nat) (a : Addr), isPowerOfTwo n → (alignTo n a).toNat = a.toNat - a.toNat % n

/-! ## The unlock sequence -/

/-- The unlock sequence of one operation (42_unlock_sequence.md R147): honored exactly when both key registers equal the pair, and LOCKED
again after it. -/
def Obligations.UnlockHonorsExactlyThePair : Prop :=
  ∀ (pair : KeyPair) (k1 k2 : Byte),
    (unlockSequence pair k1 k2).1 = .locked ∧
    ((unlockSequence pair k1 k2).2 = true ↔ k1 = pair.first ∧ k2 = pair.second)

/-- The transitions of the unlock state machine, and its reset value (R146). -/
def Obligations.UnlockTransitions : Prop :=
  ∀ (pair : KeyPair) (v : Byte),
    (v = pair.first → unlockWrite pair .locked v = .half) ∧ (v ≠ pair.first → unlockWrite pair .locked v = .locked) ∧
    (v = pair.second → unlockWrite pair .half v = .armed) ∧ (v ≠ pair.second → unlockWrite pair .half v = .locked) ∧
    unlockWrite pair .armed v = .locked ∧ (∀ p, (State.resetWith p).ustate = .locked) ∧
    unlockStrobe .armed = (.locked, true) ∧ unlockStrobe .half = (.locked, false) ∧ unlockStrobe .locked = (.locked, false)

/-- A mutating command that ends either clears the keys, registers and echo, with `0x01`, or keeps them all with `0xFE`
(R150, R151, R152). -/
def Obligations.MutatingCommandsClearOrKeepKeys : Prop :=
  ∀ (i : Instr) (s t : State), isMutating i = true → BufOk s → s.phase = .dispatch → exec i s = .next t → t.phase = .xmit →
    ((bufByte t 9 = some 0x01 ∧ KeysCleared t) ∨
      (bufByte t 9 = some 0xFE ∧ KeysLoaded i.header t ∧ bufByte t 3 = bufByte s 3 ∧ bufByte t 4 = bufByte s 4)) ∧
    Answers 10 t

/-- The other commands leave the keys as the dispatch loaded them and echo them as received (R153). -/
def Obligations.OtherCommandsKeepKeys : Prop :=
  ∀ (i : Instr) (s t : State), isMutating i = false → exec i s = .next t →
    KeysLoaded i.header t ∧ bufByte t 3 = bufByte s 3 ∧ bufByte t 4 = bufByte s 4

/-! ## Write Flash -/

/-- A Write Flash whose bytes all lie in the writable range (44_writes_and_control.md R200, R202, R203): it answers `0x01` with the keys
cleared; with matching keys its bytes, and what the row buffer held for the rest of their rows, become durable; with other keys no byte does. -/
def Obligations.WriteFlashInRangeCompletes : Prop :=
  ∀ (h : Header) (data : List Byte) (s : State), BufOk s → s.params.wf → cellsSorted s.rowBuf →
    h.dlen.toNat ≤ s.params.w → data.length = h.dlen.toNat →
    s.params.floor ≤ h.addr.toNat → h.addr.toNat + h.dlen.toNat ≤ s.params.flashEnd →
    ∃ t, exec (.writeFlash h data) s = .next t ∧ AnswersMutated s t ∧
      SameControl s t ∧ SameEE s t ∧ SameCfg s t ∧ SamePorts s t ∧
      (KeysMatch s.params.nvmKey h → FlashCommitted s t h.addr h.dlen.toNat data ∧ RowsEmptied s t h.addr h.dlen.toNat) ∧
      (¬KeysMatch s.params.nvmKey h → SameSpace .flash s t)

/-- Byte by byte, with a cursor that may wrap at 2^24 (R200, 41_address_guard.md R126): where every byte's address is in the writable range,
a Write Flash with matching keys makes every byte durable, with what the row buffer held for the rest of their rows, and no other byte of any
memory; with other keys no byte of flash changes. The premise on `W` leaves out one row as large as the space, in which a byte after the wrap
may meet a stale entry first. -/
def Obligations.WriteFlashByteByByte : Prop :=
  ∀ (h : Header) (data : List Byte) (s : State), BufOk s → s.params.wf → s.params.w < 2 ^ 24 → cellsSorted s.rowBuf →
    h.dlen.toNat ≤ s.params.w → data.length = h.dlen.toNat → s.params.floor ≤ h.addr.toNat →
    (∀ i < h.dlen.toNat, inFlash s.params (byteTarget h i) = true) →
    ∃ t, exec (.writeFlash h data) s = .next t ∧ AnswersMutated s t ∧
      SameControl s t ∧ SameEE s t ∧ SameCfg s t ∧ SamePorts s t ∧
      (KeysMatch s.params.nvmKey h → FlashCommitted s t h.addr h.dlen.toNat data ∧ RowsEmptied s t h.addr h.dlen.toNat) ∧
      (¬KeysMatch s.params.nvmKey h → SameSpace .flash s t)

/-- A Write Flash whose keys do not match (R202; 20_memory.md R60, U6): it answers `0x01` with the keys cleared and no flash byte changed; its
bytes stay in the row buffer beside the earlier entries if stale entries are kept, and its rows' entries, and no others, go if they are dropped (how much
is dropped is the model's choice, log 15). -/
def Obligations.UnhonoredWriteLeavesRowBuffer : Prop :=
  ∀ (h : Header) (data : List Byte) (s : State), BufOk s → s.params.wf →
    h.dlen.toNat ≤ s.params.w → data.length = h.dlen.toNat →
    s.params.floor ≤ h.addr.toNat → h.addr.toNat + h.dlen.toNat ≤ s.params.flashEnd → ¬KeysMatch s.params.nvmKey h →
    ∃ t, exec (.writeFlash h data) s = .next t ∧ AnswersMutated s t ∧ SameSpace .flash s t ∧
      (s.params.staleRowBuffer = .kept → ∀ a, cellsFind t.rowBuf a =
        if h.addr.toNat ≤ a ∧ a < h.addr.toNat + h.dlen.toNat then some (data.getD (a - h.addr.toNat) 0)
        else cellsFind s.rowBuf a) ∧
      (s.params.staleRowBuffer = .dropped → RowsEmptied s t h.addr h.dlen.toNat)

/-- A Write Flash that leaves the writable range at its upper bound, or starts at or above it (R201, 41_address_guard.md R134): with matching
keys the bytes below the bound, and what the row buffer held for the rest of their rows (20_memory.md R60), become durable and stay; no other
byte does, none at all where the first byte is outside; the keys are kept and the status is `0xFE`. The premise on the bounds keeps a cursor
that wraps at 2^24 out of the range. -/
def Obligations.WriteFlashAcrossEndAborts : Prop :=
  ∀ (h : Header) (data : List Byte) (s : State), BufOk s → s.params.wf → cellsSorted s.rowBuf →
    (0 < s.params.floor ∨ s.params.flashEnd < 2 ^ 24) →
    h.dlen.toNat ≤ s.params.w → data.length = h.dlen.toNat →
    s.params.floor ≤ h.addr.toNat → 0 < h.dlen.toNat → s.params.flashEnd < h.addr.toNat + h.dlen.toNat →
    ∃ t, exec (.writeFlash h data) s = .next t ∧ AnswersOutOfRange h s t ∧
      SameControl s t ∧ SameEE s t ∧ SameCfg s t ∧ SamePorts s t ∧
      (KeysMatch s.params.nvmKey h → FlashCommitted s t h.addr (s.params.flashEnd - h.addr.toNat) data ∧
        (s.params.staleRowBuffer = .kept → RowsEmptied s t h.addr (s.params.flashEnd - h.addr.toNat))) ∧
      (¬KeysMatch s.params.nvmKey h → SameSpace .flash s t)

/-- What a Write Flash cut at a byte outside the writable range leaves in the row buffer where stale entries are dropped: nothing (the model's
reading of `STALE_ROW_BUFFER`, log 15). -/
def Obligations.AbortedWriteDropsRowBuffer : Prop :=
  ∀ (h : Header) (data : List Byte) (s : State), s.params.staleRowBuffer = .dropped →
    h.dlen.toNat ≤ s.params.w → data.length = h.dlen.toNat → s.params.floor ≤ h.addr.toNat →
    (∃ i < h.dlen.toNat, inFlash s.params (byteTarget h i) = false) →
    ∃ t, exec (.writeFlash h data) s = .next t ∧ t.rowBuf = []

/-- The round trip (43_dispatch_and_reads.md R173): what a Write Flash with matching keys writes into the writable range, a Read Flash of the same
range, all of it implemented (20_memory.md R56), returns at any later state whose flash is still the same, where flash is replaced on
programming or the cells were erased. The range may also wrap at 2^24, but for the one row size of WriteFlashByteByByte. -/
def Obligations.FlashRoundTrip : Prop :=
  ∀ (h g : Header) (data : List Byte) (s t s' u : State), BufOk s → BufOk s' → s.params.wf → cellsSorted s.rowBuf →
    (h.addr.toNat + h.dlen.toNat ≤ 2 ^ 24 ∨ s.params.w < 2 ^ 24) →
    h.dlen.toNat ≤ s.params.w → data.length = h.dlen.toNat → s.params.floor ≤ h.addr.toNat →
    (∀ i < h.dlen.toNat, inFlash s.params (byteTarget h i) = true) → KeysMatch s.params.nvmKey h →
    ImplementedFrom s .flash h.addr h.dlen.toNat →
    (s.params.flashProgram = .replace ∨ ∀ i < h.dlen.toNat, Memory.read s.flash (byteTarget h i).toNat = 0xFF) →
    g.addr = h.addr → g.dlen = h.dlen → s'.params = s.params → SameSpace .flash t s' →
    exec (.writeFlash h data) s = .next t → exec (.readFlash g) s' = .next u →
    u.respLen = some (9 + h.dlen.toNat) ∧ ∀ i < h.dlen.toNat, bufByte u (9 + i) = data[i]?

/-! ## Erase Flash -/

/-- Erase Flash (R206, R207): from the row holding the address, `data_length` rows of `E` bytes, up to the first row outside the writable
range, which ends the request with `0xFE` and the keys kept; `m` is the number of rows before it. -/
def Obligations.EraseFlashErasesRows : Prop :=
  ∀ (h : Header) (s : State), BufOk s → s.params.wf →
    ∃ t, exec (.eraseFlash h) s = .next t ∧
      SameControl s t ∧ SameEE s t ∧ SameCfg s t ∧ SamePorts s t ∧ t.rowBuf = s.rowBuf ∧
      (h.addr.toNat - h.addr.toNat % s.params.e < s.params.floor → AnswersOutOfRange h s t ∧ SameSpace .flash s t) ∧
      (s.params.floor ≤ h.addr.toNat - h.addr.toNat % s.params.e → ∀ m ≤ h.dlen.toNat,
        (∀ i < m, inFlash s.params (eraseTarget s.params h i) = true) →
        (m = h.dlen.toNat ∨ inFlash s.params (eraseTarget s.params h m) = false) →
        (m = h.dlen.toNat → AnswersMutated s t) ∧ (m < h.dlen.toNat → AnswersOutOfRange h s t) ∧
        (KeysMatch s.params.nvmKey h → ∀ a,
          ((∃ i < m, (eraseTarget s.params h i).toNat ≤ a ∧ a < (eraseTarget s.params h i).toNat + s.params.e) →
            Memory.read t.flash a = 0xFF) ∧
          ((∀ i < m, ¬((eraseTarget s.params h i).toNat ≤ a ∧ a < (eraseTarget s.params h i).toNat + s.params.e)) →
            Memory.read t.flash a = Memory.read s.flash a))) ∧
      (¬KeysMatch s.params.nvmKey h → SameSpace .flash s t)

/-! ## Write EE Data -/

/-- Write EE Data (R211 to R213), with an EEPROM that leaves busy: an over-long request answers `0xFE`; any other answers `0x01`, and with
matching keys byte `i` is written at `ee_addr +_16 i * EE_STRIDE`, the last one perhaps still in progress; a write in progress before it
completes. A byte that a later one of the same request overwrites is left to the later one. -/
def Obligations.WriteEEDataWrites : Prop :=
  ∀ (h : Header) (data : List Byte) (s : State), BufOk s → s.eeStuck = false →
    data.length = min h.dlen.toNat s.params.w →
    ∃ t, exec (.writeEEData h data) s = .next t ∧
      SameControl s t ∧ SameFlash s t ∧ SameCfg s t ∧ SamePorts s t ∧
      (s.params.w < h.dlen.toNat → AnswersOutOfRange h s t ∧ SameEE s t) ∧
      (h.dlen.toNat ≤ s.params.w → AnswersMutated s t ∧ (h.dlen = 0 → SameEE s t) ∧
        (KeysMatch s.params.nvmKey h →
          (∀ i < h.dlen.toNat, (∀ k < h.dlen.toNat, i < k → eeTarget s.params h k ≠ eeTarget s.params h i) →
            Memory.read (eeAfterBusy t) (eeTarget s.params h i).toNat = data.getD i 0) ∧
          (∀ i, i + 1 < h.dlen.toNat → (∀ k < h.dlen.toNat, i < k → eeTarget s.params h k ≠ eeTarget s.params h i) →
            Memory.read t.ee (eeTarget s.params h i).toNat = data.getD i 0) ∧
          (∀ a, (∀ i < h.dlen.toNat, (eeTarget s.params h i).toNat ≠ a) →
            Memory.read (eeAfterBusy t) a = Memory.read (eeAfterBusy s) a) ∧
          (∀ n, h.dlen.toNat = n + 1 →
            ∃ left, t.eeBusy = some ⟨some ⟨eeTarget s.params h n, data.getD n 0⟩, left⟩)) ∧
        (¬KeysMatch s.params.nvmKey h → ∀ a, Memory.read (eeAfterBusy t) a = Memory.read (eeAfterBusy s) a))

/-- An EEPROM that never leaves busy holds the command in its second wait, with no response (60_exceptions.md R247 (c), V102). -/
def Obligations.WriteEEDataHoldsOnStuckEEPROM : Prop :=
  ∀ (h : Header) (data : List Byte) (s : State), s.eeStuck = true → s.eeBusy = none → s.phase = .dispatch →
    2 ≤ h.dlen.toNat → h.dlen.toNat ≤ s.params.w → data.length = h.dlen.toNat → KeysMatch s.params.nvmKey h →
    ∃ t l left, exec (.writeEEData h data) s = .next t ∧ t.phase = .dispatch ∧ t.loc = some l ∧ l.i = 1 ∧ l.second = false ∧ l.n = h.dlen.toNat ∧
      l.cur = eeCursor (eeTarget s.params h 1) ∧ l.pair = some s.params.nvmKey ∧
      t.eeBusy = some ⟨some ⟨eeAddr h, data.getD 0 0⟩, left⟩ ∧ t.ee = s.ee ∧ t.buf = s.buf ∧ t.respLen = s.respLen

/-- A Write EE Data that was held goes on when the EEPROM leaves busy after all (10_state.md R28; 20_memory.md R62; 44_writes_and_control.md R213):
from its command-local state, some number of steps, those of its waits among them (log 6), gives exactly the state, answer and EEPROM bytes
included, that the request gives where it is never held. -/
def Obligations.HeldWriteEEDataGoesOn : Prop :=
  ∀ (h : Header) (data : List Byte) (s t : State), s.owner = .block → NoReset s → s.phase = .dispatch → s.eeStuck = true →
    fetchInstr s = .ok (.writeEEData h data) → exec (.writeEEData h data) s = .next t → t.phase = .dispatch →
    ∃ k, runSteps k (setEEStuck false t) = exec (.writeEEData h data) (setEEStuck false s)

/-- An EEPROM write becomes durable when its busy time is over (20_memory.md R62): with the block waiting in `RECV`, after one step more
than the time left, in the model's measure of time (log 6). -/
def Obligations.EEWriteBecomesDurable : Prop :=
  ∀ (s : State) (w : EEWrite) (left : Nat), s.owner = .block → NoReset s → s.phase = .recv → s.rxQueue = [] → s.eeStuck = false →
    s.eeBusy = some ⟨some w, left⟩ →
    ∃ t, runSteps (left + 1) s = .next t ∧ t.eeBusy = none ∧
      ∀ a, Memory.read t.ee a = if a = w.addr.toNat then w.val else Memory.read s.ee a

/-! ## Write Config -/

/-- Write Config (R216, R217): the pair is chosen once, from the start address; each byte is committed and stays, up to the first one outside
the writable range, which ends the request with `0xFE` and the keys kept; `m` is the number of bytes before it. -/
def Obligations.WriteConfigWrites : Prop :=
  ∀ (h : Header) (data : List Byte) (s : State), BufOk s → s.params.wf →
    data.length = min h.dlen.toNat s.params.w →
    ∃ t, exec (.writeConfig h data) s = .next t ∧
      SameControl s t ∧ SameFlash s t ∧ SameEE s t ∧ SamePorts s t ∧
      (∀ a, (∀ i < h.dlen.toNat, (byteTarget h i).toNat ≠ a) → cellsFind t.cfgRec a = cellsFind s.cfgRec a) ∧
      (s.params.w < h.dlen.toNat ∨ h.addr.toNat < s.params.floor → AnswersOutOfRange h s t ∧ SameCfg s t) ∧
      (h.dlen.toNat ≤ s.params.w → s.params.floor ≤ h.addr.toNat → ∀ m ≤ h.dlen.toNat,
        (∀ i < m, inCfg s.params (byteTarget h i) = true) →
        (m = h.dlen.toNat ∨ inCfg s.params (byteTarget h m) = false) →
        (m = h.dlen.toNat → AnswersMutated s t) ∧ (m < h.dlen.toNat → AnswersOutOfRange h s t) ∧
        (KeysMatch (if h.addr.toNat < s.params.cfgThreshold then s.params.cfgKeyLo else s.params.cfgKeyHi) h →
          (∀ i < m, Memory.read t.cfg (byteTarget h i).toNat = data.getD i 0) ∧
          ∀ a, (∀ i < m, (byteTarget h i).toNat ≠ a) → Memory.read t.cfg a = Memory.read s.cfg a)) ∧
      (¬KeysMatch (if h.addr.toNat < s.params.cfgThreshold then s.params.cfgKeyLo else s.params.cfgKeyHi) h → SameSpace .cfg s t)

/-! ## Reset Device and the default arm -/

/-- Reset Device (R224, R225): success, and a reset pending; nothing else happens yet. -/
def Obligations.ResetDeviceAnswers : Prop :=
  ∀ (h : Header) (s : State), BufOk s →
    ∃ t, exec (.resetDevice h) s = .next t ∧ Answers 10 t ∧ bufByte t 9 = some 0x01 ∧ t.resetPending = true ∧
      SameBufBut (· = 9) s t ∧ KeysLoaded h t ∧ SameControl s t ∧ SameMemory s t ∧ SamePorts s t

/-- The default arm (R228): status `0xFF`, length 10, no memory touched, header echoed. -/
def Obligations.InvalidCommandAnswers : Prop :=
  ∀ (code : Byte) (h : Header) (s : State), BufOk s →
    ∃ t, exec (.invalid code h) s = .next t ∧ Answers 10 t ∧ bufByte t 9 = some 0xFF ∧ t.resetPending = s.resetPending ∧
      SameBufBut (· = 9) s t ∧ KeysLoaded h t ∧ SameControl s t ∧ SameMemory s t ∧ SamePorts s t

/-! ## Rules of the whole machine -/

/-- No step changes a byte of the reserved region (41_address_guard.md R128), in any state with the invariant: its parameters obey R6, and a
command between the two operations of a byte has passed that byte's guard. For the steps while the application runs this is the model's choice:
there the application writes no memory (log 13). -/
def Obligations.ReservedRegionNeverChanges : Prop :=
  ∀ s t : State, Inv s → step s = .next t → ∀ a < s.params.floor, Memory.read t.flash a = Memory.read s.flash a

/-- No request changes a flash or config byte outside the writable ranges (60_exceptions.md R248 (a), 41_address_guard.md R125); and no step of the
machine does, be it a port operation of a request in progress, a device reset or any other; for the steps while the application runs this is
the model's choice (log 13). -/
def Obligations.RequestsStayInWritableRanges : Prop :=
  (∀ (i : Instr) (s t : State), s.params.wf → exec i s = .next t →
    (∀ a, a < s.params.floor ∨ s.params.flashEnd ≤ a → Memory.read t.flash a = Memory.read s.flash a) ∧
    (∀ a, a < s.params.floor ∨ s.params.configEnd ≤ a → Memory.read t.cfg a = Memory.read s.cfg a)) ∧
  (∀ s t : State, Inv s → step s = .next t →
    (∀ a, a < s.params.floor ∨ s.params.flashEnd ≤ a → Memory.read t.flash a = Memory.read s.flash a) ∧
    (∀ a, a < s.params.floor ∨ s.params.configEnd ≤ a → Memory.read t.cfg a = Memory.read s.cfg a))

/-- Every mutation depends on the request's own key bytes (60_exceptions.md R248 (b), 42_unlock_sequence.md R149, R154): a request whose
keys are not the pair its command requires changes no byte of any space; an EEPROM write already in progress may still complete. And no step of
the machine changes a byte in any other way: not a device reset, not a step outside `DISPATCH`, not one of a request without its keys; nor, by
the model's choice (log 13), one while the application runs. -/
def Obligations.NoMutationWithoutTheKeys : Prop :=
  (∀ (i : Instr) (s t : State), exec i s = .next t → (∀ pair, requiredPair s.params i = some pair → ¬KeysMatch pair i.header) →
    SameSpace .flash s t ∧ SameSpace .cfg s t ∧ ∀ a, Memory.read (eeAfterBusy t) a = Memory.read (eeAfterBusy s) a) ∧
  (∀ s t : State, Inv s → step s = .next t →
    (s.resetAfter ≠ some 0 → s.owner = .block → s.phase = .dispatch → ∀ i pair, fetchInstr s = .ok i →
      requiredPair s.params i = some pair → ¬KeysMatch pair i.header) →
    SameSpace .flash s t ∧ SameSpace .cfg s t ∧
    ∀ a, Memory.read t.ee a = Memory.read s.ee a ∨ Memory.read t.ee a = Memory.read (eeAfterBusy s) a)

/-- No command but the four mutating ones changes any memory (44_writes_and_control.md R230). -/
def Obligations.OnlyMutatingCommandsChangeMemory : Prop :=
  ∀ (i : Instr) (s t : State), isMutating i = false → exec i s = .next t → SameMemory s t

/-- Only Reset Device sets `reset_pending`, and only a device reset clears it (10_state.md R24). -/
def Obligations.PendingResetIsSticky : Prop :=
  ∀ s t : State, step s = .next t → s.resetAfter ≠ some 0 →
    (s.resetPending = true → t.resetPending = true) ∧
    (s.resetPending = false → t.resetPending = true → ∃ h, s.phase = .dispatch ∧ fetchInstr s = .ok (.resetDevice h))

/-- A host that sends while its last request is executed or answered has no move (70_reset_and_hazards.md R280, D35, U12; log 11); at any other
time its bytes go to the transport, and in `RESET_HOLD` or while the application runs the machine answers none of them. -/
def Obligations.HostSendsOnlyBetweenRequests : Prop :=
  ∀ (bytes : List Byte) (s : State),
    (s.owner = .block → s.phase = .dispatch ∨ (s.phase = .xmit ∧ s.respLen.isSome = true) →
      hostSend bytes s = .refused .hostSendsDuringResponse) ∧
    (s.owner = .application ∨ s.phase = .recv ∨ s.phase = .resetHold ∨ (s.phase = .xmit ∧ s.respLen = none) →
      ∃ t, hostSend bytes s = .next t ∧ t = { s with rxQueue := s.rxQueue ++ bytes } ∧
        (s.owner = .application ∨ s.phase = .resetHold → s.resetAfter ≠ some 0 →
          ∃ u, step t = .next u ∧ u.rxQueue = t.rxQueue ∧ u.sent = t.sent ∧ u.phase = t.phase ∧ u.owner = t.owner))

/-- The invariant holds at `State.reset`, whose parameters and memories are the model's choice (log 1 to 4, 14, 27). -/
def Obligations.InvAtReset : Prop := Inv State.reset

/-- Every step keeps the invariant, from every state that has it. -/
def Obligations.StepKeepsInv : Prop := ∀ s t : State, Inv s → step s = .next t → Inv t

/-- A state with the invariant never stops: no step reads a byte or a register that holds no value, and none is refused
(10_state.md R21, 40_frame_codec.md R107; U13). -/
def Obligations.InvStateAlwaysSteps : Prop := ∀ s : State, Inv s → ∃ t, step s = .next t
end

