-- ==== Sys2Proof/Laws/Encoding.lean ====
section
/-! SUPPORT. Taking a multi-byte field apart and putting it together again are inverse to each other, both ways; and what the opcode map
selects for the command byte of each request. -/

namespace Sys2Proof

theorem assemble16_bytes (v : Half) : assemble16 (lowByte v) (highByte v) = v := by
  apply BitVec.eq_of_toNat_eq
  simp only [assemble16, lowByte, highByte, BitVec.toNat_append, BitVec.extractLsb'_toNat,
    Nat.shiftRight_eq_div_pow]
  have h := v.isLt
  rw [← Nat.shiftLeft_add_eq_or_of_lt (by omega), Nat.shiftLeft_eq]
  omega

theorem assemble24_bytes (a : Addr) : assemble24 (addrByte 0 a) (addrByte 1 a) (addrByte 2 a) = a := by
  apply BitVec.eq_of_toNat_eq
  simp only [assemble24, addrByte, BitVec.toNat_append, BitVec.extractLsb'_toNat, Nat.shiftRight_eq_div_pow]
  have h := a.isLt
  rw [← Nat.shiftLeft_add_eq_or_of_lt (by omega), Nat.shiftLeft_eq, ← Nat.shiftLeft_add_eq_or_of_lt (by omega), Nat.shiftLeft_eq]
  omega

theorem assemble16_toNat (lo hi : Byte) : (assemble16 lo hi).toNat = lo.toNat + 256 * hi.toNat := by
  simp only [assemble16, BitVec.toNat_append]
  have := lo.isLt
  rw [← Nat.shiftLeft_add_eq_or_of_lt (by omega), Nat.shiftLeft_eq]
  omega

theorem assemble24_toNat (b0 b1 b2 : Byte) :
    (assemble24 b0 b1 b2).toNat = b0.toNat + 256 * b1.toNat + 65536 * b2.toNat := by
  simp only [assemble24, BitVec.toNat_append]
  have := b0.isLt
  have := b1.isLt
  rw [← Nat.shiftLeft_add_eq_or_of_lt (by omega), Nat.shiftLeft_eq, ← Nat.shiftLeft_add_eq_or_of_lt (by omega), Nat.shiftLeft_eq]
  omega

theorem lowByte_assemble16 (lo hi : Byte) : lowByte (assemble16 lo hi) = lo := by
  apply BitVec.eq_of_toNat_eq
  simp only [lowByte, BitVec.extractLsb'_toNat, assemble16_toNat, Nat.shiftRight_eq_div_pow]
  have := lo.isLt
  omega

theorem highByte_assemble16 (lo hi : Byte) : highByte (assemble16 lo hi) = hi := by
  apply BitVec.eq_of_toNat_eq
  simp only [highByte, BitVec.extractLsb'_toNat, assemble16_toNat, Nat.shiftRight_eq_div_pow]
  have := lo.isLt
  have := hi.isLt
  omega

theorem addrByte_assemble24 (b0 b1 b2 : Byte) :
    addrByte 0 (assemble24 b0 b1 b2) = b0 ∧ addrByte 1 (assemble24 b0 b1 b2) = b1 ∧ addrByte 2 (assemble24 b0 b1 b2) = b2 := by
  have := b0.isLt
  have := b1.isLt
  have := b2.isLt
  refine ⟨?_, ?_, ?_⟩ <;> apply BitVec.eq_of_toNat_eq <;>
    simp only [addrByte, BitVec.extractLsb'_toNat, assemble24_toNat, Nat.shiftRight_eq_div_pow] <;> omega

/-- Every command byte is one of the ten codes or at least ten (30_encoding.md R80, R81). -/
theorem code_cases (c : Byte) :
    c = 0 ∨ c = 1 ∨ c = 2 ∨ c = 3 ∨ c = 4 ∨ c = 5 ∨ c = 6 ∨ c = 7 ∨ c = 8 ∨ c = 9 ∨ 10 ≤ c.toNat := by
  have key : ∀ n : Nat, c.toNat = n → c = BitVec.ofNat 8 n := fun n h => by rw [← h]; simp
  by_cases h : 10 ≤ c.toNat
  · simp [h]
  · have h10 : c.toNat = 0 ∨ c.toNat = 1 ∨ c.toNat = 2 ∨ c.toNat = 3 ∨ c.toNat = 4 ∨ c.toNat = 5 ∨ c.toNat = 6 ∨
        c.toNat = 7 ∨ c.toNat = 8 ∨ c.toNat = 9 := by omega
    rcases h10 with h | h | h | h | h | h | h | h | h | h <;> rw [key _ h] <;> decide

theorem isWriteClass_of_ge {c : Byte} (h : 10 ≤ c.toNat) : isWriteClass c = false := by
  have h2 : c ≠ 2#8 := by rintro rfl; simp at h
  have h5 : c ≠ 5#8 := by rintro rfl; simp at h
  have h7 : c ≠ 7#8 := by rintro rfl; simp at h
  simp [isWriteClass, h2, h5, h7]

theorem selectInstr_of_ge {c : Byte} (h : 10 ≤ c.toNat) (hd : Header) (data : List Byte) :
    selectInstr c hd data = .invalid c hd := by
  unfold selectInstr
  split <;> first | rfl | omega

end Sys2Proof
end

