-- ==== Sys2Proof/Laws/State.lean ====
section
/-! SUPPORT. Every field of the state after every named update: one lemma per field per update, true by `rfl`. -/

namespace Sys2Proof.Machine

/-! ## bufSet -/

section
variable (j : Nat) (v : Byte) (s : State)

@[simp] theorem bufSet_params : (bufSet j v s).params = s.params := rfl
@[simp] theorem bufSet_buf : (bufSet j v s).buf = s.buf.set j (some v) := rfl
@[simp] theorem bufSet_k1 : (bufSet j v s).k1 = s.k1 := rfl
@[simp] theorem bufSet_k2 : (bufSet j v s).k2 = s.k2 := rfl
@[simp] theorem bufSet_resetPending : (bufSet j v s).resetPending = s.resetPending := rfl
@[simp] theorem bufSet_phase : (bufSet j v s).phase = s.phase := rfl
@[simp] theorem bufSet_rxCount : (bufSet j v s).rxCount = s.rxCount := rfl
@[simp] theorem bufSet_rxExpected : (bufSet j v s).rxExpected = s.rxExpected := rfl
@[simp] theorem bufSet_loc : (bufSet j v s).loc = s.loc := rfl
@[simp] theorem bufSet_respLen : (bufSet j v s).respLen = s.respLen := rfl
@[simp] theorem bufSet_txIndex : (bufSet j v s).txIndex = s.txIndex := rfl
@[simp] theorem bufSet_ustate : (bufSet j v s).ustate = s.ustate := rfl
@[simp] theorem bufSet_resetRequest : (bufSet j v s).resetRequest = s.resetRequest := rfl
@[simp] theorem bufSet_flash : (bufSet j v s).flash = s.flash := rfl
@[simp] theorem bufSet_ee : (bufSet j v s).ee = s.ee := rfl
@[simp] theorem bufSet_cfg : (bufSet j v s).cfg = s.cfg := rfl
@[simp] theorem bufSet_rowBuf : (bufSet j v s).rowBuf = s.rowBuf := rfl
@[simp] theorem bufSet_cfgRec : (bufSet j v s).cfgRec = s.cfgRec := rfl
@[simp] theorem bufSet_eeBusy : (bufSet j v s).eeBusy = s.eeBusy := rfl
@[simp] theorem bufSet_rxQueue : (bufSet j v s).rxQueue = s.rxQueue := rfl
@[simp] theorem bufSet_sent : (bufSet j v s).sent = s.sent := rfl
@[simp] theorem bufSet_txReady : (bufSet j v s).txReady = s.txReady := rfl
@[simp] theorem bufSet_eeStuck : (bufSet j v s).eeStuck = s.eeStuck := rfl
@[simp] theorem bufSet_resetAfter : (bufSet j v s).resetAfter = s.resetAfter := rfl
@[simp] theorem bufSet_requestLine : (bufSet j v s).requestLine = s.requestLine := rfl
@[simp] theorem bufSet_owner : (bufSet j v s).owner = s.owner := rfl
@[simp] theorem bufSet_pace : (bufSet j v s).pace = s.pace := rfl
@[simp] theorem bufSet_draws : (bufSet j v s).draws = s.draws := rfl

end

/-! ## loadKeys -/

section
variable (h : Header) (s : State)

@[simp] theorem loadKeys_params : (loadKeys h s).params = s.params := rfl
@[simp] theorem loadKeys_buf : (loadKeys h s).buf = s.buf := rfl
@[simp] theorem loadKeys_k1 : (loadKeys h s).k1 = h.key1 := rfl
@[simp] theorem loadKeys_k2 : (loadKeys h s).k2 = h.key2 := rfl
@[simp] theorem loadKeys_resetPending : (loadKeys h s).resetPending = s.resetPending := rfl
@[simp] theorem loadKeys_phase : (loadKeys h s).phase = s.phase := rfl
@[simp] theorem loadKeys_rxCount : (loadKeys h s).rxCount = s.rxCount := rfl
@[simp] theorem loadKeys_rxExpected : (loadKeys h s).rxExpected = s.rxExpected := rfl
@[simp] theorem loadKeys_loc : (loadKeys h s).loc = s.loc := rfl
@[simp] theorem loadKeys_respLen : (loadKeys h s).respLen = s.respLen := rfl
@[simp] theorem loadKeys_txIndex : (loadKeys h s).txIndex = s.txIndex := rfl
@[simp] theorem loadKeys_ustate : (loadKeys h s).ustate = s.ustate := rfl
@[simp] theorem loadKeys_resetRequest : (loadKeys h s).resetRequest = s.resetRequest := rfl
@[simp] theorem loadKeys_flash : (loadKeys h s).flash = s.flash := rfl
@[simp] theorem loadKeys_ee : (loadKeys h s).ee = s.ee := rfl
@[simp] theorem loadKeys_cfg : (loadKeys h s).cfg = s.cfg := rfl
@[simp] theorem loadKeys_rowBuf : (loadKeys h s).rowBuf = s.rowBuf := rfl
@[simp] theorem loadKeys_cfgRec : (loadKeys h s).cfgRec = s.cfgRec := rfl
@[simp] theorem loadKeys_eeBusy : (loadKeys h s).eeBusy = s.eeBusy := rfl
@[simp] theorem loadKeys_rxQueue : (loadKeys h s).rxQueue = s.rxQueue := rfl
@[simp] theorem loadKeys_sent : (loadKeys h s).sent = s.sent := rfl
@[simp] theorem loadKeys_txReady : (loadKeys h s).txReady = s.txReady := rfl
@[simp] theorem loadKeys_eeStuck : (loadKeys h s).eeStuck = s.eeStuck := rfl
@[simp] theorem loadKeys_resetAfter : (loadKeys h s).resetAfter = s.resetAfter := rfl
@[simp] theorem loadKeys_requestLine : (loadKeys h s).requestLine = s.requestLine := rfl
@[simp] theorem loadKeys_owner : (loadKeys h s).owner = s.owner := rfl
@[simp] theorem loadKeys_pace : (loadKeys h s).pace = s.pace := rfl
@[simp] theorem loadKeys_draws : (loadKeys h s).draws = s.draws := rfl

end

/-! ## clearKeys -/

section
variable (s : State)

@[simp] theorem clearKeys_params : (clearKeys s).params = s.params := rfl
@[simp] theorem clearKeys_buf : (clearKeys s).buf = (s.buf.set 3 (some 0)).set 4 (some 0) := rfl
@[simp] theorem clearKeys_k1 : (clearKeys s).k1 = 0 := rfl
@[simp] theorem clearKeys_k2 : (clearKeys s).k2 = 0 := rfl
@[simp] theorem clearKeys_resetPending : (clearKeys s).resetPending = s.resetPending := rfl
@[simp] theorem clearKeys_phase : (clearKeys s).phase = s.phase := rfl
@[simp] theorem clearKeys_rxCount : (clearKeys s).rxCount = s.rxCount := rfl
@[simp] theorem clearKeys_rxExpected : (clearKeys s).rxExpected = s.rxExpected := rfl
@[simp] theorem clearKeys_loc : (clearKeys s).loc = s.loc := rfl
@[simp] theorem clearKeys_respLen : (clearKeys s).respLen = s.respLen := rfl
@[simp] theorem clearKeys_txIndex : (clearKeys s).txIndex = s.txIndex := rfl
@[simp] theorem clearKeys_ustate : (clearKeys s).ustate = s.ustate := rfl
@[simp] theorem clearKeys_resetRequest : (clearKeys s).resetRequest = s.resetRequest := rfl
@[simp] theorem clearKeys_flash : (clearKeys s).flash = s.flash := rfl
@[simp] theorem clearKeys_ee : (clearKeys s).ee = s.ee := rfl
@[simp] theorem clearKeys_cfg : (clearKeys s).cfg = s.cfg := rfl
@[simp] theorem clearKeys_rowBuf : (clearKeys s).rowBuf = s.rowBuf := rfl
@[simp] theorem clearKeys_cfgRec : (clearKeys s).cfgRec = s.cfgRec := rfl
@[simp] theorem clearKeys_eeBusy : (clearKeys s).eeBusy = s.eeBusy := rfl
@[simp] theorem clearKeys_rxQueue : (clearKeys s).rxQueue = s.rxQueue := rfl
@[simp] theorem clearKeys_sent : (clearKeys s).sent = s.sent := rfl
@[simp] theorem clearKeys_txReady : (clearKeys s).txReady = s.txReady := rfl
@[simp] theorem clearKeys_eeStuck : (clearKeys s).eeStuck = s.eeStuck := rfl
@[simp] theorem clearKeys_resetAfter : (clearKeys s).resetAfter = s.resetAfter := rfl
@[simp] theorem clearKeys_requestLine : (clearKeys s).requestLine = s.requestLine := rfl
@[simp] theorem clearKeys_owner : (clearKeys s).owner = s.owner := rfl
@[simp] theorem clearKeys_pace : (clearKeys s).pace = s.pace := rfl
@[simp] theorem clearKeys_draws : (clearKeys s).draws = s.draws := rfl

end

/-! ## finish -/

section
variable (st : Option Byte) (len : Nat) (s : State)

@[simp] theorem finish_params : (finish st len s).params = s.params := rfl
@[simp] theorem finish_k1 : (finish st len s).k1 = s.k1 := rfl
@[simp] theorem finish_k2 : (finish st len s).k2 = s.k2 := rfl
@[simp] theorem finish_resetPending : (finish st len s).resetPending = s.resetPending := rfl
@[simp] theorem finish_phase : (finish st len s).phase = .xmit := rfl
@[simp] theorem finish_rxCount : (finish st len s).rxCount = s.rxCount := rfl
@[simp] theorem finish_rxExpected : (finish st len s).rxExpected = s.rxExpected := rfl
@[simp] theorem finish_loc : (finish st len s).loc = none := rfl
@[simp] theorem finish_respLen : (finish st len s).respLen = some len := rfl
@[simp] theorem finish_txIndex : (finish st len s).txIndex = some .sync := rfl
@[simp] theorem finish_ustate : (finish st len s).ustate = s.ustate := rfl
@[simp] theorem finish_resetRequest : (finish st len s).resetRequest = s.resetRequest := rfl
@[simp] theorem finish_flash : (finish st len s).flash = s.flash := rfl
@[simp] theorem finish_ee : (finish st len s).ee = s.ee := rfl
@[simp] theorem finish_cfg : (finish st len s).cfg = s.cfg := rfl
@[simp] theorem finish_rowBuf : (finish st len s).rowBuf = s.rowBuf := rfl
@[simp] theorem finish_cfgRec : (finish st len s).cfgRec = s.cfgRec := rfl
@[simp] theorem finish_eeBusy : (finish st len s).eeBusy = s.eeBusy := rfl
@[simp] theorem finish_rxQueue : (finish st len s).rxQueue = s.rxQueue := rfl
@[simp] theorem finish_sent : (finish st len s).sent = s.sent := rfl
@[simp] theorem finish_txReady : (finish st len s).txReady = s.txReady := rfl
@[simp] theorem finish_eeStuck : (finish st len s).eeStuck = s.eeStuck := rfl
@[simp] theorem finish_resetAfter : (finish st len s).resetAfter = s.resetAfter := rfl
@[simp] theorem finish_requestLine : (finish st len s).requestLine = s.requestLine := rfl
@[simp] theorem finish_owner : (finish st len s).owner = s.owner := rfl
@[simp] theorem finish_pace : (finish st len s).pace = s.pace := rfl
@[simp] theorem finish_draws : (finish st len s).draws = s.draws := rfl

end

/-! ## afterRead -/

section
variable (sp : Space) (a : Nat) (s : State)

@[simp] theorem afterRead_params : (afterRead sp a s).params = s.params := rfl
@[simp] theorem afterRead_buf : (afterRead sp a s).buf = s.buf := rfl
@[simp] theorem afterRead_k1 : (afterRead sp a s).k1 = s.k1 := rfl
@[simp] theorem afterRead_k2 : (afterRead sp a s).k2 = s.k2 := rfl
@[simp] theorem afterRead_resetPending : (afterRead sp a s).resetPending = s.resetPending := rfl
@[simp] theorem afterRead_phase : (afterRead sp a s).phase = s.phase := rfl
@[simp] theorem afterRead_rxCount : (afterRead sp a s).rxCount = s.rxCount := rfl
@[simp] theorem afterRead_rxExpected : (afterRead sp a s).rxExpected = s.rxExpected := rfl
@[simp] theorem afterRead_loc : (afterRead sp a s).loc = s.loc := rfl
@[simp] theorem afterRead_respLen : (afterRead sp a s).respLen = s.respLen := rfl
@[simp] theorem afterRead_txIndex : (afterRead sp a s).txIndex = s.txIndex := rfl
@[simp] theorem afterRead_ustate : (afterRead sp a s).ustate = s.ustate := rfl
@[simp] theorem afterRead_resetRequest : (afterRead sp a s).resetRequest = s.resetRequest := rfl
@[simp] theorem afterRead_flash : (afterRead sp a s).flash = s.flash := rfl
@[simp] theorem afterRead_ee : (afterRead sp a s).ee = s.ee := rfl
@[simp] theorem afterRead_cfg : (afterRead sp a s).cfg = s.cfg := rfl
@[simp] theorem afterRead_rowBuf : (afterRead sp a s).rowBuf = s.rowBuf := rfl
@[simp] theorem afterRead_cfgRec : (afterRead sp a s).cfgRec = s.cfgRec := rfl
@[simp] theorem afterRead_eeBusy : (afterRead sp a s).eeBusy = s.eeBusy := rfl
@[simp] theorem afterRead_rxQueue : (afterRead sp a s).rxQueue = s.rxQueue := rfl
@[simp] theorem afterRead_sent : (afterRead sp a s).sent = s.sent := rfl
@[simp] theorem afterRead_txReady : (afterRead sp a s).txReady = s.txReady := rfl
@[simp] theorem afterRead_eeStuck : (afterRead sp a s).eeStuck = s.eeStuck := rfl
@[simp] theorem afterRead_resetAfter : (afterRead sp a s).resetAfter = s.resetAfter := rfl
@[simp] theorem afterRead_requestLine : (afterRead sp a s).requestLine = s.requestLine := rfl
@[simp] theorem afterRead_owner : (afterRead sp a s).owner = s.owner := rfl
@[simp] theorem afterRead_pace : (afterRead sp a s).pace = s.pace := rfl

end

/-! ## bufWrite -/

section
variable (a : Addr) (v : Byte) (s : State)

@[simp] theorem bufWrite_params : (bufWrite a v s).params = s.params := rfl
@[simp] theorem bufWrite_buf : (bufWrite a v s).buf = s.buf := rfl
@[simp] theorem bufWrite_k1 : (bufWrite a v s).k1 = s.k1 := rfl
@[simp] theorem bufWrite_k2 : (bufWrite a v s).k2 = s.k2 := rfl
@[simp] theorem bufWrite_resetPending : (bufWrite a v s).resetPending = s.resetPending := rfl
@[simp] theorem bufWrite_phase : (bufWrite a v s).phase = s.phase := rfl
@[simp] theorem bufWrite_rxCount : (bufWrite a v s).rxCount = s.rxCount := rfl
@[simp] theorem bufWrite_rxExpected : (bufWrite a v s).rxExpected = s.rxExpected := rfl
@[simp] theorem bufWrite_loc : (bufWrite a v s).loc = s.loc := rfl
@[simp] theorem bufWrite_respLen : (bufWrite a v s).respLen = s.respLen := rfl
@[simp] theorem bufWrite_txIndex : (bufWrite a v s).txIndex = s.txIndex := rfl
@[simp] theorem bufWrite_ustate : (bufWrite a v s).ustate = s.ustate := rfl
@[simp] theorem bufWrite_resetRequest : (bufWrite a v s).resetRequest = s.resetRequest := rfl
@[simp] theorem bufWrite_flash : (bufWrite a v s).flash = s.flash := rfl
@[simp] theorem bufWrite_ee : (bufWrite a v s).ee = s.ee := rfl
@[simp] theorem bufWrite_cfg : (bufWrite a v s).cfg = s.cfg := rfl
@[simp] theorem bufWrite_rowBuf : (bufWrite a v s).rowBuf = cellsInsert s.rowBuf a.toNat v := rfl
@[simp] theorem bufWrite_cfgRec : (bufWrite a v s).cfgRec = s.cfgRec := rfl
@[simp] theorem bufWrite_eeBusy : (bufWrite a v s).eeBusy = s.eeBusy := rfl
@[simp] theorem bufWrite_rxQueue : (bufWrite a v s).rxQueue = s.rxQueue := rfl
@[simp] theorem bufWrite_sent : (bufWrite a v s).sent = s.sent := rfl
@[simp] theorem bufWrite_txReady : (bufWrite a v s).txReady = s.txReady := rfl
@[simp] theorem bufWrite_eeStuck : (bufWrite a v s).eeStuck = s.eeStuck := rfl
@[simp] theorem bufWrite_resetAfter : (bufWrite a v s).resetAfter = s.resetAfter := rfl
@[simp] theorem bufWrite_requestLine : (bufWrite a v s).requestLine = s.requestLine := rfl
@[simp] theorem bufWrite_owner : (bufWrite a v s).owner = s.owner := rfl
@[simp] theorem bufWrite_pace : (bufWrite a v s).pace = s.pace := rfl
@[simp] theorem bufWrite_draws : (bufWrite a v s).draws = s.draws := rfl

end

/-! ## commitFlash -/

section
variable (row : Addr) (pair : KeyPair) (s : State)

@[simp] theorem commitFlash_params : (commitFlash row pair s).params = s.params := rfl
@[simp] theorem commitFlash_buf : (commitFlash row pair s).buf = s.buf := rfl
@[simp] theorem commitFlash_k1 : (commitFlash row pair s).k1 = s.k1 := rfl
@[simp] theorem commitFlash_k2 : (commitFlash row pair s).k2 = s.k2 := rfl
@[simp] theorem commitFlash_resetPending : (commitFlash row pair s).resetPending = s.resetPending := rfl
@[simp] theorem commitFlash_phase : (commitFlash row pair s).phase = s.phase := rfl
@[simp] theorem commitFlash_rxCount : (commitFlash row pair s).rxCount = s.rxCount := rfl
@[simp] theorem commitFlash_rxExpected : (commitFlash row pair s).rxExpected = s.rxExpected := rfl
@[simp] theorem commitFlash_loc : (commitFlash row pair s).loc = s.loc := rfl
@[simp] theorem commitFlash_respLen : (commitFlash row pair s).respLen = s.respLen := rfl
@[simp] theorem commitFlash_txIndex : (commitFlash row pair s).txIndex = s.txIndex := rfl
@[simp] theorem commitFlash_resetRequest : (commitFlash row pair s).resetRequest = s.resetRequest := rfl
@[simp] theorem commitFlash_ee : (commitFlash row pair s).ee = s.ee := rfl
@[simp] theorem commitFlash_cfg : (commitFlash row pair s).cfg = s.cfg := rfl
@[simp] theorem commitFlash_cfgRec : (commitFlash row pair s).cfgRec = s.cfgRec := rfl
@[simp] theorem commitFlash_eeBusy : (commitFlash row pair s).eeBusy = s.eeBusy := rfl
@[simp] theorem commitFlash_rxQueue : (commitFlash row pair s).rxQueue = s.rxQueue := rfl
@[simp] theorem commitFlash_sent : (commitFlash row pair s).sent = s.sent := rfl
@[simp] theorem commitFlash_txReady : (commitFlash row pair s).txReady = s.txReady := rfl
@[simp] theorem commitFlash_eeStuck : (commitFlash row pair s).eeStuck = s.eeStuck := rfl
@[simp] theorem commitFlash_resetAfter : (commitFlash row pair s).resetAfter = s.resetAfter := rfl
@[simp] theorem commitFlash_requestLine : (commitFlash row pair s).requestLine = s.requestLine := rfl
@[simp] theorem commitFlash_owner : (commitFlash row pair s).owner = s.owner := rfl
@[simp] theorem commitFlash_pace : (commitFlash row pair s).pace = s.pace := rfl
@[simp] theorem commitFlash_draws : (commitFlash row pair s).draws = s.draws := rfl

end

/-! ## eraseRow -/

section
variable (row : Addr) (pair : KeyPair) (s : State)

@[simp] theorem eraseRow_params : (eraseRow row pair s).params = s.params := rfl
@[simp] theorem eraseRow_buf : (eraseRow row pair s).buf = s.buf := rfl
@[simp] theorem eraseRow_k1 : (eraseRow row pair s).k1 = s.k1 := rfl
@[simp] theorem eraseRow_k2 : (eraseRow row pair s).k2 = s.k2 := rfl
@[simp] theorem eraseRow_resetPending : (eraseRow row pair s).resetPending = s.resetPending := rfl
@[simp] theorem eraseRow_phase : (eraseRow row pair s).phase = s.phase := rfl
@[simp] theorem eraseRow_rxCount : (eraseRow row pair s).rxCount = s.rxCount := rfl
@[simp] theorem eraseRow_rxExpected : (eraseRow row pair s).rxExpected = s.rxExpected := rfl
@[simp] theorem eraseRow_loc : (eraseRow row pair s).loc = s.loc := rfl
@[simp] theorem eraseRow_respLen : (eraseRow row pair s).respLen = s.respLen := rfl
@[simp] theorem eraseRow_txIndex : (eraseRow row pair s).txIndex = s.txIndex := rfl
@[simp] theorem eraseRow_resetRequest : (eraseRow row pair s).resetRequest = s.resetRequest := rfl
@[simp] theorem eraseRow_ee : (eraseRow row pair s).ee = s.ee := rfl
@[simp] theorem eraseRow_cfg : (eraseRow row pair s).cfg = s.cfg := rfl
@[simp] theorem eraseRow_rowBuf : (eraseRow row pair s).rowBuf = s.rowBuf := rfl
@[simp] theorem eraseRow_cfgRec : (eraseRow row pair s).cfgRec = s.cfgRec := rfl
@[simp] theorem eraseRow_eeBusy : (eraseRow row pair s).eeBusy = s.eeBusy := rfl
@[simp] theorem eraseRow_rxQueue : (eraseRow row pair s).rxQueue = s.rxQueue := rfl
@[simp] theorem eraseRow_sent : (eraseRow row pair s).sent = s.sent := rfl
@[simp] theorem eraseRow_txReady : (eraseRow row pair s).txReady = s.txReady := rfl
@[simp] theorem eraseRow_eeStuck : (eraseRow row pair s).eeStuck = s.eeStuck := rfl
@[simp] theorem eraseRow_resetAfter : (eraseRow row pair s).resetAfter = s.resetAfter := rfl
@[simp] theorem eraseRow_requestLine : (eraseRow row pair s).requestLine = s.requestLine := rfl
@[simp] theorem eraseRow_owner : (eraseRow row pair s).owner = s.owner := rfl
@[simp] theorem eraseRow_pace : (eraseRow row pair s).pace = s.pace := rfl
@[simp] theorem eraseRow_draws : (eraseRow row pair s).draws = s.draws := rfl

end

/-! ## completeEE -/

section
variable (s : State)

@[simp] theorem completeEE_params : (completeEE s).params = s.params := rfl
@[simp] theorem completeEE_buf : (completeEE s).buf = s.buf := rfl
@[simp] theorem completeEE_k1 : (completeEE s).k1 = s.k1 := rfl
@[simp] theorem completeEE_k2 : (completeEE s).k2 = s.k2 := rfl
@[simp] theorem completeEE_resetPending : (completeEE s).resetPending = s.resetPending := rfl
@[simp] theorem completeEE_phase : (completeEE s).phase = s.phase := rfl
@[simp] theorem completeEE_rxCount : (completeEE s).rxCount = s.rxCount := rfl
@[simp] theorem completeEE_rxExpected : (completeEE s).rxExpected = s.rxExpected := rfl
@[simp] theorem completeEE_loc : (completeEE s).loc = s.loc := rfl
@[simp] theorem completeEE_respLen : (completeEE s).respLen = s.respLen := rfl
@[simp] theorem completeEE_txIndex : (completeEE s).txIndex = s.txIndex := rfl
@[simp] theorem completeEE_ustate : (completeEE s).ustate = s.ustate := rfl
@[simp] theorem completeEE_resetRequest : (completeEE s).resetRequest = s.resetRequest := rfl
@[simp] theorem completeEE_flash : (completeEE s).flash = s.flash := rfl
@[simp] theorem completeEE_ee : (completeEE s).ee = eeAfterBusy s := rfl
@[simp] theorem completeEE_cfg : (completeEE s).cfg = s.cfg := rfl
@[simp] theorem completeEE_rowBuf : (completeEE s).rowBuf = s.rowBuf := rfl
@[simp] theorem completeEE_cfgRec : (completeEE s).cfgRec = s.cfgRec := rfl
@[simp] theorem completeEE_eeBusy : (completeEE s).eeBusy = none := rfl
@[simp] theorem completeEE_rxQueue : (completeEE s).rxQueue = s.rxQueue := rfl
@[simp] theorem completeEE_sent : (completeEE s).sent = s.sent := rfl
@[simp] theorem completeEE_txReady : (completeEE s).txReady = s.txReady := rfl
@[simp] theorem completeEE_eeStuck : (completeEE s).eeStuck = s.eeStuck := rfl
@[simp] theorem completeEE_resetAfter : (completeEE s).resetAfter = s.resetAfter := rfl
@[simp] theorem completeEE_requestLine : (completeEE s).requestLine = s.requestLine := rfl
@[simp] theorem completeEE_owner : (completeEE s).owner = s.owner := rfl
@[simp] theorem completeEE_pace : (completeEE s).pace = s.pace := rfl
@[simp] theorem completeEE_draws : (completeEE s).draws = s.draws := rfl

end

/-! ## eeWrite -/

section
variable (a : Half) (v : Byte) (pair : KeyPair) (s : State)

@[simp] theorem eeWrite_params : (eeWrite a v pair s).params = s.params := rfl
@[simp] theorem eeWrite_buf : (eeWrite a v pair s).buf = s.buf := rfl
@[simp] theorem eeWrite_k1 : (eeWrite a v pair s).k1 = s.k1 := rfl
@[simp] theorem eeWrite_k2 : (eeWrite a v pair s).k2 = s.k2 := rfl
@[simp] theorem eeWrite_resetPending : (eeWrite a v pair s).resetPending = s.resetPending := rfl
@[simp] theorem eeWrite_phase : (eeWrite a v pair s).phase = s.phase := rfl
@[simp] theorem eeWrite_rxCount : (eeWrite a v pair s).rxCount = s.rxCount := rfl
@[simp] theorem eeWrite_rxExpected : (eeWrite a v pair s).rxExpected = s.rxExpected := rfl
@[simp] theorem eeWrite_loc : (eeWrite a v pair s).loc = s.loc := rfl
@[simp] theorem eeWrite_respLen : (eeWrite a v pair s).respLen = s.respLen := rfl
@[simp] theorem eeWrite_txIndex : (eeWrite a v pair s).txIndex = s.txIndex := rfl
@[simp] theorem eeWrite_resetRequest : (eeWrite a v pair s).resetRequest = s.resetRequest := rfl
@[simp] theorem eeWrite_flash : (eeWrite a v pair s).flash = s.flash := rfl
@[simp] theorem eeWrite_ee : (eeWrite a v pair s).ee = s.ee := rfl
@[simp] theorem eeWrite_cfg : (eeWrite a v pair s).cfg = s.cfg := rfl
@[simp] theorem eeWrite_rowBuf : (eeWrite a v pair s).rowBuf = s.rowBuf := rfl
@[simp] theorem eeWrite_cfgRec : (eeWrite a v pair s).cfgRec = s.cfgRec := rfl
@[simp] theorem eeWrite_rxQueue : (eeWrite a v pair s).rxQueue = s.rxQueue := rfl
@[simp] theorem eeWrite_sent : (eeWrite a v pair s).sent = s.sent := rfl
@[simp] theorem eeWrite_txReady : (eeWrite a v pair s).txReady = s.txReady := rfl
@[simp] theorem eeWrite_eeStuck : (eeWrite a v pair s).eeStuck = s.eeStuck := rfl
@[simp] theorem eeWrite_resetAfter : (eeWrite a v pair s).resetAfter = s.resetAfter := rfl
@[simp] theorem eeWrite_requestLine : (eeWrite a v pair s).requestLine = s.requestLine := rfl
@[simp] theorem eeWrite_owner : (eeWrite a v pair s).owner = s.owner := rfl
@[simp] theorem eeWrite_pace : (eeWrite a v pair s).pace = s.pace := rfl

end

/-! ## cfgWrite -/

section
variable (a : Addr) (v : Byte) (s : State)

@[simp] theorem cfgWrite_params : (cfgWrite a v s).params = s.params := rfl
@[simp] theorem cfgWrite_buf : (cfgWrite a v s).buf = s.buf := rfl
@[simp] theorem cfgWrite_k1 : (cfgWrite a v s).k1 = s.k1 := rfl
@[simp] theorem cfgWrite_k2 : (cfgWrite a v s).k2 = s.k2 := rfl
@[simp] theorem cfgWrite_resetPending : (cfgWrite a v s).resetPending = s.resetPending := rfl
@[simp] theorem cfgWrite_phase : (cfgWrite a v s).phase = s.phase := rfl
@[simp] theorem cfgWrite_rxCount : (cfgWrite a v s).rxCount = s.rxCount := rfl
@[simp] theorem cfgWrite_rxExpected : (cfgWrite a v s).rxExpected = s.rxExpected := rfl
@[simp] theorem cfgWrite_loc : (cfgWrite a v s).loc = s.loc := rfl
@[simp] theorem cfgWrite_respLen : (cfgWrite a v s).respLen = s.respLen := rfl
@[simp] theorem cfgWrite_txIndex : (cfgWrite a v s).txIndex = s.txIndex := rfl
@[simp] theorem cfgWrite_ustate : (cfgWrite a v s).ustate = s.ustate := rfl
@[simp] theorem cfgWrite_resetRequest : (cfgWrite a v s).resetRequest = s.resetRequest := rfl
@[simp] theorem cfgWrite_flash : (cfgWrite a v s).flash = s.flash := rfl
@[simp] theorem cfgWrite_ee : (cfgWrite a v s).ee = s.ee := rfl
@[simp] theorem cfgWrite_cfg : (cfgWrite a v s).cfg = s.cfg := rfl
@[simp] theorem cfgWrite_rowBuf : (cfgWrite a v s).rowBuf = s.rowBuf := rfl
@[simp] theorem cfgWrite_cfgRec : (cfgWrite a v s).cfgRec = cellsInsert s.cfgRec a.toNat v := rfl
@[simp] theorem cfgWrite_eeBusy : (cfgWrite a v s).eeBusy = s.eeBusy := rfl
@[simp] theorem cfgWrite_rxQueue : (cfgWrite a v s).rxQueue = s.rxQueue := rfl
@[simp] theorem cfgWrite_sent : (cfgWrite a v s).sent = s.sent := rfl
@[simp] theorem cfgWrite_txReady : (cfgWrite a v s).txReady = s.txReady := rfl
@[simp] theorem cfgWrite_eeStuck : (cfgWrite a v s).eeStuck = s.eeStuck := rfl
@[simp] theorem cfgWrite_resetAfter : (cfgWrite a v s).resetAfter = s.resetAfter := rfl
@[simp] theorem cfgWrite_requestLine : (cfgWrite a v s).requestLine = s.requestLine := rfl
@[simp] theorem cfgWrite_owner : (cfgWrite a v s).owner = s.owner := rfl
@[simp] theorem cfgWrite_pace : (cfgWrite a v s).pace = s.pace := rfl
@[simp] theorem cfgWrite_draws : (cfgWrite a v s).draws = s.draws := rfl

end

/-! ## commitCfg -/

section
variable (a : Addr) (pair : KeyPair) (s : State)

@[simp] theorem commitCfg_params : (commitCfg a pair s).params = s.params := rfl
@[simp] theorem commitCfg_buf : (commitCfg a pair s).buf = s.buf := rfl
@[simp] theorem commitCfg_k1 : (commitCfg a pair s).k1 = s.k1 := rfl
@[simp] theorem commitCfg_k2 : (commitCfg a pair s).k2 = s.k2 := rfl
@[simp] theorem commitCfg_resetPending : (commitCfg a pair s).resetPending = s.resetPending := rfl
@[simp] theorem commitCfg_phase : (commitCfg a pair s).phase = s.phase := rfl
@[simp] theorem commitCfg_rxCount : (commitCfg a pair s).rxCount = s.rxCount := rfl
@[simp] theorem commitCfg_rxExpected : (commitCfg a pair s).rxExpected = s.rxExpected := rfl
@[simp] theorem commitCfg_loc : (commitCfg a pair s).loc = s.loc := rfl
@[simp] theorem commitCfg_respLen : (commitCfg a pair s).respLen = s.respLen := rfl
@[simp] theorem commitCfg_txIndex : (commitCfg a pair s).txIndex = s.txIndex := rfl
@[simp] theorem commitCfg_resetRequest : (commitCfg a pair s).resetRequest = s.resetRequest := rfl
@[simp] theorem commitCfg_flash : (commitCfg a pair s).flash = s.flash := rfl
@[simp] theorem commitCfg_ee : (commitCfg a pair s).ee = s.ee := rfl
@[simp] theorem commitCfg_rowBuf : (commitCfg a pair s).rowBuf = s.rowBuf := rfl
@[simp] theorem commitCfg_eeBusy : (commitCfg a pair s).eeBusy = s.eeBusy := rfl
@[simp] theorem commitCfg_rxQueue : (commitCfg a pair s).rxQueue = s.rxQueue := rfl
@[simp] theorem commitCfg_sent : (commitCfg a pair s).sent = s.sent := rfl
@[simp] theorem commitCfg_txReady : (commitCfg a pair s).txReady = s.txReady := rfl
@[simp] theorem commitCfg_eeStuck : (commitCfg a pair s).eeStuck = s.eeStuck := rfl
@[simp] theorem commitCfg_resetAfter : (commitCfg a pair s).resetAfter = s.resetAfter := rfl
@[simp] theorem commitCfg_requestLine : (commitCfg a pair s).requestLine = s.requestLine := rfl
@[simp] theorem commitCfg_owner : (commitCfg a pair s).owner = s.owner := rfl
@[simp] theorem commitCfg_pace : (commitCfg a pair s).pace = s.pace := rfl
@[simp] theorem commitCfg_draws : (commitCfg a pair s).draws = s.draws := rfl

end

/-! ## suspend -/

section
variable (l : Loc) (s : State)

@[simp] theorem suspend_params : (suspend l s).params = s.params := rfl
@[simp] theorem suspend_buf : (suspend l s).buf = s.buf := rfl
@[simp] theorem suspend_k1 : (suspend l s).k1 = s.k1 := rfl
@[simp] theorem suspend_k2 : (suspend l s).k2 = s.k2 := rfl
@[simp] theorem suspend_resetPending : (suspend l s).resetPending = s.resetPending := rfl
@[simp] theorem suspend_phase : (suspend l s).phase = s.phase := rfl
@[simp] theorem suspend_rxCount : (suspend l s).rxCount = s.rxCount := rfl
@[simp] theorem suspend_rxExpected : (suspend l s).rxExpected = s.rxExpected := rfl
@[simp] theorem suspend_loc : (suspend l s).loc = some l := rfl
@[simp] theorem suspend_respLen : (suspend l s).respLen = s.respLen := rfl
@[simp] theorem suspend_txIndex : (suspend l s).txIndex = s.txIndex := rfl
@[simp] theorem suspend_ustate : (suspend l s).ustate = s.ustate := rfl
@[simp] theorem suspend_resetRequest : (suspend l s).resetRequest = s.resetRequest := rfl
@[simp] theorem suspend_flash : (suspend l s).flash = s.flash := rfl
@[simp] theorem suspend_ee : (suspend l s).ee = s.ee := rfl
@[simp] theorem suspend_cfg : (suspend l s).cfg = s.cfg := rfl
@[simp] theorem suspend_rowBuf : (suspend l s).rowBuf = s.rowBuf := rfl
@[simp] theorem suspend_cfgRec : (suspend l s).cfgRec = s.cfgRec := rfl
@[simp] theorem suspend_eeBusy : (suspend l s).eeBusy = s.eeBusy := rfl
@[simp] theorem suspend_rxQueue : (suspend l s).rxQueue = s.rxQueue := rfl
@[simp] theorem suspend_sent : (suspend l s).sent = s.sent := rfl
@[simp] theorem suspend_txReady : (suspend l s).txReady = s.txReady := rfl
@[simp] theorem suspend_eeStuck : (suspend l s).eeStuck = s.eeStuck := rfl
@[simp] theorem suspend_resetAfter : (suspend l s).resetAfter = s.resetAfter := rfl
@[simp] theorem suspend_requestLine : (suspend l s).requestLine = s.requestLine := rfl
@[simp] theorem suspend_owner : (suspend l s).owner = s.owner := rfl
@[simp] theorem suspend_pace : (suspend l s).pace = s.pace := rfl
@[simp] theorem suspend_draws : (suspend l s).draws = s.draws := rfl

end

/-! ## dropStale -/

section
variable (s : State)

@[simp] theorem dropStale_params : (dropStale s).params = s.params := rfl
@[simp] theorem dropStale_buf : (dropStale s).buf = s.buf := rfl
@[simp] theorem dropStale_k1 : (dropStale s).k1 = s.k1 := rfl
@[simp] theorem dropStale_k2 : (dropStale s).k2 = s.k2 := rfl
@[simp] theorem dropStale_resetPending : (dropStale s).resetPending = s.resetPending := rfl
@[simp] theorem dropStale_phase : (dropStale s).phase = s.phase := rfl
@[simp] theorem dropStale_rxCount : (dropStale s).rxCount = s.rxCount := rfl
@[simp] theorem dropStale_rxExpected : (dropStale s).rxExpected = s.rxExpected := rfl
@[simp] theorem dropStale_loc : (dropStale s).loc = s.loc := rfl
@[simp] theorem dropStale_respLen : (dropStale s).respLen = s.respLen := rfl
@[simp] theorem dropStale_txIndex : (dropStale s).txIndex = s.txIndex := rfl
@[simp] theorem dropStale_ustate : (dropStale s).ustate = s.ustate := rfl
@[simp] theorem dropStale_resetRequest : (dropStale s).resetRequest = s.resetRequest := rfl
@[simp] theorem dropStale_flash : (dropStale s).flash = s.flash := rfl
@[simp] theorem dropStale_ee : (dropStale s).ee = s.ee := rfl
@[simp] theorem dropStale_cfg : (dropStale s).cfg = s.cfg := rfl
@[simp] theorem dropStale_rowBuf : (dropStale s).rowBuf = staleAfterAbort s.params.staleRowBuffer s.rowBuf := rfl
@[simp] theorem dropStale_cfgRec : (dropStale s).cfgRec = s.cfgRec := rfl
@[simp] theorem dropStale_eeBusy : (dropStale s).eeBusy = s.eeBusy := rfl
@[simp] theorem dropStale_rxQueue : (dropStale s).rxQueue = s.rxQueue := rfl
@[simp] theorem dropStale_sent : (dropStale s).sent = s.sent := rfl
@[simp] theorem dropStale_txReady : (dropStale s).txReady = s.txReady := rfl
@[simp] theorem dropStale_eeStuck : (dropStale s).eeStuck = s.eeStuck := rfl
@[simp] theorem dropStale_resetAfter : (dropStale s).resetAfter = s.resetAfter := rfl
@[simp] theorem dropStale_requestLine : (dropStale s).requestLine = s.requestLine := rfl
@[simp] theorem dropStale_owner : (dropStale s).owner = s.owner := rfl
@[simp] theorem dropStale_pace : (dropStale s).pace = s.pace := rfl
@[simp] theorem dropStale_draws : (dropStale s).draws = s.draws := rfl

end

/-! ## setResetPending -/

section
variable (s : State)

@[simp] theorem setResetPending_params : (setResetPending s).params = s.params := rfl
@[simp] theorem setResetPending_buf : (setResetPending s).buf = s.buf := rfl
@[simp] theorem setResetPending_k1 : (setResetPending s).k1 = s.k1 := rfl
@[simp] theorem setResetPending_k2 : (setResetPending s).k2 = s.k2 := rfl
@[simp] theorem setResetPending_resetPending : (setResetPending s).resetPending = true := rfl
@[simp] theorem setResetPending_phase : (setResetPending s).phase = s.phase := rfl
@[simp] theorem setResetPending_rxCount : (setResetPending s).rxCount = s.rxCount := rfl
@[simp] theorem setResetPending_rxExpected : (setResetPending s).rxExpected = s.rxExpected := rfl
@[simp] theorem setResetPending_loc : (setResetPending s).loc = s.loc := rfl
@[simp] theorem setResetPending_respLen : (setResetPending s).respLen = s.respLen := rfl
@[simp] theorem setResetPending_txIndex : (setResetPending s).txIndex = s.txIndex := rfl
@[simp] theorem setResetPending_ustate : (setResetPending s).ustate = s.ustate := rfl
@[simp] theorem setResetPending_resetRequest : (setResetPending s).resetRequest = s.resetRequest := rfl
@[simp] theorem setResetPending_flash : (setResetPending s).flash = s.flash := rfl
@[simp] theorem setResetPending_ee : (setResetPending s).ee = s.ee := rfl
@[simp] theorem setResetPending_cfg : (setResetPending s).cfg = s.cfg := rfl
@[simp] theorem setResetPending_rowBuf : (setResetPending s).rowBuf = s.rowBuf := rfl
@[simp] theorem setResetPending_cfgRec : (setResetPending s).cfgRec = s.cfgRec := rfl
@[simp] theorem setResetPending_eeBusy : (setResetPending s).eeBusy = s.eeBusy := rfl
@[simp] theorem setResetPending_rxQueue : (setResetPending s).rxQueue = s.rxQueue := rfl
@[simp] theorem setResetPending_sent : (setResetPending s).sent = s.sent := rfl
@[simp] theorem setResetPending_txReady : (setResetPending s).txReady = s.txReady := rfl
@[simp] theorem setResetPending_eeStuck : (setResetPending s).eeStuck = s.eeStuck := rfl
@[simp] theorem setResetPending_resetAfter : (setResetPending s).resetAfter = s.resetAfter := rfl
@[simp] theorem setResetPending_requestLine : (setResetPending s).requestLine = s.requestLine := rfl
@[simp] theorem setResetPending_owner : (setResetPending s).owner = s.owner := rfl
@[simp] theorem setResetPending_pace : (setResetPending s).pace = s.pace := rfl
@[simp] theorem setResetPending_draws : (setResetPending s).draws = s.draws := rfl

end

/-! ## takeByte -/

section
variable (rest : List Byte) (s : State)

@[simp] theorem takeByte_params : (takeByte rest s).params = s.params := rfl
@[simp] theorem takeByte_buf : (takeByte rest s).buf = s.buf := rfl
@[simp] theorem takeByte_k1 : (takeByte rest s).k1 = s.k1 := rfl
@[simp] theorem takeByte_k2 : (takeByte rest s).k2 = s.k2 := rfl
@[simp] theorem takeByte_resetPending : (takeByte rest s).resetPending = s.resetPending := rfl
@[simp] theorem takeByte_phase : (takeByte rest s).phase = s.phase := rfl
@[simp] theorem takeByte_rxCount : (takeByte rest s).rxCount = s.rxCount := rfl
@[simp] theorem takeByte_rxExpected : (takeByte rest s).rxExpected = s.rxExpected := rfl
@[simp] theorem takeByte_loc : (takeByte rest s).loc = s.loc := rfl
@[simp] theorem takeByte_respLen : (takeByte rest s).respLen = s.respLen := rfl
@[simp] theorem takeByte_txIndex : (takeByte rest s).txIndex = s.txIndex := rfl
@[simp] theorem takeByte_ustate : (takeByte rest s).ustate = s.ustate := rfl
@[simp] theorem takeByte_resetRequest : (takeByte rest s).resetRequest = s.resetRequest := rfl
@[simp] theorem takeByte_flash : (takeByte rest s).flash = s.flash := rfl
@[simp] theorem takeByte_ee : (takeByte rest s).ee = s.ee := rfl
@[simp] theorem takeByte_cfg : (takeByte rest s).cfg = s.cfg := rfl
@[simp] theorem takeByte_rowBuf : (takeByte rest s).rowBuf = s.rowBuf := rfl
@[simp] theorem takeByte_cfgRec : (takeByte rest s).cfgRec = s.cfgRec := rfl
@[simp] theorem takeByte_eeBusy : (takeByte rest s).eeBusy = s.eeBusy := rfl
@[simp] theorem takeByte_rxQueue : (takeByte rest s).rxQueue = rest := rfl
@[simp] theorem takeByte_sent : (takeByte rest s).sent = s.sent := rfl
@[simp] theorem takeByte_txReady : (takeByte rest s).txReady = s.txReady := rfl
@[simp] theorem takeByte_eeStuck : (takeByte rest s).eeStuck = s.eeStuck := rfl
@[simp] theorem takeByte_resetAfter : (takeByte rest s).resetAfter = s.resetAfter := rfl
@[simp] theorem takeByte_requestLine : (takeByte rest s).requestLine = s.requestLine := rfl
@[simp] theorem takeByte_owner : (takeByte rest s).owner = s.owner := rfl
@[simp] theorem takeByte_pace : (takeByte rest s).pace = s.pace := rfl
@[simp] theorem takeByte_draws : (takeByte rest s).draws = s.draws := rfl

end

/-! ## setExpected -/

section
variable (n : Nat) (s : State)

@[simp] theorem setExpected_params : (setExpected n s).params = s.params := rfl
@[simp] theorem setExpected_buf : (setExpected n s).buf = s.buf := rfl
@[simp] theorem setExpected_k1 : (setExpected n s).k1 = s.k1 := rfl
@[simp] theorem setExpected_k2 : (setExpected n s).k2 = s.k2 := rfl
@[simp] theorem setExpected_resetPending : (setExpected n s).resetPending = s.resetPending := rfl
@[simp] theorem setExpected_phase : (setExpected n s).phase = s.phase := rfl
@[simp] theorem setExpected_rxCount : (setExpected n s).rxCount = s.rxCount := rfl
@[simp] theorem setExpected_rxExpected : (setExpected n s).rxExpected = n := rfl
@[simp] theorem setExpected_loc : (setExpected n s).loc = s.loc := rfl
@[simp] theorem setExpected_respLen : (setExpected n s).respLen = s.respLen := rfl
@[simp] theorem setExpected_txIndex : (setExpected n s).txIndex = s.txIndex := rfl
@[simp] theorem setExpected_ustate : (setExpected n s).ustate = s.ustate := rfl
@[simp] theorem setExpected_resetRequest : (setExpected n s).resetRequest = s.resetRequest := rfl
@[simp] theorem setExpected_flash : (setExpected n s).flash = s.flash := rfl
@[simp] theorem setExpected_ee : (setExpected n s).ee = s.ee := rfl
@[simp] theorem setExpected_cfg : (setExpected n s).cfg = s.cfg := rfl
@[simp] theorem setExpected_rowBuf : (setExpected n s).rowBuf = s.rowBuf := rfl
@[simp] theorem setExpected_cfgRec : (setExpected n s).cfgRec = s.cfgRec := rfl
@[simp] theorem setExpected_eeBusy : (setExpected n s).eeBusy = s.eeBusy := rfl
@[simp] theorem setExpected_rxQueue : (setExpected n s).rxQueue = s.rxQueue := rfl
@[simp] theorem setExpected_sent : (setExpected n s).sent = s.sent := rfl
@[simp] theorem setExpected_txReady : (setExpected n s).txReady = s.txReady := rfl
@[simp] theorem setExpected_eeStuck : (setExpected n s).eeStuck = s.eeStuck := rfl
@[simp] theorem setExpected_resetAfter : (setExpected n s).resetAfter = s.resetAfter := rfl
@[simp] theorem setExpected_requestLine : (setExpected n s).requestLine = s.requestLine := rfl
@[simp] theorem setExpected_owner : (setExpected n s).owner = s.owner := rfl
@[simp] theorem setExpected_pace : (setExpected n s).pace = s.pace := rfl
@[simp] theorem setExpected_draws : (setExpected n s).draws = s.draws := rfl

end

/-! ## enterDispatch -/

section
variable (s : State)

@[simp] theorem enterDispatch_params : (enterDispatch s).params = s.params := rfl
@[simp] theorem enterDispatch_buf : (enterDispatch s).buf = s.buf := rfl
@[simp] theorem enterDispatch_k1 : (enterDispatch s).k1 = s.k1 := rfl
@[simp] theorem enterDispatch_k2 : (enterDispatch s).k2 = s.k2 := rfl
@[simp] theorem enterDispatch_resetPending : (enterDispatch s).resetPending = s.resetPending := rfl
@[simp] theorem enterDispatch_phase : (enterDispatch s).phase = .dispatch := rfl
@[simp] theorem enterDispatch_rxCount : (enterDispatch s).rxCount = s.rxCount := rfl
@[simp] theorem enterDispatch_rxExpected : (enterDispatch s).rxExpected = s.rxExpected := rfl
@[simp] theorem enterDispatch_loc : (enterDispatch s).loc = s.loc := rfl
@[simp] theorem enterDispatch_respLen : (enterDispatch s).respLen = s.respLen := rfl
@[simp] theorem enterDispatch_txIndex : (enterDispatch s).txIndex = s.txIndex := rfl
@[simp] theorem enterDispatch_ustate : (enterDispatch s).ustate = s.ustate := rfl
@[simp] theorem enterDispatch_resetRequest : (enterDispatch s).resetRequest = s.resetRequest := rfl
@[simp] theorem enterDispatch_flash : (enterDispatch s).flash = s.flash := rfl
@[simp] theorem enterDispatch_ee : (enterDispatch s).ee = s.ee := rfl
@[simp] theorem enterDispatch_cfg : (enterDispatch s).cfg = s.cfg := rfl
@[simp] theorem enterDispatch_rowBuf : (enterDispatch s).rowBuf = s.rowBuf := rfl
@[simp] theorem enterDispatch_cfgRec : (enterDispatch s).cfgRec = s.cfgRec := rfl
@[simp] theorem enterDispatch_eeBusy : (enterDispatch s).eeBusy = s.eeBusy := rfl
@[simp] theorem enterDispatch_rxQueue : (enterDispatch s).rxQueue = s.rxQueue := rfl
@[simp] theorem enterDispatch_sent : (enterDispatch s).sent = s.sent := rfl
@[simp] theorem enterDispatch_txReady : (enterDispatch s).txReady = s.txReady := rfl
@[simp] theorem enterDispatch_eeStuck : (enterDispatch s).eeStuck = s.eeStuck := rfl
@[simp] theorem enterDispatch_resetAfter : (enterDispatch s).resetAfter = s.resetAfter := rfl
@[simp] theorem enterDispatch_requestLine : (enterDispatch s).requestLine = s.requestLine := rfl
@[simp] theorem enterDispatch_owner : (enterDispatch s).owner = s.owner := rfl
@[simp] theorem enterDispatch_pace : (enterDispatch s).pace = s.pace := rfl
@[simp] theorem enterDispatch_draws : (enterDispatch s).draws = s.draws := rfl

end

/-! ## setTxIndex -/

section
variable (t : Nat) (s : State)

@[simp] theorem setTxIndex_params : (setTxIndex t s).params = s.params := rfl
@[simp] theorem setTxIndex_buf : (setTxIndex t s).buf = s.buf := rfl
@[simp] theorem setTxIndex_k1 : (setTxIndex t s).k1 = s.k1 := rfl
@[simp] theorem setTxIndex_k2 : (setTxIndex t s).k2 = s.k2 := rfl
@[simp] theorem setTxIndex_resetPending : (setTxIndex t s).resetPending = s.resetPending := rfl
@[simp] theorem setTxIndex_phase : (setTxIndex t s).phase = s.phase := rfl
@[simp] theorem setTxIndex_rxCount : (setTxIndex t s).rxCount = s.rxCount := rfl
@[simp] theorem setTxIndex_rxExpected : (setTxIndex t s).rxExpected = s.rxExpected := rfl
@[simp] theorem setTxIndex_loc : (setTxIndex t s).loc = s.loc := rfl
@[simp] theorem setTxIndex_respLen : (setTxIndex t s).respLen = s.respLen := rfl
@[simp] theorem setTxIndex_txIndex : (setTxIndex t s).txIndex = some (.byte t) := rfl
@[simp] theorem setTxIndex_ustate : (setTxIndex t s).ustate = s.ustate := rfl
@[simp] theorem setTxIndex_resetRequest : (setTxIndex t s).resetRequest = s.resetRequest := rfl
@[simp] theorem setTxIndex_flash : (setTxIndex t s).flash = s.flash := rfl
@[simp] theorem setTxIndex_ee : (setTxIndex t s).ee = s.ee := rfl
@[simp] theorem setTxIndex_cfg : (setTxIndex t s).cfg = s.cfg := rfl
@[simp] theorem setTxIndex_rowBuf : (setTxIndex t s).rowBuf = s.rowBuf := rfl
@[simp] theorem setTxIndex_cfgRec : (setTxIndex t s).cfgRec = s.cfgRec := rfl
@[simp] theorem setTxIndex_eeBusy : (setTxIndex t s).eeBusy = s.eeBusy := rfl
@[simp] theorem setTxIndex_rxQueue : (setTxIndex t s).rxQueue = s.rxQueue := rfl
@[simp] theorem setTxIndex_sent : (setTxIndex t s).sent = s.sent := rfl
@[simp] theorem setTxIndex_txReady : (setTxIndex t s).txReady = s.txReady := rfl
@[simp] theorem setTxIndex_eeStuck : (setTxIndex t s).eeStuck = s.eeStuck := rfl
@[simp] theorem setTxIndex_resetAfter : (setTxIndex t s).resetAfter = s.resetAfter := rfl
@[simp] theorem setTxIndex_requestLine : (setTxIndex t s).requestLine = s.requestLine := rfl
@[simp] theorem setTxIndex_owner : (setTxIndex t s).owner = s.owner := rfl
@[simp] theorem setTxIndex_pace : (setTxIndex t s).pace = s.pace := rfl
@[simp] theorem setTxIndex_draws : (setTxIndex t s).draws = s.draws := rfl

end

/-! ## tickReset -/

section
variable (s : State)

@[simp] theorem tickReset_params : (tickReset s).params = s.params := rfl
@[simp] theorem tickReset_buf : (tickReset s).buf = s.buf := rfl
@[simp] theorem tickReset_k1 : (tickReset s).k1 = s.k1 := rfl
@[simp] theorem tickReset_k2 : (tickReset s).k2 = s.k2 := rfl
@[simp] theorem tickReset_resetPending : (tickReset s).resetPending = s.resetPending := rfl
@[simp] theorem tickReset_phase : (tickReset s).phase = s.phase := rfl
@[simp] theorem tickReset_rxCount : (tickReset s).rxCount = s.rxCount := rfl
@[simp] theorem tickReset_rxExpected : (tickReset s).rxExpected = s.rxExpected := rfl
@[simp] theorem tickReset_loc : (tickReset s).loc = s.loc := rfl
@[simp] theorem tickReset_respLen : (tickReset s).respLen = s.respLen := rfl
@[simp] theorem tickReset_txIndex : (tickReset s).txIndex = s.txIndex := rfl
@[simp] theorem tickReset_ustate : (tickReset s).ustate = s.ustate := rfl
@[simp] theorem tickReset_resetRequest : (tickReset s).resetRequest = s.resetRequest := rfl
@[simp] theorem tickReset_flash : (tickReset s).flash = s.flash := rfl
@[simp] theorem tickReset_ee : (tickReset s).ee = s.ee := rfl
@[simp] theorem tickReset_cfg : (tickReset s).cfg = s.cfg := rfl
@[simp] theorem tickReset_rowBuf : (tickReset s).rowBuf = s.rowBuf := rfl
@[simp] theorem tickReset_cfgRec : (tickReset s).cfgRec = s.cfgRec := rfl
@[simp] theorem tickReset_eeBusy : (tickReset s).eeBusy = s.eeBusy := rfl
@[simp] theorem tickReset_rxQueue : (tickReset s).rxQueue = s.rxQueue := rfl
@[simp] theorem tickReset_sent : (tickReset s).sent = s.sent := rfl
@[simp] theorem tickReset_txReady : (tickReset s).txReady = s.txReady := rfl
@[simp] theorem tickReset_eeStuck : (tickReset s).eeStuck = s.eeStuck := rfl
@[simp] theorem tickReset_resetAfter : (tickReset s).resetAfter = s.resetAfter.map (· - 1) := rfl
@[simp] theorem tickReset_requestLine : (tickReset s).requestLine = s.requestLine := rfl
@[simp] theorem tickReset_owner : (tickReset s).owner = s.owner := rfl
@[simp] theorem tickReset_pace : (tickReset s).pace = s.pace := rfl
@[simp] theorem tickReset_draws : (tickReset s).draws = s.draws := rfl

end

/-! ## tickEE -/

section
variable (s : State)

@[simp] theorem tickEE_params : (tickEE s).params = s.params := rfl
@[simp] theorem tickEE_buf : (tickEE s).buf = s.buf := rfl
@[simp] theorem tickEE_k1 : (tickEE s).k1 = s.k1 := rfl
@[simp] theorem tickEE_k2 : (tickEE s).k2 = s.k2 := rfl
@[simp] theorem tickEE_resetPending : (tickEE s).resetPending = s.resetPending := rfl
@[simp] theorem tickEE_phase : (tickEE s).phase = s.phase := rfl
@[simp] theorem tickEE_rxCount : (tickEE s).rxCount = s.rxCount := rfl
@[simp] theorem tickEE_rxExpected : (tickEE s).rxExpected = s.rxExpected := rfl
@[simp] theorem tickEE_loc : (tickEE s).loc = s.loc := rfl
@[simp] theorem tickEE_respLen : (tickEE s).respLen = s.respLen := rfl
@[simp] theorem tickEE_txIndex : (tickEE s).txIndex = s.txIndex := rfl
@[simp] theorem tickEE_ustate : (tickEE s).ustate = s.ustate := rfl
@[simp] theorem tickEE_resetRequest : (tickEE s).resetRequest = s.resetRequest := rfl
@[simp] theorem tickEE_flash : (tickEE s).flash = s.flash := rfl
@[simp] theorem tickEE_cfg : (tickEE s).cfg = s.cfg := rfl
@[simp] theorem tickEE_rowBuf : (tickEE s).rowBuf = s.rowBuf := rfl
@[simp] theorem tickEE_cfgRec : (tickEE s).cfgRec = s.cfgRec := rfl
@[simp] theorem tickEE_rxQueue : (tickEE s).rxQueue = s.rxQueue := rfl
@[simp] theorem tickEE_sent : (tickEE s).sent = s.sent := rfl
@[simp] theorem tickEE_txReady : (tickEE s).txReady = s.txReady := rfl
@[simp] theorem tickEE_eeStuck : (tickEE s).eeStuck = s.eeStuck := rfl
@[simp] theorem tickEE_resetAfter : (tickEE s).resetAfter = s.resetAfter := rfl
@[simp] theorem tickEE_requestLine : (tickEE s).requestLine = s.requestLine := rfl
@[simp] theorem tickEE_owner : (tickEE s).owner = s.owner := rfl
@[simp] theorem tickEE_pace : (tickEE s).pace = s.pace := rfl
@[simp] theorem tickEE_draws : (tickEE s).draws = s.draws := rfl

end

/-! ## tick -/

section
variable (s : State)

@[simp] theorem tick_params : (tick s).params = s.params := rfl
@[simp] theorem tick_buf : (tick s).buf = s.buf := rfl
@[simp] theorem tick_k1 : (tick s).k1 = s.k1 := rfl
@[simp] theorem tick_k2 : (tick s).k2 = s.k2 := rfl
@[simp] theorem tick_resetPending : (tick s).resetPending = s.resetPending := rfl
@[simp] theorem tick_phase : (tick s).phase = s.phase := rfl
@[simp] theorem tick_rxCount : (tick s).rxCount = s.rxCount := rfl
@[simp] theorem tick_rxExpected : (tick s).rxExpected = s.rxExpected := rfl
@[simp] theorem tick_loc : (tick s).loc = s.loc := rfl
@[simp] theorem tick_respLen : (tick s).respLen = s.respLen := rfl
@[simp] theorem tick_txIndex : (tick s).txIndex = s.txIndex := rfl
@[simp] theorem tick_ustate : (tick s).ustate = s.ustate := rfl
@[simp] theorem tick_resetRequest : (tick s).resetRequest = s.resetRequest := rfl
@[simp] theorem tick_flash : (tick s).flash = s.flash := rfl
@[simp] theorem tick_ee : (tick s).ee = (tickEE s).ee := rfl
@[simp] theorem tick_cfg : (tick s).cfg = s.cfg := rfl
@[simp] theorem tick_rowBuf : (tick s).rowBuf = s.rowBuf := rfl
@[simp] theorem tick_cfgRec : (tick s).cfgRec = s.cfgRec := rfl
@[simp] theorem tick_eeBusy : (tick s).eeBusy = (tickEE s).eeBusy := rfl
@[simp] theorem tick_rxQueue : (tick s).rxQueue = s.rxQueue := rfl
@[simp] theorem tick_sent : (tick s).sent = s.sent := rfl
@[simp] theorem tick_txReady : (tick s).txReady = s.txReady := rfl
@[simp] theorem tick_eeStuck : (tick s).eeStuck = s.eeStuck := rfl
@[simp] theorem tick_resetAfter : (tick s).resetAfter = s.resetAfter.map (· - 1) := rfl
@[simp] theorem tick_requestLine : (tick s).requestLine = s.requestLine := rfl
@[simp] theorem tick_owner : (tick s).owner = s.owner := rfl
@[simp] theorem tick_pace : (tick s).pace = s.pace := rfl
@[simp] theorem tick_draws : (tick s).draws = s.draws := rfl

end

/-! ## storeByte -/

section
variable (b : Byte) (s : State)

@[simp] theorem storeByte_params : (storeByte b s).params = s.params := rfl
@[simp] theorem storeByte_k1 : (storeByte b s).k1 = s.k1 := rfl
@[simp] theorem storeByte_k2 : (storeByte b s).k2 = s.k2 := rfl
@[simp] theorem storeByte_resetPending : (storeByte b s).resetPending = s.resetPending := rfl
@[simp] theorem storeByte_phase : (storeByte b s).phase = s.phase := rfl
@[simp] theorem storeByte_rxCount : (storeByte b s).rxCount = s.rxCount + 1 := rfl
@[simp] theorem storeByte_rxExpected : (storeByte b s).rxExpected = s.rxExpected := rfl
@[simp] theorem storeByte_loc : (storeByte b s).loc = s.loc := rfl
@[simp] theorem storeByte_respLen : (storeByte b s).respLen = s.respLen := rfl
@[simp] theorem storeByte_txIndex : (storeByte b s).txIndex = s.txIndex := rfl
@[simp] theorem storeByte_ustate : (storeByte b s).ustate = s.ustate := rfl
@[simp] theorem storeByte_resetRequest : (storeByte b s).resetRequest = s.resetRequest := rfl
@[simp] theorem storeByte_flash : (storeByte b s).flash = s.flash := rfl
@[simp] theorem storeByte_ee : (storeByte b s).ee = s.ee := rfl
@[simp] theorem storeByte_cfg : (storeByte b s).cfg = s.cfg := rfl
@[simp] theorem storeByte_rowBuf : (storeByte b s).rowBuf = s.rowBuf := rfl
@[simp] theorem storeByte_cfgRec : (storeByte b s).cfgRec = s.cfgRec := rfl
@[simp] theorem storeByte_eeBusy : (storeByte b s).eeBusy = s.eeBusy := rfl
@[simp] theorem storeByte_rxQueue : (storeByte b s).rxQueue = s.rxQueue := rfl
@[simp] theorem storeByte_sent : (storeByte b s).sent = s.sent := rfl
@[simp] theorem storeByte_txReady : (storeByte b s).txReady = s.txReady := rfl
@[simp] theorem storeByte_eeStuck : (storeByte b s).eeStuck = s.eeStuck := rfl
@[simp] theorem storeByte_resetAfter : (storeByte b s).resetAfter = s.resetAfter := rfl
@[simp] theorem storeByte_requestLine : (storeByte b s).requestLine = s.requestLine := rfl
@[simp] theorem storeByte_owner : (storeByte b s).owner = s.owner := rfl
@[simp] theorem storeByte_pace : (storeByte b s).pace = s.pace := rfl
@[simp] theorem storeByte_draws : (storeByte b s).draws = s.draws := rfl

end

/-! ## idlePoint -/

section
variable (s : State)

@[simp] theorem idlePoint_params : (idlePoint s).params = s.params := rfl
@[simp] theorem idlePoint_buf : (idlePoint s).buf = s.buf := rfl
@[simp] theorem idlePoint_k1 : (idlePoint s).k1 = s.k1 := rfl
@[simp] theorem idlePoint_k2 : (idlePoint s).k2 = s.k2 := rfl
@[simp] theorem idlePoint_resetPending : (idlePoint s).resetPending = s.resetPending := rfl
@[simp] theorem idlePoint_phase : (idlePoint s).phase = phaseAfterResponse s.resetPending := rfl
@[simp] theorem idlePoint_rxCount : (idlePoint s).rxCount = 0 := rfl
@[simp] theorem idlePoint_rxExpected : (idlePoint s).rxExpected = 9 := rfl
@[simp] theorem idlePoint_loc : (idlePoint s).loc = s.loc := rfl
@[simp] theorem idlePoint_respLen : (idlePoint s).respLen = none := rfl
@[simp] theorem idlePoint_txIndex : (idlePoint s).txIndex = none := rfl
@[simp] theorem idlePoint_ustate : (idlePoint s).ustate = s.ustate := rfl
@[simp] theorem idlePoint_resetRequest : (idlePoint s).resetRequest = s.resetRequest := rfl
@[simp] theorem idlePoint_flash : (idlePoint s).flash = s.flash := rfl
@[simp] theorem idlePoint_ee : (idlePoint s).ee = s.ee := rfl
@[simp] theorem idlePoint_cfg : (idlePoint s).cfg = s.cfg := rfl
@[simp] theorem idlePoint_rowBuf : (idlePoint s).rowBuf = s.rowBuf := rfl
@[simp] theorem idlePoint_cfgRec : (idlePoint s).cfgRec = s.cfgRec := rfl
@[simp] theorem idlePoint_eeBusy : (idlePoint s).eeBusy = s.eeBusy := rfl
@[simp] theorem idlePoint_rxQueue : (idlePoint s).rxQueue = s.rxQueue := rfl
@[simp] theorem idlePoint_sent : (idlePoint s).sent = s.sent := rfl
@[simp] theorem idlePoint_txReady : (idlePoint s).txReady = s.txReady := rfl
@[simp] theorem idlePoint_eeStuck : (idlePoint s).eeStuck = s.eeStuck := rfl
@[simp] theorem idlePoint_resetAfter : (idlePoint s).resetAfter = s.resetAfter := rfl
@[simp] theorem idlePoint_requestLine : (idlePoint s).requestLine = s.requestLine := rfl
@[simp] theorem idlePoint_owner : (idlePoint s).owner = s.owner := rfl
@[simp] theorem idlePoint_pace : (idlePoint s).pace = s.pace := rfl
@[simp] theorem idlePoint_draws : (idlePoint s).draws = s.draws := rfl

end

/-! ## assertReset -/

section
variable (s : State)

@[simp] theorem assertReset_params : (assertReset s).params = s.params := rfl
@[simp] theorem assertReset_buf : (assertReset s).buf = s.buf := rfl
@[simp] theorem assertReset_k1 : (assertReset s).k1 = s.k1 := rfl
@[simp] theorem assertReset_k2 : (assertReset s).k2 = s.k2 := rfl
@[simp] theorem assertReset_resetPending : (assertReset s).resetPending = s.resetPending := rfl
@[simp] theorem assertReset_phase : (assertReset s).phase = .resetHold := rfl
@[simp] theorem assertReset_rxCount : (assertReset s).rxCount = s.rxCount := rfl
@[simp] theorem assertReset_rxExpected : (assertReset s).rxExpected = s.rxExpected := rfl
@[simp] theorem assertReset_loc : (assertReset s).loc = s.loc := rfl
@[simp] theorem assertReset_respLen : (assertReset s).respLen = s.respLen := rfl
@[simp] theorem assertReset_txIndex : (assertReset s).txIndex = s.txIndex := rfl
@[simp] theorem assertReset_ustate : (assertReset s).ustate = s.ustate := rfl
@[simp] theorem assertReset_resetRequest : (assertReset s).resetRequest = true := rfl
@[simp] theorem assertReset_flash : (assertReset s).flash = s.flash := rfl
@[simp] theorem assertReset_ee : (assertReset s).ee = s.ee := rfl
@[simp] theorem assertReset_cfg : (assertReset s).cfg = s.cfg := rfl
@[simp] theorem assertReset_rowBuf : (assertReset s).rowBuf = s.rowBuf := rfl
@[simp] theorem assertReset_cfgRec : (assertReset s).cfgRec = s.cfgRec := rfl
@[simp] theorem assertReset_eeBusy : (assertReset s).eeBusy = s.eeBusy := rfl
@[simp] theorem assertReset_rxQueue : (assertReset s).rxQueue = s.rxQueue := rfl
@[simp] theorem assertReset_sent : (assertReset s).sent = s.sent := rfl
@[simp] theorem assertReset_txReady : (assertReset s).txReady = s.txReady := rfl
@[simp] theorem assertReset_eeStuck : (assertReset s).eeStuck = s.eeStuck := rfl
@[simp] theorem assertReset_resetAfter : (assertReset s).resetAfter = s.resetAfter := rfl
@[simp] theorem assertReset_requestLine : (assertReset s).requestLine = s.requestLine := rfl
@[simp] theorem assertReset_owner : (assertReset s).owner = s.owner := rfl
@[simp] theorem assertReset_pace : (assertReset s).pace = s.pace := rfl
@[simp] theorem assertReset_draws : (assertReset s).draws = s.draws := rfl

end

/-! ## sendByte -/

section
variable (v : Byte) (s : State)

@[simp] theorem sendByte_params : (sendByte v s).params = s.params := rfl
@[simp] theorem sendByte_buf : (sendByte v s).buf = s.buf := rfl
@[simp] theorem sendByte_k1 : (sendByte v s).k1 = s.k1 := rfl
@[simp] theorem sendByte_k2 : (sendByte v s).k2 = s.k2 := rfl
@[simp] theorem sendByte_resetPending : (sendByte v s).resetPending = s.resetPending := rfl
@[simp] theorem sendByte_phase : (sendByte v s).phase = s.phase := rfl
@[simp] theorem sendByte_rxCount : (sendByte v s).rxCount = s.rxCount := rfl
@[simp] theorem sendByte_rxExpected : (sendByte v s).rxExpected = s.rxExpected := rfl
@[simp] theorem sendByte_loc : (sendByte v s).loc = s.loc := rfl
@[simp] theorem sendByte_respLen : (sendByte v s).respLen = s.respLen := rfl
@[simp] theorem sendByte_txIndex : (sendByte v s).txIndex = s.txIndex := rfl
@[simp] theorem sendByte_ustate : (sendByte v s).ustate = s.ustate := rfl
@[simp] theorem sendByte_resetRequest : (sendByte v s).resetRequest = s.resetRequest := rfl
@[simp] theorem sendByte_flash : (sendByte v s).flash = s.flash := rfl
@[simp] theorem sendByte_ee : (sendByte v s).ee = s.ee := rfl
@[simp] theorem sendByte_cfg : (sendByte v s).cfg = s.cfg := rfl
@[simp] theorem sendByte_rowBuf : (sendByte v s).rowBuf = s.rowBuf := rfl
@[simp] theorem sendByte_cfgRec : (sendByte v s).cfgRec = s.cfgRec := rfl
@[simp] theorem sendByte_eeBusy : (sendByte v s).eeBusy = s.eeBusy := rfl
@[simp] theorem sendByte_rxQueue : (sendByte v s).rxQueue = s.rxQueue := rfl
@[simp] theorem sendByte_sent : (sendByte v s).sent = s.sent ++ [v] := rfl
@[simp] theorem sendByte_txReady : (sendByte v s).txReady = s.txReady := rfl
@[simp] theorem sendByte_eeStuck : (sendByte v s).eeStuck = s.eeStuck := rfl
@[simp] theorem sendByte_resetAfter : (sendByte v s).resetAfter = s.resetAfter := rfl
@[simp] theorem sendByte_requestLine : (sendByte v s).requestLine = s.requestLine := rfl
@[simp] theorem sendByte_owner : (sendByte v s).owner = s.owner := rfl
@[simp] theorem sendByte_pace : (sendByte v s).pace = s.pace := rfl
@[simp] theorem sendByte_draws : (sendByte v s).draws = s.draws := rfl

end

/-! ## blockReset -/

section
variable (s : State)

@[simp] theorem blockReset_params : (blockReset s).params = s.params := rfl
@[simp] theorem blockReset_buf : (blockReset s).buf = List.replicate (9 + s.params.w) none := rfl
@[simp] theorem blockReset_k1 : (blockReset s).k1 = 0 := rfl
@[simp] theorem blockReset_k2 : (blockReset s).k2 = 0 := rfl
@[simp] theorem blockReset_resetPending : (blockReset s).resetPending = false := rfl
@[simp] theorem blockReset_phase : (blockReset s).phase = .recv := rfl
@[simp] theorem blockReset_rxCount : (blockReset s).rxCount = 0 := rfl
@[simp] theorem blockReset_rxExpected : (blockReset s).rxExpected = 9 := rfl
@[simp] theorem blockReset_loc : (blockReset s).loc = none := rfl
@[simp] theorem blockReset_respLen : (blockReset s).respLen = none := rfl
@[simp] theorem blockReset_txIndex : (blockReset s).txIndex = none := rfl
@[simp] theorem blockReset_ustate : (blockReset s).ustate = .locked := rfl
@[simp] theorem blockReset_resetRequest : (blockReset s).resetRequest = false := rfl
@[simp] theorem blockReset_flash : (blockReset s).flash = s.flash := rfl
@[simp] theorem blockReset_ee : (blockReset s).ee = s.ee := rfl
@[simp] theorem blockReset_cfg : (blockReset s).cfg = s.cfg := rfl
@[simp] theorem blockReset_rowBuf : (blockReset s).rowBuf = s.rowBuf := rfl
@[simp] theorem blockReset_cfgRec : (blockReset s).cfgRec = s.cfgRec := rfl
@[simp] theorem blockReset_eeBusy : (blockReset s).eeBusy = s.eeBusy := rfl
@[simp] theorem blockReset_rxQueue : (blockReset s).rxQueue = s.rxQueue := rfl
@[simp] theorem blockReset_sent : (blockReset s).sent = s.sent := rfl
@[simp] theorem blockReset_txReady : (blockReset s).txReady = s.txReady := rfl
@[simp] theorem blockReset_eeStuck : (blockReset s).eeStuck = s.eeStuck := rfl
@[simp] theorem blockReset_resetAfter : (blockReset s).resetAfter = s.resetAfter := rfl
@[simp] theorem blockReset_requestLine : (blockReset s).requestLine = s.requestLine := rfl
@[simp] theorem blockReset_owner : (blockReset s).owner = s.owner := rfl
@[simp] theorem blockReset_pace : (blockReset s).pace = s.pace := rfl
@[simp] theorem blockReset_draws : (blockReset s).draws = s.draws := rfl

end

/-! ## collaboratorsReset -/

section
variable (s : State)

@[simp] theorem collaboratorsReset_params : (collaboratorsReset s).params = s.params := rfl
@[simp] theorem collaboratorsReset_buf : (collaboratorsReset s).buf = s.buf := rfl
@[simp] theorem collaboratorsReset_k1 : (collaboratorsReset s).k1 = s.k1 := rfl
@[simp] theorem collaboratorsReset_k2 : (collaboratorsReset s).k2 = s.k2 := rfl
@[simp] theorem collaboratorsReset_resetPending : (collaboratorsReset s).resetPending = s.resetPending := rfl
@[simp] theorem collaboratorsReset_phase : (collaboratorsReset s).phase = s.phase := rfl
@[simp] theorem collaboratorsReset_rxCount : (collaboratorsReset s).rxCount = s.rxCount := rfl
@[simp] theorem collaboratorsReset_rxExpected : (collaboratorsReset s).rxExpected = s.rxExpected := rfl
@[simp] theorem collaboratorsReset_loc : (collaboratorsReset s).loc = s.loc := rfl
@[simp] theorem collaboratorsReset_respLen : (collaboratorsReset s).respLen = s.respLen := rfl
@[simp] theorem collaboratorsReset_txIndex : (collaboratorsReset s).txIndex = s.txIndex := rfl
@[simp] theorem collaboratorsReset_ustate : (collaboratorsReset s).ustate = s.ustate := rfl
@[simp] theorem collaboratorsReset_resetRequest : (collaboratorsReset s).resetRequest = s.resetRequest := rfl
@[simp] theorem collaboratorsReset_flash : (collaboratorsReset s).flash = s.flash := rfl
@[simp] theorem collaboratorsReset_ee : (collaboratorsReset s).ee = s.ee := rfl
@[simp] theorem collaboratorsReset_cfg : (collaboratorsReset s).cfg = s.cfg := rfl
@[simp] theorem collaboratorsReset_cfgRec : (collaboratorsReset s).cfgRec = s.cfgRec := rfl
@[simp] theorem collaboratorsReset_eeBusy : (collaboratorsReset s).eeBusy = eeBusyAfterReset s := rfl
@[simp] theorem collaboratorsReset_rxQueue : (collaboratorsReset s).rxQueue = s.rxQueue := rfl
@[simp] theorem collaboratorsReset_sent : (collaboratorsReset s).sent = s.sent := rfl
@[simp] theorem collaboratorsReset_txReady : (collaboratorsReset s).txReady = s.txReady := rfl
@[simp] theorem collaboratorsReset_eeStuck : (collaboratorsReset s).eeStuck = s.eeStuck := rfl
@[simp] theorem collaboratorsReset_resetAfter : (collaboratorsReset s).resetAfter = s.resetAfter := rfl
@[simp] theorem collaboratorsReset_requestLine : (collaboratorsReset s).requestLine = s.requestLine := rfl
@[simp] theorem collaboratorsReset_owner : (collaboratorsReset s).owner = s.owner := rfl
@[simp] theorem collaboratorsReset_pace : (collaboratorsReset s).pace = s.pace := rfl
@[simp] theorem collaboratorsReset_draws : (collaboratorsReset s).draws = s.draws + 2 := rfl

end

/-! ## environmentReset -/

section
variable (s : State)

@[simp] theorem environmentReset_params : (environmentReset s).params = s.params := rfl
@[simp] theorem environmentReset_buf : (environmentReset s).buf = s.buf := rfl
@[simp] theorem environmentReset_k1 : (environmentReset s).k1 = s.k1 := rfl
@[simp] theorem environmentReset_k2 : (environmentReset s).k2 = s.k2 := rfl
@[simp] theorem environmentReset_resetPending : (environmentReset s).resetPending = s.resetPending := rfl
@[simp] theorem environmentReset_phase : (environmentReset s).phase = s.phase := rfl
@[simp] theorem environmentReset_rxCount : (environmentReset s).rxCount = s.rxCount := rfl
@[simp] theorem environmentReset_rxExpected : (environmentReset s).rxExpected = s.rxExpected := rfl
@[simp] theorem environmentReset_loc : (environmentReset s).loc = s.loc := rfl
@[simp] theorem environmentReset_respLen : (environmentReset s).respLen = s.respLen := rfl
@[simp] theorem environmentReset_txIndex : (environmentReset s).txIndex = s.txIndex := rfl
@[simp] theorem environmentReset_ustate : (environmentReset s).ustate = s.ustate := rfl
@[simp] theorem environmentReset_resetRequest : (environmentReset s).resetRequest = s.resetRequest := rfl
@[simp] theorem environmentReset_flash : (environmentReset s).flash = s.flash := rfl
@[simp] theorem environmentReset_ee : (environmentReset s).ee = s.ee := rfl
@[simp] theorem environmentReset_cfg : (environmentReset s).cfg = s.cfg := rfl
@[simp] theorem environmentReset_rowBuf : (environmentReset s).rowBuf = s.rowBuf := rfl
@[simp] theorem environmentReset_cfgRec : (environmentReset s).cfgRec = s.cfgRec := rfl
@[simp] theorem environmentReset_eeBusy : (environmentReset s).eeBusy = s.eeBusy := rfl
@[simp] theorem environmentReset_rxQueue : (environmentReset s).rxQueue = [] := rfl
@[simp] theorem environmentReset_sent : (environmentReset s).sent = s.sent := rfl
@[simp] theorem environmentReset_txReady : (environmentReset s).txReady = s.txReady := rfl
@[simp] theorem environmentReset_eeStuck : (environmentReset s).eeStuck = s.eeStuck := rfl
@[simp] theorem environmentReset_resetAfter : (environmentReset s).resetAfter = none := rfl
@[simp] theorem environmentReset_requestLine : (environmentReset s).requestLine = s.requestLine := rfl
@[simp] theorem environmentReset_owner : (environmentReset s).owner = s.owner := rfl
@[simp] theorem environmentReset_pace : (environmentReset s).pace = s.pace := rfl
@[simp] theorem environmentReset_draws : (environmentReset s).draws = s.draws := rfl

end

end Sys2Proof.Machine
end

