-- ==== Sys2Proof/Laws/Loop.lean ====
section
/-! SUPPORT. What a command's port operations can do, said once for all commands: what each operation keeps, an element and the loop keep,
however they end; the loop goes through where its body always goes on; it aborts or stays where its body first does. What the end of a command
does with each, and what one port operation alone can do. -/

namespace Sys2Proof.Machine

/-- What holds of the state in which a loop, or an element of it, goes on (`G`), aborts (`A`) or stays (`S`). -/
def CtlSat (G : Loc → State → Prop) (A S : State → Prop) : Ctl → Prop
  | .go l s => G l s
  | .abort s => A s
  | .stop s => S s

theorem CtlSat.mono {G G' : Loc → State → Prop} {A A' S S' : State → Prop} {r : Ctl} (h : CtlSat G A S r)
    (hg : ∀ l s, G l s → G' l s) (ha : ∀ s, A s → A' s) (hs : ∀ s, S s → S' s) : CtlSat G' A' S' r := by
  cases r with
  | go l s => exact hg l s h
  | abort s => exact ha s h
  | stop s => exact hs s h

/-- What every element keeps, the loop keeps, however it ends. -/
theorem runLoop_sat {body : Loc → State → Ctl} {G : Loc → State → Prop} {A S : State → Prop}
    (hbody : ∀ l s, G l s → CtlSat G A S (body l s)) :
    ∀ k l s, G l s → CtlSat G A S (runLoop body k l s) := by
  intro k
  induction k with
  | zero => exact fun _ _ h => h
  | succ k ih =>
    intro l s h
    rw [runLoop]
    have hb := hbody l _ h
    cases heq : body l s with
    | go l' s' => rw [heq] at hb; exact ih l' s' hb
    | abort s' => rw [heq] at hb; exact hb
    | stop s' => rw [heq] at hb; exact hb

/-- A property of the state alone. -/
theorem runLoop_all {body : Loc → State → Ctl} {P : State → Prop}
    (hbody : ∀ l s, P s → CtlSat (fun _ => P) P P (body l s)) (k : Nat) (l : Loc) (s : State) (h : P s) :
    CtlSat (fun _ => P) P P (runLoop body k l s) :=
  runLoop_sat hbody k l s h

/-- What every port operation keeps, an element keeps, whether its port is ready at once or later. -/
theorem element_sat {op : Loc → State → Ctl} {G : Loc → State → Prop} {A S : State → Prop}
    (hfresh : ∀ l s, G l s → G { l with second := false } s)
    (hready : ∀ l s t, G l s → op l s = .stop t → G l (completeEE s))
    (hop : ∀ l s, G l s → CtlSat G A S (op l s)) (l : Loc) (s : State) (h : G l s) : CtlSat G A S (element op l s) := by
  have hw : CtlSat G A S (whenReady op { l with second := false } s) := by
    have hb := hop _ s (hfresh l s h)
    unfold whenReady
    cases heq : op { l with second := false } s with
    | go l' s' => rw [heq] at hb; exact hb
    | abort s' => rw [heq] at hb; exact hb
    | stop s' =>
      rw [heq] at hb
      show CtlSat G A S (if s.eeStuck then _ else _)
      split
      · exact hb
      · exact hop _ _ (hready _ _ _ (hfresh l s h) heq)
  unfold element
  cases heq : whenReady op { l with second := false } s with
  | go l' s' =>
    rw [heq] at hw
    show CtlSat G A S (if l'.second then _ else _)
    split
    · exact hop l' s' hw
    · exact hw
  | abort s' => rw [heq] at hw; exact hw
  | stop s' => rw [heq] at hw; exact hw

/-- A loop whose body goes on from every stage `Q j` to the next goes through. -/
theorem runLoop_go {body : Loc → State → Ctl} {Q : Nat → Loc → State → Prop} {n : Nat}
    (hbody : ∀ j l s, j < n → Q j l s → ∃ l' s', body l s = .go l' s' ∧ Q (j + 1) l' s') :
    ∀ k j l s, j + k = n → Q j l s → ∃ l' s', runLoop body k l s = .go l' s' ∧ Q n l' s' := by
  intro k
  induction k with
  | zero => exact fun j l s hj h => ⟨l, s, rfl, by simpa [← hj] using h⟩
  | succ k ih =>
    intro j l s hj h
    obtain ⟨l', s', hb, hq⟩ := hbody j l s (by omega) h
    obtain ⟨l'', s'', hrun, hq'⟩ := ih (j + 1) l' s' (by omega) hq
    refine ⟨l'', s'', ?_, hq'⟩
    rw [runLoop, hb]
    simp [hrun]

/-- A loop whose body goes on for the stages before `m` and aborts at stage `m` aborts. -/
theorem runLoop_abort {body : Loc → State → Ctl} {Q : Nat → Loc → State → Prop} {R : State → Prop} {m : Nat}
    (hbody : ∀ j l s, j < m → Q j l s → ∃ l' s', body l s = .go l' s' ∧ Q (j + 1) l' s')
    (habort : ∀ l s, Q m l s → ∃ s', body l s = .abort s' ∧ R s') :
    ∀ k j l s, j ≤ m → m < j + k → Q j l s → ∃ s', runLoop body k l s = .abort s' ∧ R s' := by
  intro k
  induction k with
  | zero => exact fun j l s h1 h2 _ => absurd h2 (by omega)
  | succ k ih =>
    intro j l s h1 h2 h
    rcases Nat.lt_or_ge j m with hlt | hge
    · obtain ⟨l', s', hb, hq⟩ := hbody j l s hlt h
      obtain ⟨s'', hrun, hR⟩ := ih (j + 1) l' s' (by omega) (by omega) hq
      refine ⟨s'', ?_, hR⟩
      rw [runLoop, hb]
      simp [hrun]
    · obtain rfl : j = m := by omega
      obtain ⟨s', hb, hR⟩ := habort l s h
      refine ⟨s', ?_, hR⟩
      rw [runLoop, hb]

/-- A loop whose body goes on for the stages before `m` and stays at stage `m` stays there. -/
theorem runLoop_stop {body : Loc → State → Ctl} {Q : Nat → Loc → State → Prop} {R : State → Prop} {m : Nat}
    (hbody : ∀ j l s, j < m → Q j l s → ∃ l' s', body l s = .go l' s' ∧ Q (j + 1) l' s')
    (hstop : ∀ l s, Q m l s → ∃ s', body l s = .stop s' ∧ R s') :
    ∀ k j l s, j ≤ m → m < j + k → Q j l s → ∃ s', runLoop body k l s = .stop s' ∧ R s' := by
  intro k
  induction k with
  | zero => exact fun j l s h1 h2 _ => absurd h2 (by omega)
  | succ k ih =>
    intro j l s h1 h2 h
    rcases Nat.lt_or_ge j m with hlt | hge
    · obtain ⟨l', s', hb, hq⟩ := hbody j l s hlt h
      obtain ⟨s'', hrun, hR⟩ := ih (j + 1) l' s' (by omega) (by omega) hq
      refine ⟨s'', ?_, hR⟩
      rw [runLoop, hb]
      simp [hrun]
    · obtain rfl : j = m := by omega
      obtain ⟨s', hb, hR⟩ := hstop l s h
      refine ⟨s', ?_, hR⟩
      rw [runLoop, hb]

/-- The end of a command is never a fault or a refusal, and its next state comes from one of the three ends of its loop. -/
theorem endCommand_sat {r : Ctl} {normal : Loc → State → State} {G : Loc → State → Prop} {A S : State → Prop}
    (h : CtlSat G A S r) :
    ∃ t, endCommand r normal = .next t ∧
      ((∃ l s, G l s ∧ t = normal l s) ∨ (∃ s, A s ∧ t = abortOutOfRange s) ∨ S t) := by
  cases r with
  | go l s => exact ⟨_, rfl, .inl ⟨l, s, h, rfl⟩⟩
  | abort s => exact ⟨_, rfl, .inr (.inl ⟨s, h, rfl⟩)⟩
  | stop s => exact ⟨_, rfl, .inr (.inr h)⟩

/-! A whole command from each of its starts. -/

@[simp] theorem runCommand_startLoop (h : Header) (cur : Addr) (n : Nat) (pair : Option KeyPair) (s : State)
    (op : Loc → State → Ctl) (normal : Loc → State → State) :
    runCommand (startLoop h cur n pair s) op normal = endCommand (continueLoop op (startLoc cur n pair) (loadKeys h s)) normal := rfl

@[simp] theorem runCommand_startAbort (h : Header) (s : State) (op : Loc → State → Ctl) (normal : Loc → State → State) :
    runCommand (startAbort h s) op normal = .next (abortOutOfRange (loadKeys h s)) := rfl

@[simp] theorem runCommand_refused (r : Refusal) (op : Loc → State → Ctl) (normal : Loc → State → State) :
    runCommand (.refused r) op normal = .refused r := rfl

/-- What one port operation of a request can do: it is never a fault or a refusal; the request is at its next operation, has ended normally, has
aborted, or holds for a step. -/
theorem operate_sat {op : Loc → State → Ctl} {normal : Loc → State → State} {G : Loc → State → Prop} {A S : State → Prop}
    {l : Loc} {s : State} (h : CtlSat G A S (op l s)) :
    ∃ t, operate op normal l s = .next t ∧
      ((l.n ≤ l.i ∧ t = normal l s) ∨
        l.i < l.n ∧
          ((∃ l' s', G l' s' ∧ l'.i < l'.n ∧ t = suspend l' s') ∨ (∃ l' s', G l' s' ∧ l'.n ≤ l'.i ∧ t = normal l' s') ∨
            (∃ s', A s' ∧ t = abortOutOfRange s') ∨ ∃ s', S s' ∧ t = tickEE s')) := by
  unfold operate
  by_cases hi : l.i < l.n
  · rw [if_pos hi]
    cases heq : op l s with
    | go l' s' =>
      rw [heq] at h
      by_cases hi' : l'.i < l'.n
      · exact ⟨_, if_pos hi', .inr ⟨hi, .inl ⟨l', s', h, hi', rfl⟩⟩⟩
      · exact ⟨_, if_neg hi', .inr ⟨hi, .inr (.inl ⟨l', s', h, by omega, rfl⟩)⟩⟩
    | abort s' => rw [heq] at h; exact ⟨_, rfl, .inr ⟨hi, .inr (.inr (.inl ⟨s', h, rfl⟩))⟩⟩
    | stop s' => rw [heq] at h; exact ⟨_, rfl, .inr ⟨hi, .inr (.inr (.inr ⟨s', h, rfl⟩))⟩⟩
  · rw [if_neg hi]
    exact ⟨_, rfl, .inl ⟨by omega, rfl⟩⟩

end Sys2Proof.Machine
end

