-- ==== Sys2Proof/Laws/Memory.lean ====
section
/-! SUPPORT. The laws of cells and memories: what a read gives after each operation, and that every operation keeps the canonical form. -/

namespace Sys2Proof.Machine

/-! ## Cells -/

theorem cellsSorted_cons {x : Host.Cell} {rest : Cells} :
    cellsSorted (x :: rest) ↔ (∀ y ∈ rest, x.1 < y.1) ∧ cellsSorted rest := List.pairwise_cons

theorem cellsFind_eq_none_of_lt {c : Cells} {a : Nat} (h : ∀ x ∈ c, a < x.1) : cellsFind c a = none := by
  induction c with
  | nil => rfl
  | cons x rest ih =>
    obtain ⟨k, v⟩ := x
    have hk : a < k := h (k, v) List.mem_cons_self
    have hne : k ≠ a := by omega
    simp only [cellsFind, hne, if_false]
    exact ih (fun y hy => h y (List.mem_cons_of_mem _ hy))

theorem cellsFind_mem {c : Cells} {a : Nat} {v : Byte} (h : cellsFind c a = some v) : (a, v) ∈ c := by
  induction c with
  | nil => simp [cellsFind] at h
  | cons x rest ih =>
    obtain ⟨k, w⟩ := x
    simp only [cellsFind] at h
    split at h
    · cases h; subst_vars; exact List.mem_cons_self
    · exact List.mem_cons_of_mem _ (ih h)

theorem cellsFind_of_mem {c : Cells} (hs : cellsSorted c) {a : Nat} {v : Byte} (h : (a, v) ∈ c) : cellsFind c a = some v := by
  induction c with
  | nil => simp at h
  | cons x rest ih =>
    obtain ⟨k, w⟩ := x
    rw [cellsSorted_cons] at hs
    rcases List.mem_cons.mp h with heq | hmem
    · cases heq; simp [cellsFind]
    · have hlt : k < a := hs.1 (a, v) hmem
      have hne : k ≠ a := by omega
      simp only [cellsFind, hne, if_false]
      exact ih hs.2 hmem

theorem mem_cellsInsert {c : Cells} {a : Nat} {v : Byte} {x : Host.Cell} (h : x ∈ cellsInsert c a v) : x = (a, v) ∨ x ∈ c := by
  induction c with
  | nil => simpa [cellsInsert] using h
  | cons y rest ih =>
    obtain ⟨k, w⟩ := y
    simp only [cellsInsert] at h
    split at h
    · rcases List.mem_cons.mp h with h | h
      · exact .inl h
      · exact .inr h
    · split at h
      · rcases List.mem_cons.mp h with h | h
        · exact .inl h
        · exact .inr (List.mem_cons_of_mem _ h)
      · rcases List.mem_cons.mp h with h | h
        · exact .inr (h ▸ List.mem_cons_self)
        · rcases ih h with h | h
          · exact .inl h
          · exact .inr (List.mem_cons_of_mem _ h)

theorem cellsInsert_sorted {c : Cells} (hs : cellsSorted c) (a : Nat) (v : Byte) : cellsSorted (cellsInsert c a v) := by
  induction c with
  | nil => simp [cellsInsert]
  | cons y rest ih =>
    obtain ⟨k, w⟩ := y
    rw [cellsSorted_cons] at hs
    simp only [cellsInsert]
    split
    · rename_i hlt
      refine cellsSorted_cons.mpr ⟨?_, cellsSorted_cons.mpr hs⟩
      intro x hx
      rcases List.mem_cons.mp hx with rfl | hx
      · exact hlt
      · exact Nat.lt_trans hlt (hs.1 x hx)
    · split
      · subst_vars
        exact cellsSorted_cons.mpr ⟨fun x hx => hs.1 x hx, hs.2⟩
      · refine cellsSorted_cons.mpr ⟨?_, ih hs.2⟩
        intro x hx
        rcases mem_cellsInsert hx with rfl | hx
        · show k < a
          omega
        · exact hs.1 x hx

theorem cellsFind_insert (c : Cells) (a b : Nat) (v : Byte) :
    cellsFind (cellsInsert c a v) b = if a = b then some v else cellsFind c b := by
  induction c with
  | nil => simp [cellsInsert, cellsFind]
  | cons y rest ih =>
    obtain ⟨k, w⟩ := y
    simp only [cellsInsert]
    split
    · simp [cellsFind]
    · split
      · rename_i hak
        subst hak
        by_cases h : a = b <;> simp [cellsFind, h]
      · simp only [cellsFind, ih]
        by_cases h : a = b
        · subst h
          have hne : k ≠ a := by omega
          simp [hne]
        · simp [h]

theorem cellsOutside_sorted {c : Cells} (hs : cellsSorted c) (lo hi : Nat) : cellsSorted (cellsOutside lo hi c) :=
  List.Pairwise.filter _ hs

theorem cellsFind_outside (c : Cells) (lo hi b : Nat) :
    cellsFind (cellsOutside lo hi c) b = if lo ≤ b ∧ b < hi then none else cellsFind c b := by
  induction c with
  | nil => simp [cellsOutside, cellsFind]
  | cons y rest ih =>
    obtain ⟨k, w⟩ := y
    have hstep : cellsOutside lo hi ((k, w) :: rest)
        = if k < lo ∨ hi ≤ k then (k, w) :: cellsOutside lo hi rest else cellsOutside lo hi rest := by
      by_cases h : k < lo ∨ hi ≤ k <;> simp [cellsOutside, h]
    rw [hstep]
    by_cases hkb : k = b
    · subst hkb
      by_cases h : k < lo ∨ hi ≤ k
      · have : ¬(lo ≤ k ∧ k < hi) := by omega
        simp [h, cellsFind, this]
      · have h' : lo ≤ k ∧ k < hi := by omega
        rw [if_neg h, ih, if_pos h', if_pos h']
    · by_cases h : k < lo ∨ hi ≤ k
      · rw [if_pos h]; simp only [cellsFind, hkb, if_false]; exact ih
      · rw [if_neg h]; simp only [cellsFind, hkb, if_false]; exact ih

theorem foldl_insert_sorted (entries : List (Nat × Byte)) :
    ∀ c : Cells, cellsSorted c → cellsSorted (entries.foldl (fun c x => cellsInsert c x.1 x.2) c) := by
  induction entries with
  | nil => exact fun _ h => h
  | cons x rest ih => exact fun c h => ih _ (cellsInsert_sorted h x.1 x.2)

theorem cellsOf_sorted (entries : List (Nat × Byte)) : cellsSorted (cellsOf entries) :=
  foldl_insert_sorted entries [] List.Pairwise.nil

/-! ## Memories: what a read gives -/

theorem read_write (m : Memory) (a b : Nat) (v : Byte) :
    Memory.read (Memory.write m a v) b = if a = b then v else Memory.read m b := by
  unfold Memory.write Memory.read
  split
  · rename_i h
    rw [cellsFind_outside]
    by_cases hab : a = b
    · subst hab; simp [h]
    · have : ¬(a ≤ b ∧ b < a + 1) := by omega
      rw [if_neg this, if_neg hab]
  · rw [cellsFind_insert]
    by_cases hab : a = b <;> simp [hab]

theorem read_write_same (m : Memory) (a : Nat) (v : Byte) : Memory.read (Memory.write m a v) a = v := by
  simp [read_write]

theorem read_write_other (m : Memory) {a b : Nat} (v : Byte) (h : a ≠ b) :
    Memory.read (Memory.write m a v) b = Memory.read m b := by
  simp [read_write, h]

theorem read_eraseRange (m : Memory) (lo hi b : Nat) :
    Memory.read (Memory.eraseRange m lo hi) b = if lo ≤ b ∧ b < hi then 0xFF else Memory.read m b := by
  unfold Memory.eraseRange Memory.read
  rw [cellsFind_outside]
  by_cases h : lo ≤ b ∧ b < hi <;> simp [h, Memory.blank]

/-- A commit gives every byte buffered for the range its programmed value, and leaves every other byte. -/
theorem read_commitRange (mode : FlashProgram) (lo hi : Nat) {c : Cells} (hs : cellsSorted c) (m : Memory) (b : Nat) :
    Memory.read (Memory.commitRange mode lo hi c m) b =
      if lo ≤ b ∧ b < hi then
        match cellsFind c b with
        | some v => programByte mode (Memory.read m b) v
        | none => Memory.read m b
      else Memory.read m b := by
  unfold Memory.commitRange
  induction c generalizing m with
  | nil => simp [cellsFind]
  | cons x rest ih =>
    obtain ⟨k, v⟩ := x
    rw [cellsSorted_cons] at hs
    rw [List.foldl_cons, ih hs.2]
    have hnone : k = b → cellsFind rest b = none := fun h =>
      cellsFind_eq_none_of_lt (fun y hy => h ▸ hs.1 y hy)
    simp only [cellsFind]
    by_cases hb : lo ≤ b ∧ b < hi
    · by_cases hkb : k = b
      · subst hkb
        simp [hb, hnone rfl, read_write]
      · by_cases hk : lo ≤ k ∧ k < hi <;> simp [hb, hkb, hk, read_write]
    · by_cases hk : lo ≤ k ∧ k < hi
      · have hkb : k ≠ b := by rintro rfl; exact hb hk
        simp [hb, hk, read_write, hkb]
      · simp [hb, hk]

/-! ## Memories: every operation keeps the canonical form -/

theorem wf_nil : Memory.wf [] := ⟨List.Pairwise.nil, by simp⟩

theorem wf_eraseRange {m : Memory} (h : Memory.wf m) (lo hi : Nat) : Memory.wf (Memory.eraseRange m lo hi) :=
  ⟨cellsOutside_sorted h.1 lo hi, fun c hc => h.2 c (List.mem_of_mem_filter hc)⟩

theorem wf_write {m : Memory} (h : Memory.wf m) (a : Nat) (v : Byte) : Memory.wf (Memory.write m a v) := by
  unfold Memory.write
  split
  · exact wf_eraseRange h a (a + 1)
  · rename_i hv
    refine ⟨cellsInsert_sorted h.1 a v, fun c hc => ?_⟩
    rcases mem_cellsInsert hc with rfl | hc
    · exact hv
    · exact h.2 c hc

theorem wf_commitRange (mode : FlashProgram) (lo hi : Nat) (c : Cells) :
    ∀ {m : Memory}, Memory.wf m → Memory.wf (Memory.commitRange mode lo hi c m) := by
  unfold Memory.commitRange
  induction c with
  | nil => exact fun h => h
  | cons x rest ih =>
    intro m h
    rw [List.foldl_cons]
    apply ih
    split
    · exact wf_write h _ _
    · exact h

/-- Two canonical memories that read alike are the same data. -/
theorem eq_of_read_eq {m n : Memory} (hm : Memory.wf m) (hn : Memory.wf n) (h : ∀ a, Memory.read m a = Memory.read n a) : m = n := by
  have key : ∀ {m n : Memory}, Memory.wf m → (∀ a, Memory.read m a = Memory.read n a) → ∀ c ∈ m, c ∈ n := by
    intro m n hm h c hc
    obtain ⟨a, v⟩ := c
    have hf := cellsFind_of_mem hm.1 hc
    have hr := h a
    unfold Memory.read at hr
    rw [hf] at hr
    cases hn : cellsFind n a with
    | none => rw [hn] at hr; exact absurd hr (hm.2 (a, v) hc)
    | some w =>
      rw [hn] at hr
      have : v = w := hr
      exact this ▸ cellsFind_mem hn
  have hperm : m.Perm n := by
    refine (List.perm_ext_iff_of_nodup ?_ ?_).mpr (fun c => ⟨key hm h c, key hn (fun a => (h a).symm) c⟩)
    · exact hm.1.imp (fun hlt heq => by rw [heq] at hlt; exact Nat.lt_irrefl _ hlt)
    · exact hn.1.imp (fun hlt heq => by rw [heq] at hlt; exact Nat.lt_irrefl _ hlt)
  exact hperm.eq_of_pairwise (fun a b _ _ h1 h2 => absurd (Nat.lt_trans h1 h2) (Nat.lt_irrefl _)) hm.1 hn.1

end Sys2Proof.Machine
end

