-- ==== Sys2Proof/Laws/Ops.lean ====
section
/-! SUPPORT. What the shared operations do, one lemma each: the bytes of the frame buffer after each writer of it, the length of the buffer,
the durable bytes after each port primitive, and the canonical forms the primitives keep. -/

namespace Sys2Proof.Machine

/-! ## The frame buffer -/

theorem getD_set (l : List (Option Byte)) (j k : Nat) (v : Option Byte) :
    (l.set j v).getD k none = if j = k ∧ j < l.length then v else l.getD k none := by
  by_cases h : j = k
  · subst h
    by_cases h2 : j < l.length <;> simp [List.getD, h2]
  · simp [List.getD, h]

theorem bufByte_congr {s t : State} (h : t.buf = s.buf) (j : Nat) : bufByte t j = bufByte s j := by
  simp [bufByte, h]

theorem bufByte_bufSet (j k : Nat) (v : Byte) (s : State) :
    bufByte (bufSet j v s) k = if j = k ∧ j < s.buf.length then some v else bufByte s k :=
  getD_set s.buf j k (some v)

theorem bufByte_bufSet_ne {j k : Nat} (h : j ≠ k) (v : Byte) (s : State) : bufByte (bufSet j v s) k = bufByte s k := by
  simp [bufByte_bufSet, h]

theorem bufByte_clearKeys (k : Nat) (s : State) :
    bufByte (clearKeys s) k =
      if 4 = k ∧ 4 < s.buf.length then some 0 else if 3 = k ∧ 3 < s.buf.length then some 0 else bufByte s k := by
  unfold bufByte clearKeys
  simp only [getD_set, List.length_set]

theorem bufByte_finish_none (len k : Nat) (s : State) : bufByte (finish none len s) k = bufByte s k := rfl

theorem bufByte_finish_some (v : Byte) (len k : Nat) (s : State) :
    bufByte (finish (some v) len s) k = if 9 = k ∧ 9 < s.buf.length then some v else bufByte s k :=
  getD_set s.buf 9 k (some v)

@[simp] theorem length_bufSet (j : Nat) (v : Byte) (s : State) : (bufSet j v s).buf.length = s.buf.length :=
  List.length_set

@[simp] theorem length_clearKeys (s : State) : (clearKeys s).buf.length = s.buf.length := by simp

@[simp] theorem length_finish (st : Option Byte) (len : Nat) (s : State) : (finish st len s).buf.length = s.buf.length := by
  cases st <;> simp [finish]

theorem bufByte_storeByte (b : Byte) (k : Nat) (s : State) :
    bufByte (storeByte b s) k =
      if s.rxCount = k ∧ s.rxCount < 9 + s.params.w ∧ s.rxCount < s.buf.length then some b else bufByte s k := by
  unfold bufByte storeByte
  by_cases h : s.rxCount < 9 + s.params.w
  · simp only [h, if_true, getD_set, true_and]
  · simp [h]

@[simp] theorem length_storeByte (b : Byte) (s : State) : (storeByte b s).buf.length = s.buf.length := by
  unfold storeByte
  by_cases h : s.rxCount < 9 + s.params.w <;> simp [h]

/-- Every field but the frame buffer is as before a run of buffer writes. -/
theorem bufSetList_eq (bytes : List Byte) :
    ∀ (j : Nat) (s : State), ∃ b, bufSetList j bytes s = { s with buf := b } ∧ b.length = s.buf.length := by
  induction bytes with
  | nil => exact fun _ s => ⟨s.buf, rfl, rfl⟩
  | cons v rest ih =>
    intro j s
    obtain ⟨b, hb, hl⟩ := ih (j + 1) (bufSet j v s)
    exact ⟨b, hb, by simpa using hl⟩

theorem bufByte_bufSetList (bytes : List Byte) :
    ∀ (j k : Nat) (s : State), j + bytes.length ≤ s.buf.length →
      bufByte (bufSetList j bytes s) k = if j ≤ k ∧ k < j + bytes.length then bytes[k - j]? else bufByte s k := by
  induction bytes with
  | nil =>
    intro j k s _
    simp [bufSetList]
  | cons v rest ih =>
    intro j k s h
    simp only [List.length_cons] at h ⊢
    simp only [bufSetList]
    rw [ih (j + 1) k (bufSet j v s) (by simp only [length_bufSet]; omega), bufByte_bufSet]
    by_cases hjk : j = k
    · subst hjk
      have h1 : ¬(j + 1 ≤ j ∧ j < j + 1 + rest.length) := by omega
      rw [if_neg h1, if_pos ⟨rfl, by omega⟩, if_pos (by omega)]
      simp
    · by_cases hin : j + 1 ≤ k ∧ k < j + 1 + rest.length
      · rw [if_pos hin, if_pos (by omega)]
        obtain ⟨d, rfl⟩ : ∃ d, k = j + 1 + d := ⟨k - (j + 1), by omega⟩
        simp [show j + 1 + d - j = d + 1 by omega]
      · rw [if_neg hin, if_neg (by omega), if_neg (by omega)]

/-! ## Reads -/

/-- A read of an implemented address, no EEPROM byte being written, gives the durable byte and changes nothing (20_memory.md R56). -/
theorem memRead_durable {sp : Space} {a : Nat} {s : State} (hi : implemented s.params sp a = true)
    (hb : sp = .ee → eeBusyAt a s = false) :
    memValue sp a s = Memory.read (spaceOf sp s) a ∧ afterRead sp a s = s := by
  have hd : readIsDraw sp a s = false := by
    cases sp <;> simp_all [readIsDraw]
  constructor
  · simp [memValue, hd]
  · cases s; simp_all [afterRead]

@[simp] theorem spaceOf_afterRead (sp sp' : Space) (a : Nat) (s : State) : spaceOf sp' (afterRead sp a s) = spaceOf sp' s := by
  cases sp' <;> rfl

@[simp] theorem spaceOf_bufSet (sp : Space) (j : Nat) (v : Byte) (s : State) : spaceOf sp (bufSet j v s) = spaceOf sp s := by
  cases sp <;> rfl

@[simp] theorem eeBusyAt_afterRead (sp : Space) (a b : Nat) (s : State) : eeBusyAt b (afterRead sp a s) = eeBusyAt b s := rfl

@[simp] theorem eeBusyAt_bufSet (j b : Nat) (v : Byte) (s : State) : eeBusyAt b (bufSet j v s) = eeBusyAt b s := rfl

/-! ## The port primitives that change durable bytes -/

theorem unlockStrobe_locked (u : UState) : (unlockStrobe u).1 = .locked := by cases u <;> rfl

@[simp] theorem commitFlash_ustate (row : Addr) (pair : KeyPair) (s : State) : (commitFlash row pair s).ustate = .locked :=
  unlockStrobe_locked _

@[simp] theorem eraseRow_ustate (row : Addr) (pair : KeyPair) (s : State) : (eraseRow row pair s).ustate = .locked :=
  unlockStrobe_locked _

@[simp] theorem eeWrite_ustate (a : Half) (v : Byte) (pair : KeyPair) (s : State) : (eeWrite a v pair s).ustate = .locked :=
  unlockStrobe_locked _

@[simp] theorem commitCfg_ustate (a : Addr) (pair : KeyPair) (s : State) : (commitCfg a pair s).ustate = .locked :=
  unlockStrobe_locked _

/-- What `Commit(FLASH, row, pair)` does to the flash and the row buffer (20_memory.md R60). -/
theorem commitFlash_honored {row : Addr} {pair : KeyPair} {s : State} (h : honored pair s = true) :
    (commitFlash row pair s).flash =
        Memory.commitRange s.params.flashProgram row.toNat (row.toNat + s.params.w) s.rowBuf s.flash ∧
      (commitFlash row pair s).rowBuf = cellsOutside row.toNat (row.toNat + s.params.w) s.rowBuf := by
  simp [commitFlash, h]

theorem commitFlash_unhonored {row : Addr} {pair : KeyPair} {s : State} (h : honored pair s = false) :
    (commitFlash row pair s).flash = s.flash ∧
      (commitFlash row pair s).rowBuf =
        staleAfterUnhonored s.params.staleRowBuffer row.toNat (row.toNat + s.params.w) s.rowBuf := by
  simp [commitFlash, h]

/-- What `EraseRow(row, pair)` does to the flash (R61). -/
theorem eraseRow_flash (row : Addr) (pair : KeyPair) (s : State) :
    (eraseRow row pair s).flash =
      if honored pair s then Memory.eraseRange s.flash row.toNat (row.toNat + s.params.e) else s.flash := rfl

/-- What `CfgWrite(a, v)` and then `Commit(CFG, a, pair)` do to the config words (R63). -/
theorem commitCfg_cfgWrite_honored {a : Addr} {v : Byte} {pair : KeyPair} {s : State} (h : honored pair s = true) :
    (commitCfg a pair (cfgWrite a v s)).cfg = Memory.write s.cfg a.toNat v ∧
      (commitCfg a pair (cfgWrite a v s)).cfgRec = cellsOutside a.toNat (a.toNat + 1) (cellsInsert s.cfgRec a.toNat v) := by
  have h' : honored pair (cfgWrite a v s) = true := h
  simp [commitCfg, h', cfgAfterCommit, cellsFind_insert]

theorem commitCfg_cfgWrite_unhonored {a : Addr} {v : Byte} {pair : KeyPair} {s : State} (h : honored pair s = false) :
    (commitCfg a pair (cfgWrite a v s)).cfg = s.cfg ∧
      (commitCfg a pair (cfgWrite a v s)).cfgRec = cellsInsert s.cfgRec a.toNat v := by
  have h' : honored pair (cfgWrite a v s) = false := h
  simp [commitCfg, h']

/-- What an EEPROM write leaves: the write in progress if it is honored, nothing else of the EEPROM (R62). -/
theorem eeWrite_honored {a : Half} {v : Byte} {pair : KeyPair} {s : State} (h : honored pair s = true) :
    (eeWrite a v pair s).ee = s.ee ∧ (eeWrite a v pair s).eeBusy = some ⟨some ⟨a, v⟩, Config.freeBusy s.draws⟩ := by
  simp [eeWrite, h]

theorem eeWrite_unhonored {a : Half} {v : Byte} {pair : KeyPair} {s : State} (h : honored pair s = false) :
    (eeWrite a v pair s).ee = s.ee ∧ (eeWrite a v pair s).eeBusy = s.eeBusy := by
  simp [eeWrite, h]

/-- After a wait there is no write in progress, so the EEPROM reads as it did with the write complete. -/
theorem eeAfterBusy_completeEE (s : State) : eeAfterBusy (completeEE s) = eeAfterBusy s := rfl

theorem eeAfterBusy_of_none {s : State} (h : s.eeBusy = none) : eeAfterBusy s = s.ee := by simp [eeAfterBusy, eeWriting, h]

/-- An EEPROM that is not busy has nothing to complete. -/
theorem completeEE_of_none {s : State} (h : s.eeBusy = none) : completeEE s = s := by
  have he := eeAfterBusy_of_none h
  cases s
  simp_all [completeEE]

/-- Time brings the EEPROM no nearer to other contents than those it reaches when the write in progress is complete. -/
theorem eeAfterBusy_tickEE (s : State) : eeAfterBusy (tickEE s) = eeAfterBusy s := by
  unfold tickEE eeEnds eeShortened
  cases hb : s.eeBusy with
  | none => simp [eeAfterBusy, eeWriting, hb]
  | some b =>
    by_cases hstuck : s.eeStuck = true
    · simp [eeAfterBusy, eeWriting, hb, hstuck]
    · by_cases hleft : b.left = 0 <;> simp [eeAfterBusy, eeWriting, hb, hstuck, hleft]

/-- A step of time completes the write in progress or leaves every durable byte. -/
theorem tickEE_ee (s : State) : (tickEE s).ee = eeAfterBusy s ∨ (tickEE s).ee = s.ee := by
  simp only [tickEE]
  split
  · exact .inl rfl
  · exact .inr rfl

/-! ## The elements of the commands: all their port operations together -/

/-! A read never holds. -/

theorem readOp_ne_stop (sp : Space) (next : Addr → Addr) (l : Loc) (s t : State) : readOp sp next l s ≠ .stop t := by simp [readOp]

theorem versionOp_ne_stop (l : Loc) (s t : State) : versionOp l s ≠ .stop t := by simp [versionOp]

theorem checksumOp_ne_stop (l : Loc) (s t : State) : checksumOp l s ≠ .stop t := by simp [checksumOp]

theorem element_readOp (sp : Space) (next : Addr → Addr) (l : Loc) (s : State) :
    element (readOp sp next) l s =
      .go (nextLoc (next l.cur) l) (bufSet (9 + l.i) (memValue sp l.cur.toNat s) (afterRead sp l.cur.toNat s)) := rfl

theorem element_versionOp (l : Loc) (s : State) :
    element versionOp l s =
      .go (nextLoc (versionAddr s.params (l.i + 1)) l)
        (bufSet (versionSlot l.i) (memValue .cfg l.cur.toNat s) (afterRead .cfg l.cur.toNat s)) := rfl

theorem element_checksumOp (l : Loc) (s : State) :
    element checksumOp l s =
      .go { nextLoc (nextAddr l.cur) l with sum := sumByte s.params.checksumMode l.i l.sum (memValue .flash l.cur.toNat s) }
        (afterRead .flash l.cur.toNat s) := rfl

/-- One byte of a Write Flash (44_writes_and_control.md R200, R203): guard, buffer, commit at a commit point. -/
theorem element_writeFlashOp (pair : KeyPair) (data : List Byte) (l : Loc) (s : State) :
    element (writeFlashOp pair data) l s =
      if inFlash s.params l.cur then
        .go (nextLoc (nextAddr l.cur) l)
          (if commitPoint s.params l.cur l.i l.n then
            commitFlash (writeRow s.params l.cur) pair (bufWrite l.cur (payloadByte data l.i) s)
          else bufWrite l.cur (payloadByte data l.i) s)
      else .abort (dropStale s) := by
  by_cases hin : inFlash s.params l.cur = true
  · by_cases hc : commitPoint s.params l.cur l.i l.n = true
    · simp [element, whenReady, writeFlashOp, hin, hc, secondNext, nextLoc, bufWrite]
    · simp [element, whenReady, writeFlashOp, hin, hc, nextLoc]
  · simp [element, whenReady, writeFlashOp, hin]

theorem element_eraseFlashOp (pair : KeyPair) (l : Loc) (s : State) :
    element (eraseFlashOp pair) l s =
      if inFlash s.params l.cur then .go (nextLoc (nextRow s.params l.cur) l) (eraseRow l.cur pair s) else .abort s := by
  by_cases hin : inFlash s.params l.cur = true
  · simp [element, whenReady, eraseFlashOp, hin, nextLoc]
  · simp [element, whenReady, eraseFlashOp, hin]

/-- One byte of a Write EE Data (R211, R213): the write, once the EEPROM has left busy; where it never does, the command stays. -/
theorem element_writeEEOp (pair : KeyPair) (data : List Byte) (l : Loc) (s : State) :
    element (writeEEOp pair data) l s =
      if s.eeBusy.isSome = true ∧ s.eeStuck = true then .stop (suspend { l with second := false } s)
      else .go (nextLoc (nextEEWrite s.params l.cur) l)
        (eeWrite (eeOfCursor l.cur) (payloadByte data l.i) pair (completeEE s)) := by
  cases hb : s.eeBusy with
  | none =>
    rw [completeEE_of_none hb]
    simp [element, whenReady, writeEEOp, hb, secondNext, nextLoc]
  | some b =>
    by_cases hs : s.eeStuck = true
    · simp [element, whenReady, writeEEOp, hb, hs]
    · have : (completeEE s).eeBusy = none := rfl
      simp [element, whenReady, writeEEOp, hb, hs, secondNext, nextLoc, completeEE]

/-- One byte of a Write Config (R216): guard, record, commit. -/
theorem element_writeConfigOp (pair : KeyPair) (data : List Byte) (l : Loc) (s : State) :
    element (writeConfigOp pair data) l s =
      if inCfg s.params l.cur then
        .go (nextLoc (nextAddr l.cur) l) (commitCfg l.cur pair (cfgWrite l.cur (payloadByte data l.i) s))
      else .abort s := by
  by_cases hin : inCfg s.params l.cur = true
  · simp [element, whenReady, writeConfigOp, hin, secondNext, nextLoc]
  · simp [element, whenReady, writeConfigOp, hin]

/-! ## The canonical forms are kept -/

theorem commitFlash_wf {s : State} (h : Memory.wf s.flash) (row : Addr) (pair : KeyPair) :
    Memory.wf (commitFlash row pair s).flash := by
  simp only [commitFlash]
  split
  · exact wf_commitRange _ _ _ _ h
  · exact h

theorem commitFlash_sorted {s : State} (h : cellsSorted s.rowBuf) (row : Addr) (pair : KeyPair) :
    cellsSorted (commitFlash row pair s).rowBuf := by
  simp only [commitFlash]
  split
  · exact cellsOutside_sorted h _ _
  · unfold staleAfterUnhonored
    split
    · exact h
    · exact cellsOutside_sorted h _ _

theorem eraseRow_wf {s : State} (h : Memory.wf s.flash) (row : Addr) (pair : KeyPair) :
    Memory.wf (eraseRow row pair s).flash := by
  rw [eraseRow_flash]
  split
  · exact wf_eraseRange h _ _
  · exact h

theorem eeAfterBusy_wf {s : State} (h : Memory.wf s.ee) : Memory.wf (eeAfterBusy s) := by
  unfold eeAfterBusy
  split
  · exact wf_write h _ _
  · exact h

theorem tickEE_wf {s : State} (h : Memory.wf s.ee) : Memory.wf (tickEE s).ee := by
  rcases tickEE_ee s with he | he
  · rw [he]; exact eeAfterBusy_wf h
  · rw [he]; exact h

theorem commitCfg_wf {s : State} (h : Memory.wf s.cfg) (a : Addr) (pair : KeyPair) : Memory.wf (commitCfg a pair s).cfg := by
  simp only [commitCfg, cfgAfterCommit]
  split
  · split
    · exact wf_write h _ _
    · exact h
  · exact h

theorem commitCfg_sorted {s : State} (h : cellsSorted s.cfgRec) (a : Addr) (pair : KeyPair) :
    cellsSorted (commitCfg a pair s).cfgRec := by
  simp only [commitCfg]
  split
  · exact cellsOutside_sorted h _ _
  · exact h

theorem dropStale_sorted {s : State} (h : cellsSorted s.rowBuf) : cellsSorted (dropStale s).rowBuf := by
  simp only [dropStale_rowBuf, staleAfterAbort]
  split
  · exact h
  · exact List.Pairwise.nil

theorem collaboratorsReset_sorted (s : State) : cellsSorted (collaboratorsReset s).rowBuf := cellsOf_sorted _

end Sys2Proof.Machine
end

