-- ==== Sys2Proof/Laws/Exec.lean ====
section
/-! SUPPORT. What a request can do, said once for all of them: a property that every port primitive and buffer write keeps holds when the
request ends, and a request ends in one of four ways. The same for one port operation of a request in progress. -/

namespace Sys2Proof.Machine

open Sys2Proof.Safety

/-- A property kept by everything a request does before it ends. The unlock pairs it may use are those in `K`: none for a request that needs
none, which then touches no memory, and only such a request writes payload bytes before its end. The flash and config cursors are those
its guard lets through, the erase cursors those in `C`. -/
structure Keeps (K : KeyPair → Prop) (C : Addr → Prop) (P : State → Prop) : Prop where
  suspend     : ∀ l s, P s → P (suspend l s)
  afterRead   : ∀ sp a s, P s → P (afterRead sp a s)
  bufSet      : ∀ j v s, 9 ≤ j → (∀ pair, ¬K pair) → P s → P (bufSet j v s)
  bufWrite    : ∀ a v s, (∃ pair, K pair) → P s → P (bufWrite a v s)
  dropStale   : ∀ s, (∃ pair, K pair) → P s → P (dropStale s)
  commitFlash : ∀ cur pair s, K pair → inFlash s.params cur = true → P s → P (commitFlash (writeRow s.params cur) pair s)
  eraseRow    : ∀ cur pair s, K pair → C cur → inFlash s.params cur = true → P s → P (eraseRow cur pair s)
  nextRow     : ∀ cur s, C cur → P s → C (nextRow s.params cur)
  completeEE  : ∀ s, (∃ pair, K pair) → P s → P (completeEE s)
  tickEE      : ∀ s, (∃ pair, K pair) → P s → P (tickEE s)
  eeWrite     : ∀ a v pair s, K pair → P s → P (eeWrite a v pair s)
  cfgWrite    : ∀ a v s, (∃ pair, K pair) → P s → P (cfgWrite a v s)
  commitCfg   : ∀ cur pair s, K pair → inCfg s.params cur = true → P s → P (commitCfg cur pair s)

/-- How a request leaves the state `u` it has reached: in `DISPATCH`, aborted, completed with the keys cleared, or finished. -/
def Ends (i : Instr) (u t : State) : Prop :=
  (t = u ∧ t.loc.isSome = true) ∨ t = abortOutOfRange u ∨ (isMutating i = true ∧ t = completeMutation u) ∨
    (isMutating i = false ∧ ∃ st len, t = finish st len u)

/-- A request that holds is recorded in `DISPATCH`, and it is one that needs a pair. -/
def Holds (K : KeyPair → Prop) (P : State → Prop) (t : State) : Prop := P t ∧ t.loc.isSome = true ∧ ∃ pair, K pair

theorem ends_finishRead {P : State → Prop} (i : Instr) (hi : isMutating i = false) (l : Loc) (s : State) (h : P s) :
    ∃ u, P u ∧ Ends i u (finishRead l s) := ⟨s, h, .inr (.inr (.inr ⟨hi, none, _, rfl⟩))⟩

theorem ends_finishMutation {P : State → Prop} (i : Instr) (hi : isMutating i = true) (l : Loc) (s : State) (h : P s) :
    ∃ u, P u ∧ Ends i u (finishMutation l s) := ⟨s, h, .inr (.inr (.inl ⟨hi, rfl⟩))⟩

/-- A whole command from a start that reached its loop. -/
theorem ends_loop {op : Loc → State → Ctl} {normal : Loc → State → State} {G : Loc → State → Prop} {P : State → Prop}
    {K : KeyPair → Prop} {i : Instr}
    (hG : ∀ l s, G l s → P s) (hfresh : ∀ l s, G l s → G { l with second := false } s)
    (hready : ∀ l s t, G l s → op l s = .stop t → G l (completeEE s))
    (hop : ∀ l s, G l s → CtlSat G P (Holds K P) (op l s)) (hnormal : ∀ l s, P s → ∃ u, P u ∧ Ends i u (normal l s))
    (l : Loc) (s : State) (h : G l s) :
    ∃ t, endCommand (continueLoop op l s) normal = .next t ∧ ∃ u, P u ∧ Ends i u t := by
  obtain ⟨t, ht, hc⟩ := endCommand_sat (normal := normal)
    (runLoop_sat (element_sat hfresh hready hop) (l.n - l.i) l s h)
  refine ⟨t, ht, ?_⟩
  rcases hc with ⟨l, u, hu, rfl⟩ | ⟨u, hu, rfl⟩ | ⟨hu, hl, _⟩
  · exact hnormal l u (hG _ _ hu)
  · exact ⟨u, hu, .inr (.inl rfl)⟩
  · exact ⟨t, hu, .inl ⟨rfl, hl⟩⟩

section
variable {K : KeyPair → Prop} {C : Addr → Prop} {P : State → Prop} (hP : Keeps K C P)
include hP

theorem Keeps.bufSetList (hn : ∀ pair, ¬K pair) (bytes : List Byte) : ∀ j s, 9 ≤ j → P s → P (bufSetList j bytes s) := by
  induction bytes with
  | nil => exact fun _ _ _ h => h
  | cons v rest ih => exact fun j s hj h => ih (j + 1) _ (by omega) (hP.bufSet j v s hj hn h)

/-! ### The port operations -/

theorem Keeps.readOp (hn : ∀ pair, ¬K pair) (sp : Space) (next : Addr → Addr) (l : Loc) (s : State) (h : P s) :
    CtlSat (fun _ => P) P (Holds K P) (readOp sp next l s) :=
  hP.bufSet _ _ _ (by omega) hn (hP.afterRead _ _ _ h)

theorem Keeps.versionOp (hn : ∀ pair, ¬K pair) (l : Loc) (s : State) (h : P s) : CtlSat (fun _ => P) P (Holds K P) (versionOp l s) := by
  refine hP.bufSet _ _ _ ?_ hn (hP.afterRead _ _ _ h)
  unfold versionSlot
  split <;> omega

theorem Keeps.checksumOp (l : Loc) (s : State) (h : P s) : CtlSat (fun _ => P) P (Holds K P) (checksumOp l s) :=
  hP.afterRead _ _ _ h

theorem Keeps.writeFlashOp {pair : KeyPair} (hk : K pair) (data : List Byte) (l : Loc) (s : State)
    (h : P s ∧ (l.second = true → inFlash s.params l.cur = true)) :
    CtlSat (fun l s => P s ∧ (l.second = true → inFlash s.params l.cur = true)) P (Holds K P) (writeFlashOp pair data l s) := by
  unfold Machine.writeFlashOp
  split
  · rename_i h2
    exact ⟨hP.commitFlash l.cur pair s hk (h.2 h2) h.1, nofun⟩
  · split
    · rename_i hin
      refine ⟨hP.bufWrite _ _ _ ⟨pair, hk⟩ h.1, ?_⟩
      split
      · exact fun _ => hin
      · nofun
    · exact hP.dropStale s ⟨pair, hk⟩ h.1

theorem Keeps.eraseFlashOp {pair : KeyPair} (hk : K pair) (l : Loc) (s : State) (h : P s ∧ C l.cur) :
    CtlSat (fun l s => P s ∧ C l.cur) P (Holds K P) (eraseFlashOp pair l s) := by
  unfold Machine.eraseFlashOp
  split
  · rename_i hin
    exact ⟨hP.eraseRow _ _ _ hk h.2 hin h.1, hP.nextRow _ _ h.2 h.1⟩
  · exact h.1

theorem Keeps.writeEEOp {pair : KeyPair} (hk : K pair) (data : List Byte) (l : Loc) (s : State) (h : P s) :
    CtlSat (fun _ => P) P (Holds K P) (writeEEOp pair data l s) := by
  unfold Machine.writeEEOp
  split
  · exact hP.eeWrite _ _ _ _ hk h
  · split
    · exact ⟨hP.suspend _ _ h, rfl, pair, hk⟩
    · exact h

theorem Keeps.writeConfigOp {pair : KeyPair} (hk : K pair) (data : List Byte) (l : Loc) (s : State)
    (h : P s ∧ (l.second = true → inCfg s.params l.cur = true)) :
    CtlSat (fun l s => P s ∧ (l.second = true → inCfg s.params l.cur = true)) P (Holds K P) (writeConfigOp pair data l s) := by
  unfold Machine.writeConfigOp
  split
  · rename_i h2
    exact ⟨hP.commitCfg _ _ _ hk (h.2 h2) h.1, nofun⟩
  · split
    · rename_i hin
      exact ⟨hP.cfgWrite _ _ _ ⟨pair, hk⟩ h.1, fun _ => hin⟩
    · exact h.1

/-! ### The ends -/

theorem Keeps.finishVersion (hn : ∀ pair, ¬K pair) (i : Instr) (hi : isMutating i = false) (l : Loc) (s : State) (h : P s) :
    ∃ u, P u ∧ Ends i u (finishVersion l s) :=
  ⟨_, hP.bufSetList hn _ _ _ (by omega) (hP.bufSetList hn _ _ _ (by omega) h), .inr (.inr (.inr ⟨hi, none, _, rfl⟩))⟩

theorem Keeps.finishChecksum (hn : ∀ pair, ¬K pair) (i : Instr) (hi : isMutating i = false) (l : Loc) (s : State) (h : P s) :
    ∃ u, P u ∧ Ends i u (finishChecksum l s) :=
  ⟨_, hP.bufSet _ _ _ (by omega) hn (hP.bufSet _ _ _ (by omega) hn h), .inr (.inr (.inr ⟨hi, none, _, rfl⟩))⟩

/-! ### One port operation alone -/

/-- One port operation of a command. -/
theorem Keeps.operate {op : Loc → State → Ctl} {normal : Loc → State → State} {G : Loc → State → Prop} {i : Instr}
    (hG : ∀ l s, G l s → P s)
    (hop : ∀ l s, G l s → CtlSat G P (Holds K P) (op l s)) (hnormal : ∀ l s, P s → ∃ u, P u ∧ Ends i u (normal l s))
    (l : Loc) (s : State) (h : G l s) : ∃ t, operate op normal l s = .next t ∧ ∃ u, P u ∧ Ends i u t := by
  obtain ⟨t, ht, hc⟩ := operate_sat (normal := normal) (hop l s h)
  refine ⟨t, ht, ?_⟩
  rcases hc with ⟨_, rfl⟩ | ⟨_, ⟨l', u, hu, _, rfl⟩ | ⟨l', u, hu, _, rfl⟩ | ⟨u, hu, rfl⟩ | ⟨u, hu, rfl⟩⟩
  · exact hnormal l s (hG _ _ h)
  · exact ⟨_, hP.suspend l' u (hG _ _ hu), .inl ⟨rfl, rfl⟩⟩
  · exact hnormal l' u (hG _ _ hu)
  · exact ⟨u, hu, .inr (.inl rfl)⟩
  · exact ⟨_, hP.tickEE u hu.2.2 hu.1, .inl ⟨rfl, hu.2.1⟩⟩

end

/-- What `exec` can do: it refuses a write-class term whose payload is too short, and otherwise gives the next state of one of the four
ends, from a state that has every property its operations keep. -/
theorem exec_ends {C : Addr → Prop} {P : State → Prop} (i : Instr) (s0 : State)
    (hP : Keeps (fun pair => requiredPair s0.params i = some pair) C P) (h0 : P (loadKeys i.header s0))
    (hc : C (eraseRowOf s0.params i.header.addr))
    (hreset : ∀ h, i = .resetDevice h → P (setResetPending (loadKeys h s0))) :
    exec i s0 = .refused .illFormedPayload ∨ ∃ t, exec i s0 = .next t ∧ ∃ u, P u ∧ Ends i u t := by
  have oor : ∃ t, Host.Outcome.next (abortOutOfRange (loadKeys i.header s0)) =
      (.next t : Host.Outcome State Fault Refusal) ∧ ∃ u, P u ∧ Ends i u t :=
    ⟨_, rfl, _, h0, .inr (.inl rfl)⟩
  have rd : ∀ (op : Loc → State → Ctl) (normal : Loc → State → State) (l : Loc),
      (∀ l s t, op l s = .stop t → ∃ pair, requiredPair s0.params i = some pair) →
      (∀ l s, P s → CtlSat (fun _ => P) P (Holds (fun pair => requiredPair s0.params i = some pair) P) (op l s)) →
      (∀ l s, P s → ∃ u, P u ∧ Ends i u (normal l s)) →
      ∃ t, endCommand (continueLoop op l (loadKeys i.header s0)) normal = .next t ∧ ∃ u, P u ∧ Ends i u t :=
    fun op normal l hst hop hn =>
      ends_loop (G := fun _ => P) (fun _ _ h => h) (fun _ _ h => h) (fun l s t h he => hP.completeEE s (hst l s t he) h) hop hn l _ h0
  cases i with
  | readVersion h =>
    simp only [exec, execReadVersion, startReadVersion, runCommand_startLoop]
    exact .inr (rd versionOp finishVersion _ (fun _ _ _ h => absurd h (versionOp_ne_stop _ _ _)) (hP.versionOp (by simp [requiredPair])) (hP.finishVersion (by simp [requiredPair]) _ rfl))
  | readFlash h =>
    simp only [exec, execReadFlash, startReadFlash]
    split
    · exact .inr oor
    · exact .inr (rd _ _ _ (fun _ _ _ h => absurd h (readOp_ne_stop _ _ _ _ _)) (hP.readOp (by simp [requiredPair]) _ _) (ends_finishRead _ rfl))
  | writeFlash h data =>
    simp only [exec, execWriteFlash, startWriteFlash]
    split
    · exact .inr oor
    · split
      · exact .inl rfl
      · split
        · exact .inr (ends_loop (G := fun l s => P s ∧ (l.second = true → inFlash s.params l.cur = true)) (fun _ _ h => h.1)
            (fun _ _ h => ⟨h.1, nofun⟩) (fun _ s _ h _ => ⟨hP.completeEE s ⟨_, rfl⟩ h.1, h.2⟩) (hP.writeFlashOp rfl data) (ends_finishMutation _ rfl)
            _ _ ⟨h0, nofun⟩)
        · exact .inr oor
  | eraseFlash h =>
    simp only [exec, execEraseFlash, startEraseFlash]
    split
    · exact .inr (ends_loop (G := fun l s => P s ∧ C l.cur) (fun _ _ h => h.1) (fun _ _ h => h)
        (fun _ s _ h _ => ⟨hP.completeEE s ⟨_, rfl⟩ h.1, h.2⟩) (hP.eraseFlashOp rfl) (ends_finishMutation _ rfl) _ _ ⟨h0, hc⟩)
    · exact .inr oor
  | readEEData h =>
    simp only [exec, execReadEEData, startReadEEData]
    split
    · exact .inr oor
    · exact .inr (rd _ _ _ (fun _ _ _ h => absurd h (readOp_ne_stop _ _ _ _ _)) (hP.readOp (by simp [requiredPair]) _ _) (ends_finishRead _ rfl))
  | writeEEData h data =>
    simp only [exec, execWriteEEData, startWriteEEData]
    split
    · exact .inr oor
    · split
      · exact .inl rfl
      · exact .inr (rd _ _ _ (fun _ _ _ _ => ⟨_, rfl⟩) (hP.writeEEOp rfl data) (ends_finishMutation _ rfl))
  | readConfig h =>
    simp only [exec, execReadConfig, startReadConfig]
    split
    · exact .inr oor
    · split
      · exact .inr (rd _ _ _ (fun _ _ _ h => absurd h (readOp_ne_stop _ _ _ _ _)) (hP.readOp (by simp [requiredPair]) _ _) (ends_finishRead _ rfl))
      · exact .inr oor
  | writeConfig h data =>
    simp only [exec, execWriteConfig, startWriteConfig]
    split
    · exact .inr oor
    · split
      · exact .inl rfl
      · split
        · exact .inr (ends_loop (G := fun l s => P s ∧ (l.second = true → inCfg s.params l.cur = true)) (fun _ _ h => h.1)
            (fun _ _ h => ⟨h.1, nofun⟩) (fun _ s _ h _ => ⟨hP.completeEE s ⟨_, rfl⟩ h.1, h.2⟩) (hP.writeConfigOp rfl data) (ends_finishMutation _ rfl)
            _ _ ⟨h0, nofun⟩)
        · exact .inr oor
  | calcChecksum h => exact .inr (rd checksumOp finishChecksum _ (fun _ _ _ h => absurd h (checksumOp_ne_stop _ _ _)) hP.checksumOp (hP.finishChecksum (by simp [requiredPair]) _ rfl))
  | resetDevice h => exact .inr ⟨_, rfl, _, hreset h rfl, .inr (.inr (.inr ⟨rfl, some statusSuccess, _, rfl⟩))⟩
  | invalid code h => exact .inr ⟨_, rfl, _, h0, .inr (.inr (.inr ⟨rfl, some statusInvalid, _, rfl⟩))⟩

/-- Between the two port operations of an element, the element has passed its guard (44_writes_and_control.md R200, R216). -/
def Guarded (i : Instr) (l : Loc) (s : State) : Prop :=
  l.second = true → (∀ h data, i = .writeFlash h data → inFlash s.params l.cur = true) ∧
    (∀ h data, i = .writeConfig h data → inCfg s.params l.cur = true)

/-- What one port operation of a request in progress can do: the same ends, and a fault where its command-local state lacks the pair. -/
theorem operateOn_ends {C : Addr → Prop} {P : State → Prop} (i : Instr) (l0 : Loc) (s : State)
    (hP : Keeps (fun pair => isMutating i = true ∧ l0.pair = some pair) C P) (hc : ∀ h, i = .eraseFlash h → C l0.cur)
    (hg : Guarded i l0 s) (h : P s) :
    operateOn i l0 s = .fault .localNoValue ∨ ∃ t, operateOn i l0 s = .next t ∧ ∃ u, P u ∧ Ends i u t := by
  have rd : ∀ (op : Loc → State → Ctl) (normal : Loc → State → State),
      (∀ l s, P s → CtlSat (fun _ => P) P (Holds (fun pair => isMutating i = true ∧ l0.pair = some pair) P) (op l s)) →
      (∀ l s, P s → ∃ u, P u ∧ Ends i u (normal l s)) →
      ∃ t, operate op normal l0 s = .next t ∧ ∃ u, P u ∧ Ends i u t :=
    fun op normal hop hn => hP.operate (fun _ _ h => h) hop hn l0 s h
  cases i with
  | readVersion _ => exact .inr (rd _ _ (hP.versionOp (by simp [isMutating])) (hP.finishVersion (by simp [isMutating]) _ rfl))
  | readFlash _ => exact .inr (rd _ _ (hP.readOp (by simp [isMutating]) _ _) (ends_finishRead _ rfl))
  | writeFlash h' data =>
    simp only [operateOn, withPair]
    split
    · rename_i pair hp
      exact .inr (hP.operate (G := fun l s => P s ∧ (l.second = true → inFlash s.params l.cur = true)) (fun _ _ h => h.1)
        (hP.writeFlashOp ⟨rfl, hp⟩ data) (ends_finishMutation _ rfl) l0 s ⟨h, fun h2 => (hg h2).1 _ _ rfl⟩)
    · exact .inl rfl
  | eraseFlash _ =>
    simp only [operateOn, withPair]
    split
    · rename_i pair hp
      exact .inr (hP.operate (G := fun l s => P s ∧ C l.cur) (fun _ _ h => h.1) (hP.eraseFlashOp ⟨rfl, hp⟩) (ends_finishMutation _ rfl)
        l0 s ⟨h, hc _ rfl⟩)
    · exact .inl rfl
  | readEEData _ => exact .inr (rd _ _ (hP.readOp (by simp [isMutating]) _ _) (ends_finishRead _ rfl))
  | writeEEData _ data =>
    simp only [operateOn, withPair]
    split
    · rename_i pair hp
      exact .inr (rd _ _ (hP.writeEEOp ⟨rfl, hp⟩ data) (ends_finishMutation _ rfl))
    · exact .inl rfl
  | readConfig _ => exact .inr (rd _ _ (hP.readOp (by simp [isMutating]) _ _) (ends_finishRead _ rfl))
  | writeConfig h' data =>
    simp only [operateOn, withPair]
    split
    · rename_i pair hp
      exact .inr (hP.operate (G := fun l s => P s ∧ (l.second = true → inCfg s.params l.cur = true)) (fun _ _ h => h.1)
        (hP.writeConfigOp ⟨rfl, hp⟩ data) (ends_finishMutation _ rfl) l0 s ⟨h, fun h2 => (hg h2).2 _ _ rfl⟩)
    · exact .inl rfl
  | calcChecksum _ => exact .inr (rd _ _ hP.checksumOp (hP.finishChecksum (by simp [isMutating]) _ rfl))
  | resetDevice _ => exact .inl rfl
  | invalid _ _ => exact .inl rfl

/-- What the first step of a request that runs one port operation at a time can do: as `exec`, and never a fault. -/
theorem openRequest_ends {C : Addr → Prop} {P : State → Prop} (i : Instr) (s0 : State)
    (hP : Keeps (fun pair => requiredPair s0.params i = some pair) C P) (h0 : P (loadKeys i.header s0))
    (hc : C (eraseRowOf s0.params i.header.addr))
    (hreset : ∀ h, i = .resetDevice h → P (setResetPending (loadKeys h s0))) :
    openRequest i s0 = .refused .illFormedPayload ∨ ∃ t, openRequest i s0 = .next t ∧ ∃ u, P u ∧ Ends i u t := by
  have oor : ∃ t, Host.Outcome.next (abortOutOfRange (loadKeys i.header s0)) =
      (.next t : Host.Outcome State Fault Refusal) ∧ ∃ u, P u ∧ Ends i u t :=
    ⟨_, rfl, _, h0, .inr (.inl rfl)⟩
  have rd : ∀ (op : Loc → State → Ctl) (normal : Loc → State → State) (l : Loc),
      (∀ l s, P s → CtlSat (fun _ => P) P (Holds (fun pair => requiredPair s0.params i = some pair) P) (op l s)) →
      (∀ l s, P s → ∃ u, P u ∧ Ends i u (normal l s)) →
      ∃ t, operate op normal l (loadKeys i.header s0) = .next t ∧ ∃ u, P u ∧ Ends i u t :=
    fun op normal l hop hn => hP.operate (fun _ _ h => h) hop hn l _ h0
  cases i with
  | readVersion h =>
    simp only [openRequest, startOf, startReadVersion, startLoop, operateOn]
    exact .inr (rd _ _ _ (hP.versionOp (by simp [requiredPair])) (hP.finishVersion (by simp [requiredPair]) _ rfl))
  | readFlash h =>
    simp only [openRequest, startOf, startReadFlash]
    split <;> rename_i heq <;> split at heq <;> cases heq
    · exact .inr (rd _ _ _ (hP.readOp (by simp [requiredPair]) _ _) (ends_finishRead _ rfl))
    · exact .inr oor
  | writeFlash h data =>
    simp only [openRequest, startOf, startWriteFlash]
    split <;> rename_i heq <;> repeat' split at heq
    all_goals cases heq
    · exact .inr (hP.operate (G := fun l s => P s ∧ (l.second = true → inFlash s.params l.cur = true)) (fun _ _ h => h.1)
        (hP.writeFlashOp rfl data) (ends_finishMutation _ rfl) _ _ ⟨h0, nofun⟩)
    · exact .inr oor
    · exact .inr oor
    · exact .inl rfl
  | eraseFlash h =>
    simp only [openRequest, startOf, startEraseFlash]
    split <;> rename_i heq <;> split at heq <;> cases heq
    · exact .inr (hP.operate (G := fun l s => P s ∧ C l.cur) (fun _ _ h => h.1) (hP.eraseFlashOp rfl) (ends_finishMutation _ rfl)
        _ _ ⟨h0, hc⟩)
    · exact .inr oor
  | readEEData h =>
    simp only [openRequest, startOf, startReadEEData]
    split <;> rename_i heq <;> split at heq <;> cases heq
    · exact .inr (rd _ _ _ (hP.readOp (by simp [requiredPair]) _ _) (ends_finishRead _ rfl))
    · exact .inr oor
  | writeEEData h data =>
    simp only [openRequest, startOf, startWriteEEData]
    split <;> rename_i heq <;> repeat' split at heq
    all_goals cases heq
    · exact .inr (rd _ _ _ (hP.writeEEOp rfl data) (ends_finishMutation _ rfl))
    · exact .inr oor
    · exact .inl rfl
  | readConfig h =>
    simp only [openRequest, startOf, startReadConfig]
    split <;> rename_i heq <;> repeat' split at heq
    all_goals cases heq
    · exact .inr (rd _ _ _ (hP.readOp (by simp [requiredPair]) _ _) (ends_finishRead _ rfl))
    · exact .inr oor
    · exact .inr oor
  | writeConfig h data =>
    simp only [openRequest, startOf, startWriteConfig]
    split <;> rename_i heq <;> repeat' split at heq
    all_goals cases heq
    · exact .inr (hP.operate (G := fun l s => P s ∧ (l.second = true → inCfg s.params l.cur = true)) (fun _ _ h => h.1)
        (hP.writeConfigOp rfl data) (ends_finishMutation _ rfl) _ _ ⟨h0, nofun⟩)
    · exact .inr oor
    · exact .inr oor
    · exact .inl rfl
  | calcChecksum h =>
    simp only [openRequest, startOf, startCalcChecksum, startLoop, operateOn]
    exact .inr (rd _ _ _ hP.checksumOp (hP.finishChecksum (by simp [requiredPair]) _ rfl))
  | resetDevice h => exact .inr ⟨_, rfl, _, hreset h rfl, .inr (.inr (.inr ⟨rfl, some statusSuccess, _, rfl⟩))⟩
  | invalid code h => exact .inr ⟨_, rfl, _, h0, .inr (.inr (.inr ⟨rfl, some statusInvalid, _, rfl⟩))⟩

/-- What a step of the block in `DISPATCH` can do, whatever its pace: the ends of the request it runs. A fault or a refusal is left to states
that no run reaches: a suspended Reset Device or default arm, a term that is no request. -/
theorem dispatchStep_ends {C : Addr → Prop} {P : State → Prop} (i : Instr) (s : State) (hf : fetchInstr s = .ok i)
    (hP : Keeps (fun pair => requiredPair s.params i = some pair) C P)
    (hl : ∀ l, s.loc = some l →
      P (tickReset s) ∧ l.pair = requiredPair s.params i ∧ (∀ h, i = .eraseFlash h → C l.cur) ∧ Guarded i l s)
    (h0 : P (loadKeys i.header s)) (h1 : P (loadKeys i.header (tickReset s)))
    (hc : C (eraseRowOf s.params i.header.addr))
    (hreset : ∀ h, i = .resetDevice h → P (setResetPending (loadKeys h s)) ∧ P (setResetPending (loadKeys h (tickReset s)))) :
    dispatchStep s = .fault .localNoValue ∨ dispatchStep s = .refused .illFormedPayload ∨
      ∃ t, dispatchStep s = .next t ∧ ∃ u, P u ∧ Ends i u t := by
  simp only [dispatchStep, hf]
  split
  · rename_i l hloc
    obtain ⟨ht, hp, hcur, hg⟩ := hl l hloc
    have hP' : Keeps (fun pair => isMutating i = true ∧ l.pair = some pair) C P := by
      have : (fun pair => isMutating i = true ∧ l.pair = some pair) = fun pair => requiredPair s.params i = some pair := by
        funext pair
        rw [hp]
        cases i <;> simp [isMutating, requiredPair]
      rw [this]; exact hP
    rcases operateOn_ends i l (tickReset s) hP' hcur hg ht with h | h
    · exact .inl h
    · exact .inr (.inr h)
  · split
    · exact .inr (exec_ends i s hP h0 hc (fun h e => (hreset h e).1))
    · exact .inr (openRequest_ends i (tickReset s) hP h1 hc (fun h e => (hreset h e).2))

end Sys2Proof.Machine
end

