-- ==== Sys2Proof/Laws/PerInstr.lean ====
section
/-! SUPPORT. Statements made per instruction. Family `RoundTrip`: the decoder gives an encoded request back, and the bytes after it. -/

namespace Sys2Proof.Laws.RoundTrip

/-- Decoding the encoding of `i` gives `i` (30_encoding.md R75 to R82). -/
def Statement (i : Instr) : Prop :=
  ∀ (cap : Nat) (rest : List Byte), i.wf cap = true → decode cap (encode i ++ rest) = .ok (i, rest)

/-- A request without payload is its nine header bytes. -/
theorem of_header {i : Instr} (hp : payloadOf i = []) (hc : isWriteClass (commandByte i) = false)
    (hs : selectInstr (commandByte i) i.header [] = i) (cap : Nat) (rest : List Byte) :
    decode cap (encode i ++ rest) = .ok (i, rest) := by
  simp [encode, hp, decode, encodeHeader, hc, assemble16_bytes, assemble24_bytes, hs]

/-- A write-class frame decodes to the request its command byte selects, with its payload. -/
theorem of_payload {c : Byte} (hc : isWriteClass c = true) (h : Header) (data : List Byte) (cap : Nat) (rest : List Byte)
    (hd : payloadOk cap h data = true) :
    decode cap (c :: encodeHeader h ++ data ++ rest) = .ok (selectInstr c h data, rest) := by
  have hlen : data.length = min h.dlen.toNat cap := by simpa [payloadOk] using hd
  simp [decode, encodeHeader, hc, assemble16_bytes, assemble24_bytes, ← hlen]

theorem readVersion (h : Header) : Statement (.readVersion h) := fun cap rest _ =>
  of_header rfl rfl rfl cap rest

theorem readFlash (h : Header) : Statement (.readFlash h) := fun cap rest _ =>
  of_header rfl rfl rfl cap rest

theorem writeFlash (h : Header) (data : List Byte) : Statement (.writeFlash h data) := fun cap rest hwf =>
  of_payload (c := 0x02) rfl h data cap rest hwf

theorem eraseFlash (h : Header) : Statement (.eraseFlash h) := fun cap rest _ =>
  of_header rfl rfl rfl cap rest

theorem readEEData (h : Header) : Statement (.readEEData h) := fun cap rest _ =>
  of_header rfl rfl rfl cap rest

theorem writeEEData (h : Header) (data : List Byte) : Statement (.writeEEData h data) := fun cap rest hwf =>
  of_payload (c := 0x05) rfl h data cap rest hwf

theorem readConfig (h : Header) : Statement (.readConfig h) := fun cap rest _ =>
  of_header rfl rfl rfl cap rest

theorem writeConfig (h : Header) (data : List Byte) : Statement (.writeConfig h data) := fun cap rest hwf =>
  of_payload (c := 0x07) rfl h data cap rest hwf

theorem calcChecksum (h : Header) : Statement (.calcChecksum h) := fun cap rest _ =>
  of_header rfl rfl rfl cap rest

theorem resetDevice (h : Header) : Statement (.resetDevice h) := fun cap rest _ =>
  of_header rfl rfl rfl cap rest

theorem invalid (code : Byte) (h : Header) : Statement (.invalid code h) := fun cap rest hwf => by
  have hc : 10 ≤ code.toNat := by simpa [Instr.wf] using hwf
  exact of_header (i := .invalid code h) rfl (isWriteClass_of_ge (c := code) hc) (selectInstr_of_ge hc h []) cap rest

end Sys2Proof.Laws.RoundTrip
end

