-- ==== Sys2Proof/Tests/Slice0.lean ====
section
/-! SUPPORT. The model's own tests: expected values are the spec's worked examples (95_test_vectors.md, under CFG-EX) or written out from its
encoding rules; and the witnesses, one or more per obligation, that its hypotheses can be met together. -/

namespace Sys2Proof.Tests

open Sys2Proof.Machine Sys2Proof.Safety

/-! ## Helpers -/

/-- A block at the dispatch of a frame that has just arrived. -/
def arrived (frame : List Byte) (s : State) : State :=
  { s with buf := loadFrame frame s.buf, rxCount := frame.length, rxExpected := frame.length, phase := .dispatch }

/-- The same, where one step runs the whole request. -/
def request (frame : List Byte) (s : State) : State := { arrived frame s with pace := .request }

/-- What a next state shows; nothing where the machine stops. -/
def shows {α : Type} (f : State → α) : Host.Outcome State Fault Refusal → Option α
  | .next t => some (f t)
  | .fault _ => none
  | .refused _ => none

/-- The response a command leaves, without the sync byte. -/
def response (t : State) : List (Option Byte) := t.buf.take (t.respLen.getD 0)

/-- The response and the key registers. -/
def answer (t : State) : List (Option Byte) × Byte × Byte := (response t, t.k1, t.k2)

/-- `n` bytes of a memory from `a` on. -/
def bytesAt (m : Memory) (a n : Nat) : List Byte := (List.range n).map (fun i => Memory.read m (a + i))

/-- A header with reserved byte 0. -/
def hdr (dlen : Half) (key1 key2 : Byte) (addr : Addr) : Header := ⟨dlen, key1, key2, addr, 0⟩

/-! ## Well-formedness: each check refuses an ill-formed term -/

theorem test_wf_writeFlash :
    Instr.wf 65535 (.writeFlash (hdr 2 0 0 0) [0xDE]) = false ∧ Instr.wf 65535 (.writeFlash (hdr 2 0 0 0) [1, 2, 3]) = false ∧
    Instr.wf 65535 (.writeFlash (hdr 2 0 0 0) [1, 2]) = true := by decide

theorem test_wf_writeEEData :
    Instr.wf 65535 (.writeEEData (hdr 1 0 0 0) []) = false ∧ Instr.wf 65535 (.writeEEData (hdr 0 0 0 0) [1]) = false ∧
    Instr.wf 65535 (.writeEEData (hdr 0 0 0 0) []) = true := by decide

/-- A buffer of 2 payload bytes keeps 2 of 3 (R103). -/
theorem test_wf_writeConfig :
    Instr.wf 2 (.writeConfig (hdr 3 0 0 0) [1, 2, 3]) = false ∧ Instr.wf 2 (.writeConfig (hdr 3 0 0 0) [1]) = false ∧
    Instr.wf 2 (.writeConfig (hdr 3 0 0 0) [1, 2]) = true := by decide

theorem test_wf_invalid :
    Instr.wf 65535 (.invalid 0x09 (hdr 0 0 0 0)) = false ∧ Instr.wf 65535 (.invalid 0x0A (hdr 0 0 0 0)) = true := by decide

/-! ## Decoding: frames written out from R75, R78, R80 -/

/-- S4. -/
theorem test_decode_readVersion :
    decode 65535 [0x00, 0xFF, 0xFF, 0x00, 0x00, 0x00, 0x00, 0x00, 0x00] = .ok (.readVersion (hdr 0xFFFF 0 0 0), []) := by decide

/-- S1; the byte after the frame is left. -/
theorem test_decode_readFlash :
    decode 65535 [0x01, 0x04, 0x00, 0x00, 0x00, 0x00, 0x08, 0x00, 0x00, 0x77] = .ok (.readFlash (hdr 4 0 0 0x000800), [0x77]) := by
  decide

/-- R88. -/
theorem test_decode_writeFlash :
    decode 65535 [0x02, 0x02, 0x00, 0x55, 0xAA, 0x00, 0x08, 0x00, 0x00, 0xDE, 0xAD] =
      .ok (.writeFlash (hdr 2 0x55 0xAA 0x000800) [0xDE, 0xAD], []) := by decide

/-- S2. -/
theorem test_decode_eraseFlash :
    decode 65535 [0x03, 0x02, 0x00, 0x55, 0xAA, 0xC0, 0xFF, 0x01, 0x00] = .ok (.eraseFlash (hdr 2 0x55 0xAA 0x01FFC0), []) := by
  decide

/-- P5. -/
theorem test_decode_readEEData :
    decode 65535 [0x04, 0x02, 0x00, 0x00, 0x00, 0xFF, 0x00, 0x00, 0x00] = .ok (.readEEData (hdr 2 0 0 0x0000FF), []) := by decide

/-- P5. -/
theorem test_decode_writeEEData :
    decode 65535 [0x05, 0x02, 0x00, 0x55, 0xAA, 0xFF, 0x00, 0x00, 0x00, 0x42, 0x43] =
      .ok (.writeEEData (hdr 2 0x55 0xAA 0x0000FF) [0x42, 0x43], []) := by decide

/-- P5. -/
theorem test_decode_readConfig :
    decode 65535 [0x06, 0x03, 0x00, 0x00, 0x00, 0x06, 0x00, 0x30, 0x00] = .ok (.readConfig (hdr 3 0 0 0x300006), []) := by decide

/-- P5. -/
theorem test_decode_writeConfig :
    decode 65535 [0x07, 0x02, 0x00, 0x55, 0xAA, 0x07, 0x00, 0x30, 0x00, 0x01, 0x02] =
      .ok (.writeConfig (hdr 2 0x55 0xAA 0x300007) [0x01, 0x02], []) := by decide

/-- V69. -/
theorem test_decode_calcChecksum :
    decode 65535 [0x08, 0x02, 0x01, 0x00, 0x00, 0x00, 0x08, 0x00, 0x00] = .ok (.calcChecksum (hdr 0x102 0 0 0x000800), []) := by
  decide

/-- S6. -/
theorem test_decode_resetDevice :
    decode 65535 [0x09, 0x00, 0x00, 0x12, 0x34, 0xEF, 0xCD, 0xAB, 0x00] = .ok (.resetDevice (hdr 0 0x12 0x34 0xABCDEF), []) := by
  decide

/-- S8. -/
theorem test_decode_invalid :
    decode 65535 [0xC8, 0x00, 0x00, 0x12, 0x34, 0xEF, 0xCD, 0xAB, 0x99] = .ok (.invalid 0xC8 ⟨0, 0x12, 0x34, 0xABCDEF, 0x99⟩, []) := by
  decide

/-- Too few bytes for a header, and too few for the payload the length field asks for (R76). -/
theorem test_decode_short :
    decode 65535 [0x01, 0x04, 0x00, 0x00, 0x00, 0x00, 0x08, 0x00] = .error .shortHeader ∧
    decode 65535 [0x02, 0x02, 0x00, 0x55, 0xAA, 0x00, 0x08, 0x00, 0x00, 0xDE] = .error .shortPayload := by decide

/-- The command byte bit by bit: one word per family (R80). -/
theorem test_words :
    decodeTableWord 8 0b00000100 = some (.readEEData (hdr 0 0 0 0)) ∧ decodeTableWord 8 0b00000011 = some (.eraseFlash (hdr 0 0 0 0)) ∧
    decodeTableWord 8 0b00001001 = some (.resetDevice (hdr 0 0 0 0)) ∧
    decodeTableWord 8 0b00001010 = some (.invalid 0x0A (hdr 0 0 0 0)) := by decide

/-- A whole header as one word, byte 0 the least significant: command 07, length 0, keys A5 5A, address 300008, reserved byte 99. -/
theorem test_word_header :
    decodeTableWord 72 0x993000085AA5000007 = some (.writeConfig ⟨0, 0xA5, 0x5A, 0x300008, 0x99⟩ []) := by decide

/-- R88's example, encoded. -/
theorem test_encode :
    encode (.writeFlash (hdr 2 0x55 0xAA 0x000800) [0xDE, 0xAD]) =
      [0x02, 0x02, 0x00, 0x55, 0xAA, 0x00, 0x08, 0x00, 0x00, 0xDE, 0xAD] := by decide

/-! ## The frame codec -/

/-- V1 to V5, V7: the length rule. -/
theorem test_length_rule :
    requestLength 0x02 0x03 0x00 = 12 ∧ requestLength 0x01 0x03 0x00 = 9 ∧ requestLength 0x05 0x00 0x00 = 9 ∧
    requestLength 0x07 0x10 0x00 = 25 ∧ requestLength 0xC8 0xFF 0xFF = 9 ∧ requestLength 0x02 0x00 0x01 = 265 := by decide

/-- V8. -/
theorem test_receive_first_byte :
    shows (fun t => (bufByte t 0, t.rxCount, t.phase)) (step { State.reset with rxQueue := [0x01] }) = some (some 0x01, 1, .recv) := by
  decide

/-- R103: byte 25 of a frame does not fit `9 + W = 25` bytes. -/
theorem test_receive_discards :
    shows (fun t => (t.buf.length, t.rxCount)) (recvStep { State.reset with rxQueue := [0xAA], rxCount := 25, rxExpected := 27 }) =
      some (25, 26) := by decide

/-- S6: the last byte of a Reset Device response is accepted, and only then the reset is requested, by a step of its own. -/
theorem test_reset_requested_at_idle_point :
    (List.range 2).map (fun k => shows (fun t => (t.sent, t.phase, t.resetRequest))
        (runSteps (k + 1) { State.reset with
          phase := .xmit, respLen := some 10, txIndex := some (.byte 9), resetPending := true,
          buf := loadFrame [0x09, 0, 0, 0x12, 0x34, 0xEF, 0xCD, 0xAB, 0, 0x01] State.reset.buf })) =
      [some ([0x01], .xmit, false), some ([0x01], .resetHold, true)] := by decide

/-! ## The address guard -/

/-- V20. -/
theorem test_inFlash :
    [0x0007FF, 0x000800, 0x01FFFF, 0x020000].map (inFlash Config.cfgEx) = [false, true, true, false] := by decide

/-- V21. -/
theorem test_inCfg :
    [0x0007FF, 0x000800, 0x30000D, 0x30000E].map (inCfg Config.cfgEx) = [false, true, true, false] := by decide

/-- V22. -/
theorem test_aboveFloor : [0x0007FF, 0x000800, 0xFFFFFF].map (aboveFloor Config.cfgEx) = [false, true, true] := by decide

/-- R207, R203: rows. -/
theorem test_rows :
    eraseRowOf Config.cfgEx 0x000810 = 0x000800 ∧ eraseRowOf Config.cfgEx 0x0007FF = 0x0007C0 ∧
    writeRow Config.cfgEx 0x01FFFF = 0x01FFF0 := by decide

/-- V80, V82: the commit points of 16 bytes from 0x808 and of 2 bytes from 0x80F. -/
theorem test_commit_points :
    (List.range 16).filter (fun i => commitPoint Config.cfgEx (0x000808 + BitVec.ofNat 24 i) i 16) = [7, 15] ∧
    (List.range 2).filter (fun i => commitPoint Config.cfgEx (0x00080F + BitVec.ofNat 24 i) i 2) = [0, 1] := by decide

/-- V88 to V90: the address of the next byte written, by stride, and the wrap modulo 2^16. -/
theorem test_ee_stride :
    nextEEWrite Config.cfgEx 0x0010 = 0x0011 ∧ nextEEWrite { Config.cfgEx with eeStride := .two } 0x0010 = 0x0012 ∧
    nextEEWrite Config.cfgEx 0xFFFF = 0x0000 := by decide

/-! ## The ports -/

/-- P2, step 3 under KEPT: an honored commit makes the row's stale bytes durable too, and no byte of another row. -/
theorem test_commitFlash_honored :
    (fun t : State => (t.flash, t.rowBuf)) (commitFlash 0x840 Config.cfgEx.nvmKey
        { State.reset with k1 := 0x55, k2 := 0xAA, rowBuf := [(0x840, 0x12), (0x842, 0x56), (0x850, 0x78)] }) =
      ([(0x840, 0x12), (0x842, 0x56)], [(0x850, 0x78)]) := by decide

/-- P2, step 1: an unhonored commit writes nothing; the row's entries stay under KEPT and go under DROPPED. -/
theorem test_commitFlash_unhonored :
    [StaleRowBuffer.kept, StaleRowBuffer.dropped].map (fun mode => (fun t : State => (t.flash, t.rowBuf))
        (commitFlash 0x840 Config.cfgEx.nvmKey { State.resetWith { Config.cfgEx with staleRowBuffer := mode } with
          k1 := 0xAA, k2 := 0x55, rowBuf := [(0x840, 0x12), (0x850, 0x78)] })) =
      [([], [(0x840, 0x12), (0x850, 0x78)]), ([], [(0x850, 0x78)])] := by decide

/-- U7: a cell that is not erased, under AND (G2). -/
theorem test_program_and : programByte .and 0xF0 0x3C = 0x30 ∧ programByte .replace 0xF0 0x3C = 0x3C := by decide

/-! ## The unlock sequence -/

/-- V40 to V44. -/
theorem test_unlock_nvm :
    [(0x55, 0xAA), (0x55, 0x55), (0xAA, 0x55), (0xAA, 0xAA), (0x00, 0x00)].map
        (fun k => unlockSequence Config.cfgEx.nvmKey k.1 k.2) =
      [(.locked, true), (.locked, false), (.locked, false), (.locked, false), (.locked, false)] := by decide

/-- V45, V46: the pair of a config address at the threshold. -/
theorem test_unlock_config :
    unlockSequence (configPair Config.cfgEx 0x300008) 0xA5 0x5A = (.locked, true) ∧
    unlockSequence (configPair Config.cfgEx 0x300008) 0x55 0xAA = (.locked, false) := by decide

/-! ## The commands: one dispatch each -/

/-- S4, P4. -/
theorem test_readVersion :
    shows response (step (request [0, 0, 0, 0, 0, 0, 0, 0, 0]
        { State.reset with cfg := [(0x200000, 1), (0x200001, 2), (0x200002, 3), (0x200003, 4), (0x3FFFFE, 0x61), (0x3FFFFF, 0x6C)] })) =
      some ([0x00, 0x00, 0x00, 0x00, 0x00, 0x00, 0x00, 0x00, 0x00, 0x08, 0x00, 0x19, 0x00, 0x00, 0x00, 0x61, 0x6C, 0x00, 0x00, 0x40,
        0x10, 0x01, 0x02, 0x03, 0x04].map some) := by decide

/-- S1, second request. -/
theorem test_readFlash :
    shows response (step (request [0x01, 0x04, 0x00, 0x00, 0x00, 0x00, 0x08, 0x00, 0x00]
        { State.reset with flash := [(0x800, 0xDE), (0x801, 0xAD), (0x802, 0xBE), (0x803, 0xEF)] })) =
      some ([0x01, 0x04, 0x00, 0x00, 0x00, 0x00, 0x08, 0x00, 0x00, 0xDE, 0xAD, 0xBE, 0xEF].map some) := by decide

/-- V65: over the capacity. -/
theorem test_readFlash_over_capacity :
    shows response (step (request [0x01, 0x11, 0x00, 0x00, 0x00, 0x00, 0x08, 0x00, 0x00] State.reset)) =
      some ([0x01, 0x11, 0x00, 0x00, 0x00, 0x00, 0x08, 0x00, 0x00, 0xFE].map some) := by decide

/-- S1, first request. -/
theorem test_writeFlash :
    shows (fun t => (answer t, bytesAt t.flash 0x7FF 6))
        (step (request [0x02, 0x04, 0x00, 0x55, 0xAA, 0x00, 0x08, 0x00, 0x00, 0xDE, 0xAD, 0xBE, 0xEF] State.reset)) =
      some (([0x02, 0x04, 0x00, 0x00, 0x00, 0x00, 0x08, 0x00, 0x00, 0x01].map some, 0, 0), [0xFF, 0xDE, 0xAD, 0xBE, 0xEF, 0xFF]) := by
  decide

/-- V83: a transfer cut at `FLASH_END`. -/
theorem test_writeFlash_cut :
    shows (fun t => (answer t, bytesAt t.flash 0x01FFFD 4))
        (step (request [0x02, 0x04, 0x00, 0x55, 0xAA, 0xFE, 0xFF, 0x01, 0x00, 0x11, 0x22, 0x33, 0x44] State.reset)) =
      some (([0x02, 0x04, 0x00, 0x55, 0xAA, 0xFE, 0xFF, 0x01, 0x00, 0xFE].map some, 0x55, 0xAA), [0xFF, 0x11, 0x22, 0xFF]) := by
  decide

/-- V86: the row at 0x01FFC0 is erased, the next one fails. -/
theorem test_eraseFlash :
    shows (fun t => (answer t, t.flash))
        (step (request [0x03, 0x02, 0x00, 0x55, 0xAA, 0xC0, 0xFF, 0x01, 0x00]
          { State.reset with flash := [(0x01FFBF, 0x33), (0x01FFC0, 0x12), (0x01FFFF, 0x34), (0x020000, 0x56)] })) =
      some (([0x03, 0x02, 0x00, 0x55, 0xAA, 0xC0, 0xFF, 0x01, 0x00, 0xFE].map some, 0x55, 0xAA), [(0x01FFBF, 0x33), (0x020000, 0x56)]) := by
  decide

/-- V87: wrong keys erase nothing and answer `01`. -/
theorem test_eraseFlash_wrong_keys :
    shows (fun t => (response t, t.flash)) (step (request [0x03, 0x01, 0x00, 0x00, 0x00, 0x00, 0x08, 0x00, 0x00]
        { State.reset with flash := [(0x800, 0x12)] })) =
      some ([0x03, 0x01, 0x00, 0x00, 0x00, 0x00, 0x08, 0x00, 0x00, 0x01].map some, [(0x800, 0x12)]) := by decide

/-- V63 with V64's ignored byte: the wrap from 0xFFFF to 0. -/
theorem test_readEEData :
    shows response (step (request [0x04, 0x02, 0x00, 0x00, 0x00, 0xFF, 0xFF, 0x12, 0x00]
        { State.reset with ee := [(0x0000, 0x02), (0xFFFF, 0x01)] })) =
      some ([0x04, 0x02, 0x00, 0x00, 0x00, 0xFF, 0xFF, 0x12, 0x00, 0x01, 0x02].map some) := by decide

/-- V88; the last byte is still being written. -/
theorem test_writeEEData :
    shows (fun t => (answer t, t.ee, (eeWriting t).map (fun w => (w.addr, w.val))))
        (step (request [0x05, 0x02, 0x00, 0x55, 0xAA, 0x10, 0x00, 0x00, 0x00, 0x42, 0x43] State.reset)) =
      some (([0x05, 0x02, 0x00, 0x00, 0x00, 0x10, 0x00, 0x00, 0x00, 0x01].map some, 0, 0), [(0x10, 0x42)], some (0x11, 0x43)) := by
  decide

/-- V102: an EEPROM that never leaves busy holds the command in its second wait. -/
theorem test_writeEEData_holds :
    shows (fun t => (t.phase, t.respLen, t.loc.map (fun l => (l.cur, l.i, l.n))))
        (step (request [0x05, 0x02, 0x00, 0x55, 0xAA, 0x10, 0x00, 0x00, 0x00, 0x42, 0x43] { State.reset with eeStuck := true })) =
      some (.dispatch, none, some (0x11, 1, 2)) := by decide

/-- V67. -/
theorem test_readConfig :
    shows response (step (request [0x06, 0x02, 0x00, 0x00, 0x00, 0x00, 0x00, 0x30, 0x00]
        { State.reset with cfg := [(0x300000, 0x2A), (0x300001, 0x1F)] })) =
      some ([0x06, 0x02, 0x00, 0x00, 0x00, 0x00, 0x00, 0x30, 0x00, 0x2A, 0x1F].map some) := by decide

/-- V27: below the floor, though no byte is asked for. -/
theorem test_readConfig_below_floor :
    shows response (step (request [0x06, 0x00, 0x00, 0x00, 0x00, 0xFF, 0x07, 0x00, 0x00] State.reset)) =
      some ([0x06, 0x00, 0x00, 0x00, 0x00, 0xFF, 0x07, 0x00, 0x00, 0xFE].map some) := by decide

/-- V47, V48: the pair is the start address's. -/
theorem test_writeConfig_threshold :
    shows (fun t => t.cfg) (exec (.writeConfig (hdr 2 0x55 0xAA 0x300007) [1, 2]) State.reset) =
      some [(0x300007, 1), (0x300008, 2)] ∧
    shows (fun t => t.cfg) (exec (.writeConfig (hdr 1 0x55 0xAA 0x300008) [3]) State.reset) = some [] := by decide

/-- V93: cut at `CONFIG_END`. -/
theorem test_writeConfig_cut :
    shows (fun t => (answer t, t.cfg))
        (step (request [0x07, 0x02, 0x00, 0x55, 0xAA, 0x0D, 0x00, 0x30, 0x00, 0x05, 0x06]
          (State.resetWith { Config.cfgEx with cfgKeyHi := ⟨0x55, 0xAA⟩ }))) =
      some (([0x07, 0x02, 0x00, 0x55, 0xAA, 0x0D, 0x00, 0x30, 0x00, 0xFE].map some, 0x55, 0xAA), [(0x30000D, 0x05)]) := by decide

/-- S5, request 1: four bytes, byte by byte. -/
theorem test_calcChecksum :
    shows response (step (request [0x08, 0x04, 0x00, 0x00, 0x00, 0x00, 0x08, 0x00, 0x00]
        { State.reset with flash := [(0x800, 0xDE), (0x801, 0xAD), (0x802, 0xBE), (0x803, 0xEF)] })) =
      some ([0x08, 0x04, 0x00, 0x00, 0x00, 0x00, 0x08, 0x00, 0x00, 0x38, 0x03].map some) := by decide

/-- S5, request 3 under `LE_WORD_SUM`. -/
theorem test_calcChecksum_words :
    shows (fun t => (bufByte t 9, bufByte t 10))
        (exec (.calcChecksum (hdr 3 0 0 0x801)) { State.resetWith { Config.cfgEx with checksumMode := .leWordSum } with
          flash := [(0x800, 0xDE), (0x801, 0xAD), (0x802, 0xBE), (0x803, 0xEF)] }) =
      some (some 0x9C, some 0xBF) := by decide

/-- V70's count: `buf[3]` is bits 23:16 where `LEN_EXT` holds, and is ignored otherwise (V71). -/
theorem test_checksum_count :
    checksumCount Config.cfgEx (hdr 0 1 0 0) = 0x010000 ∧
    checksumCount { Config.cfgEx with flashEnd := 0x010000 } (hdr 0 1 0 0) = 0 := by decide

/-- S6: the dispatch. -/
theorem test_resetDevice :
    shows (fun t => (answer t, t.resetPending, t.resetRequest))
        (step (request [0x09, 0x00, 0x00, 0x12, 0x34, 0xEF, 0xCD, 0xAB, 0x00] State.reset)) =
      some (([0x09, 0x00, 0x00, 0x12, 0x34, 0xEF, 0xCD, 0xAB, 0x00, 0x01].map some, 0x12, 0x34), true, false) := by decide

/-- S8, P4. -/
theorem test_invalid :
    shows answer (step (request [0xC8, 0x00, 0x00, 0x12, 0x34, 0xEF, 0xCD, 0xAB, 0x99] State.reset)) =
      some ([0xC8, 0x00, 0x00, 0x12, 0x34, 0xEF, 0xCD, 0xAB, 0x99, 0xFF].map some, 0x12, 0x34) := by decide

/-! ## The commands: one port operation per step (R9) -/

/-- The operations of a one-byte Write Flash (R200): the byte is buffered, and a step later committed; with that the command ends. -/
theorem test_writeFlash_operations :
    (List.range 2).map (fun k => shows (fun t => (t.rowBuf, t.flash, t.phase))
        (runSteps (k + 1) (arrived [0x02, 0x01, 0x00, 0x55, 0xAA, 0x00, 0x08, 0x00, 0x00, 0xDE] State.reset))) =
      [some ([(0x800, 0xDE)], [], .dispatch), some ([], [(0x800, 0xDE)], .xmit)] := by decide

/-- A Write Flash cut at `FLASH_END` (R201): the last byte inside is buffered and committed, and the check that fails is a step of its own. -/
theorem test_writeFlash_abort_step :
    (List.range 3).map (fun k => shows (fun t => (t.rowBuf, t.flash, t.phase))
        (runSteps (k + 1) (arrived [0x02, 0x02, 0x00, 0x55, 0xAA, 0xFF, 0xFF, 0x01, 0x00, 0x22, 0x33] State.reset))) =
      [some ([(0x01FFFF, 0x22)], [], .dispatch), some ([], [(0x01FFFF, 0x22)], .dispatch), some ([], [(0x01FFFF, 0x22)], .xmit)] := by
  decide

/-- An EEPROM that is busy, and does not leave busy, holds a Write EE Data before its first write (R213, R247). -/
theorem test_writeEEData_waits :
    shows (fun t => (t.ee, (eeWriting t).map (fun w => (w.addr, w.val)), t.loc.map (fun l => (l.i, l.second))))
        (step { arrived [0x05, 0x01, 0x00, 0x55, 0xAA, 0x10, 0x00, 0x00, 0x00, 0x42] State.reset with
          eeStuck := true, eeBusy := some ⟨some ⟨0x20, 0x99⟩, 4⟩ }) =
      some ([], some (0x20, 0x99), some (0, false)) := by decide

/-! ## Reset, boot and the host -/

/-- V100: a reset in the middle of a response leaves the EEPROM's durable bytes as they are, the byte being written among them. -/
theorem test_reset_keeps_ee :
    shows (fun t => (t.ee, t.phase, t.k1)) (step { State.reset with
        resetAfter := some 0, phase := .xmit, k1 := 0x55, ee := [(0x10, 0x42)], eeBusy := some ⟨some ⟨0x10, 0x99⟩, 0⟩ }) =
      some ([(0x10, 0x42)], .recv, 0) := by decide

/-- V103 to V105: who runs, and V100: the phase and the flash after a reset. -/
theorem test_boot :
    shows (fun t => (t.owner, t.phase)) (step { State.reset with resetAfter := some 0, phase := .resetHold }) = some (.block, .recv) ∧
    shows (fun t => t.owner) (step { State.reset with resetAfter := some 0, requestLine := true, flash := [(0x801, 0x12)] }) =
      some .block ∧
    shows (fun t => (t.owner, t.flash)) (step { State.reset with resetAfter := some 0, flash := [(0x801, 0x12)] }) =
      some (.application, [(0x801, 0x12)]) := by decide

/-- The encoding the host's interface uses: one byte gives a whole frame, which the next step runs. -/
theorem test_withFetchWord :
    shows answer (step (State.reset.withFetchWord 8 0x0A)) =
      some ([0x0A, 0, 0, 0, 0, 0, 0, 0, 0, 0xFF].map some, 0, 0) := by decide

/-! ## Witnesses: the hypotheses of each obligation can be met together, each clause at a boundary of its range -/

/-- A block at the dispatch of a frame, keys and memory as after reset. -/
def atDispatch (frame : List Byte) : State := request frame State.reset

/-- A block at the start of a ten-byte response, with or without a reset pending. -/
def atResponse (pending : Bool) : State :=
  { State.reset with
    phase := .xmit, respLen := some 10, txIndex := some .sync, resetPending := pending,
    buf := loadFrame [0x09, 0, 0, 0x12, 0x34, 0xEF, 0xCD, 0xAB, 0, 0x01] State.reset.buf }

/-- The same block before its last byte. -/
def atLastByte (pending : Bool) : State := { atResponse pending with txIndex := some (.byte 9) }

/-- A block whose response is sent, with a reset pending. -/
def responseSent : State := { atLastByte true with respLen := none, txIndex := none, rxCount := 0, rxExpected := 9 }

/-- `n` payload bytes. -/
def bytes (n : Nat) : List Byte := List.replicate n 0x5A

/-- The capacity clause: 17 payload bytes, of which a buffer of 16 holds 16; and none. -/
theorem witness_DecodeOfEncode :
    Instr.wf 16 (.writeFlash (hdr 17 0x55 0xAA 0x000800) (bytes 16)) = true ∧ Instr.wf 16 (.writeConfig (hdr 0 0 0 0) []) = true ∧
    Instr.wf 16 (.invalid 0xFF (hdr 0xFFFF 0xFF 0xFF 0xFFFFFF)) = true := by decide

theorem witness_EncodeOfDecode :
    ∃ i rest, decode 1 [0x07, 0x02, 0x00, 0x55, 0xAA, 0x07, 0x00, 0x30, 0x00, 0x01, 0x02] = .ok (i, rest) := ⟨_, _, rfl⟩

theorem witness_ReadClassFramesAlwaysDecode : ∀ c ∈ [(0x01 : Byte), 0x03, 0x04, 0x06, 0x08, 0xFF], c ≠ 2 ∧ c ≠ 5 ∧ c ≠ 7 := by decide

/-- Both clauses of the rule, the longest length among them. -/
theorem witness_RequestLengthRule :
    Instr.wf 65535 (.writeEEData (hdr 1 0 0 0) [1]) = true ∧ Instr.wf 65535 (.writeEEData (hdr 0 0 0 0) []) = true ∧
    Instr.wf 65535 (.readFlash (hdr 0xFFFF 0 0 0)) = true := by decide

/-- A Read Config at its dispatch, at the pace given. -/
def readConfigAt (pace : Pace) : State := { atDispatch [0x06, 0x03, 0x00, 0x00, 0x00, 0x06, 0x00, 0x30, 0x00] with pace := pace }

theorem witness_StepRunsDecodedRequest :
    (readConfigAt .request).owner = .block ∧ NoReset (readConfigAt .request) ∧ (readConfigAt .request).pace = .request ∧
    (readConfigAt .request).phase = .dispatch ∧ (readConfigAt .request).loc = none ∧
    ∃ i rest, decode 16 (leadingValues (readConfigAt .request).buf) = .ok (i, rest) := ⟨rfl, rfl, rfl, rfl, rfl, _, _, rfl⟩

/-- What every clause of `OneOperationPerStep` assumes of a state at which a request runs. -/
def AtOperation (i : Instr) (s : State) : Prop :=
  Running s ∧ s.phase = .dispatch ∧ s.pace = .operation ∧ fetchInstr s = .ok i ∧ ∃ t, step s = .next t

/-- `OneOperationPerStep`: the first operation of a request, and its second. -/
theorem witness_OneOperationPerStep :
    AtOperation (.readConfig (hdr 3 0 0 0x300006)) (readConfigAt .operation) ∧ (readConfigAt .operation).loc = none ∧
    (∃ l u, startOf (.readConfig (hdr 3 0 0 0x300006)) (tickReset (readConfigAt .operation)) = .loop l u ∧ 0 < l.n) ∧
    ∃ t, step (readConfigAt .operation) = .next t ∧ AtOperation (.readConfig (hdr 3 0 0 0x300006)) t ∧
      ∃ l, t.loc = some l ∧ l.i < l.n :=
  ⟨⟨⟨rfl, by decide⟩, rfl, rfl, rfl, _, rfl⟩, rfl, ⟨_, _, rfl, by decide⟩, _, rfl, ⟨⟨rfl, by decide⟩, rfl, rfl, rfl, _, rfl⟩, _, rfl, by decide⟩

/-- A Read Flash of no byte, and a Reset Device, at their dispatch. -/
def emptyRead : State := arrived [0x01, 0, 0, 0, 0, 0x00, 0x08, 0x00, 0] State.reset

def resetRequestArrived : State := arrived [0x09, 0, 0, 0, 0, 0, 0, 0, 0] State.reset

/-- A request of no byte, and one that ends at its start. -/
theorem witness_OneOperationPerStep_none :
    (AtOperation (.readFlash (hdr 0 0 0 0x000800)) emptyRead ∧
      ∃ l u, startOf (.readFlash (hdr 0 0 0 0x000800)) (tickReset emptyRead) = .loop l u ∧ l.n = 0) ∧
    (AtOperation (.resetDevice (hdr 0 0 0 0)) resetRequestArrived ∧
      ∃ u, startOf (.resetDevice (hdr 0 0 0 0)) (tickReset resetRequestArrived) = .ended u) :=
  ⟨⟨⟨⟨rfl, by decide⟩, rfl, rfl, rfl, _, rfl⟩, _, _, rfl, rfl⟩, ⟨⟨rfl, by decide⟩, rfl, rfl, rfl, _, rfl⟩, _, rfl⟩

/-- A Write EE Data at its dispatch while an earlier write has three steps to go. -/
def writeEEWhileBusy : State :=
  { arrived [0x05, 0x01, 0x00, 0x55, 0xAA, 0x10, 0x00, 0x00, 0x00, 0x42] State.reset with eeBusy := some ⟨some ⟨0x20, 0x99⟩, 3⟩ }

/-- A request at both paces; and one that waits for the EEPROM. -/
theorem witness_OperationsReachTheRequestsEnd :
    (∀ pace : Pace, (readConfigAt pace).owner = .block ∧ NoReset (readConfigAt pace) ∧ (readConfigAt pace).phase = .dispatch ∧
      (readConfigAt pace).loc = none ∧ ∃ i rest, decode 16 (leadingValues (readConfigAt pace).buf) = .ok (i, rest)) ∧
    (writeEEWhileBusy.owner = .block ∧ NoReset writeEEWhileBusy ∧ writeEEWhileBusy.phase = .dispatch ∧ writeEEWhileBusy.loc = none ∧
      writeEEWhileBusy.eeStuck = false ∧ ∃ rest, decode writeEEWhileBusy.params.w (leadingValues writeEEWhileBusy.buf) =
        .ok (.writeEEData (hdr 1 0x55 0xAA 0x10) [0x42], rest)) :=
  ⟨fun _ => ⟨rfl, rfl, rfl, rfl, _, _, rfl⟩, rfl, rfl, rfl, rfl, rfl, _, rfl⟩

/-- A request that needs every premise: a Write EE Data of all the buffer holds. -/
theorem witness_EveryRequestIsAnswered :
    BufOk State.reset ∧ State.reset.eeStuck = false ∧
    Instr.wf State.reset.params.w (.writeEEData (hdr 17 0x55 0xAA 0) (bytes 16)) = true := by
  refine ⟨⟨rfl, by decide⟩, rfl, ?_⟩
  decide

/-- A two-byte Write EE Data at its dispatch, with an EEPROM that never leaves busy. -/
def stuckRequest : State :=
  { atDispatch [0x05, 0x02, 0x00, 0x55, 0xAA, 0x10, 0x00, 0x00, 0x00, 0x42, 0x43] with eeStuck := true }

theorem witness_OnlyHoldKeepsDispatch :
    stuckRequest.phase = .dispatch ∧
    ∃ t, exec (.writeEEData (hdr 2 0x55 0xAA 0x10) [0x42, 0x43]) stuckRequest = .next t ∧ t.phase = .dispatch := ⟨rfl, _, rfl, rfl⟩

/-! ### Receive -/

/-- A block that has received the first `n` bytes of a frame whose code is `c`, and gets one byte more. -/
def receiving (c : Byte) (n expected : Nat) : State :=
  { State.reset with rxQueue := [0x04], rxCount := n, rxExpected := expected, buf := loadFrame ((c :: bytes 24).take n) State.reset.buf }

/-- The hypotheses of `ReceiveOneByte`. -/
def ReceiveHyp (s : State) : Prop :=
  Running s ∧ BufOk s ∧ s.phase = .recv ∧ s.rxQueue = [0x04] ∧
    (s.rxCount = 2 → (bufByte s 0).isSome = true ∧ (bufByte s 1).isSome = true)

/-- The length rule's byte, in both classes. -/
theorem witness_ReceiveOneByte_length :
    ReceiveHyp (receiving 0x02 2 9) ∧ ReceiveHyp (receiving 0x01 2 9) ∧ (receiving 0x02 2 9).rxCount = 2 :=
  ⟨⟨⟨rfl, by decide⟩, ⟨rfl, by decide⟩, rfl, rfl, by decide⟩, ⟨⟨rfl, by decide⟩, ⟨rfl, by decide⟩, rfl, rfl, by decide⟩, rfl⟩

/-- The last byte the buffer holds, the first one it does not, and the last byte of a frame. -/
theorem witness_ReceiveOneByte_ends :
    ReceiveHyp (receiving 0x02 24 27) ∧ (receiving 0x02 24 27).rxCount + 1 = 9 + (receiving 0x02 24 27).params.w ∧
    ReceiveHyp (receiving 0x02 25 27) ∧ (receiving 0x02 25 27).rxCount = 9 + (receiving 0x02 25 27).params.w ∧
    ReceiveHyp (receiving 0x01 8 9) ∧ (receiving 0x01 8 9).rxCount + 1 = (receiving 0x01 8 9).rxExpected :=
  ⟨⟨⟨rfl, by decide⟩, ⟨rfl, by decide⟩, rfl, rfl, by decide⟩, rfl, ⟨⟨rfl, by decide⟩, ⟨rfl, by decide⟩, rfl, rfl, by decide⟩, rfl,
    ⟨⟨rfl, by decide⟩, ⟨rfl, by decide⟩, rfl, rfl, by decide⟩, rfl⟩

/-- In `RECV` and in `XMIT`. -/
theorem witness_TimePassesOutsideDispatch :
    (Running State.reset ∧ State.reset.phase ≠ .dispatch ∧ ∃ t, step State.reset = .next t) ∧
    (Running (atResponse true) ∧ (atResponse true).phase ≠ .dispatch ∧ ∃ t, step (atResponse true) = .next t) :=
  ⟨⟨⟨rfl, by decide⟩, by decide, _, rfl⟩, ⟨rfl, by decide⟩, by decide, _, rfl⟩

/-- A request that fits the buffer, with a byte behind it; and one with a byte too many for it. -/
theorem witness_ReceiverRefinesDecoder :
    ∀ n ∈ [2, 17], ∃ i s, s.owner = .block ∧ NoReset s ∧ BufOk s ∧ s.phase = .recv ∧ s.rxCount = 0 ∧ s.rxExpected = 9 ∧
      Instr.wf 65535 i = true ∧ i.header.dlen.toNat = n ∧ s.rxQueue = encode i ++ [0x77] := by
  intro n hn
  refine ⟨.writeFlash (hdr (BitVec.ofNat 16 n) 0x55 0xAA 0x000800) (bytes n),
    { State.reset with rxQueue := encode (.writeFlash (hdr (BitVec.ofNat 16 n) 0x55 0xAA 0x000800) (bytes n)) ++ [0x77] },
    rfl, rfl, ⟨rfl, Nat.le_refl 16⟩, rfl, rfl, rfl, ?_⟩
  rcases List.mem_cons.mp hn with rfl | hn
  · decide
  · cases List.mem_singleton.mp hn
    decide

/-! ### Transmit -/

/-- `TransmitOneByte`: the sync byte, which a byte follows; and the last byte, with a reset pending and without. -/
theorem witness_TransmitOneByte : ∀ pending : Bool,
    (Running (atResponse pending) ∧ (atResponse pending).phase = .xmit ∧ (atResponse pending).respLen = some 10 ∧
      (atResponse pending).txIndex = some .sync ∧ (atResponse pending).txReady = true) ∧
    (Running (atLastByte pending) ∧ (atLastByte pending).phase = .xmit ∧ (atLastByte pending).respLen = some 10 ∧
      (atLastByte pending).txIndex = some (.byte 9) ∧ (atLastByte pending).txReady = true ∧ bufByte (atLastByte pending) 9 = some 0x01 ∧
      (atLastByte pending).resetPending = pending) :=
  fun _ => ⟨⟨⟨rfl, by intro h; cases h⟩, rfl, rfl, rfl, rfl⟩, ⟨rfl, by intro h; cases h⟩, rfl, rfl, rfl, rfl, rfl, rfl⟩

theorem witness_TransmitterSendsWholeResponse : ∀ pending : Bool,
    (atResponse pending).owner = .block ∧ NoReset (atResponse pending) ∧ (atResponse pending).txReady = true ∧
    (atResponse pending).phase = .xmit ∧ (atResponse pending).respLen = some 10 ∧ (atResponse pending).txIndex = some .sync ∧
    (atResponse pending).resetPending = pending ∧
    ∀ j < 10, bufByte (atResponse pending) j = [0x09, 0, 0, 0x12, 0x34, 0xEF, 0xCD, 0xAB, 0, (0x01 : Byte)][j]? := by
  intro pending
  refine ⟨rfl, rfl, rfl, rfl, rfl, rfl, rfl, ?_⟩
  cases pending <;> decide

/-- With and without a reset pending. -/
theorem witness_IdlePointActsOnPendingReset : ∀ pending : Bool,
    (atLastByte pending).owner = .block ∧ NoReset (atLastByte pending) ∧ (atLastByte pending).phase = .xmit ∧
    (atLastByte pending).respLen = some (9 + 1) ∧ (atLastByte pending).txIndex = some (.byte 9) ∧
    (atLastByte pending).txReady = true ∧ bufByte (atLastByte pending) 9 = some 0x01 ∧ (atLastByte pending).resetRequest = false ∧
    (atLastByte pending).resetPending = pending :=
  fun _ => ⟨rfl, rfl, rfl, rfl, rfl, rfl, rfl, rfl, rfl⟩

/-! ### Reset and boot -/

/-- A reset in the middle of a response, and one that interrupts an EEPROM write. -/
theorem witness_DeviceResetRestoresBlock :
    ({ atResponse true with resetAfter := some 0 } : State).resetAfter = some 0 ∧
    ({ State.reset with resetAfter := some 0, eeBusy := some ⟨some ⟨0x10, 0x42⟩, 0⟩ } : State).resetAfter = some 0 := ⟨rfl, rfl⟩

/-- No application; an application and the request line; an application alone, by one byte of its vector. -/
theorem witness_BootDecisionChoosesOwner :
    State.reset.params.appVectorWidth = 8 * 2 ∧ ImplementedFrom State.reset .flash State.reset.params.appVectorAddr 2 ∧
    (∀ i < 2, Memory.read State.reset.flash (State.reset.params.appVectorAddr + BitVec.ofNat 24 i).toNat = 0xFF) ∧
    (∃ i < 2, Memory.read [(0x801, 0x12)] (State.reset.params.appVectorAddr + BitVec.ofNat 24 i).toNat ≠ 0xFF) := by
  refine ⟨rfl, ?_, by decide, ⟨1, by decide⟩⟩
  unfold ImplementedFrom
  decide

/-! ### The frame buffer and time -/

/-- What most statements about a request assume of the state: met by the state after reset. -/
def Ready (s : State) : Prop := BufOk s ∧ s.params.wf ∧ cellsSorted s.rowBuf

theorem ready_reset : Ready State.reset := ⟨⟨rfl, by decide⟩, by decide, List.Pairwise.nil⟩

/-- `ReadVersionAnswers`: the two premises on the config words. -/
theorem witness_ReadVersionAnswers :
    BufOk State.reset ∧ ImplementedFrom State.reset .cfg State.reset.params.devidAddr 2 ∧
    ImplementedFrom State.reset .cfg State.reset.params.idlocAddr 4 := by
  refine ⟨⟨rfl, by decide⟩, ?_, ?_⟩ <;> (unfold ImplementedFrom; decide)

/-- `ReadFlashAnswers`: at the capacity, and one byte over it; an implemented byte, and one that is not. -/
theorem witness_ReadFlashAnswers :
    BufOk State.reset ∧ (hdr 16 0 0 0x000800).dlen.toNat ≤ State.reset.params.w ∧
    State.reset.params.w < (hdr 17 0 0 0x000800).dlen.toNat ∧
    implemented State.reset.params .flash (0x01FFFF : Addr).toNat = true ∧
    implemented State.reset.params .flash (0x020000 : Addr).toNat = false := by
  refine ⟨⟨rfl, by decide⟩, ?_⟩
  decide

/-- `ReadEEDataAnswers`: the same, the address wrapping at 2^16, and a byte being written beside one that is not. -/
theorem witness_ReadEEDataAnswers :
    BufOk State.reset ∧ (hdr 2 0 0 0x12FFFF).dlen.toNat ≤ State.reset.params.w ∧
    State.reset.params.w < (hdr 17 0 0 0x00FFFF).dlen.toNat ∧
    implemented State.reset.params .ee (((hdr 2 0 0 0x12FFFF).addr.toNat + 1) % 65536) = true ∧
    eeBusyAt (((hdr 2 0 0 0x12FFFF).addr.toNat + 1) % 65536) { State.reset with eeBusy := some ⟨some ⟨0xFFFF, 1⟩, 0⟩ } = false := by
  refine ⟨⟨rfl, by decide⟩, ?_⟩
  decide

/-- `ReadConfigAnswers`: the start address at the floor and one below it. -/
theorem witness_ReadConfigAnswers :
    BufOk State.reset ∧ (hdr 16 0 0 0x000800).dlen.toNat ≤ State.reset.params.w ∧
    State.reset.params.floor ≤ (hdr 16 0 0 0x000800).addr.toNat ∧ (hdr 1 0 0 0x0007FF).addr.toNat < State.reset.params.floor ∧
    State.reset.params.w < (hdr 17 0 0 0x000800).dlen.toNat ∧ implemented State.reset.params .cfg (0x30000D : Addr).toNat = true := by
  refine ⟨⟨rfl, by decide⟩, ?_⟩
  decide

/-- `CalcChecksumAnswers`: a range that ends with the implemented flash, under a count that takes the key byte and one that does not. -/
theorem witness_CalcChecksumAnswers :
    BufOk State.reset ∧ ImplementedFrom State.reset .flash 0x01FFFC 4 ∧
    0x10000 < State.reset.params.flashEnd ∧ ¬0x10000 < { Config.cfgEx with flashEnd := 0x010000 }.flashEnd := by
  refine ⟨⟨rfl, by decide⟩, ?_, by decide⟩
  unfold ImplementedFrom
  decide

/-- `ChecksumSplits`: an odd split point in `BYTE_SUM`, an even one in `LE_WORD_SUM`. -/
theorem witness_ChecksumSplits :
    ∀ c ∈ [(ChecksumMode.byteSum, 1), (ChecksumMode.leWordSum, 2)], ∃ s : State,
      (s.params.checksumMode = .byteSum ∨ c.2 % 2 = 0) ∧ s.params.checksumMode = c.1 ∧ s.buf.length = 9 + s.params.w ∧
      16 ≤ s.params.w ∧ checksumCount s.params (hdr (BitVec.ofNat 16 c.2) 0 0 0x000801) = c.2 ∧
      checksumCount s.params (hdr 2 0 0 (0x000801 + BitVec.ofNat 24 c.2)) = 2 ∧
      checksumCount s.params (hdr (BitVec.ofNat 16 (c.2 + 2)) 0 0 0x000801) = c.2 + 2 ∧
      (∀ i < c.2 + 2, implemented s.params .flash ((0x000801 : Addr) + BitVec.ofNat 24 i).toNat = true) ∧
      (∃ t, exec (.calcChecksum (hdr (BitVec.ofNat 16 c.2) 0 0 0x000801)) s = .next t) ∧
      (∃ t, exec (.calcChecksum (hdr 2 0 0 (0x000801 + BitVec.ofNat 24 c.2))) s = .next t) ∧
      ∃ t, exec (.calcChecksum (hdr (BitVec.ofNat 16 (c.2 + 2)) 0 0 0x000801)) s = .next t := by
  intro c hc
  rcases List.mem_cons.mp hc with rfl | hc
  · exact ⟨State.reset, by decide, rfl, rfl, by decide, by decide, by decide, by decide, by decide, ⟨_, rfl⟩, ⟨_, rfl⟩, _, rfl⟩
  · cases List.mem_singleton.mp hc
    exact ⟨State.resetWith { Config.cfgEx with checksumMode := .leWordSum }, by decide, rfl, rfl, by decide, by decide, by decide,
      by decide, by decide, ⟨_, rfl⟩, ⟨_, rfl⟩, _, rfl⟩

theorem witness_ReadClassEchoesHeader :
    (∃ t, exec (.readVersion (hdr 0 0 0 0)) State.reset = .next t) ∧ (∃ t, exec (.readFlash (hdr 1 0 0 0)) State.reset = .next t) ∧
    (∃ t, exec (.readEEData (hdr 1 0 0 0)) State.reset = .next t) ∧
    (∃ t, exec (.readConfig (hdr 1 0 0 0x300000)) State.reset = .next t) ∧
    ∃ t, exec (.calcChecksum (hdr 1 0 0 0)) State.reset = .next t := ⟨⟨_, rfl⟩, ⟨_, rfl⟩, ⟨_, rfl⟩, ⟨_, rfl⟩, ⟨_, rfl⟩⟩

/-! ### The address guard -/

theorem witness_OverCapacityAnswersOutOfRange :
    BufOk State.reset ∧ ∀ i ∈ [Instr.readFlash (hdr 17 0 0 0), .writeFlash (hdr 17 0 0 0) (bytes 16), .readEEData (hdr 17 0 0 0),
      .writeEEData (hdr 17 0 0 0) (bytes 16), .readConfig (hdr 17 0 0 0), .writeConfig (hdr 17 0 0 0) (bytes 16)],
      isPayloadIndexed i = true ∧ State.reset.params.w < i.header.dlen.toNat := by
  refine ⟨⟨rfl, by decide⟩, ?_⟩
  decide

/-- One byte below the floor: a write start, and an erase start that the mask takes to the row below. -/
theorem witness_BelowFloorAnswersOutOfRange :
    BufOk State.reset ∧ (bytes 2).length = min (hdr 2 0 0 0x0007FF).dlen.toNat State.reset.params.w ∧
    (hdr 2 0 0 0x0007FF).addr.toNat < State.reset.params.floor ∧
    (eraseRowOf State.reset.params (hdr 2 0 0 0x0007FF).addr).toNat < State.reset.params.floor := by
  refine ⟨⟨rfl, by decide⟩, ?_⟩
  decide

/-- The byte, the row, and the config byte just past the end. -/
theorem witness_OutOfRangeElementAnswersOutOfRange :
    BufOk State.reset ∧ (bytes 2).length = min (hdr 2 0 0 0x01FFFF).dlen.toNat State.reset.params.w ∧
    (∃ i < 2, inFlash State.reset.params ((0x01FFFF : Addr) + BitVec.ofNat 24 i) = false) ∧
    (∃ i < 2, inFlash State.reset.params (eraseRowOf State.reset.params 0x01FFFF + BitVec.ofNat 24 (i * State.reset.params.e)) = false) ∧
    ∃ i < 2, inCfg State.reset.params ((0x30000D : Addr) + BitVec.ofNat 24 i) = false :=
  ⟨⟨rfl, by decide⟩, by decide, ⟨1, by decide⟩, ⟨1, by decide⟩, 1, by decide⟩

theorem witness_GuardBoundaries : Config.cfgEx.wf ∧ 0 < Config.cfgEx.floor ∧ Config.cfgEx.flashEnd < 2 ^ 24 := by decide

theorem witness_RowMaskRoundsDown : isPowerOfTwo 1 ∧ isPowerOfTwo 64 ∧ isPowerOfTwo (2 ^ 24) := by decide

/-! ### The unlock sequence -/

/-- Each command at both ends: with the pair, and out of range. -/
theorem witness_MutatingCommandsClearOrKeepKeys :
    ∀ i ∈ [Instr.writeFlash (hdr 1 0x55 0xAA 0x000800) [1], .eraseFlash (hdr 1 0x55 0xAA 0x000800), .writeEEData (hdr 1 0x55 0xAA 0) [1],
      .writeConfig (hdr 1 0x55 0xAA 0x300000) [1], .writeFlash (hdr 1 0x55 0xAA 0) [1]],
      isMutating i = true ∧ shows (·.phase) (exec i (atDispatch (encode i))) = some .xmit ∧ (atDispatch (encode i)).phase = .dispatch ∧
      (atDispatch (encode i)).buf.length = 25 := by decide

theorem witness_OtherCommandsKeepKeys :
    isMutating (.resetDevice (hdr 0 0 0 0)) = false ∧ ∃ t, exec (.resetDevice (hdr 0 0 0 0)) State.reset = .next t := ⟨rfl, _, rfl⟩

/-! ### The mutating commands -/

/-- `WriteFlashInRangeCompletes`: a whole row that ends at `FLASH_END`, and an empty request, with the pair and with another. -/
theorem witness_WriteFlashInRangeCompletes :
    Ready State.reset ∧
    (hdr 16 0x55 0xAA 0x01FFF0).dlen.toNat ≤ State.reset.params.w ∧ (bytes 16).length = (hdr 16 0x55 0xAA 0x01FFF0).dlen.toNat ∧
    State.reset.params.floor ≤ (hdr 16 0x55 0xAA 0x01FFF0).addr.toNat ∧
    (hdr 16 0x55 0xAA 0x01FFF0).addr.toNat + (hdr 16 0x55 0xAA 0x01FFF0).dlen.toNat = State.reset.params.flashEnd ∧
    (hdr 0 0x55 0xAA 0x000800).addr.toNat = State.reset.params.floor ∧
    KeysMatch State.reset.params.nvmKey (hdr 16 0x55 0xAA 0x01FFF0) ∧ ¬KeysMatch State.reset.params.nvmKey (hdr 16 0xAA 0x55 0x01FFF0) := by
  refine ⟨ready_reset, ?_⟩
  unfold KeysMatch
  decide

/-- `WriteFlashByteByByte`: a range that ends with the writable range; and one that wraps, where all the space is writable. -/
theorem witness_WriteFlashByteByByte :
    Ready State.reset ∧ State.reset.params.w < 2 ^ 24 ∧ (hdr 2 0x55 0xAA 0x01FFFE).dlen.toNat ≤ State.reset.params.w ∧
    (bytes 2).length = (hdr 2 0x55 0xAA 0x01FFFE).dlen.toNat ∧ State.reset.params.floor ≤ (hdr 2 0x55 0xAA 0x01FFFE).addr.toNat ∧
    (∀ i < 2, inFlash State.reset.params (byteTarget (hdr 2 0x55 0xAA 0x01FFFE) i) = true) ∧
    KeysMatch State.reset.params.nvmKey (hdr 2 0x55 0xAA 0x01FFFE) ∧ ¬KeysMatch State.reset.params.nvmKey (hdr 2 0x55 0x55 0x01FFFE) ∧
    (∀ i < 2, inFlash { Config.cfgEx with floor := 0, flashEnd := 2 ^ 24 } (byteTarget (hdr 2 0x55 0xAA 0xFFFFFF) i) = true) ∧
    { Config.cfgEx with floor := 0, flashEnd := 2 ^ 24 }.wf := by
  refine ⟨ready_reset, ?_⟩
  unfold KeysMatch
  decide

theorem witness_AbortedWriteDropsRowBuffer :
    (State.resetWith { Config.cfgEx with staleRowBuffer := .dropped }).params.staleRowBuffer = .dropped ∧
    (hdr 2 0 0 0x01FFFF).dlen.toNat ≤ Config.cfgEx.w ∧ (bytes 2).length = (hdr 2 0 0 0x01FFFF).dlen.toNat ∧
    Config.cfgEx.floor ≤ (hdr 2 0 0 0x01FFFF).addr.toNat ∧
    ∃ i < 2, inFlash { Config.cfgEx with staleRowBuffer := .dropped } (byteTarget (hdr 2 0 0 0x01FFFF) i) = false :=
  ⟨rfl, by decide, by decide, by decide, 1, by decide⟩

/-- `UnhonoredWriteLeavesRowBuffer`: both settings of the parameter. -/
theorem witness_UnhonoredWriteLeavesRowBuffer :
    ∀ mode : StaleRowBuffer, BufOk (State.resetWith { Config.cfgEx with staleRowBuffer := mode }) ∧
      { Config.cfgEx with staleRowBuffer := mode }.wf ∧
      (hdr 2 0xAA 0x55 0x000800).dlen.toNat ≤ Config.cfgEx.w ∧ (bytes 2).length = (hdr 2 0xAA 0x55 0x000800).dlen.toNat ∧
      Config.cfgEx.floor ≤ (hdr 2 0xAA 0x55 0x000800).addr.toNat ∧
      (hdr 2 0xAA 0x55 0x000800).addr.toNat + (hdr 2 0xAA 0x55 0x000800).dlen.toNat ≤ Config.cfgEx.flashEnd ∧
      ¬KeysMatch Config.cfgEx.nvmKey (hdr 2 0xAA 0x55 0x000800) := by
  intro mode
  refine ⟨⟨rfl, Nat.le_refl 16⟩, (by decide : Config.cfgEx.wf), ?_⟩
  unfold KeysMatch
  decide

/-- `WriteFlashAcrossEndAborts`: the last byte of the range, and one byte more, with the pair and with another; and a start at the bound. -/
theorem witness_WriteFlashAcrossEndAborts :
    Ready State.reset ∧
    (0 < State.reset.params.floor ∨ State.reset.params.flashEnd < 2 ^ 24) ∧
    (hdr 2 0x55 0xAA 0x01FFFF).dlen.toNat ≤ State.reset.params.w ∧ (bytes 2).length = (hdr 2 0x55 0xAA 0x01FFFF).dlen.toNat ∧
    State.reset.params.floor ≤ (hdr 2 0x55 0xAA 0x01FFFF).addr.toNat ∧
    (hdr 2 0x55 0xAA 0x01FFFF).addr.toNat < State.reset.params.flashEnd ∧
    State.reset.params.flashEnd < (hdr 2 0x55 0xAA 0x01FFFF).addr.toNat + (hdr 2 0x55 0xAA 0x01FFFF).dlen.toNat ∧
    (State.reset.params.flashEnd ≤ (hdr 1 0x55 0xAA 0x020000).addr.toNat ∧ 0 < (hdr 1 0x55 0xAA 0x020000).dlen.toNat) ∧
    KeysMatch State.reset.params.nvmKey (hdr 2 0x55 0xAA 0x01FFFF) ∧ ¬KeysMatch State.reset.params.nvmKey (hdr 2 0xAA 0xAA 0x01FFFF) := by
  refine ⟨ready_reset, ?_⟩
  unfold KeysMatch
  decide

/-- `FlashRoundTrip`: a range that ends with the writable range, read in a later receive phase; and erased cells under `AND`. -/
theorem witness_FlashRoundTrip :
    Ready State.reset ∧ (hdr 2 0x55 0xAA 0x01FFFE).addr.toNat + (hdr 2 0x55 0xAA 0x01FFFE).dlen.toNat ≤ 2 ^ 24 ∧
    ((hdr 2 0x55 0xAA 0x01FFFE).dlen.toNat ≤ State.reset.params.w ∧ [(1 : Byte), 2].length = (hdr 2 0x55 0xAA 0x01FFFE).dlen.toNat ∧
      State.reset.params.floor ≤ (hdr 2 0x55 0xAA 0x01FFFE).addr.toNat ∧
      (∀ i < 2, inFlash State.reset.params (byteTarget (hdr 2 0x55 0xAA 0x01FFFE) i) = true) ∧
      (hdr 2 0 0 0x01FFFE).addr = (hdr 2 0x55 0xAA 0x01FFFE).addr ∧ (hdr 2 0 0 0x01FFFE).dlen = (hdr 2 0x55 0xAA 0x01FFFE).dlen) ∧
    ImplementedFrom State.reset .flash 0x01FFFE 2 ∧ State.reset.params.flashProgram = .replace ∧
    (∀ i < 2, Memory.read State.reset.flash (0x01FFFE + i) = 0xFF) ∧ KeysMatch State.reset.params.nvmKey (hdr 2 0x55 0xAA 0x01FFFE) ∧
    ∃ t, exec (.writeFlash (hdr 2 0x55 0xAA 0x01FFFE) [1, 2]) State.reset = .next t ∧
      ({ t with phase := .recv, sent := [0] } : State).params = State.reset.params ∧ BufOk { t with phase := .recv, sent := [0] } ∧
      SameSpace .flash t { t with phase := .recv, sent := [0] } ∧
      ∃ u, exec (.readFlash (hdr 2 0 0 0x01FFFE)) { t with phase := .recv, sent := [0] } = .next u := by
  refine ⟨ready_reset, by decide, by decide, ?_, rfl, by decide, ⟨rfl, rfl⟩, _, rfl, rfl, ⟨rfl, by decide⟩, fun _ => rfl, _, rfl⟩
  unfold ImplementedFrom
  decide

/-- The same with a range that wraps, where all the space is writable and implemented. -/
theorem witness_FlashRoundTrip_wraps :
    ∃ s : State, Ready s ∧ s.params.w < 2 ^ 24 ∧ (hdr 2 0x55 0xAA 0xFFFFFF).addr.toNat + 2 = 2 ^ 24 + 1 ∧
      (∀ i < 2, inFlash s.params (byteTarget (hdr 2 0x55 0xAA 0xFFFFFF) i) = true) ∧ ImplementedFrom s .flash 0xFFFFFF 2 ∧
      s.params.flashProgram = .replace ∧ KeysMatch s.params.nvmKey (hdr 2 0x55 0xAA 0xFFFFFF) ∧
      ∃ t, exec (.writeFlash (hdr 2 0x55 0xAA 0xFFFFFF) [1, 2]) s = .next t ∧
        ∃ u, exec (.readFlash (hdr 2 0 0 0xFFFFFF)) t = .next u := by
  refine ⟨State.resetWith { Config.cfgEx with floor := 0, flashEnd := 2 ^ 24, flashMap := [⟨0, 2 ^ 24⟩] },
    ⟨⟨rfl, by decide⟩, by decide, List.Pairwise.nil⟩, by decide, by decide, by decide, ?_, rfl, ⟨rfl, rfl⟩, _, rfl, _, rfl⟩
  unfold ImplementedFrom
  decide

/-- `EraseFlashErasesRows`: one byte below the floor's row; every row in range, up to `FLASH_END`; one row more, so that row 1 is the first one
outside; no row; and both key cases. -/
theorem witness_EraseFlashErasesRows :
    Ready State.reset ∧
    (0x0007FF - 0x0007FF % State.reset.params.e < State.reset.params.floor) ∧
    (State.reset.params.floor ≤ 0x000800 - 0x000800 % State.reset.params.e) ∧
    (∀ i < 1, inFlash State.reset.params (eraseTarget State.reset.params (hdr 1 0x55 0xAA 0x01FFC5) i) = true) ∧
    inFlash State.reset.params (eraseTarget State.reset.params (hdr 2 0x55 0xAA 0x01FFC5) 1) = false ∧
    (hdr 1 0x55 0xAA 0x01FFC5).dlen.toNat = 1 ∧ 1 < (hdr 2 0x55 0xAA 0x01FFC5).dlen.toNat ∧ (hdr 0 0x55 0xAA 0x01FFC5).dlen.toNat = 0 ∧
    (eraseTarget State.reset.params (hdr 1 0x55 0xAA 0x01FFC5) 0).toNat + State.reset.params.e = State.reset.params.flashEnd ∧
    KeysMatch State.reset.params.nvmKey (hdr 2 0x55 0xAA 0x01FFC5) ∧ ¬KeysMatch State.reset.params.nvmKey (hdr 2 0x55 0x55 0x01FFC5) := by
  refine ⟨ready_reset, ?_⟩
  unfold KeysMatch
  decide

/-- `WriteEEDataWrites`: none, all, and one more byte than the buffer holds; the last of `n + 1` bytes; a byte written twice with stride 2
needs 32769 bytes, so no request within the capacity has one. -/
theorem witness_WriteEEDataWrites :
    Ready State.reset ∧
    State.reset.eeStuck = false ∧ (bytes 0).length = min (hdr 0 0x55 0xAA 0).dlen.toNat State.reset.params.w ∧
    (bytes 16).length = min (hdr 16 0x55 0xAA 0xFFFF).dlen.toNat State.reset.params.w ∧
    (bytes 16).length = min (hdr 17 0x55 0xAA 0xFFFF).dlen.toNat State.reset.params.w ∧
    (∀ k < 16, 0 < k → eeTarget State.reset.params (hdr 16 0x55 0xAA 0xFFFF) k ≠ eeTarget State.reset.params (hdr 16 0x55 0xAA 0xFFFF) 0) ∧
    (∀ i < 16, (eeTarget State.reset.params (hdr 16 0x55 0xAA 0xFFFF) i).toNat ≠ 0x000F) ∧
    (hdr 16 0x55 0xAA 0xFFFF).dlen.toNat = 15 + 1 :=
  ⟨ready_reset, by decide⟩

theorem witness_WriteEEDataHoldsOnStuckEEPROM :
    ∃ s : State, s.eeStuck = true ∧ s.eeBusy = none ∧ s.phase = .dispatch ∧ 2 ≤ (hdr 2 0x55 0xAA 0x10).dlen.toNat ∧
      (hdr 2 0x55 0xAA 0x10).dlen.toNat ≤ s.params.w ∧ [(0x42 : Byte), 0x43].length = (hdr 2 0x55 0xAA 0x10).dlen.toNat ∧
      KeysMatch s.params.nvmKey (hdr 2 0x55 0xAA 0x10) :=
  ⟨stuckRequest, rfl, rfl, rfl, by decide, by decide, rfl, rfl, rfl⟩

/-- A block held in the second wait of a Write EE Data. -/
def heldInWait : State :=
  { stuckRequest with
    eeBusy := some ⟨some ⟨0x10, 0x42⟩, 3⟩, loc := some ⟨0x11, 1, 2, some Config.cfgEx.nvmKey, 0, false⟩, k1 := 0x55, k2 := 0xAA }

theorem witness_HeldWriteEEDataGoesOn :
    stuckRequest.owner = .block ∧ NoReset stuckRequest ∧ stuckRequest.phase = .dispatch ∧ stuckRequest.eeStuck = true ∧
    fetchInstr stuckRequest = .ok (.writeEEData (hdr 2 0x55 0xAA 0x10) [0x42, 0x43]) ∧
    ∃ t, exec (.writeEEData (hdr 2 0x55 0xAA 0x10) [0x42, 0x43]) stuckRequest = .next t ∧ t.phase = .dispatch :=
  ⟨rfl, rfl, rfl, rfl, by decide, _, rfl, rfl⟩

/-- `HoldsOnlyLetTimePass`: one state for each clause. -/
theorem witness_HoldsOnlyLetTimePass :
    (State.reset.resetAfter ≠ some 0 ∧ State.reset.owner = .block ∧ State.reset.phase = .recv ∧ State.reset.rxQueue = []) ∧
    (({ atResponse false with txReady := false } : State).owner = .block ∧ (atResponse false).phase = .xmit ∧
      (atResponse false).respLen.isSome = true ∧ (atResponse false).txIndex.isSome = true) ∧
    (heldInWait.owner = .block ∧ heldInWait.phase = .dispatch ∧ heldInWait.eeStuck = true ∧ heldInWait.eeBusy.isSome = true ∧
      NoReset heldInWait ∧
      ∃ h data l, fetchInstr heldInWait = .ok (.writeEEData h data) ∧ heldInWait.loc = some l ∧ l.pair.isSome = true ∧ l.i < l.n ∧
        l.second = false) ∧
    (({ State.reset with phase := .resetHold } : State).owner = .block ∧
      ({ State.reset with owner := .application, resetAfter := some 1 } : State).resetAfter ≠ some 0) := by
  refine ⟨⟨by decide, rfl, rfl, rfl⟩, ⟨rfl, rfl, rfl, rfl⟩, ⟨rfl, rfl, rfl, rfl, rfl, ?_⟩, rfl, by decide⟩
  exact ⟨hdr 2 0x55 0xAA 0x10, [0x42, 0x43], _, by decide, rfl, rfl, by decide, rfl⟩

/-- A write with no time left, and one with some. -/
theorem witness_EEWriteBecomesDurable : ∀ left : Nat,
    ({ State.reset with eeBusy := some ⟨some ⟨0x10, 0x42⟩, left⟩ } : State).owner = .block ∧
    NoReset { State.reset with eeBusy := some ⟨some ⟨0x10, 0x42⟩, left⟩ } ∧
    ({ State.reset with eeBusy := some ⟨some ⟨0x10, 0x42⟩, left⟩ } : State).phase = .recv ∧
    ({ State.reset with eeBusy := some ⟨some ⟨0x10, 0x42⟩, left⟩ } : State).rxQueue = [] ∧
    ({ State.reset with eeBusy := some ⟨some ⟨0x10, 0x42⟩, left⟩ } : State).eeStuck = false := fun _ => ⟨rfl, rfl, rfl, rfl, rfl⟩

/-- `WriteConfigWrites`: below the floor and at it; over the capacity; ending at `CONFIG_END`, and one byte past it, so that byte 1 is the first
one outside; empty; and the pair on both sides of the threshold. -/
theorem witness_WriteConfigWrites :
    Ready State.reset ∧
    (bytes 2).length = min (hdr 2 0xA5 0x5A 0x30000C).dlen.toNat State.reset.params.w ∧
    (bytes 16).length = min (hdr 17 0xA5 0x5A 0x30000C).dlen.toNat State.reset.params.w ∧
    (bytes 0).length = min (hdr 0 0xA5 0x5A 0x30000C).dlen.toNat State.reset.params.w ∧
    State.reset.params.w < (hdr 17 0xA5 0x5A 0x30000C).dlen.toNat ∧ (hdr 1 0 0 0x0007FF).addr.toNat < State.reset.params.floor ∧
    State.reset.params.floor ≤ (hdr 1 0 0 0x000800).addr.toNat ∧
    (∀ i < 2, inCfg State.reset.params (byteTarget (hdr 2 0xA5 0x5A 0x30000C) i) = true) ∧
    (∀ i < 1, inCfg State.reset.params (byteTarget (hdr 2 0xA5 0x5A 0x30000D) i) = true) ∧
    inCfg State.reset.params (byteTarget (hdr 2 0xA5 0x5A 0x30000D) 1) = false ∧
    (hdr 1 0x55 0xAA 0x300007).addr.toNat < State.reset.params.cfgThreshold ∧ ¬(0x300008 : Addr).toNat < State.reset.params.cfgThreshold ∧
    KeysMatch State.reset.params.cfgKeyLo (hdr 1 0x55 0xAA 0x300007) ∧ KeysMatch State.reset.params.cfgKeyHi (hdr 2 0xA5 0x5A 0x30000C) ∧
    ¬KeysMatch State.reset.params.cfgKeyHi (hdr 2 0x55 0xAA 0x30000C) := by
  refine ⟨ready_reset, ?_⟩
  unfold KeysMatch
  decide

theorem witness_ResetDeviceAnswers : BufOk State.reset := ⟨rfl, by decide⟩

theorem witness_InvalidCommandAnswers : BufOk State.reset := ⟨rfl, by decide⟩

/-! ### The whole machine -/

theorem witness_OnlyMutatingCommandsChangeMemory :
    isMutating (.calcChecksum (hdr 1 0 0 0x000800)) = false ∧ ∃ t, exec (.calcChecksum (hdr 1 0 0 0x000800)) State.reset = .next t :=
  ⟨rfl, _, rfl⟩

/-- A pending reset that stays, and the request that sets it. -/
theorem witness_PendingResetIsSticky :
    (atResponse true).resetAfter ≠ some 0 ∧ (atResponse true).resetPending = true ∧ (∃ t, step (atResponse true) = .next t) ∧
    (atDispatch [0x09, 0, 0, 0, 0, 0, 0, 0, 0]).resetPending = false ∧
    ∃ t, step (atDispatch [0x09, 0, 0, 0, 0, 0, 0, 0, 0]) = .next t ∧ t.resetPending = true :=
  ⟨by decide, rfl, ⟨_, rfl⟩, rfl, _, rfl, rfl⟩

/-- `HostSendsOnlyBetweenRequests`: the refusal's two cases and the four others. -/
theorem witness_HostSendsOnlyBetweenRequests :
    ((atDispatch []).owner = .block ∧ (atDispatch []).phase = .dispatch) ∧
    ((atResponse false).owner = .block ∧ (atResponse false).phase = .xmit ∧ (atResponse false).respLen.isSome = true) ∧
    ({ State.reset with owner := .application } : State).owner = .application ∧ State.reset.phase = .recv ∧
    (responseSent.phase = .xmit ∧ responseSent.respLen = none) ∧
    ({ State.reset with phase := .resetHold } : State).resetAfter ≠ some 0 :=
  ⟨⟨rfl, rfl⟩, ⟨rfl, rfl, rfl⟩, rfl, rfl, ⟨rfl, rfl⟩, by decide⟩

/-! ### The invariant -/

/-- A block in the middle of a response that ends in a reset has the invariant. -/
theorem inv_atLastByte : Inv (atLastByte true) where
  params      := by decide
  buf         := by decide
  flash       := ⟨List.Pairwise.nil, by decide⟩
  ee          := ⟨List.Pairwise.nil, by decide⟩
  cfg         := ⟨List.Pairwise.nil, by decide⟩
  rowBuf      := List.Pairwise.nil
  cfgRec      := List.Pairwise.nil
  ustate      := rfl
  counters    := by decide
  received    := by rintro (h | h) <;> cases h
  expected    := by rintro (h | h) <;> cases h
  receiving   := by intro h; cases h
  dispatching := by intro h; cases h
  suspended   := by intro l h; cases h
  pending     := fun _ => .inl rfl
  request     := by decide
  holding     := by intro h; cases h
  responding  := fun _ => .inl ⟨10, rfl, by decide, by decide, by unfold HasByte; decide, .byte 9, rfl, by rintro t h; cases h; decide⟩
  quiet       := fun h => absurd rfl h

/-- So has a block whose response is sent, with a reset pending. -/
theorem inv_responseSent : Inv responseSent :=
  { inv_atLastByte with
    counters   := by decide
    received   := by rintro (h | h) <;> cases h
    expected   := by rintro (h | h) <;> cases h
    receiving  := by intro h; cases h
    suspended  := by intro l h; cases h
    pending    := fun _ => .inl rfl
    holding    := by intro h; cases h
    responding := fun _ => .inr ⟨rfl, rfl, rfl⟩
    quiet      := fun h => absurd rfl h }

/-- A block held in a wait of Write EE Data has the invariant. -/
theorem inv_heldInWait : Inv heldInWait where
  params      := by decide
  buf         := by decide
  flash       := ⟨List.Pairwise.nil, by decide⟩
  ee          := ⟨List.Pairwise.nil, by decide⟩
  cfg         := ⟨List.Pairwise.nil, by decide⟩
  rowBuf      := List.Pairwise.nil
  cfgRec      := List.Pairwise.nil
  ustate      := rfl
  counters    := by decide
  received    := by
    intro _ j hj _
    have h : ∀ j < 11, (bufByte heldInWait j).isSome = true := by decide
    exact h j hj
  expected    := fun _ => ⟨by decide, fun _ => ⟨0x05, 0x02, 0x00, by decide⟩⟩
  receiving   := by intro h; cases h
  dispatching := fun _ => rfl
  suspended   := by
    intro l h
    cases h
    exact ⟨rfl, .writeEEData (hdr 2 0x55 0xAA 0x10) [0x42, 0x43], by decide, by decide, rfl, ⟨rfl, rfl⟩, trivial⟩
  pending     := by intro h; cases h
  request     := by decide
  holding     := by intro h; cases h
  responding  := by intro h; cases h
  quiet       := fun _ => ⟨rfl, rfl⟩

/-- A request with another pair, held in the same wait. -/
def heldWithOtherKeys : State :=
  { heldInWait with
    buf := loadFrame [0x05, 0x02, 0x00, 0x55, 0x55, 0x10, 0x00, 0x00, 0x00, 0x42, 0x43] State.reset.buf
    k2  := 0x55 }

theorem inv_heldWithOtherKeys : Inv heldWithOtherKeys :=
  { inv_heldInWait with
    received  := by
      intro _ j hj _
      have h : ∀ j < 11, (bufByte heldWithOtherKeys j).isSome = true := by decide
      exact h j hj
    expected  := fun _ => ⟨by decide, fun _ => ⟨0x05, 0x02, 0x00, by decide⟩⟩
    suspended := by
      intro l h
      cases h
      exact ⟨rfl, .writeEEData (hdr 2 0x55 0x55 0x10) [0x42, 0x43], by decide, by decide, rfl, ⟨rfl, rfl⟩, trivial⟩
    responding := by intro h; cases h }

/-- The assertion, and the last byte before it. -/
theorem witness_ResetRequestedOnlyAfterLastByte :
    (Inv responseSent ∧ responseSent.resetRequest = false ∧ ∃ t, step responseSent = .next t ∧ t.resetRequest = true) ∧
    (Inv (atLastByte true) ∧ (atLastByte true).respLen.isSome = true ∧
      ∃ t, step (atLastByte true) = .next t ∧ t.phase = .xmit ∧ t.respLen = none) :=
  ⟨⟨inv_responseSent, rfl, _, rfl, rfl⟩, inv_atLastByte, rfl, _, rfl, rfl, rfl⟩

/-- A request one port operation of which is done. -/
theorem witness_ReservedRegionNeverChanges :
    Inv heldInWait ∧ (∃ t, step heldInWait = .next t) ∧ 0x0007FF < heldInWait.params.floor := ⟨inv_heldInWait, ⟨_, rfl⟩, by decide⟩

/-- On both sides of both ranges; and a step. -/
theorem witness_RequestsStayInWritableRanges :
    (State.reset.params.wf ∧ (∃ t, exec (.writeConfig (hdr 1 0xA5 0x5A 0x30000D) [1]) State.reset = .next t) ∧
      0x0007FF < State.reset.params.floor ∧ State.reset.params.flashEnd ≤ 0x020000 ∧ State.reset.params.configEnd ≤ 0x30000E) ∧
    (Inv heldInWait ∧ ∃ t, step heldInWait = .next t) :=
  ⟨⟨by decide, ⟨_, rfl⟩, by decide⟩, inv_heldInWait, _, rfl⟩

/-- A request with another pair than its command's; a step outside `DISPATCH`, and one of a held request whose key registers were loaded with
another pair. -/
theorem witness_NoMutationWithoutTheKeys :
    ((∃ t, exec (.eraseFlash (hdr 1 0x55 0x55 0x000800)) State.reset = .next t) ∧
      ∀ pair, requiredPair State.reset.params (.eraseFlash (hdr 1 0x55 0x55 0x000800)) = some pair →
        ¬KeysMatch pair (hdr 1 0x55 0x55 0x000800)) ∧
    (Inv (atLastByte true) ∧ (∃ t, step (atLastByte true) = .next t) ∧ (atLastByte true).phase ≠ .dispatch) ∧
    (Inv heldWithOtherKeys ∧ (∃ t, step heldWithOtherKeys = .next t) ∧
      fetchInstr heldWithOtherKeys = .ok (.writeEEData (hdr 2 0x55 0x55 0x10) [0x42, 0x43]) ∧
      ¬KeysMatch heldWithOtherKeys.params.nvmKey (hdr 2 0x55 0x55 0x10)) := by
  refine ⟨⟨⟨_, rfl⟩, ?_⟩, ⟨inv_atLastByte, ⟨_, rfl⟩, by decide⟩, inv_heldWithOtherKeys, ⟨_, rfl⟩, by decide, ?_⟩
  · rintro pair h
    cases h
    unfold KeysMatch
    decide
  · unfold KeysMatch
    decide

theorem witness_StepKeepsInv :
    (Inv (atLastByte true) ∧ ∃ t, step (atLastByte true) = .next t) ∧ (Inv heldInWait ∧ ∃ t, step heldInWait = .next t) :=
  ⟨⟨inv_atLastByte, _, rfl⟩, inv_heldInWait, _, rfl⟩

theorem witness_InvStateAlwaysSteps : Inv heldInWait := inv_heldInWait

end Sys2Proof.Tests
end

section
/-! PROOFS. The length of a request's bytes (30_encoding.md R75, R76). -/

namespace Sys2Proof.Proofs.RequestLength

theorem isWriteClass_iff (code : Byte) : isWriteClass code = true ↔ code = 2 ∨ code = 5 ∨ code = 7 := by
  simp [isWriteClass, or_assoc]

theorem length_encode (i : Instr) : (encode i).length = 9 + (payloadOf i).length := by
  simp only [encode, encodeHeader, List.length_append, List.length_cons, List.length_nil]

theorem length_of_payloadOk {cap : Nat} {h : Header} {data : List Byte} (hd : payloadOk cap h data = true) :
    data.length = min h.dlen.toNat cap := by
  simpa [payloadOk] using hd

/-- Only the write-class commands carry a payload, and a buffer of `cap` payload bytes bounds it (R76; 40_frame_codec.md R103, R104). -/
theorem length_payloadOf {cap : Nat} {i : Instr} (hwf : i.wf cap = true) :
    (payloadOf i).length = if isWriteClass (commandByte i) then min i.header.dlen.toNat cap else 0 := by
  cases i with
  | writeFlash h data => exact length_of_payloadOk hwf
  | writeEEData h data => exact length_of_payloadOk hwf
  | writeConfig h data => exact length_of_payloadOk hwf
  | invalid code h =>
    have hcode : 10 ≤ code.toNat := by simpa [Instr.wf] using hwf
    simp [payloadOf, commandByte, isWriteClass_of_ge hcode]
  | readVersion h | readFlash h | eraseFlash h | readEEData h | readConfig h | calcChecksum h | resetDevice h => rfl

/-- A length field is at most 65535, the payload capacity of the wire (R7). -/
theorem min_dlen_wire (h : Header) : min h.dlen.toNat 65535 = h.dlen.toNat :=
  Nat.min_eq_left (Nat.le_of_lt_succ h.dlen.isLt)

/-- Settles O5: the header is nine bytes, and the payload is as long as the length field says for the write class, empty for every other code. -/
theorem requestLengthRule : Obligations.RequestLengthRule := by
  intro i hwf
  rw [length_encode, length_payloadOf hwf, min_dlen_wire]
  simp only [isWriteClass_iff]
  split <;> rfl

end Sys2Proof.Proofs.RequestLength
end

section
/-! PROOFS. One step of the receiver (40_frame_codec.md R101 to R104). -/

namespace Sys2Proof.Proofs.ReceiveByte

open Sys2Proof.Machine Sys2Proof.Safety

theorem step_of_running {s : State} (h : Running s) : step s = blockStep s := by
  obtain ⟨hown, hreset⟩ := h
  simp [step, hown, hreset]

theorem blockStep_of_recv {s : State} (h : s.phase = .recv) : blockStep s = recvStep s := by
  simp [blockStep, h]

/-! ## The length rule -/

theorem requestLength_eq (c l0 l1 : Byte) :
    requestLength c l0 l1 = if c = 2 ∨ c = 5 ∨ c = 7 then 9 + (l0.toNat + 256 * l1.toNat) else 9 := by
  simp only [requestLength, RequestLength.isWriteClass_iff, assemble16_toNat]

theorem lengthRule_of_ne {s : State} (h : s.rxCount ≠ 3) : lengthRule s = some s := if_neg h

theorem lengthRule_third {s : State} {c l0 l1 : Byte} (h : s.rxCount = 3) (h0 : bufByte s 0 = some c)
    (h1 : bufByte s 1 = some l0) (h2 : bufByte s 2 = some l1) :
    lengthRule s = some (setExpected (requestLength c l0 l1) s) := by
  simp [lengthRule, h, h0, h1, h2]

/-- The length rule after a byte is stored: it only sets the expected length, and to a new value only at the third byte (R102). -/
theorem lengthRule_storeByte {s : State} (b : Byte) (hbuf : BufOk s)
    (hpre : s.rxCount = 2 → (bufByte s 0).isSome = true ∧ (bufByte s 1).isSome = true) :
    ∃ n, lengthRule (storeByte b s) = some (setExpected n (storeByte b s)) ∧
      (s.rxCount ≠ 2 → n = s.rxExpected) ∧
      (s.rxCount = 2 → ∀ c l0, bufByte s 0 = some c → bufByte s 1 = some l0 → n = requestLength c l0 b) := by
  by_cases h2 : s.rxCount = 2
  · obtain ⟨c, hc⟩ := Option.isSome_iff_exists.mp (hpre h2).1
    obtain ⟨l0, hl0⟩ := Option.isSome_iff_exists.mp (hpre h2).2
    have hcap : 2 < 9 + s.params.w := by omega
    have hlen : 2 < s.buf.length := hbuf.1 ▸ hcap
    refine ⟨requestLength c l0 b, lengthRule_third ?_ ?_ ?_ ?_, fun h => absurd h2 h, ?_⟩
    · simp [h2]
    · simp [bufByte_storeByte, h2, hc]
    · simp [bufByte_storeByte, h2, hl0]
    · simp [bufByte_storeByte, h2, hcap, hlen]
    · rintro - c' l0' hc' hl0'
      cases hc.symm.trans hc'
      cases hl0.symm.trans hl0'
      rfl
  · exact ⟨s.rxExpected, lengthRule_of_ne (by simpa using h2), fun _ => rfl, fun h => absurd h h2⟩

/-! ## The state after a byte -/

/-- The state after the byte `b` is accepted, where the length rule leaves `n` as the expected length (R101). -/
def receiveByte (n : Nat) (b : Byte) (rest : List Byte) (s : State) : State :=
  tick { setExpected n (storeByte b (takeByte rest s)) with
    phase := if s.rxCount + 1 = n then .dispatch else s.phase }

theorem frameComplete_eq (s : State) :
    frameComplete s = { s with phase := if s.rxCount = s.rxExpected then .dispatch else s.phase } := by
  unfold frameComplete
  split <;> rfl

/-- Step `RX` with a byte to accept (R101), once the length rule has answered. -/
theorem step_receiveByte {s : State} {b : Byte} {rest : List Byte} {n : Nat} (hrun : Running s) (hphase : s.phase = .recv)
    (hqueue : s.rxQueue = b :: rest)
    (hlen : lengthRule (storeByte b (takeByte rest s)) = some (setExpected n (storeByte b (takeByte rest s)))) :
    step s = .next (receiveByte n b rest s) := by
  rw [step_of_running hrun, blockStep_of_recv hphase]
  simp only [recvStep, hqueue, hlen, frameComplete_eq]
  rfl

section
variable (n : Nat) (b : Byte) (rest : List Byte) (s : State)

@[simp] theorem receiveByte_rxCount : (receiveByte n b rest s).rxCount = s.rxCount + 1 := rfl
@[simp] theorem receiveByte_rxExpected : (receiveByte n b rest s).rxExpected = n := rfl
@[simp] theorem receiveByte_phase :
    (receiveByte n b rest s).phase = if s.rxCount + 1 = n then .dispatch else s.phase := rfl

theorem receiveByte_buf :
    (receiveByte n b rest s).buf = if s.rxCount < 9 + s.params.w then s.buf.set s.rxCount (some b) else s.buf := rfl

theorem bufByte_receiveByte (k : Nat) :
    bufByte (receiveByte n b rest s) k =
      if s.rxCount = k ∧ s.rxCount < 9 + s.params.w ∧ s.rxCount < s.buf.length then some b else bufByte s k :=
  bufByte_storeByte b k (takeByte rest s)

theorem receiveByte_sameBesidesCodec : SameBesidesCodec s (receiveByte n b rest s) :=
  ⟨rfl, rfl, rfl, rfl, rfl, rfl, ⟨fun _ => rfl, rfl⟩, ⟨fun _ => rfl, rfl⟩, rfl, rfl, rfl, rfl, rfl⟩

end

/-- Settles O12: one step is `receiveByte` with the expected length the length rule leaves. -/
theorem receiveOneByte : Obligations.ReceiveOneByte := by
  intro s b rest hrun hbuf hphase hqueue hpre
  obtain ⟨n, hlen, hsame, hthird⟩ := lengthRule_storeByte (s := takeByte rest s) b hbuf hpre
  refine ⟨receiveByte n b rest s, step_receiveByte hrun hphase hqueue hlen, ?stored, ?discarded, rfl, hsame, ?third, ?complete,
    ?incomplete, rfl, rfl, rfl, rfl, rfl, receiveByte_sameBesidesCodec n b rest s⟩
  case stored =>
    intro hcap
    have hlt : s.rxCount < s.buf.length := hbuf.1 ▸ hcap
    exact ⟨by simp [bufByte_receiveByte, hcap, hlt], fun j hj => by simp [bufByte_receiveByte, Ne.symm hj]⟩
  case discarded =>
    intro hcap
    rw [receiveByte_buf, if_neg (Nat.not_lt.mpr hcap)]
  case third =>
    intro h2 c l0 hc hl0
    rw [receiveByte_rxExpected, hthird h2 c l0 hc hl0, requestLength_eq]
  case complete => exact fun h => if_pos h
  case incomplete => exact fun h => (if_neg h).trans hphase

end Sys2Proof.Proofs.ReceiveByte
end

section
/-! PROOFS. The bounds of the address guard (41_address_guard.md R125, R136) and the start of an erase row (20_memory.md R57). -/

namespace Sys2Proof.Proofs.GuardBounds

open Sys2Proof.Machine

/-- `a AND NOT(2^k - 1)` clears the low `k` bits: a shift down and up again. -/
theorem and_not_mask_eq_shift (a : Addr) (k : Nat) :
    a &&& ~~~(BitVec.ofNat 24 (2 ^ k - 1)) = (a >>> k) <<< k := by
  apply BitVec.eq_of_getLsbD_eq
  intro i hi
  rw [BitVec.getLsbD_and, BitVec.getLsbD_not, BitVec.getLsbD_ofNat, Nat.testBit_two_pow_sub_one, BitVec.getLsbD_shiftLeft,
    BitVec.getLsbD_ushiftRight]
  by_cases hik : i < k
  · simp [hik]
  · simp [hik, hi, show k + (i - k) = i by omega]

/-- The mask rounds down to a multiple of the row size (R57). -/
theorem alignTo_toNat {n : Nat} (hn : isPowerOfTwo n) (a : Addr) : (alignTo n a).toNat = a.toNat - a.toNat % n := by
  obtain ⟨k, -, rfl⟩ := hn
  rw [alignTo, and_not_mask_eq_shift, BitVec.toNat_shiftLeft, BitVec.toNat_ushiftRight, Nat.shiftLeft_eq, Nat.shiftRight_eq_div_pow]
  have hdiv := Nat.div_add_mod' a.toNat (2 ^ k)
  have hlt := a.isLt
  rw [Nat.mod_eq_of_lt (by omega)]
  omega

theorem eraseRowOf_toNat {p : Params} (he : isPowerOfTwo p.e) (a : Addr) :
    (eraseRowOf p a).toNat = a.toNat - a.toNat % p.e := alignTo_toNat he a

/-- An address that starts an erase row is its own row. -/
theorem eraseRowOf_of_dvd {p : Params} (he : isPowerOfTwo p.e) {a : Addr} (h : p.e ∣ a.toNat) : eraseRowOf p a = a :=
  BitVec.eq_of_toNat_eq (by rw [eraseRowOf_toNat he, Nat.mod_eq_zero_of_dvd h, Nat.sub_zero])

theorem toNat_ofNat_of_lt {n : Nat} (h : n < 2 ^ 24) : (BitVec.ofNat 24 n).toNat = n := by
  rw [BitVec.toNat_ofNat, Nat.mod_eq_of_lt h]

theorem pred_mod_of_dvd {e n : Nat} (hn : 0 < n) (h : e ∣ n) : (n - 1) % e = e - 1 := by
  obtain ⟨q, rfl⟩ := h
  simpa using Nat.mul_sub_mod hn

/-- The last address below a row boundary lies in the row that ends there. -/
theorem eraseRowOf_pred {p : Params} (he : isPowerOfTwo p.e) {n : Nat} (hn : 0 < n) (hlt : n < 2 ^ 24) (h : p.e ∣ n) :
    eraseRowOf p (BitVec.ofNat 24 (n - 1)) = BitVec.ofNat 24 (n - p.e) := by
  have hle : p.e ≤ n := Nat.le_of_dvd hn h
  have hpos : 0 < p.e := Nat.pos_of_dvd_of_pos h hn
  apply BitVec.eq_of_toNat_eq
  rw [eraseRowOf_toNat he, toNat_ofNat_of_lt (by omega), toNat_ofNat_of_lt (by omega), pred_mod_of_dvd hn h]
  omega

theorem aboveFloor_ofNat (p : Params) {n : Nat} (h : n < 2 ^ 24) : aboveFloor p (BitVec.ofNat 24 n) = decide (p.floor ≤ n) := by
  rw [aboveFloor, toNat_ofNat_of_lt h]

theorem inFlash_ofNat (p : Params) {n : Nat} (h : n < 2 ^ 24) :
    inFlash p (BitVec.ofNat 24 n) = decide (p.floor ≤ n ∧ n < p.flashEnd) := by
  rw [inFlash, toNat_ofNat_of_lt h]

/-- Settles O32: the floor and the address one row below it each start an erase row, and the byte below the floor lies in that lower row. -/
theorem guardBoundaries : Obligations.GuardBoundaries := by
  intro p hwf hfloor
  obtain ⟨-, -, he, -, hdvd, -, -, hlt, hend, -⟩ := hwf
  have hfloor24 : p.floor < 2 ^ 24 := by omega
  have hpos : 0 < p.e := Nat.pos_of_dvd_of_pos hdvd hfloor
  have hrow : eraseRowOf p (BitVec.ofNat 24 p.floor) = BitVec.ofNat 24 p.floor :=
    eraseRowOf_of_dvd he (by rwa [toNat_ofNat_of_lt hfloor24])
  have hrowBelow : eraseRowOf p (BitVec.ofNat 24 (p.floor - p.e)) = BitVec.ofNat 24 (p.floor - p.e) :=
    eraseRowOf_of_dvd he (by rw [toNat_ofNat_of_lt (by omega)]; exact Nat.dvd_sub hdvd (dvd_refl p.e))
  have hrowPred := eraseRowOf_pred he hfloor hfloor24 hdvd
  have hbelow : aboveFloor p (BitVec.ofNat 24 (p.floor - p.e)) = false := by
    rw [aboveFloor_ofNat p (by omega)]
    exact decide_eq_false (by omega)
  refine ⟨?_, ?_, ?_, fun hend24 => ?_, ?_, hrowBelow.symm ▸ hbelow, hrowPred, hrowPred.symm ▸ hbelow⟩
  · rw [inFlash_ofNat p (by omega)]
    exact decide_eq_false (by omega)
  · rw [inFlash_ofNat p hfloor24]
    exact decide_eq_true ⟨le_rfl, hlt⟩
  · rw [inFlash_ofNat p (by omega)]
    exact decide_eq_true (by omega)
  · rw [inFlash_ofNat p hend24]
    exact decide_eq_false (by omega)
  · rw [hrow, aboveFloor_ofNat p hfloor24]
    exact decide_eq_true le_rfl

end Sys2Proof.Proofs.GuardBounds
end

section
/-! PROOFS. How a failed check answers: the capacity check (41_address_guard.md R131) and the guard of every element (R126, R134, R135). -/

namespace Sys2Proof.Proofs.GuardAborts

open Sys2Proof.Machine Sys2Proof.Safety

/-! ## The answer of an abort -/

/-- The request has its keys loaded and has written no byte of its response: what an answer of `0xFE` keeps is still as it was in `s`. -/
structure Unanswered (h : Header) (s u : State) : Prop where
  params       : u.params = s.params
  buf          : u.buf = s.buf
  keys         : KeysLoaded h u
  resetPending : u.resetPending = s.resetPending

theorem unanswered_loadKeys (h : Header) (s : State) : Unanswered h s (loadKeys h s) := ⟨rfl, rfl, ⟨rfl, rfl⟩, rfl⟩

theorem abortOutOfRange_answers {h : Header} {s u : State} (hbuf : BufOk s) (hu : Unanswered h s u) :
    AnswersOutOfRange h s (abortOutOfRange u) := by
  obtain ⟨-, hsame, hkeys, hpending⟩ := hu
  obtain ⟨hlength, hw⟩ := hbuf
  have hstatus : 9 < u.buf.length := by rw [hsame]; omega
  have hbyte : ∀ j, bufByte (abortOutOfRange u) j = if 9 = j then some 0xFE else bufByte s j := fun j => by
    rw [abortOutOfRange, bufByte_finish_some, bufByte_congr hsame]
    simp only [hstatus, and_true, statusOutOfRange]
  exact ⟨⟨rfl, rfl, rfl, rfl⟩, hbyte 9, hkeys, fun j hj => by rw [hbyte, if_neg (Ne.symm hj)], hpending⟩

/-! ## The capacity check -/

/-- Every payload-indexed command checks the capacity first and ends there where it fails (R131). -/
theorem exec_of_overCapacity {i : Instr} {s : State} (hi : isPayloadIndexed i = true) (hcap : s.params.w < i.header.dlen.toNat) :
    exec i s = .next (abortOutOfRange (loadKeys i.header s)) := by
  have hover : overCapacity s.params i.header = true := decide_eq_true hcap
  cases i with
  | readFlash h | readEEData h | readConfig h | writeFlash h data | writeEEData h data | writeConfig h data =>
    exact congrArg (runCommand · _ _) (if_pos hover)
  | readVersion h | eraseFlash h | calcChecksum h | resetDevice h | invalid code h => cases hi

/-- Settles O29: the command ends at its capacity check, where only the keys have been loaded. -/
theorem overCapacityAnswersOutOfRange : Obligations.OverCapacityAnswersOutOfRange := by
  intro i s hbuf hi hcap
  exact ⟨_, exec_of_overCapacity hi hcap, abortOutOfRange_answers hbuf (unanswered_loadKeys i.header s), ⟨rfl, rfl, rfl, id, rfl⟩,
    ⟨⟨fun _ => rfl, rfl⟩, ⟨fun _ => rfl, rfl⟩, fun _ => rfl, rfl⟩, ⟨rfl, rfl, rfl, rfl, rfl, rfl, rfl, rfl⟩, rfl⟩

/-! ## The guard of every element -/

/-- Each element of a command checks its cursor by `guard`: it goes on to the cursor `stride` further, or aborts; either way the request
stays unanswered (R126). -/
def GuardedBy (guard : Addr → Bool) (stride : Nat) (op : Loc → State → Ctl) (h : Header) (s : State) : Prop :=
  ∀ l u, Unanswered h s u → ∃ u', Unanswered h s u' ∧
    element op l u = if guard l.cur then .go (nextLoc (l.cur + BitVec.ofNat 24 stride) l) u' else .abort u'

theorem writeFlashOp_guarded (pair : KeyPair) (data : List Byte) (h : Header) (s : State) :
    GuardedBy (inFlash s.params) 1 (writeFlashOp pair data) h s := by
  intro l u hu
  rw [element_writeFlashOp, hu.params]
  by_cases hin : inFlash s.params l.cur = true
  · refine ⟨_, ?_, by simp only [if_pos hin]; rfl⟩
    split <;> exact ⟨hu.params, hu.buf, hu.keys, hu.resetPending⟩
  · exact ⟨dropStale u, ⟨hu.params, hu.buf, hu.keys, hu.resetPending⟩, by simp only [if_neg hin]⟩

theorem eraseFlashOp_guarded (pair : KeyPair) (h : Header) (s : State) :
    GuardedBy (inFlash s.params) s.params.e (eraseFlashOp pair) h s := by
  intro l u hu
  rw [element_eraseFlashOp, hu.params]
  by_cases hin : inFlash s.params l.cur = true
  · exact ⟨eraseRow l.cur pair u, ⟨hu.params, hu.buf, hu.keys, hu.resetPending⟩, by simp only [if_pos hin]; rfl⟩
  · exact ⟨u, hu, by simp only [if_neg hin]⟩

theorem writeConfigOp_guarded (pair : KeyPair) (data : List Byte) (h : Header) (s : State) :
    GuardedBy (inCfg s.params) 1 (writeConfigOp pair data) h s := by
  intro l u hu
  rw [element_writeConfigOp, hu.params]
  by_cases hin : inCfg s.params l.cur = true
  · exact ⟨commitCfg l.cur pair (cfgWrite l.cur (payloadByte data l.i) u), ⟨hu.params, hu.buf, hu.keys, hu.resetPending⟩,
      by simp only [if_pos hin]; rfl⟩
  · exact ⟨u, hu, by simp only [if_neg hin]⟩

/-- Before element `j` the request is unanswered and its cursor is `j` strides from the start. -/
def AtElement (cur : Addr) (stride : Nat) (h : Header) (s : State) (j : Nat) (l : Loc) (u : State) : Prop :=
  l.cur = cur + BitVec.ofNat 24 (j * stride) ∧ Unanswered h s u

section
variable {guard : Addr → Bool} {stride : Nat} {op : Loc → State → Ctl} {h : Header} {s : State} {cur : Addr} {n : Nat}

/-- The loop aborts at the first element its guard refuses. -/
theorem runLoop_outOfRange (hop : GuardedBy guard stride op h s)
    (hout : ∃ i < n, guard (cur + BitVec.ofNat 24 (i * stride)) = false) (pair : Option KeyPair) :
    ∃ u, runLoop (element op) n (startLoc cur n pair) (loadKeys h s) = .abort u ∧ Unanswered h s u := by
  obtain ⟨hlt, hfails⟩ := Nat.find_spec hout
  refine runLoop_abort (Q := AtElement cur stride h s) (m := Nat.find hout) ?before ?fails n 0 _ _ (Nat.zero_le _) (by omega)
    ⟨by simp [startLoc], unanswered_loadKeys h s⟩
  case before =>
    rintro j l u hj ⟨hcur, hu⟩
    have hpass : guard l.cur = true := by
      rw [hcur]
      by_contra hfalse
      exact Nat.find_min hout hj ⟨hj.trans hlt, Bool.eq_false_of_not_eq_true hfalse⟩
    obtain ⟨u', hu', helem⟩ := hop l u hu
    refine ⟨_, u', helem.trans (if_pos hpass), ?_, hu'⟩
    rw [nextLoc, hcur, Nat.add_one_mul, BitVec.ofNat_add, BitVec.add_assoc]
  case fails =>
    rintro l u ⟨hcur, hu⟩
    obtain ⟨u', hu', helem⟩ := hop l u hu
    exact ⟨u', by rw [helem, hcur, hfails]; rfl, hu'⟩

/-- A guarded command with an element its guard refuses answers `0xFE`, at its start or in its loop (R134, R135). -/
theorem runCommand_outOfRange (hbuf : BufOk s) (hop : GuardedBy guard stride op h s) {pair : Option KeyPair} {start : Start}
    (hstart : start = startAbort h s ∨ start = startLoop h cur n pair s)
    (hout : ∃ i < n, guard (cur + BitVec.ofNat 24 (i * stride)) = false) (normal : Loc → State → State) :
    ∃ t, runCommand start op normal = .next t ∧ AnswersOutOfRange h s t := by
  rcases hstart with rfl | rfl
  · exact ⟨_, rfl, abortOutOfRange_answers hbuf (unanswered_loadKeys h s)⟩
  · obtain ⟨u, hrun, hu⟩ := runLoop_outOfRange hop hout pair
    refine ⟨abortOutOfRange u, ?_, abortOutOfRange_answers hbuf hu⟩
    rw [runCommand_startLoop, continueLoop, startLoc, Nat.sub_zero]
    exact congrArg (endCommand · normal) hrun

end

/-! ## The starts of the guarded commands -/

/-- A payload the frame buffer holds whole is as long as the length field says (40_frame_codec.md R103). -/
theorem not_short_of_fits {p : Params} {h : Header} {data : List Byte} (hdata : data.length = min h.dlen.toNat p.w)
    (hfits : ¬overCapacity p h = true) : ¬data.length < h.dlen.toNat := by
  simp only [overCapacity, decide_eq_true_eq] at hfits
  omega

theorem startWriteFlash_cases {h : Header} {data : List Byte} {s : State} (hdata : data.length = min h.dlen.toNat s.params.w) :
    startWriteFlash h data s = startAbort h s ∨
      startWriteFlash h data s = startLoop h h.addr h.dlen.toNat (some s.params.nvmKey) s := by
  unfold startWriteFlash
  split
  case isTrue => exact .inl rfl
  case isFalse hfits =>
    rw [if_neg (not_short_of_fits hdata hfits)]
    exact (ite_eq_or_eq _ _ _).symm

theorem startEraseFlash_cases (h : Header) (s : State) :
    startEraseFlash h s = startAbort h s ∨
      startEraseFlash h s = startLoop h (eraseRowOf s.params h.addr) h.dlen.toNat (some s.params.nvmKey) s :=
  (ite_eq_or_eq _ _ _).symm

theorem startWriteConfig_cases {h : Header} {data : List Byte} {s : State} (hdata : data.length = min h.dlen.toNat s.params.w) :
    startWriteConfig h data s = startAbort h s ∨
      startWriteConfig h data s = startLoop h h.addr h.dlen.toNat (some (configPair s.params h.addr)) s := by
  unfold startWriteConfig
  split
  case isTrue => exact .inl rfl
  case isFalse hfits =>
    rw [if_neg (not_short_of_fits hdata hfits)]
    exact (ite_eq_or_eq _ _ _).symm

/-- Settles O31: each guarded command aborts at its start or at its first element out of range. -/
theorem outOfRangeElementAnswersOutOfRange : Obligations.OutOfRangeElementAnswersOutOfRange := by
  intro h data s hbuf hdata
  refine ⟨fun hout => ?writeFlash, fun hout => ?eraseFlash, fun hout => ?writeConfig⟩
  case writeFlash =>
    exact runCommand_outOfRange hbuf (writeFlashOp_guarded _ data h s) (startWriteFlash_cases hdata) (by simpa using hout) _
  case eraseFlash => exact runCommand_outOfRange hbuf (eraseFlashOp_guarded _ h s) (startEraseFlash_cases h s) hout _
  case writeConfig =>
    exact runCommand_outOfRange hbuf (writeConfigOp_guarded _ data h s) (startWriteConfig_cases hdata) (by simpa using hout) _

end Sys2Proof.Proofs.GuardAborts
end

section
/-! PROOFS. The unlock sequence around a command (42_unlock_sequence.md): the transitions of its state machine (R146), and what becomes of the
keys when a mutating command ends (R150 to R152). -/

namespace Sys2Proof.Proofs.UnlockKeys

open Sys2Proof.Machine Sys2Proof.Safety Sys2Proof.Proofs.GuardAborts

/-! ## The normal end of a mutating command -/

theorem bufByte_completeMutation {u : State} (hlen : 9 < u.buf.length) (k : Nat) :
    bufByte (completeMutation u) k =
      if 9 = k then some 0x01 else if 4 = k then some 0 else if 3 = k then some 0 else bufByte u k := by
  have h3 : 3 < u.buf.length := by omega
  have h4 : 4 < u.buf.length := by omega
  rw [completeMutation, bufByte_finish_some, length_clearKeys, bufByte_clearKeys]
  simp only [hlen, h3, h4, and_true, statusSuccess]

/-- The counterpart of `abortOutOfRange_answers` (R150, R152). -/
theorem completeMutation_answers {h : Header} {s u : State} (hbuf : BufOk s) (hu : Unanswered h s u) :
    AnswersMutated s (completeMutation u) := by
  obtain ⟨-, hsame, -, hpending⟩ := hu
  obtain ⟨hlength, hw⟩ := hbuf
  have hbyte := bufByte_completeMutation (u := u) (by rw [hsame]; omega)
  refine ⟨⟨rfl, rfl, rfl, rfl⟩, hbyte 9, ⟨rfl, rfl, hbyte 3, hbyte 4⟩, fun j hj => ?_, hpending⟩
  rw [hbyte, if_neg (by omega), if_neg (by omega), if_neg (by omega), bufByte_congr hsame]

/-! ## A mutating command before its end -/

theorem requiredPair_of_isMutating {i : Instr} (hi : isMutating i = true) (p : Params) : ∃ pair, requiredPair p i = some pair := by
  cases i with
  | writeFlash h data | eraseFlash h | writeEEData h data | writeConfig h data => exact ⟨_, rfl⟩
  | readVersion h | readFlash h | readEEData h | readConfig h | calcChecksum h | resetDevice h | invalid code h => cases hi

/-- The request is in `DISPATCH` with its keys loaded, and has written no byte of its response. -/
def BeforeEnd (h : Header) (s u : State) : Prop :=
  u.params = s.params ∧ u.buf = s.buf ∧ KeysLoaded h u ∧ u.resetPending = s.resetPending ∧ u.phase = .dispatch

theorem BeforeEnd.unanswered {h : Header} {s u : State} (hu : BeforeEnd h s u) : Unanswered h s u := by
  obtain ⟨hparams, hsame, hkeys, hpending, -⟩ := hu
  exact ⟨hparams, hsame, hkeys, hpending⟩

/-- No port operation ends a request, and only a request that needs no unlock pair writes payload bytes before its end. -/
theorem beforeEnd_keeps {K : KeyPair → Prop} (hK : ∃ pair, K pair) (h : Header) (s : State) :
    Keeps K (fun _ => True) (BeforeEnd h s) where
  suspend _ _ hu := hu
  afterRead _ _ _ hu := hu
  bufSet _ _ _ _ hnone _ := absurd hK (not_exists.mpr hnone)
  bufWrite _ _ _ _ hu := hu
  dropStale _ _ hu := hu
  commitFlash _ _ _ _ _ hu := hu
  eraseRow _ _ _ _ _ _ hu := hu
  nextRow _ _ _ _ := trivial
  completeEE _ _ hu := hu
  tickEE _ _ hu := hu
  eeWrite _ _ _ _ _ hu := hu
  cfgWrite _ _ _ _ hu := hu
  commitCfg _ _ _ _ _ hu := hu

/-- A mutating command reaches one of its two answers, or it is still in `DISPATCH`. -/
theorem exec_mutating_cases {i : Instr} {s t : State} (hi : isMutating i = true) (hbuf : BufOk s) (hphase : s.phase = .dispatch)
    (hexec : exec i s = .next t) : t.phase = .dispatch ∨ AnswersOutOfRange i.header s t ∨ AnswersMutated s t := by
  have hkeeps := beforeEnd_keeps (requiredPair_of_isMutating hi s.params) i.header s
  have hreset : ∀ h, i = .resetDevice h → BeforeEnd i.header s (setResetPending (loadKeys h s)) := by
    rintro h rfl
    cases hi
  rcases exec_ends i s hkeeps ⟨rfl, rfl, ⟨rfl, rfl⟩, rfl, hphase⟩ trivial hreset with href | ⟨t', ht', u, hu, hends⟩
  case inl => rw [hexec] at href; cases href
  obtain rfl : t = t' := by rw [hexec] at ht'; injection ht'
  have hunanswered := hu.unanswered
  obtain ⟨-, -, -, -, hdispatch⟩ := hu
  rcases hends with ⟨rfl, -⟩ | rfl | ⟨-, rfl⟩ | ⟨hfalse, -⟩
  · exact .inl hdispatch
  · exact .inr (.inl (abortOutOfRange_answers hbuf hunanswered))
  · exact .inr (.inr (completeMutation_answers hbuf hunanswered))
  · rw [hi] at hfalse; cases hfalse

/-- Settles O36: a mutating command in `XMIT` has given one of its two answers. -/
theorem mutatingCommandsClearOrKeepKeys : Obligations.MutatingCommandsClearOrKeepKeys := by
  intro i s t hi hbuf hphase hexec hxmit
  rcases exec_mutating_cases hi hbuf hphase hexec with hdispatch | habort | hdone
  · rw [hxmit] at hdispatch
    cases hdispatch
  · obtain ⟨hanswers, hstatus, hkeys, hecho, -⟩ := habort
    exact ⟨.inr ⟨hstatus, hkeys, hecho 3 (by decide), hecho 4 (by decide)⟩, hanswers⟩
  · obtain ⟨hanswers, hstatus, hcleared, -, -⟩ := hdone
    exact ⟨.inl ⟨hstatus, hcleared⟩, hanswers⟩

/-! ## The unlock state machine -/

/-- Settles O35: `UW` compares the byte with the half of the pair it expects; the other rows of the table hold by computation. -/
theorem unlockTransitions : Obligations.UnlockTransitions := fun _ _ =>
  ⟨(if_pos ·), (if_neg ·), (if_pos ·), (if_neg ·), rfl, fun _ => rfl, rfl, rfl, rfl⟩

end Sys2Proof.Proofs.UnlockKeys
end

section
/-! PROOFS. What a read-class command leaves unchanged (43_dispatch_and_reads.md R186; 20_memory.md R65), said once for the five of them. -/

namespace Sys2Proof.Proofs.ReadClass

open Sys2Proof.Machine Sys2Proof.Safety

/-- The commands 0, 1, 4, 6 and 8 (R186). -/
def isReadClass : Instr → Bool
  | .readVersion _ | .readFlash _ | .readEEData _ | .readConfig _ | .calcChecksum _ => true
  | .writeFlash _ _ | .eraseFlash _ | .writeEEData _ _ | .writeConfig _ _ | .resetDevice _ | .invalid _ _ => false

theorem requiredPair_of_isReadClass {i : Instr} (hi : isReadClass i = true) (p : Params) (pair : KeyPair) :
    ¬requiredPair p i = some pair := by
  cases i with
  | readVersion h | readFlash h | readEEData h | readConfig h | calcChecksum h => exact nofun
  | writeFlash h data | eraseFlash h | writeEEData h data | writeConfig h data | resetDevice h | invalid code h => cases hi

theorem isMutating_of_isReadClass {i : Instr} (hi : isReadClass i = true) : isMutating i = false := by
  cases i with
  | readVersion h | readFlash h | readEEData h | readConfig h | calcChecksum h => rfl
  | writeFlash h data | eraseFlash h | writeEEData h data | writeConfig h data | resetDevice h | invalid code h => cases hi

/-- What a read-class command keeps from its dispatch start to its end: everything but the payload bytes of the frame buffer, the keys it
loads and the model's count of draws. -/
structure ReadFrame (h : Header) (s u : State) : Prop where
  control      : SameControl s u
  memory       : SameMemory s u
  ports        : SamePorts s u
  keys         : KeysLoaded h u
  resetPending : u.resetPending = s.resetPending
  length       : u.buf.length = s.buf.length
  header       : ∀ j < 9, bufByte u j = bufByte s j

theorem readFrame_loadKeys (h : Header) (s : State) : ReadFrame h s (loadKeys h s) where
  control := ⟨rfl, rfl, rfl, id, rfl⟩
  memory := ⟨⟨fun _ => rfl, rfl⟩, ⟨fun _ => rfl, rfl⟩, fun _ => rfl, rfl⟩
  ports := ⟨rfl, rfl, rfl, rfl, rfl, rfl, rfl, rfl⟩
  keys := ⟨rfl, rfl⟩
  resetPending := rfl
  length := rfl
  header _ _ := rfl

section
variable {h : Header} {s u : State} (hu : ReadFrame h s u)
include hu

theorem ReadFrame.params : u.params = s.params := by
  obtain ⟨hparams, -⟩ := hu.control
  exact hparams

theorem ReadFrame.eeBusy : u.eeBusy = s.eeBusy := by
  obtain ⟨-, ⟨-, hbusy⟩, -⟩ := hu.memory
  exact hbusy

theorem ReadFrame.sameSpace (sp : Space) : SameSpace sp s u := by
  obtain ⟨⟨hflash, -⟩, ⟨hee, -⟩, hcfg, -⟩ := hu.memory
  cases sp with
  | flash => exact hflash
  | ee => exact hee
  | cfg => exact hcfg

/-- Every byte a read-class command reads is the one that was durable at its dispatch, or a draw (20_memory.md R56, R63). -/
theorem ReadFrame.memValue_durable {sp : Space} {a : Nat} (himpl : implemented s.params sp a = true)
    (hidle : sp = .ee → eeBusyAt a s = false) : memValue sp a u = Memory.read (spaceOf sp s) a := by
  have hbusy : eeBusyAt a u = eeBusyAt a s := by simp only [eeBusyAt, eeWriting, hu.eeBusy]
  obtain ⟨hvalue, -⟩ := memRead_durable (s := u) (by rwa [hu.params]) (fun hsp => hbusy.trans (hidle hsp))
  exact hvalue.trans (hu.sameSpace sp a)

theorem ReadFrame.afterRead (sp : Space) (a : Nat) : ReadFrame h s (afterRead sp a u) := { hu with }

theorem ReadFrame.suspend (l : Loc) : ReadFrame h s (suspend l u) := { hu with }

theorem ReadFrame.bufSet {j : Nat} (hj : 9 ≤ j) (v : Byte) : ReadFrame h s (bufSet j v u) :=
  { hu with
    length := (length_bufSet j v u).trans hu.length
    header := fun k hk => (bufByte_bufSet_ne (by omega) v u).trans (hu.header k hk) }

/-- The end of a command writes at most the status byte, which is no header byte (30_encoding.md R84). -/
theorem ReadFrame.finish (st : Option Byte) (len : Nat) : ReadFrame h s (finish st len u) :=
  { hu with
    length := (length_finish st len u).trans hu.length
    header := fun k hk => by
      cases st with
      | none => exact hu.header k hk
      | some v => rw [bufByte_finish_some, if_neg (by omega), hu.header k hk] }

end

/-- A request that needs no unlock pair performs no port operation but reads. -/
theorem readFrame_keeps {K : KeyPair → Prop} (hK : ∀ pair, ¬K pair) (h : Header) (s : State) :
    Keeps K (fun _ => True) (ReadFrame h s) where
  suspend l _ hu := hu.suspend l
  afterRead sp a _ hu := hu.afterRead sp a
  bufSet _ v _ hj _ hu := hu.bufSet hj v
  bufWrite _ _ _ hpair := absurd hpair (not_exists.mpr hK)
  dropStale _ hpair := absurd hpair (not_exists.mpr hK)
  commitFlash _ pair _ hpair := absurd hpair (hK pair)
  eraseRow _ pair _ hpair := absurd hpair (hK pair)
  nextRow _ _ _ _ := trivial
  completeEE _ hpair := absurd hpair (not_exists.mpr hK)
  tickEE _ hpair := absurd hpair (not_exists.mpr hK)
  eeWrite _ _ pair _ hpair := absurd hpair (hK pair)
  cfgWrite _ _ _ hpair := absurd hpair (not_exists.mpr hK)
  commitCfg _ pair _ hpair := absurd hpair (hK pair)

/-- The frame of the five read-class commands, whether their checks pass or not. -/
theorem exec_readFrame {i : Instr} {s t : State} (hi : isReadClass i = true) (hexec : exec i s = .next t) :
    ReadFrame i.header s t := by
  have hkeeps := readFrame_keeps (requiredPair_of_isReadClass hi s.params) i.header s
  have hreset : ∀ h, i = .resetDevice h → ReadFrame i.header s (setResetPending (loadKeys h s)) := by
    rintro h rfl
    cases hi
  rcases exec_ends i s hkeeps (readFrame_loadKeys i.header s) trivial hreset with href | ⟨t', ht', u, hu, hends⟩
  case inl => rw [hexec] at href; cases href
  obtain rfl : t = t' := by rw [hexec] at ht'; injection ht'
  rcases hends with ⟨rfl, -⟩ | rfl | ⟨hmut, -⟩ | ⟨-, st, len, rfl⟩
  · exact hu
  · exact hu.finish _ _
  · rw [isMutating_of_isReadClass hi] at hmut; cases hmut
  · exact hu.finish st len

/-- Settles O28: the header bytes are part of the frame of every read-class command. -/
theorem readClassEchoesHeader : Obligations.ReadClassEchoesHeader := by
  intro h s t hexec
  rcases hexec with hexec | hexec | hexec | hexec | hexec
  all_goals exact (exec_readFrame rfl hexec).header

end Sys2Proof.Proofs.ReadClass
end

section
/-! PROOFS. The reads that put memory bytes into the frame buffer: Read Version, Read Flash, Read EE Data and Read Config
(43_dispatch_and_reads.md R170 to R178). -/

namespace Sys2Proof.Proofs.PayloadReads

open Sys2Proof.Machine Sys2Proof.Safety Sys2Proof.Proofs.GuardAborts Sys2Proof.Proofs.ReadClass

/-! ## The loop of reads -/

/-- Element `j` of a command reads the byte at `cursor j` into `buf[slot j]` and leaves the cursor at the next element's address. -/
def ReadsInto (sp : Space) (cursor : Nat → Addr) (slot : Nat → Nat) (op : Loc → State → Ctl) (s : State) : Prop :=
  ∀ l u, l.cur = cursor l.i → u.params = s.params →
    element op l u =
      .go (nextLoc (cursor (l.i + 1)) l) (bufSet (slot l.i) (memValue sp l.cur.toNat u) (afterRead sp l.cur.toNat u))

/-- `buf[j]` holds the byte read at `a`: the durable byte, or a draw where the address is not implemented or being written
(20_memory.md R56, R63). -/
def HoldsRead (sp : Space) (a : Nat) (j : Nat) (s t : State) : Prop :=
  HasByte t j ∧ (implemented s.params sp a = true → (sp = .ee → eeBusyAt a s = false) →
    bufByte t j = some (Memory.read (spaceOf sp s) a))

theorem HoldsRead.congr {sp : Space} {a j : Nat} {s t t' : State} (hread : HoldsRead sp a j s t)
    (hbyte : bufByte t' j = bufByte t j) : HoldsRead sp a j s t' := by
  obtain ⟨hhas, hdurable⟩ := hread
  exact ⟨by rwa [HasByte, hbyte], fun himpl hidle => hbyte.trans (hdurable himpl hidle)⟩

/-- Before element `j`: the bytes of the elements before it are in their slots, and no other byte of the frame buffer has changed. -/
structure AtRead (sp : Space) (cursor : Nat → Addr) (slot : Nat → Nat) (h : Header) (n : Nat) (s : State) (j : Nat) (l : Loc)
    (u : State) : Prop where
  cur    : l.cur = cursor j
  index  : l.i = j
  count  : l.n = n
  frame  : ReadFrame h s u
  filled : ∀ k < j, HoldsRead sp (cursor k).toNat (slot k) s u
  rest   : ∀ b, (∀ k < j, slot k ≠ b) → bufByte u b = bufByte s b

section
variable {sp : Space} {cursor : Nat → Addr} {slot : Nat → Nat} {op : Loc → State → Ctl} {h : Header} {s : State} {n : Nat}

theorem AtRead.next (hop : ReadsInto sp cursor slot op s) (hslot : StrictMono slot) (hlow : ∀ k, 9 ≤ slot k)
    (hfits : ∀ k < n, slot k < s.buf.length) {j : Nat} {l : Loc} {u : State} (hj : j < n)
    (hat : AtRead sp cursor slot h n s j l u) :
    ∃ l' u', element op l u = .go l' u' ∧ AtRead sp cursor slot h n s (j + 1) l' u' := by
  obtain ⟨hcur, rfl, hcount, hframe, hfilled, hrest⟩ := hat
  have hlen : slot l.i < u.buf.length := hframe.length ▸ hfits l.i hj
  have hsame : ∀ b, slot l.i ≠ b → bufByte (bufSet (slot l.i) (memValue sp l.cur.toNat u) (afterRead sp l.cur.toNat u)) b =
      bufByte u b := fun b hb => bufByte_bufSet_ne hb _ _
  have hwritten : bufByte (bufSet (slot l.i) (memValue sp l.cur.toNat u) (afterRead sp l.cur.toNat u)) (slot l.i) =
      some (memValue sp l.cur.toNat u) := by
    rw [bufByte_bufSet, if_pos ⟨rfl, hlen⟩]
  refine ⟨_, _, hop l u hcur hframe.params, rfl, rfl, hcount, (hframe.afterRead _ _).bufSet (hlow _) _, ?filled, ?rest⟩
  case filled =>
    intro k hk
    rcases Nat.lt_succ_iff_lt_or_eq.mp hk with hlt | rfl
    · exact (hfilled k hlt).congr (hsame _ (hslot hlt).ne')
    · refine ⟨by rw [HasByte, hwritten]; rfl, fun himpl hidle => ?_⟩
      rw [hwritten, hcur, hframe.memValue_durable himpl hidle]
  case rest =>
    intro b hb
    rw [hsame b (hb _ (Nat.lt_succ_self _)), hrest b fun k hk => hb k (Nat.lt_succ_of_lt hk)]

/-- A command of reads goes through, with every byte read in its slot. -/
theorem continueLoop_reads (hop : ReadsInto sp cursor slot op s) (hslot : StrictMono slot) (hlow : ∀ k, 9 ≤ slot k)
    (hfits : ∀ k < n, slot k < s.buf.length) :
    ∃ l u, continueLoop op (startLoc (cursor 0) n none) (loadKeys h s) = .go l u ∧ AtRead sp cursor slot h n s n l u :=
  runLoop_go (Q := AtRead sp cursor slot h n s) (n := n) (fun _ _ _ hj hat => hat.next hop hslot hlow hfits hj) n 0 _ _ (Nat.zero_add n)
    { cur := rfl, index := rfl, count := rfl, frame := readFrame_loadKeys h s, filled := nofun, rest := fun _ _ => rfl }

end

/-! ## Reads of a range -/

/-- The response of a read of `n` bytes that passed its checks: they are its payload, from `buf[9]` on. -/
def AnswersRead (sp : Space) (cursor : Nat → Addr) (n : Nat) (s t : State) : Prop :=
  Answers (9 + n) t ∧ SameBufBut (fun j => 9 ≤ j ∧ j < 9 + n) s t ∧ ∀ i < n, HoldsRead sp (cursor i).toNat (9 + i) s t

theorem readOp_readsInto {sp : Space} {cursor : Nat → Addr} {next : Addr → Addr} (hnext : ∀ j, next (cursor j) = cursor (j + 1))
    (s : State) : ReadsInto sp cursor (9 + ·) (readOp sp next) s := by
  intro l u hcur _
  rw [element_readOp, ← hnext, hcur]

/-- A read of a range, once its checks have passed, answers with the bytes of the range. -/
theorem runCommand_readOp {sp : Space} {cursor : Nat → Addr} {next : Addr → Addr} (hnext : ∀ j, next (cursor j) = cursor (j + 1))
    {s : State} {n : Nat} (hbuf : BufOk s) (hn : n ≤ s.params.w) (h : Header) :
    ∃ t, runCommand (startLoop h (cursor 0) n none s) (readOp sp next) finishRead = .next t ∧ AnswersRead sp cursor n s t := by
  obtain ⟨l, u, hrun, hat⟩ := continueLoop_reads (h := h) (readOp_readsInto (sp := sp) hnext s)
    (fun _ _ hlt => Nat.add_lt_add_left hlt 9) (Nat.le_add_right 9)
    (fun k (hk : k < n) => by rw [hbuf.1]; exact Nat.add_lt_add_left (hk.trans_le hn) 9)
  refine ⟨finishRead l u, by rw [runCommand_startLoop, hrun]; rfl, ⟨rfl, by rw [← hat.count]; rfl, rfl, rfl⟩, fun j hj => ?_,
    fun i hi => hat.filled i hi⟩
  exact hat.rest j fun k hk => by omega

theorem not_overCapacity {p : Params} {h : Header} (hfits : h.dlen.toNat ≤ p.w) : ¬overCapacity p h = true := by
  simpa [overCapacity] using hfits

/-- A command of reads, whose checks `pass` or not: its answer in either case, and its frame in both. -/
theorem exec_read_answers {i : Instr} {s : State} {pass : Prop} {sp : Space} {cursor : Nat → Addr} {n : Nat} (hbuf : BufOk s)
    (hi : isReadClass i = true) (hfails : ¬pass → exec i s = .next (abortOutOfRange (loadKeys i.header s)))
    (hpasses : pass → ∃ t, exec i s = .next t ∧ AnswersRead sp cursor n s t) :
    ∃ t, exec i s = .next t ∧ SameControl s t ∧ SameMemory s t ∧ SamePorts s t ∧ (¬pass → AnswersOutOfRange i.header s t) ∧
      (pass → Answers (9 + n) t ∧ KeysLoaded i.header t ∧ t.resetPending = s.resetPending ∧
        SameBufBut (fun j => 9 ≤ j ∧ j < 9 + n) s t ∧ ∀ k < n, HoldsRead sp (cursor k).toNat (9 + k) s t) := by
  by_cases hpass : pass
  case pos =>
    obtain ⟨t, hexec, hanswers, hsame, hread⟩ := hpasses hpass
    have hframe := exec_readFrame hi hexec
    exact ⟨t, hexec, hframe.control, hframe.memory, hframe.ports, absurd hpass,
      fun _ => ⟨hanswers, hframe.keys, hframe.resetPending, hsame, hread⟩⟩
  case neg =>
    have hexec := hfails hpass
    have hframe := exec_readFrame hi hexec
    exact ⟨_, hexec, hframe.control, hframe.memory, hframe.ports,
      fun _ => abortOutOfRange_answers hbuf (unanswered_loadKeys i.header s), fun h => absurd h hpass⟩

/-! ## Read Flash -/

/-- The addresses of FLASH or CFG from `a` on (20_memory.md R58). -/
theorem nextAddr_add_ofNat (a : Addr) (j : Nat) : nextAddr (a + BitVec.ofNat 24 j) = a + BitVec.ofNat 24 (j + 1) := by
  rw [nextAddr, BitVec.add_assoc, BitVec.ofNat_add]
  rfl

theorem exec_readFlash {h : Header} {s : State} (hbuf : BufOk s) (hfits : h.dlen.toNat ≤ s.params.w) :
    ∃ t, exec (.readFlash h) s = .next t ∧ AnswersRead .flash (h.addr + BitVec.ofNat 24 ·) h.dlen.toNat s t := by
  have hrun := runCommand_readOp (sp := .flash) (nextAddr_add_ofNat h.addr) hbuf hfits h
  simpa only [exec, execReadFlash, startReadFlash, if_neg (not_overCapacity hfits), BitVec.add_zero] using hrun

/-- Settles O23: the only check is the capacity; flash is never being written while it is read. -/
theorem readFlashAnswers : Obligations.ReadFlashAnswers := by
  intro h s hbuf
  obtain ⟨t, hexec, hcontrol, hmemory, hports, hover, hread⟩ := exec_read_answers (i := .readFlash h) hbuf rfl
    (fun hover => exec_of_overCapacity rfl (Nat.lt_of_not_le hover)) (exec_readFlash hbuf)
  refine ⟨t, hexec, hcontrol, hmemory, hports, fun hlt => hover (Nat.not_le.mpr hlt), fun hfits => ?_⟩
  obtain ⟨hanswers, hkeys, hpending, hsame, hbytes⟩ := hread hfits
  refine ⟨hanswers, hkeys, hpending, hsame, fun i hi => ?_⟩
  obtain ⟨hhas, hdurable⟩ := hbytes i hi
  exact ⟨hhas, fun himpl => hdurable himpl nofun⟩

/-! ## Read EE Data -/

theorem eeOfCursor_eeCursor (a : Half) : eeOfCursor (eeCursor a) = a := by
  apply BitVec.eq_of_toNat_eq
  have := a.isLt
  simp only [eeOfCursor, eeCursor, BitVec.extractLsb'_toNat, BitVec.zeroExtend, BitVec.toNat_setWidth, Nat.shiftRight_zero]
  omega

theorem nextEERead_eeCursor (a : Half) (j : Nat) :
    nextEERead (eeCursor (a + BitVec.ofNat 16 j)) = eeCursor (a + BitVec.ofNat 16 (j + 1)) := by
  rw [nextEERead, eeOfCursor_eeCursor, BitVec.add_assoc, BitVec.ofNat_add]
  rfl

/-- The cursor takes the low 16 bits of the header's address and wraps at 2^16 (R175). -/
theorem eeCursor_eeAddr_toNat (h : Header) (i : Nat) :
    (eeCursor (eeAddr h + BitVec.ofNat 16 i)).toNat = (h.addr.toNat + i) % 65536 := by
  simp only [eeCursor, eeAddr, BitVec.zeroExtend, BitVec.toNat_setWidth, BitVec.toNat_add, BitVec.extractLsb'_toNat,
    BitVec.toNat_ofNat, Nat.shiftRight_zero]
  omega

theorem exec_readEEData {h : Header} {s : State} (hbuf : BufOk s) (hfits : h.dlen.toNat ≤ s.params.w) :
    ∃ t, exec (.readEEData h) s = .next t ∧
      AnswersRead .ee (fun i => eeCursor (eeAddr h + BitVec.ofNat 16 i)) h.dlen.toNat s t := by
  have hrun := runCommand_readOp (sp := .ee) (nextEERead_eeCursor (eeAddr h)) hbuf hfits h
  simpa only [exec, execReadEEData, startReadEEData, if_neg (not_overCapacity hfits), BitVec.add_zero] using hrun

/-- Settles O24: the only check is the capacity, and the cursor is the address modulo 2^16. -/
theorem readEEDataAnswers : Obligations.ReadEEDataAnswers := by
  intro h s hbuf
  obtain ⟨t, hexec, hcontrol, hmemory, hports, hover, hread⟩ := exec_read_answers (i := .readEEData h) hbuf rfl
    (fun hover => exec_of_overCapacity rfl (Nat.lt_of_not_le hover)) (exec_readEEData hbuf)
  refine ⟨t, hexec, hcontrol, hmemory, hports, fun hlt => hover (Nat.not_le.mpr hlt), fun hfits => ?_⟩
  obtain ⟨hanswers, hkeys, hpending, hsame, hbytes⟩ := hread hfits
  refine ⟨hanswers, hkeys, hpending, hsame, fun i hi => ?_⟩
  obtain ⟨hhas, hdurable⟩ := hbytes i hi
  rw [← eeCursor_eeAddr_toNat]
  exact ⟨hhas, fun himpl hidle => hdurable himpl fun _ => hidle⟩

/-! ## Read Config -/

theorem exec_readConfig {h : Header} {s : State} (hbuf : BufOk s)
    (hpass : h.dlen.toNat ≤ s.params.w ∧ s.params.floor ≤ h.addr.toNat) :
    ∃ t, exec (.readConfig h) s = .next t ∧ AnswersRead .cfg (h.addr + BitVec.ofNat 24 ·) h.dlen.toNat s t := by
  obtain ⟨hfits, hfloor⟩ := hpass
  have hrun := runCommand_readOp (sp := .cfg) (nextAddr_add_ofNat h.addr) hbuf hfits h
  have habove : aboveFloor s.params h.addr = true := decide_eq_true hfloor
  simpa only [exec, execReadConfig, startReadConfig, if_neg (not_overCapacity hfits), if_pos habove, BitVec.add_zero] using hrun

theorem exec_readConfig_of_fails {h : Header} {s : State}
    (hfails : ¬(h.dlen.toNat ≤ s.params.w ∧ s.params.floor ≤ h.addr.toNat)) :
    exec (.readConfig h) s = .next (abortOutOfRange (loadKeys h s)) := by
  rcases Nat.lt_or_ge s.params.w h.dlen.toNat with hover | hfits
  · exact exec_of_overCapacity rfl hover
  · have hbelow : ¬aboveFloor s.params h.addr = true := by simpa [aboveFloor, hfits] using hfails
    simp only [exec, execReadConfig, startReadConfig, if_neg hbelow, ite_self, runCommand_startAbort]

/-- Settles O25: the checks are the capacity and the start address. -/
theorem readConfigAnswers : Obligations.ReadConfigAnswers := by
  intro h s hbuf
  obtain ⟨t, hexec, hcontrol, hmemory, hports, hfails, hread⟩ := exec_read_answers (i := .readConfig h) hbuf rfl
    exec_readConfig_of_fails (exec_readConfig hbuf)
  refine ⟨t, hexec, hcontrol, hmemory, hports, fun hout => hfails (by omega), fun hfits hfloor => ?_⟩
  obtain ⟨hanswers, hkeys, hpending, hsame, hbytes⟩ := hread ⟨hfits, hfloor⟩
  refine ⟨hanswers, hkeys, hpending, hsame, fun i hi => ?_⟩
  obtain ⟨hhas, hdurable⟩ := hbytes i hi
  exact ⟨hhas, fun himpl => hdurable himpl nofun⟩

/-! ## Read Version -/

theorem versionSlot_strictMono : StrictMono versionSlot := by
  refine strictMono_nat_of_lt_succ fun k => ?_
  match k with
  | 0 => decide
  | 1 => decide
  | k + 2 => exact Nat.lt_succ_self (21 + k)

/-- No slot lies before the seventh payload byte (R170). -/
theorem versionSlot_ge (k : Nat) : 15 ≤ versionSlot k := versionSlot_strictMono.monotone (Nat.zero_le k)

/-- The six slots lie in the sixteen payload bytes (R170). -/
theorem versionSlot_lt {k : Nat} (hk : k < 6) : versionSlot k < 25 := versionSlot_strictMono hk

theorem versionOp_readsInto (s : State) : ReadsInto .cfg (versionAddr s.params) versionSlot versionOp s := by
  intro l u _ hparams
  rw [element_versionOp, hparams]

/-- The payload bytes that come from no port, over those that a port has given (R170). -/
theorem bufByte_finishVersion {u : State} (hlen : 25 ≤ u.buf.length) (l : Loc) (k : Nat) :
    bufByte (finishVersion l u) k =
      if 17 ≤ k ∧ k < 21 then [0x00, 0x00, BitVec.ofNat 8 u.params.e, BitVec.ofNat 8 u.params.w][k - 17]?
      else if 9 ≤ k ∧ k < 15 then
        [u.params.versionMinor, u.params.versionMajor, lowByte u.params.maxPacketSize, highByte u.params.maxPacketSize,
          0x00, 0x00][k - 9]?
      else bufByte u k := by
  obtain ⟨b, hb, hl⟩ := bufSetList_eq [u.params.versionMinor, u.params.versionMajor, lowByte u.params.maxPacketSize,
    highByte u.params.maxPacketSize, 0x00, 0x00] 9 u
  rw [finishVersion, bufByte_finish_none, bufByte_bufSetList _ _ _ _ (by rw [hb]; simp only [List.length_cons, List.length_nil]; omega),
    bufByte_bufSetList _ _ _ _ (by simp only [List.length_cons, List.length_nil]; omega)]
  rfl

theorem lowByte_eq_ofNat (v : Half) : lowByte v = BitVec.ofNat 8 v.toNat := by
  apply BitVec.eq_of_toNat_eq
  simp only [lowByte, BitVec.extractLsb'_toNat, BitVec.toNat_ofNat, Nat.shiftRight_zero]

theorem highByte_eq_ofNat (v : Half) : highByte v = BitVec.ofNat 8 (v.toNat / 256) := by
  apply BitVec.eq_of_toNat_eq
  simp only [highByte, BitVec.extractLsb'_toNat, BitVec.toNat_ofNat, Nat.shiftRight_eq_div_pow]

/-- A byte read through the config port: its value, the durable one where its address is implemented. -/
theorem HoldsRead.cfg_value {a j : Nat} {s t : State} (hread : HoldsRead .cfg a j s t) :
    ∃ v, bufByte t j = some v ∧ (implemented s.params .cfg a = true → v = Memory.read s.cfg a) := by
  obtain ⟨hhas, hdurable⟩ := hread
  obtain ⟨v, hv⟩ := Option.isSome_iff_exists.mp hhas
  exact ⟨v, hv, fun himpl => Option.some.inj (hv.symm.trans (hdurable himpl nofun))⟩

/-- Settles O22: six reads through the config port, and ten bytes written around them. -/
theorem readVersionAnswers : Obligations.ReadVersionAnswers := by
  intro h s hbuf
  obtain ⟨hlength, hw⟩ := hbuf
  obtain ⟨l, u, hrun, hat⟩ := continueLoop_reads (h := h) (n := 6) (versionOp_readsInto s) versionSlot_strictMono
    (fun k => (by decide : 9 ≤ 15).trans (versionSlot_ge k)) (fun k hk => by have := versionSlot_lt hk; omega)
  obtain ⟨-, -, -, hframe, hfilled, hrest⟩ := hat
  have hexec : exec (.readVersion h) s = .next (finishVersion l u) := by
    rw [exec, execReadVersion, startReadVersion, runCommand_startLoop, hrun]
    rfl
  have hbyte := bufByte_finishVersion (by rw [hframe.length]; omega : 25 ≤ u.buf.length) l
  rw [hframe.params] at hbyte
  obtain ⟨d0, hd0, hdev0⟩ := (hfilled 0 (by decide)).cfg_value
  obtain ⟨d1, hd1, hdev1⟩ := (hfilled 1 (by decide)).cfg_value
  obtain ⟨i0, hi0, hid0⟩ := (hfilled 2 (by decide)).cfg_value
  obtain ⟨i1, hi1, hid1⟩ := (hfilled 3 (by decide)).cfg_value
  obtain ⟨i2, hi2, hid2⟩ := (hfilled 4 (by decide)).cfg_value
  obtain ⟨i3, hi3, hid3⟩ := (hfilled 5 (by decide)).cfg_value
  have hend := exec_readFrame rfl hexec
  refine ⟨finishVersion l u, d0, d1, i0, i1, i2, i3, hexec, ⟨rfl, rfl, rfl, rfl⟩, ?payload, ?devid, ?idloc, ?rest, hend.keys,
    hend.resetPending, hend.control, hend.memory, hend.ports⟩
  case payload =>
    simp only [versionSlot] at hd0 hd1 hi0 hi1 hi2 hi3
    simp [List.range_succ, hbyte, hd0, hd1, hi0, hi1, hi2, hi3, lowByte_eq_ofNat, highByte_eq_ofNat]
  case devid =>
    intro himpl
    exact ⟨hdev0 (by simpa [versionAddr] using himpl 0 (by decide)), hdev1 (himpl 1 (by decide))⟩
  case idloc =>
    intro himpl
    have hcur : versionAddr s.params 2 = s.params.idlocAddr := BitVec.add_zero _
    exact ⟨hcur ▸ hid0 (himpl 0 (by decide)), hid1 (himpl 1 (by decide)), hid2 (himpl 2 (by decide)),
      hid3 (himpl 3 (by decide))⟩
  case rest =>
    intro j hj
    rw [hbyte, if_neg (by omega), if_neg (by omega)]
    exact hrest j fun k hk hslot => by
      have := versionSlot_ge k
      have := versionSlot_lt hk
      omega

end Sys2Proof.Proofs.PayloadReads
end

section
/-! PROOFS. Calc Checksum (43_dispatch_and_reads.md R181, 30_encoding.md R89) and its split property (R182). -/

namespace Sys2Proof.Proofs.Checksum

open Sys2Proof.Machine Sys2Proof.Safety Sys2Proof.Proofs.ReadClass Sys2Proof.Proofs.PayloadReads

/-! ## The sum -/

/-- What byte `i` of the range counts for, written as the statement of R181 writes it. -/
def weight (mode : ChecksumMode) (i : Nat) : Nat := if mode = .leWordSum ∧ i % 2 = 1 then 256 else 1

/-- The sum of `count` durable flash bytes from `a` on, each by its weight, before it is cut to 16 bits. -/
def flashSum (s : State) (a : Addr) (count : Nat) : Nat :=
  ((List.range count).map fun i =>
    (Memory.read s.flash (a + BitVec.ofNat 24 i).toNat).toNat * weight s.params.checksumMode i).sum

theorem flashSum_succ (s : State) (a : Addr) (count : Nat) :
    flashSum s a (count + 1) = flashSum s a count +
      (Memory.read s.flash (a + BitVec.ofNat 24 count).toNat).toNat * weight s.params.checksumMode count := by
  simp only [flashSum, List.range_succ, List.map_append, List.sum_append, List.map_cons, List.map_nil, List.sum_cons, List.sum_nil,
    Nat.add_zero]

/-- One byte into the accumulator adds the byte by its weight, modulo 2^16. -/
theorem sumByte_toNat (mode : ChecksumMode) (i : Nat) (sum : Half) (b : Byte) :
    (sumByte mode i sum b).toNat = (sum.toNat + b.toNat * weight mode i) % 65536 := by
  have hb := b.isLt
  have hlow : (sum + b.zeroExtend 16).toNat = (sum.toNat + b.toNat * 1) % 65536 := by
    rw [BitVec.toNat_add, BitVec.zeroExtend, BitVec.toNat_setWidth, Nat.mod_eq_of_lt (by omega : b.toNat < 2 ^ 16), Nat.mul_one]
  have hhigh : (sum + (b ++ (0 : Byte))).toNat = (sum.toNat + b.toNat * 256) % 65536 := by
    rw [BitVec.toNat_add, BitVec.toNat_append, Nat.shiftLeft_eq]
    simp
  cases mode with
  | byteSum => exact hlow
  | leWordSum =>
    rcases Nat.mod_two_eq_zero_or_one i with heven | hodd
    · rw [weight, if_neg (by omega)]
      exact (congrArg BitVec.toNat (if_pos heven)).trans hlow
    · rw [weight, if_pos ⟨rfl, hodd⟩]
      exact (congrArg BitVec.toNat (if_neg (by omega))).trans hhigh

/-! ## The loop -/

/-- Before byte `j`: the accumulator holds the sum of the bytes before it, where the range is implemented (20_memory.md R56). -/
structure AtByte (h : Header) (n : Nat) (s : State) (j : Nat) (l : Loc) (u : State) : Prop where
  cur   : l.cur = h.addr + BitVec.ofNat 24 j
  index : l.i = j
  frame : ReadFrame h s u
  buf   : u.buf = s.buf
  sum   : ImplementedFrom s .flash h.addr n → l.sum.toNat = flashSum s h.addr j % 65536

theorem AtByte.next {h : Header} {n j : Nat} {s u : State} {l : Loc} (hj : j < n) (hat : AtByte h n s j l u) :
    ∃ l' u', element checksumOp l u = .go l' u' ∧ AtByte h n s (j + 1) l' u' := by
  obtain ⟨hcur, rfl, hframe, hbuf, hsum⟩ := hat
  refine ⟨_, _, element_checksumOp l u, ?cur, rfl, hframe.afterRead _ _, hbuf, ?sum⟩
  case cur => rw [nextLoc, hcur, nextAddr_add_ofNat]
  case sum =>
    intro himpl
    rw [sumByte_toNat, hsum himpl, hcur, hframe.memValue_durable (himpl _ hj) nofun, hframe.params, flashSum_succ]
    exact Nat.mod_add_mod _ _ _

theorem continueLoop_checksum (h : Header) (n : Nat) (s : State) :
    ∃ l u, continueLoop checksumOp (startLoc h.addr n none) (loadKeys h s) = .go l u ∧ AtByte h n s n l u :=
  runLoop_go (Q := AtByte h n s) (n := n) (fun _ _ _ hj hat => hat.next hj) n 0 _ _ (Nat.zero_add n)
    { cur := (BitVec.add_zero _).symm, index := rfl, frame := readFrame_loadKeys h s, buf := rfl, sum := fun _ => rfl }

/-! ## The command -/

/-- The count takes `buf[3]` as bits 23:16 when `LEN_EXT` holds (30_encoding.md R89). -/
theorem checksumCount_eq (p : Params) (h : Header) :
    checksumCount p h = if 0x10000 < p.flashEnd then 65536 * h.key1.toNat + h.dlen.toNat else h.dlen.toNat := by
  have happend : (h.key1 ++ h.dlen).toNat = 65536 * h.key1.toNat + h.dlen.toNat := by
    rw [BitVec.toNat_append, ← Nat.shiftLeft_add_eq_or_of_lt h.dlen.isLt, Nat.shiftLeft_eq, Nat.mul_comm]
  simp only [checksumCount, lenExt, decide_eq_true_eq, happend]

theorem bufByte_finishChecksum {u : State} (hlen : 11 ≤ u.buf.length) (l : Loc) (k : Nat) :
    bufByte (finishChecksum l u) k =
      if k = 10 then some (highByte l.sum) else if k = 9 then some (lowByte l.sum) else bufByte u k := by
  have h9 : 9 < u.buf.length := by omega
  have h10 : 10 < u.buf.length := by omega
  simp only [finishChecksum, bufByte_finish_none, bufByte_bufSet, length_bufSet, h9, h10, and_true, eq_comm]

/-- Settles O26: the loop of `continueLoop_checksum`, and its accumulator in two bytes. -/
theorem calcChecksumAnswers : Obligations.CalcChecksumAnswers := by
  intro h s hbuf
  obtain ⟨hlength, hw⟩ := hbuf
  obtain ⟨l, u, hrun, hat⟩ := continueLoop_checksum h (checksumCount s.params h) s
  have hexec : exec (.calcChecksum h) s = .next (finishChecksum l u) := by
    rw [exec, execCalcChecksum, startCalcChecksum, runCommand_startLoop, hrun]
    rfl
  have hbyte := bufByte_finishChecksum (by rw [hat.buf]; omega : 11 ≤ u.buf.length) l
  have hend := exec_readFrame rfl hexec
  refine ⟨finishChecksum l u, l.sum, hexec, ⟨rfl, rfl, rfl, rfl⟩, ?low, ?high, ?sum, ?rest, hend.keys, hend.resetPending,
    hend.control, hend.memory, hend.ports⟩
  case low => rw [hbyte, lowByte_eq_ofNat]; rfl
  case high => rw [hbyte, highByte_eq_ofNat]; rfl
  case sum =>
    rintro count rfl himpl
    rw [← checksumCount_eq] at himpl ⊢
    exact hat.sum himpl
  case rest =>
    intro j hj
    rw [hbyte, if_neg (by omega), if_neg (by omega), bufByte_congr hat.buf]

/-! ## The split property -/

theorem ofNat_low_high (v : Nat) (hv : v < 65536) : (BitVec.ofNat 8 v).toNat + 256 * (BitVec.ofNat 8 (v / 256)).toNat = v := by
  simp only [BitVec.toNat_ofNat]
  omega

/-- The answer of a Calc Checksum as one number. -/
theorem exec_calcChecksum_sum {h : Header} {s t : State} {n : Nat} (hbuf : BufOk s) (hcount : checksumCount s.params h = n)
    (himpl : ImplementedFrom s .flash h.addr n) (hexec : exec (.calcChecksum h) s = .next t) :
    ∃ b0 b1, bufByte t 9 = some b0 ∧ bufByte t 10 = some b1 ∧ b0.toNat + 256 * b1.toNat = flashSum s h.addr n % 65536 := by
  obtain ⟨t', sum, hexec', -, hlow, hhigh, hsum, -⟩ := calcChecksumAnswers h s hbuf
  obtain rfl : t = t' := by rw [hexec] at hexec'; injection hexec'
  exact ⟨_, _, hlow, hhigh, (ofNat_low_high _ sum.isLt).trans (hsum n (hcount ▸ checksumCount_eq s.params h) himpl)⟩

/-- The weights of the second part are those it has in the whole range (R182). -/
theorem weight_add {mode : ChecksumMode} {m : Nat} (heven : mode = .byteSum ∨ m % 2 = 0) (i : Nat) :
    weight mode (m + i) = weight mode i := by
  rcases heven with rfl | heven
  · rfl
  · rw [weight, weight, Nat.add_mod, heven, Nat.zero_add, Nat.mod_mod]

theorem flashSum_add {s : State} {m : Nat} (heven : s.params.checksumMode = .byteSum ∨ m % 2 = 0) (a : Addr) (n : Nat) :
    flashSum s a (m + n) = flashSum s a m + flashSum s (a + BitVec.ofNat 24 m) n := by
  simp only [flashSum, List.range_add, List.map_append, List.sum_append, List.map_map, Function.comp_def, weight_add heven,
    BitVec.ofNat_add, BitVec.add_assoc]

theorem flashSum_congr {s t : State} (hparams : t.params = s.params) (hflash : SameSpace .flash s t) (a : Addr) (n : Nat) :
    flashSum t a n = flashSum s a n := by
  have hread : ∀ b, Memory.read t.flash b = Memory.read s.flash b := hflash
  simp only [flashSum, hparams, hread]

theorem implementedFrom_congr {s t : State} {sp : Space} {a : Addr} {n : Nat} (himpl : ImplementedFrom s sp a n)
    (hparams : t.params = s.params) : ImplementedFrom t sp a n := by
  rwa [ImplementedFrom, hparams]

/-- Settles O27: each request gives its `flashSum`, and the sums add up. -/
theorem checksumSplits : Obligations.ChecksumSplits := by
  intro s1 s2 s3 h1 h2 h3 m n t1 t2 t3 hbuf1 hbuf2 hbuf3 hparams2 hparams3 hflash2 hflash3 heven hm hn hmn haddr2 haddr3 himpl
    hexec1 hexec2 hexec3
  have himpl1 : ImplementedFrom s1 .flash h1.addr m := fun i hi => himpl i (by omega)
  have himpl2 : ImplementedFrom s1 .flash h2.addr n := fun i hi => by
    have := himpl (m + i) (by omega)
    rwa [haddr2, BitVec.add_assoc, ← BitVec.ofNat_add]
  obtain ⟨b0, b1, hb0, hb1, hb⟩ := exec_calcChecksum_sum hbuf1 hm himpl1 hexec1
  obtain ⟨c0, c1, hc0, hc1, hc⟩ := exec_calcChecksum_sum hbuf2 (hparams2 ▸ hn) (implementedFrom_congr himpl2 hparams2) hexec2
  obtain ⟨d0, d1, hd0, hd1, hd⟩ := exec_calcChecksum_sum hbuf3 (hparams3 ▸ hmn) (haddr3 ▸ implementedFrom_congr himpl hparams3) hexec3
  refine ⟨b0, b1, c0, c1, d0, d1, hb0, hb1, hc0, hc1, hd0, hd1, ?_⟩
  rw [hb, hc, hd, flashSum_congr hparams2 hflash2, flashSum_congr hparams3 hflash3, haddr2, haddr3, flashSum_add heven]
  exact Nat.add_mod _ _ _

end Sys2Proof.Proofs.Checksum
end

section
/-! PROOFS. A Write Flash with matching keys makes its bytes durable, and a Read Flash gives them back (43_dispatch_and_reads.md R173;
20_memory.md R57, R60). -/

namespace Sys2Proof.Proofs.FlashRoundTrip

open Sys2Proof.Machine Sys2Proof.Safety Sys2Proof.Proofs.GuardBounds Sys2Proof.Proofs.PayloadReads

/-! ## Write rows -/

theorem dvd_of_isPowerOfTwo {n : Nat} (hn : isPowerOfTwo n) : n ∣ 2 ^ 24 := by
  obtain ⟨k, hk, rfl⟩ := hn
  exact pow_dvd_pow 2 (Nat.le_of_lt_succ (List.mem_range.mp hk))

theorem pos_of_isPowerOfTwo {n : Nat} (hn : isPowerOfTwo n) : 0 < n := Nat.pos_of_dvd_of_pos (dvd_of_isPowerOfTwo hn) (by decide)

/-- A row smaller than the space is at most half of it. -/
theorem two_mul_le_of_isPowerOfTwo {n : Nat} (hn : isPowerOfTwo n) (hlt : n < 2 ^ 24) : 2 * n ≤ 2 ^ 24 := by
  obtain ⟨k, -, rfl⟩ := hn
  have hk : k < 24 := (Nat.pow_lt_pow_iff_right (by decide)).mp hlt
  rw [← Nat.pow_succ']
  exact Nat.pow_le_pow_right (by decide) hk

/-- The write row that starts at `row` holds the address `a` (20_memory.md R57). -/
def InRow (p : Params) (row : Addr) (a : Nat) : Prop := row.toNat ≤ a ∧ a < row.toNat + p.w

section
variable {p : Params} (hw : isPowerOfTwo p.w)
include hw

theorem writeRow_toNat (a : Addr) : (writeRow p a).toNat = a.toNat - a.toNat % p.w := alignTo_toNat hw a

theorem inRow_writeRow (a : Addr) : InRow p (writeRow p a) a.toNat := by
  have hmod := Nat.mod_lt a.toNat (pos_of_isPowerOfTwo hw)
  rw [InRow, writeRow_toNat hw]
  omega

/-- The row does not change before its last address. -/
theorem writeRow_succ {a : Addr} (ha : ¬(a.toNat + 1) % p.w = 0) : writeRow p (a + 1) = writeRow p a := by
  have hdvd : ¬p.w ∣ a.toNat + 1 := fun h => ha (Nat.mod_eq_zero_of_dvd h)
  have hlast : a.toNat + 1 ≠ 2 ^ 24 := fun h => hdvd (h ▸ dvd_of_isPowerOfTwo hw)
  have hsucc : (a + 1).toNat = a.toNat + 1 := by
    have := a.isLt
    rw [BitVec.toNat_add]
    exact Nat.mod_eq_of_lt (by change a.toNat + 1 < 2 ^ 24; omega)
  apply BitVec.eq_of_toNat_eq
  rw [writeRow_toNat hw, writeRow_toNat hw, hsucc, ← Nat.div_mul_self_eq_mod_sub_self, ← Nat.div_mul_self_eq_mod_sub_self,
    Nat.succ_div_of_not_dvd hdvd]

/-- Fewer than `W` addresses past the end of a row lie outside it, unless it is the whole space and they wrap. -/
theorem not_inRow_past_end {a : Addr} (ha : (a.toNat + 1) % p.w = 0) {d : Nat} (hpos : 0 < d) (hd : d < p.w)
    (hrange : a.toNat + d < 2 ^ 24 ∨ p.w < 2 ^ 24) : ¬InRow p (writeRow p a) (a + BitVec.ofNat 24 d).toNat := by
  have hmod : a.toNat % p.w = p.w - 1 := pred_mod_of_dvd (Nat.succ_pos a.toNat) (Nat.dvd_of_mod_eq_zero ha)
  have hle := Nat.mod_le a.toNat p.w
  have hlt := a.isLt
  rw [InRow, writeRow_toNat hw, hmod, BitVec.toNat_add, BitVec.toNat_ofNat]
  rcases hrange with hrange | hsmall
  · omega
  · have := two_mul_le_of_isPowerOfTwo hw hsmall
    omega

end

/-! ## One byte of flash -/

/-- The byte `v` waits in the row buffer for its commit, and the cell is as it was in `s` (R59). -/
def Buffered (s u : State) (a : Nat) (v : Byte) : Prop :=
  Memory.read u.flash a = Memory.read s.flash a ∧ cellsFind u.rowBuf a = some v

/-- The byte `v` has been committed over the cell of `s`, and nothing is buffered for it any more (R60). -/
def Durable (s u : State) (a : Nat) (v : Byte) : Prop :=
  Memory.read u.flash a = programByte s.params.flashProgram (Memory.read s.flash a) v ∧ cellsFind u.rowBuf a = none

/-- A write to the row buffer leaves the entry of every other address. -/
theorem cellsFind_bufWrite_ne {a : Nat} {b : Addr} (hne : b.toNat ≠ a) (v : Byte) (u : State) :
    cellsFind (bufWrite b v u).rowBuf a = cellsFind u.rowBuf a :=
  (cellsFind_insert u.rowBuf b.toNat a v).trans (if_neg hne)

theorem buffered_bufWrite {s u : State} {a : Addr} (hsame : Memory.read u.flash a.toNat = Memory.read s.flash a.toNat) (v : Byte) :
    Buffered s (bufWrite a v u) a.toNat v :=
  ⟨hsame, (cellsFind_insert u.rowBuf a.toNat a.toNat v).trans (if_pos rfl)⟩

theorem Buffered.bufWrite {s u : State} {a : Nat} {v : Byte} (hbuffered : Buffered s u a v) {b : Addr} (hne : b.toNat ≠ a)
    (v' : Byte) : Buffered s (bufWrite b v' u) a v :=
  hbuffered.imp_right (cellsFind_bufWrite_ne hne v' u).trans

theorem Durable.bufWrite {s u : State} {a : Nat} {v : Byte} (hdurable : Durable s u a v) {b : Addr} (hne : b.toNat ≠ a)
    (v' : Byte) : Durable s (bufWrite b v' u) a v :=
  hdurable.imp_right (cellsFind_bufWrite_ne hne v' u).trans

section
variable {row : Addr} {pair : KeyPair} {s u : State} (hparams : u.params = s.params) (hhonored : honored pair u = true)
  (hsorted : cellsSorted u.rowBuf)

include hhonored in
theorem cellsFind_commitFlash (a : Nat) :
    cellsFind (commitFlash row pair u).rowBuf a =
      if row.toNat ≤ a ∧ a < row.toNat + u.params.w then none else cellsFind u.rowBuf a := by
  rw [(commitFlash_honored hhonored).2, cellsFind_outside]

include hhonored hsorted in
theorem read_commitFlash_of_none {a : Nat} (hnone : cellsFind u.rowBuf a = none) :
    Memory.read (commitFlash row pair u).flash a = Memory.read u.flash a := by
  rw [(commitFlash_honored hhonored).1, read_commitRange _ _ _ hsorted, hnone, ite_self]

include hparams hhonored hsorted in
theorem read_commitFlash_outside {a : Nat} (hout : ¬InRow s.params row a) :
    Memory.read (commitFlash row pair u).flash a = Memory.read u.flash a := by
  rw [(commitFlash_honored hhonored).1, read_commitRange _ _ _ hsorted, hparams]
  exact if_neg hout

include hparams hhonored hsorted in
theorem Buffered.commitFlash {a : Nat} {v : Byte} (hbuffered : Buffered s u a v) (hin : InRow s.params row a) :
    Durable s (commitFlash row pair u) a v := by
  obtain ⟨hsame, hfind⟩ := hbuffered
  rw [Durable, cellsFind_commitFlash hhonored, (commitFlash_honored hhonored).1, read_commitRange _ _ _ hsorted, hparams, hfind, hsame]
  exact ⟨if_pos hin, if_pos hin⟩

include hhonored hsorted in
theorem Durable.commitFlash {a : Nat} {v : Byte} (hdurable : Durable s u a v) : Durable s (commitFlash row pair u) a v := by
  obtain ⟨hread, hnone⟩ := hdurable
  exact ⟨(read_commitFlash_of_none hhonored hsorted hnone).trans hread, by
    rw [cellsFind_commitFlash hhonored, hnone, ite_self]⟩

end

/-! ## The loop of a Write Flash -/

/-- Both keys written in order arm the unlock state machine (42_unlock_sequence.md R146, R147). -/
theorem honored_of_keysMatch {pair : KeyPair} {h : Header} {u : State} (hmatch : KeysMatch pair h) (hloaded : KeysLoaded h u) :
    honored pair u = true := by
  obtain ⟨hfirst, hsecond⟩ := hmatch
  obtain ⟨hk1, hk2⟩ := hloaded
  simp [honored, unlockSequence, unlockWrite, unlockStrobe, hk1, hk2, hfirst, hsecond]

theorem byteTarget_add (h : Header) (j d : Nat) : byteTarget h (j + d) = byteTarget h j + BitVec.ofNat 24 d := by
  rw [byteTarget, byteTarget, BitVec.ofNat_add, BitVec.add_assoc]

/-- A request has too few bytes for two of them to have the same address. -/
theorem byteTarget_ne {h : Header} {i j : Nat} (hi : i < h.dlen.toNat) (hj : j < h.dlen.toNat) (hne : i ≠ j) :
    (byteTarget h i).toNat ≠ (byteTarget h j).toNat := by
  have := h.dlen.isLt
  rw [byteTarget, byteTarget, BitVec.toNat_add, BitVec.toNat_add, BitVec.toNat_ofNat, BitVec.toNat_ofNat]
  omega

/-- Before byte `j`: a byte before it is durable, or is buffered for the commit of the row the cursor is in; the cells of the others are as
they were. -/
structure AtWrite (h : Header) (data : List Byte) (s : State) (j : Nat) (l : Loc) (u : State) : Prop where
  cur       : l.cur = byteTarget h j
  index     : l.i = j
  count     : l.n = h.dlen.toNat
  params    : u.params = s.params
  keys      : KeysLoaded h u
  sorted    : cellsSorted u.rowBuf
  written   : ∀ i < j, Durable s u (byteTarget h i).toNat (payloadByte data i) ∨
    (Buffered s u (byteTarget h i).toNat (payloadByte data i) ∧ j < h.dlen.toNat ∧
      writeRow s.params (byteTarget h i) = writeRow s.params (byteTarget h j))
  unwritten : ∀ i, j ≤ i → i < h.dlen.toNat → Memory.read u.flash (byteTarget h i).toNat = Memory.read s.flash (byteTarget h i).toNat

section
variable {h : Header} {data : List Byte} {s : State} (hw : isPowerOfTwo s.params.w) (hfits : h.dlen.toNat ≤ s.params.w)
  (hrange : h.addr.toNat + h.dlen.toNat ≤ 2 ^ 24 ∨ s.params.w < 2 ^ 24) (hmatch : KeysMatch s.params.nvmKey h)
  (hin : ∀ i < h.dlen.toNat, inFlash s.params (byteTarget h i) = true)

include hw hfits hrange in
/-- The bytes still to come at the end of a row lie outside it. -/
theorem not_inRow_unwritten {i j : Nat} (hend : ((byteTarget h j).toNat + 1) % s.params.w = 0) (hji : j < i)
    (hi : i < h.dlen.toNat) : ¬InRow s.params (writeRow s.params (byteTarget h j)) (byteTarget h i).toNat := by
  obtain ⟨d, rfl⟩ := Nat.exists_eq_add_of_lt hji
  rw [Nat.add_assoc, byteTarget_add]
  refine not_inRow_past_end hw hend (Nat.succ_pos d) (by omega) (hrange.imp_left fun hle => ?_)
  have : (byteTarget h j).toNat ≤ h.addr.toNat + j := by
    rw [byteTarget, BitVec.toNat_add, BitVec.toNat_ofNat]
    omega
  omega

/-- Once byte `j` is in the row buffer, it and every byte before it is durable or buffered for the row the cursor is in. -/
theorem AtWrite.written_bufWrite {j : Nat} {l : Loc} {u : State} (hat : AtWrite h data s j l u) (hj : j < h.dlen.toNat) {i : Nat}
    (hi : i < j + 1) :
    Durable s (bufWrite (byteTarget h j) (payloadByte data j) u) (byteTarget h i).toNat (payloadByte data i) ∨
      (Buffered s (bufWrite (byteTarget h j) (payloadByte data j) u) (byteTarget h i).toNat (payloadByte data i) ∧
        writeRow s.params (byteTarget h i) = writeRow s.params (byteTarget h j)) := by
  rcases Nat.lt_succ_iff_lt_or_eq.mp hi with hlt | rfl
  · have hne := byteTarget_ne hj (hlt.trans hj) hlt.ne'
    rcases hat.written i hlt with hdurable | ⟨hbuffered, -, hrow⟩
    · exact .inl (hdurable.bufWrite hne _)
    · exact .inr ⟨hbuffered.bufWrite hne _, hrow⟩
  · exact .inr ⟨buffered_bufWrite (hat.unwritten i le_rfl hj) _, rfl⟩

include hw hfits hrange hmatch hin in
theorem AtWrite.next {j : Nat} {l : Loc} {u : State} (hj : j < h.dlen.toNat) (hat : AtWrite h data s j l u) :
    ∃ l' u', element (writeFlashOp s.params.nvmKey data) l u = .go l' u' ∧ AtWrite h data s (j + 1) l' u' := by
  have hwritten := fun i => hat.written_bufWrite (i := i) hj
  obtain ⟨hcur, rfl, hcount, hparams, hkeys, hsorted, -, hunwritten⟩ := hat
  have hsorted' := cellsInsert_sorted hsorted (byteTarget h l.i).toNat (payloadByte data l.i)
  have helem := element_writeFlashOp s.params.nvmKey data l u
  rw [hparams, hcur, if_pos (hin l.i hj), hcount] at helem
  have hnext : nextAddr (byteTarget h l.i) = byteTarget h (l.i + 1) := nextAddr_add_ofNat h.addr l.i
  refine ⟨_, _, helem, ?_⟩
  by_cases hcommit : commitPoint s.params (byteTarget h l.i) l.i h.dlen.toNat = true
  case pos =>
    rw [if_pos hcommit]
    have hparams' : (bufWrite (byteTarget h l.i) (payloadByte data l.i) u).params = s.params := hparams
    have hhonored : honored s.params.nvmKey (bufWrite (byteTarget h l.i) (payloadByte data l.i) u) = true :=
      honored_of_keysMatch hmatch hkeys
    refine ⟨hnext, rfl, hcount, hparams, hkeys, commitFlash_sorted hsorted' _ _, fun i hi => .inl ?written, fun i hi hlt => ?unwritten⟩
    case written =>
      rcases hwritten i hi with hdurable | ⟨hbuffered, hrow⟩
      · exact hdurable.commitFlash hhonored hsorted'
      · exact hbuffered.commitFlash hparams' hhonored hsorted' (hrow ▸ inRow_writeRow hw _)
    case unwritten =>
      have hend : ((byteTarget h l.i).toNat + 1) % s.params.w = 0 :=
        (of_decide_eq_true hcommit).resolve_right (by omega)
      exact (read_commitFlash_outside hparams' hhonored hsorted' (not_inRow_unwritten hw hfits hrange hend hi hlt)).trans
        (hunwritten i (Nat.le_of_succ_le hi) hlt)
  case neg =>
    rw [if_neg hcommit]
    obtain ⟨hend, hlast⟩ := not_or.mp (fun hc => hcommit (decide_eq_true hc))
    refine ⟨hnext, rfl, hcount, hparams, hkeys, hsorted', fun i hi => ?written,
      fun i hi hlt => hunwritten i (Nat.le_of_succ_le hi) hlt⟩
    case written =>
      have hsucc : writeRow s.params (byteTarget h (l.i + 1)) = writeRow s.params (byteTarget h l.i) := by
        rw [byteTarget_add]
        exact writeRow_succ hw hend
      exact (hwritten i hi).imp_right fun ⟨hbuffered, hrow⟩ => ⟨hbuffered, by omega, hrow.trans hsucc.symm⟩

include hw hfits hrange hmatch hin in
/-- A Write Flash with matching keys goes through and programs every byte of its payload (44_writes_and_control.md R200, R203). -/
theorem exec_writeFlash_durable (hsorted : cellsSorted s.rowBuf) (hlen : data.length = h.dlen.toNat)
    (hfloor : s.params.floor ≤ h.addr.toNat) :
    ∃ t, exec (.writeFlash h data) s = .next t ∧ ∀ i < h.dlen.toNat,
      Durable s t (byteTarget h i).toNat (payloadByte data i) := by
  have habove : aboveFloor s.params h.addr = true := decide_eq_true hfloor
  have hstart : startWriteFlash h data s = startLoop h h.addr h.dlen.toNat (some s.params.nvmKey) s := by
    rw [startWriteFlash, if_neg (not_overCapacity hfits), if_neg hlen.not_lt, if_pos habove]
  obtain ⟨l, u, hrun, hat⟩ := runLoop_go (Q := AtWrite h data s) (n := h.dlen.toNat)
    (fun _ _ _ hj hat => hat.next hw hfits hrange hmatch hin hj) h.dlen.toNat 0
    (startLoc h.addr h.dlen.toNat (some s.params.nvmKey)) (loadKeys h s) (Nat.zero_add _)
    { cur := (BitVec.add_zero _).symm, index := rfl, count := rfl, params := rfl, keys := ⟨rfl, rfl⟩, sorted := hsorted,
      written := nofun, unwritten := fun _ _ _ => rfl }
  refine ⟨completeMutation u, ?_, fun i hi => (hat.written i hi).resolve_right fun ⟨_, hlt, _⟩ => absurd hlt (lt_irrefl _)⟩
  rw [exec, execWriteFlash, hstart, runCommand_startLoop, continueLoop, startLoc, Nat.sub_zero]
  exact congrArg (endCommand · finishMutation) hrun

end

/-! ## The round trip -/

/-- Where flash is replaced on programming, or the cell was erased, the programmed byte is the byte written (R60). -/
theorem programByte_eq {mode : FlashProgram} {old : Byte} (h : mode = .replace ∨ old = 0xFF) (new : Byte) :
    programByte mode old new = new := by
  cases mode with
  | replace => rfl
  | and =>
    obtain rfl : old = 0xFF := h.resolve_left nofun
    exact BitVec.allOnes_and

/-- Settles O43: the bytes are durable after the write (`exec_writeFlash_durable`), and the read gives the durable bytes. -/
theorem flashRoundTrip : Obligations.FlashRoundTrip := by
  intro h g data s t s' u hbuf hbuf' hwf hsorted hrange hfits hlen hfloor hin hmatch himpl hprogram haddr hdlen hparams hflash
    hwrite hread
  obtain ⟨hw, -⟩ := hwf
  obtain ⟨t', hwrite', hdurable⟩ := exec_writeFlash_durable hw hfits hrange hmatch hin hsorted hlen hfloor
  obtain rfl : t = t' := by rw [hwrite] at hwrite'; injection hwrite'
  obtain ⟨u', hread', hanswers, -, hbytes⟩ := exec_readFlash (h := g) hbuf' (by rwa [hdlen, hparams])
  obtain rfl : u = u' := by rw [hread] at hread'; injection hread'
  obtain ⟨-, hrespLen, -⟩ := hanswers
  rw [hdlen] at hrespLen hbytes
  refine ⟨hrespLen, fun i hi => ?_⟩
  obtain ⟨-, hbyte⟩ := hbytes i hi
  obtain ⟨hprogrammed, -⟩ := hdurable i hi
  rw [haddr, hparams] at hbyte
  have hcell : s.params.flashProgram = .replace ∨ Memory.read s.flash (byteTarget h i).toNat = 0xFF :=
    hprogram.imp_right fun herased => herased i hi
  have hvalue : Memory.read s'.flash (byteTarget h i).toNat = payloadByte data i :=
    calc Memory.read s'.flash (byteTarget h i).toNat = Memory.read t.flash (byteTarget h i).toNat := hflash _
      _ = programByte s.params.flashProgram (Memory.read s.flash (byteTarget h i).toNat) (payloadByte data i) := hprogrammed
      _ = payloadByte data i := programByte_eq hcell _
  calc bufByte u (9 + i) = some (Memory.read s'.flash (byteTarget h i).toNat) := hbyte (himpl i hi) nofun
    _ = some (payloadByte data i) := by rw [hvalue]
    _ = data[i]? := by rw [payloadByte, List.getD_eq_getElem _ _ (hlen ▸ hi), List.getElem?_eq_getElem (hlen ▸ hi)]

end Sys2Proof.Proofs.FlashRoundTrip
end

section
/-! PROOFS. The loop of a mutating command (44_writes_and_control.md, preamble) as the list of what its elements do: the state before each of
them, the element that ends it, its two answers, and what a refused start leaves. -/

namespace Sys2Proof.Proofs.MutatingLoop

open Sys2Proof.Machine Sys2Proof.Safety Sys2Proof.Proofs.GuardAborts Sys2Proof.Proofs.UnlockKeys Sys2Proof.Proofs.FlashRoundTrip

/-! ## The state before each element -/

/-- The state before element `j` of a request whose element `i` does `act i`. -/
def stateBefore (act : Nat → State → State) (h : Header) (s : State) : Nat → State
  | 0 => loadKeys h s
  | j + 1 => act j (stateBefore act h s j)

/-- What the key load and every element keep holds before each element. -/
theorem stateBefore_keeps {act : Nat → State → State} {h : Header} {s : State} {P : State → Prop} (hload : P (loadKeys h s))
    (hact : ∀ i u, P u → P (act i u)) (j : Nat) : P (stateBefore act h s j) := by
  induction j with
  | zero => exact hload
  | succ j ih => exact hact j _ ih

/-- What every mutating command keeps from its dispatch start to its last element. -/
structure Underway (h : Header) (s u : State) : Prop where
  unanswered : Unanswered h s u
  control    : SameControl s u
  ports      : SamePorts s u

theorem underway_loadKeys (h : Header) (s : State) : Underway h s (loadKeys h s) where
  unanswered := unanswered_loadKeys h s
  control := ⟨rfl, rfl, rfl, id, rfl⟩
  ports := ⟨rfl, rfl, rfl, rfl, rfl, rfl, rfl, rfl⟩

/-! ## The keys -/

/-- Keys that are not the pair leave the unlock state machine unarmed (42_unlock_sequence.md R146, R147). -/
theorem honored_eq_false {pair : KeyPair} {h : Header} {u : State} (hother : ¬KeysMatch pair h) (hloaded : KeysLoaded h u) :
    honored pair u = false := by
  obtain ⟨hk1, hk2⟩ := hloaded
  by_cases hfirst : h.key1 = pair.first
  · have hsecond : h.key2 ≠ pair.second := fun hsecond => hother ⟨hfirst, hsecond⟩
    simp [honored, unlockSequence, unlockWrite, unlockStrobe, hk1, hk2, hfirst, hsecond]
  · by_cases hlate : h.key2 = pair.first <;>
      simp [honored, unlockSequence, unlockWrite, unlockStrobe, hk1, hk2, hfirst, hlate]

/-- Every operation of a request with matching keys is honored. -/
theorem Underway.honored {pair : KeyPair} {h : Header} {s u : State} (hu : Underway h s u) (hmatch : KeysMatch pair h) :
    Machine.honored pair u = true :=
  honored_of_keysMatch hmatch hu.unanswered.keys

theorem Underway.unhonored {pair : KeyPair} {h : Header} {s u : State} (hu : Underway h s u) (hother : ¬KeysMatch pair h) :
    Machine.honored pair u = false :=
  honored_eq_false hother hu.unanswered.keys

/-! ## The element that ends the loop -/

/-- Of `n` elements, `m` is the number before the first one that `guard` refuses. -/
def IsCut (guard : Nat → Bool) (n m : Nat) : Prop := m ≤ n ∧ (∀ i < m, guard i = true) ∧ (m = n ∨ guard m = false)

theorem exists_isCut (guard : Nat → Bool) (n : Nat) : ∃ m, IsCut guard n m := by
  have hex : ∃ m, m = n ∨ guard m = false := ⟨n, .inl rfl⟩
  refine ⟨Nat.find hex, Nat.find_min' hex (.inl rfl), fun i hi => ?_, Nat.find_spec hex⟩
  exact Bool.eq_true_of_not_eq_false fun hfalse => Nat.find_min hex hi (.inr hfalse)

theorem IsCut.not_lt {guard : Nat → Bool} {n m m' : Nat} (hm : IsCut guard n m) (hm' : IsCut guard n m') : ¬m < m' := by
  obtain ⟨-, -, hend⟩ := hm
  obtain ⟨hle, hpass, -⟩ := hm'
  intro hlt
  rcases hend with rfl | hfalse
  · omega
  · simp [hpass m hlt] at hfalse

theorem IsCut.unique {guard : Nat → Bool} {n m m' : Nat} (hm : IsCut guard n m) (hm' : IsCut guard n m') : m = m' :=
  Nat.le_antisymm (Nat.not_lt.mp (hm'.not_lt hm)) (Nat.not_lt.mp (hm.not_lt hm'))

/-- The state `t` a request of `n` elements ends in, `u` the state after the `m` elements before the first one refused. -/
def EndsAfter (n m : Nat) (u t : State) : Prop :=
  (m = n ∧ t = completeMutation u) ∨ (m < n ∧ t = abortOutOfRange u)

section
variable {n m : Nat} {u t : State} (hend : EndsAfter n m u t)
include hend

theorem EndsAfter.keeps {P : State → Prop} (hdone : P u → P (completeMutation u)) (habort : P u → P (abortOutOfRange u)) (hu : P u) :
    P t := by
  rcases hend with ⟨-, rfl⟩ | ⟨-, rfl⟩
  · exact hdone hu
  · exact habort hu

theorem EndsAfter.answers {h : Header} {s : State} (hbuf : BufOk s) (hu : Unanswered h s u) :
    (m = n → AnswersMutated s t) ∧ (m < n → AnswersOutOfRange h s t) := by
  rcases hend with ⟨rfl, rfl⟩ | ⟨hlt, rfl⟩
  · exact ⟨fun _ => completeMutation_answers hbuf hu, fun hlt => absurd hlt (lt_irrefl _)⟩
  · exact ⟨fun heq => absurd heq hlt.ne, fun _ => abortOutOfRange_answers hbuf hu⟩

end

/-- What every element keeps, and the end of the command too, the whole request keeps. -/
theorem EndsAfter.keepsAll {act : Nat → State → State} {h : Header} {s t : State} {n m : Nat} {P : State → Prop}
    (hend : EndsAfter n m (stateBefore act h s m) t) (hload : P (loadKeys h s)) (hact : ∀ i u, P u → P (act i u))
    (hdone : ∀ u, P u → P (completeMutation u)) (habort : ∀ u, P u → P (abortOutOfRange u)) : P t :=
  hend.keeps (hdone _) (habort _) (stateBefore_keeps hload hact m)

/-! ## A whole request -/

/-- The key load and the end of a command leave the memories, the ports and the counters as they were: what a command that ends at its
start does besides its answer. -/
theorem finish_loadKeys_frame (h : Header) (s : State) (st : Option Byte) (len : Nat) :
    SameControl s (finish st len (loadKeys h s)) ∧ SameMemory s (finish st len (loadKeys h s)) ∧
      SamePorts s (finish st len (loadKeys h s)) :=
  ⟨⟨rfl, rfl, rfl, id, rfl⟩, ⟨⟨fun _ => rfl, rfl⟩, ⟨fun _ => rfl, rfl⟩, fun _ => rfl, rfl⟩,
    rfl, rfl, rfl, rfl, rfl, rfl, rfl, rfl⟩

/-- A request that its start checks refuse (41_address_guard.md R127, R131). -/
theorem refusedStart_frame (h : Header) (s : State) :
    SameControl s (abortOutOfRange (loadKeys h s)) ∧ SameMemory s (abortOutOfRange (loadKeys h s)) ∧
      SamePorts s (abortOutOfRange (loadKeys h s)) :=
  finish_loadKeys_frame h s (some statusOutOfRange) 10

/-- Element `i` of the request is checked by `guard i`, stands at the cursor `target i`, and does `act i`. -/
def Performs (op : Loc → State → Ctl) (guard : Nat → Bool) (target : Nat → Addr) (act : Nat → State → State) (h : Header) (s : State) :
    Prop :=
  ∀ l, l.cur = target l.i →
    element op l (stateBefore act h s l.i) =
      if guard l.i then .go (nextLoc (target (l.i + 1)) l) (stateBefore act h s (l.i + 1)) else .abort (stateBefore act h s l.i)

/-- Before element `j` of a loop. -/
def BeforeElement (target : Nat → Addr) (act : Nat → State → State) (h : Header) (s : State) (j : Nat) (l : Loc) (u : State) : Prop :=
  l.cur = target j ∧ l.i = j ∧ u = stateBefore act h s j

section
variable {op : Loc → State → Ctl} {guard : Nat → Bool} {target : Nat → Addr} {act : Nat → State → State} {h : Header} {s : State}

theorem BeforeElement.next (hop : Performs op guard target act h s) {j : Nat} {l : Loc} {u : State} (hpass : guard j = true)
    (hat : BeforeElement target act h s j l u) : ∃ l' u', element op l u = .go l' u' ∧ BeforeElement target act h s (j + 1) l' u' := by
  obtain ⟨hcur, rfl, rfl⟩ := hat
  exact ⟨_, _, (hop l hcur).trans (if_pos hpass), rfl, rfl, rfl⟩

theorem BeforeElement.refused (hop : Performs op guard target act h s) {j : Nat} {l : Loc} {u : State} (hfalse : guard j = false)
    (hat : BeforeElement target act h s j l u) : ∃ u', element op l u = .abort u' ∧ u' = stateBefore act h s j := by
  obtain ⟨hcur, rfl, rfl⟩ := hat
  exact ⟨_, by rw [hop l hcur, hfalse]; rfl, rfl⟩

/-- A request that passed its start checks performs its elements up to the first one refused, and ends there. -/
theorem runCommand_endsAfter (hop : Performs op guard target act h s) {n m : Nat} (hcut : IsCut guard n m) (pair : Option KeyPair) :
    ∃ t, runCommand (startLoop h (target 0) n pair s) op finishMutation = .next t ∧ EndsAfter n m (stateBefore act h s m) t := by
  obtain ⟨hle, hpass, hstop⟩ := hcut
  have hstart : BeforeElement target act h s 0 (startLoc (target 0) n pair) (loadKeys h s) := ⟨rfl, rfl, rfl⟩
  have hnext := fun j l u (hj : j < m) => BeforeElement.next (l := l) (u := u) hop (hpass j hj)
  rw [runCommand_startLoop, continueLoop, startLoc, Nat.sub_zero]
  rcases hle.eq_or_lt with rfl | hlt
  · obtain ⟨l, u, hrun, -, -, rfl⟩ := runLoop_go hnext m 0 _ _ (Nat.zero_add m) hstart
    exact ⟨_, congrArg (endCommand · finishMutation) hrun, .inl ⟨rfl, rfl⟩⟩
  · obtain ⟨u, hrun, rfl⟩ := runLoop_abort hnext (fun l u => BeforeElement.refused (l := l) (u := u) hop (hstop.resolve_left hlt.ne))
      n 0 _ _ (Nat.zero_le m) (by omega) hstart
    exact ⟨_, congrArg (endCommand · finishMutation) hrun, .inr ⟨hlt, rfl⟩⟩

end

/-! ## Writes one after the other -/

/-- The memory `m` after byte `i` of `data` has been written at `target i`, for the bytes before byte `j`. -/
def writtenBefore (target : Nat → Nat) (data : List Byte) (m : Memory) : Nat → Memory
  | 0 => m
  | j + 1 => Memory.write (writtenBefore target data m j) (target j) (payloadByte data j)

theorem read_writtenBefore_other {target : Nat → Nat} (data : List Byte) (m : Memory) {a : Nat} {j : Nat}
    (hother : ∀ i < j, target i ≠ a) : Memory.read (writtenBefore target data m j) a = Memory.read m a := by
  induction j with
  | zero => rfl
  | succ j ih =>
    rw [writtenBefore, read_write_other _ _ (hother j (Nat.lt_succ_self j))]
    exact ih fun i hi => hother i (Nat.lt_succ_of_lt hi)

/-- A byte that no later one overwrites is what was written last at its address. -/
theorem read_writtenBefore_last {target : Nat → Nat} (data : List Byte) (m : Memory) {i j : Nat} (hi : i < j)
    (hlast : ∀ k < j, i < k → target k ≠ target i) :
    Memory.read (writtenBefore target data m j) (target i) = payloadByte data i := by
  induction j with
  | zero => omega
  | succ j ih =>
    rw [writtenBefore]
    rcases Nat.lt_succ_iff_lt_or_eq.mp hi with hlt | rfl
    · rw [read_write_other _ _ (hlast j (Nat.lt_succ_self j) hlt)]
      exact ih hlt fun k hk => hlast k (Nat.lt_succ_of_lt hk)
    · exact read_write_same _ _ _

end Sys2Proof.Proofs.MutatingLoop
end

section
/-! PROOFS. Erase Flash (44_writes_and_control.md R206, R207). -/

namespace Sys2Proof.Proofs.EraseFlash

open Sys2Proof.Machine Sys2Proof.Safety Sys2Proof.Proofs.GuardBounds Sys2Proof.Proofs.GuardAborts Sys2Proof.Proofs.FlashRoundTrip
  Sys2Proof.Proofs.MutatingLoop

/-- Row `i` of an Erase Flash (R206). -/
def eraseElement (p : Params) (h : Header) (i : Nat) (u : State) : State := eraseRow (eraseTarget p h i) p.nvmKey u

theorem underway_eraseElement {p : Params} {h : Header} {s : State} (i : Nat) (u : State) (hu : Underway h s u) :
    Underway h s (eraseElement p h i u) := by
  obtain ⟨hunanswered, ⟨hparams, hcount, hexpected, -, hrequest⟩, hports⟩ := hu
  exact ⟨{ hunanswered with }, ⟨hparams, hcount, hexpected, fun _ => eraseRow_ustate _ _ _, hrequest⟩, hports⟩

theorem underway_before (h : Header) (s : State) (j : Nat) : Underway h s (stateBefore (eraseElement s.params h) h s j) :=
  stateBefore_keeps (underway_loadKeys h s) underway_eraseElement j

/-! ## The rows -/

/-- The first row is the one that holds the address (R207). -/
theorem eraseRowOf_eq_eraseTarget {p : Params} (he : isPowerOfTwo p.e) (h : Header) : eraseRowOf p h.addr = eraseTarget p h 0 := by
  apply BitVec.eq_of_toNat_eq
  have hlt := h.addr.isLt
  rw [eraseRowOf_toNat he, eraseTarget, Nat.zero_mul, Nat.add_zero, toNat_ofNat_of_lt (by omega)]

theorem nextRow_eraseTarget (p : Params) (h : Header) (i : Nat) : nextRow p (eraseTarget p h i) = eraseTarget p h (i + 1) := by
  rw [nextRow, eraseTarget, eraseTarget, ← BitVec.ofNat_add, Nat.add_one_mul, Nat.add_assoc]

theorem eraseFlashOp_performs (h : Header) (s : State) :
    Performs (eraseFlashOp s.params.nvmKey) (fun i => inFlash s.params (eraseTarget s.params h i)) (eraseTarget s.params h)
      (eraseElement s.params h) h s := by
  intro l hcur
  obtain ⟨⟨hparams, -⟩, -⟩ := underway_before h s l.i
  rw [element_eraseFlashOp, hparams, hcur, nextRow_eraseTarget]
  rfl

/-! ## The flash -/

/-- The address `a` lies in one of the first `j` rows. -/
def InErasedRow (p : Params) (h : Header) (j a : Nat) : Prop :=
  ∃ i < j, (eraseTarget p h i).toNat ≤ a ∧ a < (eraseTarget p h i).toNat + p.e

theorem inErasedRow_succ {p : Params} {h : Header} {j a : Nat} :
    InErasedRow p h (j + 1) a ↔
      InErasedRow p h j a ∨ ((eraseTarget p h j).toNat ≤ a ∧ a < (eraseTarget p h j).toNat + p.e) :=
  Nat.exists_lt_succ_right

section
variable {h : Header} {s : State}

/-- With matching keys the rows so far are erased, and nothing else (20_memory.md R61). -/
theorem read_flash_of_keysMatch (hmatch : KeysMatch s.params.nvmKey h) (j a : Nat) :
    (InErasedRow s.params h j a → Memory.read (stateBefore (eraseElement s.params h) h s j).flash a = 0xFF) ∧
      (¬InErasedRow s.params h j a →
        Memory.read (stateBefore (eraseElement s.params h) h s j).flash a = Memory.read s.flash a) := by
  induction j with
  | zero => exact ⟨fun ⟨_, hlt, _⟩ => absurd hlt (Nat.not_lt_zero _), fun _ => rfl⟩
  | succ j ih =>
    obtain ⟨⟨hparams, -⟩, -⟩ := underway_before h s j
    rw [stateBefore, eraseElement, eraseRow_flash, if_pos ((underway_before h s j).honored hmatch), read_eraseRange, hparams,
      inErasedRow_succ]
    split
    case isTrue hin => exact ⟨fun _ => rfl, fun hout => absurd (.inr hin) hout⟩
    case isFalse hout => simpa only [hout, or_false] using ih

/-- With other keys no byte is erased. -/
theorem flash_of_not_keysMatch (hother : ¬KeysMatch s.params.nvmKey h) (j : Nat) :
    (stateBefore (eraseElement s.params h) h s j).flash = s.flash := by
  induction j with
  | zero => rfl
  | succ j ih =>
    rw [stateBefore, eraseElement, eraseRow_flash, (underway_before h s j).unhonored hother]
    exact ih

end

/-! ## The request -/

theorem exec_eraseFlash_of_below {h : Header} {s : State} (hbelow : ¬aboveFloor s.params (eraseRowOf s.params h.addr) = true) :
    exec (.eraseFlash h) s = .next (abortOutOfRange (loadKeys h s)) := by
  rw [exec, execEraseFlash, startEraseFlash, if_neg hbelow, runCommand_startAbort]

theorem exec_eraseFlash_of_above {h : Header} {s : State} (he : isPowerOfTwo s.params.e)
    (habove : aboveFloor s.params (eraseRowOf s.params h.addr) = true) {m : Nat}
    (hcut : IsCut (fun i => inFlash s.params (eraseTarget s.params h i)) h.dlen.toNat m) :
    ∃ t, exec (.eraseFlash h) s = .next t ∧ EndsAfter h.dlen.toNat m (stateBefore (eraseElement s.params h) h s m) t := by
  rw [exec, execEraseFlash, startEraseFlash, if_pos habove, eraseRowOf_eq_eraseTarget he]
  exact runCommand_endsAfter (eraseFlashOp_performs h s) hcut _

/-- Settles O44: the request ends at its start check, or after the rows before the first one out of range. -/
theorem eraseFlashErasesRows : Obligations.EraseFlashErasesRows := by
  intro h s hbuf hwf
  obtain ⟨-, -, he, -⟩ := hwf
  have hfloor : aboveFloor s.params (eraseRowOf s.params h.addr) = true ↔ s.params.floor ≤ h.addr.toNat - h.addr.toNat % s.params.e := by
    rw [aboveFloor, eraseRowOf_toNat he, decide_eq_true_iff]
  by_cases habove : aboveFloor s.params (eraseRowOf s.params h.addr) = true
  case neg =>
    obtain ⟨hcontrol, ⟨⟨hflash, hrow⟩, hee, hcfg⟩, hports⟩ := refusedStart_frame h s
    exact ⟨_, exec_eraseFlash_of_below habove, hcontrol, hee, hcfg, hports, hrow,
      fun _ => ⟨abortOutOfRange_answers hbuf (unanswered_loadKeys h s), hflash⟩, fun hle => absurd (hfloor.mpr hle) habove,
      fun _ => hflash⟩
  case pos =>
    obtain ⟨m, hcut⟩ := exists_isCut (fun i => inFlash s.params (eraseTarget s.params h i)) h.dlen.toNat
    obtain ⟨t, hexec, hend⟩ := exec_eraseFlash_of_above he habove hcut
    have hunderway := underway_before h s m
    have hflash : t.flash = (stateBefore (eraseElement s.params h) h s m).flash := hend.keeps (P := (·.flash = _)) id id rfl
    refine ⟨t, hexec, hend.keeps (P := SameControl s) id id hunderway.control,
      hend.keepsAll (P := SameEE s) ⟨fun _ => rfl, rfl⟩ (fun _ _ => id) (fun _ => id) (fun _ => id),
      hend.keepsAll (P := SameCfg s) ⟨fun _ => rfl, rfl⟩ (fun _ _ => id) (fun _ => id) (fun _ => id),
      hend.keeps (P := SamePorts s) id id hunderway.ports,
      hend.keepsAll (P := (·.rowBuf = s.rowBuf)) rfl (fun _ _ => id) (fun _ => id) (fun _ => id),
      fun hbelow => absurd (hfloor.mp habove) (Nat.not_le.mpr hbelow), fun _ m' hle hpass hstop => ?answers, fun hother a => ?others⟩
    case answers =>
      obtain rfl : m = m' := hcut.unique ⟨hle, hpass, hstop⟩
      obtain ⟨hdone, habort⟩ := hend.answers hbuf hunderway.unanswered
      refine ⟨hdone, habort, fun hmatch a => ?_⟩
      rw [hflash]
      obtain ⟨hin, hout⟩ := read_flash_of_keysMatch hmatch m a
      exact ⟨hin, fun hnone => hout fun ⟨i, hi, hmem⟩ => hnone i hi hmem⟩
    case others =>
      change Memory.read t.flash a = Memory.read s.flash a
      rw [hflash, flash_of_not_keysMatch hother]

end Sys2Proof.Proofs.EraseFlash
end

section
/-! PROOFS. Write EE Data (44_writes_and_control.md R211 to R213; 20_memory.md R62). -/

namespace Sys2Proof.Proofs.WriteEEData

open Sys2Proof.Machine Sys2Proof.Safety Sys2Proof.Proofs.GuardAborts Sys2Proof.Proofs.UnlockKeys Sys2Proof.Proofs.PayloadReads
  Sys2Proof.Proofs.MutatingLoop

/-- Byte `i` of a Write EE Data, with an EEPROM that leaves busy: the wait, and the write (R211, R213). -/
def eeElement (p : Params) (h : Header) (data : List Byte) (i : Nat) (u : State) : State :=
  eeWrite (eeTarget p h i) (payloadByte data i) p.nvmKey (completeEE u)

theorem underway_eeElement {p : Params} {h : Header} {data : List Byte} {s : State} (i : Nat) (u : State) (hu : Underway h s u) :
    Underway h s (eeElement p h data i u) := by
  obtain ⟨hunanswered, ⟨hparams, hcount, hexpected, -, hrequest⟩, hports⟩ := hu
  exact ⟨{ hunanswered with }, ⟨hparams, hcount, hexpected, fun _ => eeWrite_ustate _ _ _ _, hrequest⟩, hports⟩

theorem underway_before (h : Header) (data : List Byte) (s : State) (j : Nat) :
    Underway h s (stateBefore (eeElement s.params h data) h s j) :=
  stateBefore_keeps (underway_loadKeys h s) underway_eeElement j

/-! ## The cursor -/

theorem eeCursor_eeAddr (p : Params) (h : Header) : eeCursor (eeAddr h) = eeCursor (eeTarget p h 0) := by
  rw [eeTarget, BitVec.zero_mul, BitVec.add_zero]

theorem nextEEWrite_eeTarget (p : Params) (h : Header) (i : Nat) :
    nextEEWrite p (eeCursor (eeTarget p h i)) = eeCursor (eeTarget p h (i + 1)) := by
  rw [nextEEWrite, eeOfCursor_eeCursor, eeTarget, eeTarget, BitVec.ofNat_add, BitVec.add_mul, BitVec.one_mul, BitVec.add_assoc]

theorem writeEEOp_performs {h : Header} {data : List Byte} {s : State} (hready : s.eeStuck = false) :
    Performs (writeEEOp s.params.nvmKey data) (fun _ => true) (fun i => eeCursor (eeTarget s.params h i))
      (eeElement s.params h data) h s := by
  intro l hcur
  obtain ⟨⟨hparams, -⟩, -, -, -, -, hstuck, -⟩ := underway_before h data s l.i
  have hgoes : ¬((stateBefore (eeElement s.params h data) h s l.i).eeBusy.isSome = true ∧
      (stateBefore (eeElement s.params h data) h s l.i).eeStuck = true) := by
    rw [hstuck, hready]
    exact fun hheld => absurd hheld.2 (by decide)
  rw [element_writeEEOp, if_neg hgoes, hparams, hcur, nextEEWrite_eeTarget, eeOfCursor_eeCursor]
  rfl

/-! ## The EEPROM -/

/-- An honored write, once complete, is one byte more in the EEPROM the wait has left (R62). -/
theorem eeAfterBusy_eeElement_of_honored {p : Params} {u : State} (hhonored : honored p.nvmKey u = true) (h : Header) (data : List Byte)
    (i : Nat) :
    eeAfterBusy (eeElement p h data i u) = Memory.write (eeAfterBusy u) (eeTarget p h i).toNat (payloadByte data i) := by
  obtain ⟨hee, hbusy⟩ := eeWrite_honored (s := completeEE u) (a := eeTarget p h i) (v := payloadByte data i) hhonored
  simp only [eeElement, eeAfterBusy, eeWriting, hee, hbusy, Option.bind_some, completeEE_ee]

theorem eeAfterBusy_eeElement_of_unhonored {p : Params} {u : State} (hunhonored : honored p.nvmKey u = false) (h : Header)
    (data : List Byte) (i : Nat) : eeAfterBusy (eeElement p h data i u) = eeAfterBusy u := by
  obtain ⟨hee, hbusy⟩ := eeWrite_unhonored (s := completeEE u) (a := eeTarget p h i) (v := payloadByte data i) hunhonored
  rw [← eeAfterBusy_completeEE u]
  simp only [eeElement, eeAfterBusy, eeWriting, hee, hbusy]

section
variable {h : Header} {data : List Byte} {s : State}

/-- With matching keys every byte so far is written, once the last one is complete. -/
theorem eeAfterBusy_of_keysMatch (hmatch : KeysMatch s.params.nvmKey h) (j : Nat) :
    eeAfterBusy (stateBefore (eeElement s.params h data) h s j) =
      writtenBefore (fun i => (eeTarget s.params h i).toNat) data (eeAfterBusy s) j := by
  induction j with
  | zero => rfl
  | succ j ih =>
    rw [stateBefore, eeAfterBusy_eeElement_of_honored ((underway_before h data s j).honored hmatch), ih, writtenBefore]

/-- With other keys a write in progress completes, and that is all. -/
theorem eeAfterBusy_of_not_keysMatch (hother : ¬KeysMatch s.params.nvmKey h) (j : Nat) :
    eeAfterBusy (stateBefore (eeElement s.params h data) h s j) = eeAfterBusy s := by
  induction j with
  | zero => rfl
  | succ j ih => rw [stateBefore, eeAfterBusy_eeElement_of_unhonored ((underway_before h data s j).unhonored hother), ih]

/-- The last of the bytes so far is in progress, and the ones before it are durable. -/
theorem ee_and_eeBusy_of_keysMatch (hmatch : KeysMatch s.params.nvmKey h) (n : Nat) :
    (stateBefore (eeElement s.params h data) h s (n + 1)).ee =
        writtenBefore (fun i => (eeTarget s.params h i).toNat) data (eeAfterBusy s) n ∧
      ∃ left, (stateBefore (eeElement s.params h data) h s (n + 1)).eeBusy =
        some ⟨some ⟨eeTarget s.params h n, payloadByte data n⟩, left⟩ := by
  obtain ⟨hee, hbusy⟩ := eeWrite_honored (s := completeEE (stateBefore (eeElement s.params h data) h s n))
    (a := eeTarget s.params h n) (v := payloadByte data n) ((underway_before h data s n).honored hmatch)
  exact ⟨hee.trans (eeAfterBusy_of_keysMatch hmatch n), _, hbusy⟩

end

/-- The end of the command touches no memory. -/
theorem eeAfterBusy_completeMutation (u : State) : eeAfterBusy (completeMutation u) = eeAfterBusy u := rfl

/-! ## The request -/

theorem exec_writeEEData_of_fits {h : Header} {data : List Byte} {s : State} (hready : s.eeStuck = false)
    (hfits : h.dlen.toNat ≤ s.params.w) (hdata : data.length = min h.dlen.toNat s.params.w) :
    exec (.writeEEData h data) s = .next (completeMutation (stateBefore (eeElement s.params h data) h s h.dlen.toNat)) := by
  have hcap := not_overCapacity hfits
  obtain ⟨t, hrun, hend⟩ := runCommand_endsAfter (writeEEOp_performs (h := h) (data := data) hready)
    (n := h.dlen.toNat) (m := h.dlen.toNat) ⟨le_rfl, fun _ _ => rfl, .inl rfl⟩ (some s.params.nvmKey)
  obtain ⟨-, rfl⟩ := hend.resolve_right fun ⟨hlt, _⟩ => lt_irrefl _ hlt
  rw [exec, execWriteEEData, startWriteEEData, if_neg hcap, if_neg (not_short_of_fits hdata hcap), eeCursor_eeAddr s.params]
  exact hrun

/-- Settles O45: the request ends at its capacity check, or after all its bytes. -/
theorem writeEEDataWrites : Obligations.WriteEEDataWrites := by
  intro h data s hbuf hready hdata
  rcases Nat.lt_or_ge s.params.w h.dlen.toNat with hover | hfits
  case inl =>
    obtain ⟨hcontrol, ⟨hflash, hee, hcfg⟩, hports⟩ := refusedStart_frame h s
    exact ⟨_, exec_of_overCapacity rfl hover, hcontrol, hflash, hcfg, hports,
      fun _ => ⟨abortOutOfRange_answers hbuf (unanswered_loadKeys h s), hee⟩, fun hle => absurd hle (Nat.not_le.mpr hover)⟩
  case inr =>
    have hunderway := underway_before h data s h.dlen.toNat
    have hflash := stateBefore_keeps (P := SameFlash s) (act := eeElement s.params h data) (h := h)
      ⟨fun _ => rfl, rfl⟩ (fun _ _ => id) h.dlen.toNat
    have hcfg := stateBefore_keeps (P := SameCfg s) (act := eeElement s.params h data) (h := h)
      ⟨fun _ => rfl, rfl⟩ (fun _ _ => id) h.dlen.toNat
    refine ⟨_, exec_writeEEData_of_fits hready hfits hdata, hunderway.control, hflash, hcfg, hunderway.ports,
      fun hover => absurd hover (Nat.not_lt.mpr hfits), fun _ => ⟨completeMutation_answers hbuf hunderway.unanswered, fun hzero => ?empty,
        fun hmatch => ⟨fun i hi hlast => ?written, fun i hi hlast => ?durable, fun a hnone => ?rest, fun n hn => ?inProgress⟩,
        fun hother a => ?unhonored⟩⟩
    case empty =>
      rw [hzero]
      exact ⟨fun _ => rfl, rfl⟩
    case written =>
      rw [eeAfterBusy_completeMutation, eeAfterBusy_of_keysMatch hmatch]
      exact read_writtenBefore_last (target := fun i => (eeTarget s.params h i).toNat) data _ hi
        fun k hk hik => BitVec.toNat_ne.mp (hlast k hk hik)
    case durable =>
      obtain ⟨n, hn⟩ := Nat.exists_eq_add_one_of_ne_zero (Nat.ne_zero_of_lt hi)
      obtain ⟨hee, -⟩ := ee_and_eeBusy_of_keysMatch (data := data) hmatch n
      rw [hn]
      refine (congrArg (Memory.read · _) hee).trans ?_
      exact read_writtenBefore_last (target := fun i => (eeTarget s.params h i).toNat) data _ (by omega)
        fun k hk hik => BitVec.toNat_ne.mp (hlast k (by omega) hik)
    case rest =>
      rw [eeAfterBusy_completeMutation, eeAfterBusy_of_keysMatch hmatch]
      exact read_writtenBefore_other data _ hnone
    case inProgress =>
      obtain ⟨-, hbusy⟩ := ee_and_eeBusy_of_keysMatch (data := data) hmatch n
      rw [hn]
      exact hbusy
    case unhonored => rw [eeAfterBusy_completeMutation, eeAfterBusy_of_not_keysMatch hother]

end Sys2Proof.Proofs.WriteEEData
end

section
/-! PROOFS. Write Config (44_writes_and_control.md R216, R217; 20_memory.md R63). -/

namespace Sys2Proof.Proofs.WriteConfig

open Sys2Proof.Machine Sys2Proof.Safety Sys2Proof.Proofs.GuardAborts Sys2Proof.Proofs.PayloadReads Sys2Proof.Proofs.FlashRoundTrip
  Sys2Proof.Proofs.MutatingLoop

/-- Byte `i` of a Write Config: recorded, and committed under the pair of the start address (R216, R217). -/
def configElement (p : Params) (h : Header) (data : List Byte) (i : Nat) (u : State) : State :=
  commitCfg (byteTarget h i) (configPair p h.addr) (cfgWrite (byteTarget h i) (payloadByte data i) u)

theorem underway_configElement {p : Params} {h : Header} {data : List Byte} {s : State} (i : Nat) (u : State) (hu : Underway h s u) :
    Underway h s (configElement p h data i u) := by
  obtain ⟨hunanswered, ⟨hparams, hcount, hexpected, -, hrequest⟩, hports⟩ := hu
  exact ⟨{ hunanswered with }, ⟨hparams, hcount, hexpected, fun _ => commitCfg_ustate _ _ _, hrequest⟩, hports⟩

theorem underway_before (h : Header) (data : List Byte) (s : State) (j : Nat) :
    Underway h s (stateBefore (configElement s.params h data) h s j) :=
  stateBefore_keeps (underway_loadKeys h s) underway_configElement j

theorem writeConfigOp_performs (h : Header) (data : List Byte) (s : State) :
    Performs (writeConfigOp (configPair s.params h.addr) data) (fun i => inCfg s.params (byteTarget h i)) (byteTarget h)
      (configElement s.params h data) h s := by
  intro l hcur
  obtain ⟨⟨hparams, -⟩, -⟩ := underway_before h data s l.i
  have hnext : nextAddr (byteTarget h l.i) = byteTarget h (l.i + 1) := nextAddr_add_ofNat h.addr l.i
  rw [element_writeConfigOp, hparams, hcur, hnext]
  rfl

/-! ## The config words -/

section
variable {h : Header} {data : List Byte} {s : State}

/-- With matching keys every byte so far is written. -/
theorem cfg_of_keysMatch (hmatch : KeysMatch (configPair s.params h.addr) h) (j : Nat) :
    (stateBefore (configElement s.params h data) h s j).cfg =
      writtenBefore (fun i => (byteTarget h i).toNat) data s.cfg j := by
  induction j with
  | zero => rfl
  | succ j ih =>
    obtain ⟨hcfg, -⟩ := commitCfg_cfgWrite_honored (a := byteTarget h j) (v := payloadByte data j)
      ((underway_before h data s j).honored hmatch)
    rw [stateBefore, configElement, hcfg, ih, writtenBefore]

/-- With other keys no byte is written. -/
theorem cfg_of_not_keysMatch (hother : ¬KeysMatch (configPair s.params h.addr) h) (j : Nat) :
    (stateBefore (configElement s.params h data) h s j).cfg = s.cfg := by
  induction j with
  | zero => rfl
  | succ j ih =>
    obtain ⟨hcfg, -⟩ := commitCfg_cfgWrite_unhonored (a := byteTarget h j) (v := payloadByte data j)
      ((underway_before h data s j).unhonored hother)
    rw [stateBefore, configElement, hcfg, ih]

/-- One byte recorded and committed, under whatever keys, leaves what is recorded for every other address. -/
theorem cellsFind_configElement {p : Params} {i : Nat} {u : State} {a : Nat} (hne : (byteTarget h i).toNat ≠ a) :
    cellsFind (configElement p h data i u).cfgRec a = cellsFind u.cfgRec a := by
  rw [configElement]
  cases hhonored : honored (configPair p h.addr) u with
  | true => rw [(commitCfg_cfgWrite_honored hhonored).2, cellsFind_outside, if_neg (by omega), cellsFind_insert, if_neg hne]
  | false => rw [(commitCfg_cfgWrite_unhonored hhonored).2, cellsFind_insert, if_neg hne]

theorem cellsFind_cfgRec_of_ne {a j : Nat} (hne : ∀ i < j, (byteTarget h i).toNat ≠ a) :
    cellsFind (stateBefore (configElement s.params h data) h s j).cfgRec a = cellsFind s.cfgRec a := by
  induction j with
  | zero => rfl
  | succ j ih =>
    rw [stateBefore, cellsFind_configElement (hne j (Nat.lt_succ_self j))]
    exact ih fun i hi => hne i (Nat.lt_succ_of_lt hi)

end

/-! ## The request -/

theorem exec_writeConfig_refused {h : Header} {data : List Byte} {s : State} (hdata : data.length = min h.dlen.toNat s.params.w)
    (hrefused : ¬(h.dlen.toNat ≤ s.params.w ∧ aboveFloor s.params h.addr = true)) :
    exec (.writeConfig h data) s = .next (abortOutOfRange (loadKeys h s)) := by
  by_cases hfits : h.dlen.toNat ≤ s.params.w
  · have hcap := not_overCapacity hfits
    have hbelow := fun habove => hrefused ⟨hfits, habove⟩
    rw [exec, execWriteConfig, startWriteConfig, if_neg hcap, if_neg (not_short_of_fits hdata hcap), if_neg hbelow, runCommand_startAbort]
  · exact exec_of_overCapacity rfl (Nat.lt_of_not_le hfits)

theorem exec_writeConfig_of_above {h : Header} {data : List Byte} {s : State} (hdata : data.length = min h.dlen.toNat s.params.w)
    (hfits : h.dlen.toNat ≤ s.params.w) (habove : aboveFloor s.params h.addr = true) {m : Nat}
    (hcut : IsCut (fun i => inCfg s.params (byteTarget h i)) h.dlen.toNat m) :
    ∃ t, exec (.writeConfig h data) s = .next t ∧
      EndsAfter h.dlen.toNat m (stateBefore (configElement s.params h data) h s m) t := by
  have hcap := not_overCapacity hfits
  have hstart : h.addr = byteTarget h 0 := (BitVec.add_zero _).symm
  obtain ⟨t, hrun, hend⟩ := runCommand_endsAfter (writeConfigOp_performs h data s) hcut (some (configPair s.params h.addr))
  rw [← hstart] at hrun
  rw [exec, execWriteConfig, startWriteConfig, if_neg hcap, if_neg (not_short_of_fits hdata hcap), if_pos habove]
  exact ⟨t, hrun, hend⟩

/-- Settles O49: the request ends at a start check, or after the bytes before the first one out of range. -/
theorem writeConfigWrites : Obligations.WriteConfigWrites := by
  intro h data s hbuf _ hdata
  by_cases hpass : h.dlen.toNat ≤ s.params.w ∧ aboveFloor s.params h.addr = true
  case neg =>
    obtain ⟨hcontrol, ⟨hflash, hee, hcfg, hrec⟩, hports⟩ := refusedStart_frame h s
    exact ⟨_, exec_writeConfig_refused hdata hpass, hcontrol, hflash, hee, hports, fun _ _ => rfl,
      fun _ => ⟨abortOutOfRange_answers hbuf (unanswered_loadKeys h s), hcfg, hrec⟩,
      fun hfits hfloor => absurd ⟨hfits, decide_eq_true hfloor⟩ hpass, fun _ => hcfg⟩
  case pos =>
    obtain ⟨hfits, habove⟩ := hpass
    have hfloor : s.params.floor ≤ h.addr.toNat := of_decide_eq_true habove
    obtain ⟨m, hcut⟩ := exists_isCut (fun i => inCfg s.params (byteTarget h i)) h.dlen.toNat
    obtain ⟨t, hexec, hend⟩ := exec_writeConfig_of_above hdata hfits habove hcut
    have hunderway := underway_before h data s m
    have hcfg : t.cfg = (stateBefore (configElement s.params h data) h s m).cfg := hend.keeps (P := (·.cfg = _)) id id rfl
    have hrec : t.cfgRec = (stateBefore (configElement s.params h data) h s m).cfgRec := hend.keeps (P := (·.cfgRec = _)) id id rfl
    refine ⟨t, hexec, hend.keeps (P := SameControl s) id id hunderway.control,
      hend.keepsAll (P := SameFlash s) ⟨fun _ => rfl, rfl⟩ (fun _ _ => id) (fun _ => id) (fun _ => id),
      hend.keepsAll (P := SameEE s) ⟨fun _ => rfl, rfl⟩ (fun _ _ => id) (fun _ => id) (fun _ => id),
      hend.keeps (P := SamePorts s) id id hunderway.ports, fun a hne => ?recorded, fun hrefused => ?refused,
      fun _ _ m' hle hin hstop => ?answers, fun hother a => ?unhonored⟩
    case recorded =>
      obtain ⟨hcount, -⟩ := hcut
      rw [hrec]
      exact cellsFind_cfgRec_of_ne fun i hi => hne i (hi.trans_le hcount)
    case refused => omega
    case answers =>
      obtain rfl : m = m' := hcut.unique ⟨hle, hin, hstop⟩
      obtain ⟨hdone, habort⟩ := hend.answers hbuf hunderway.unanswered
      refine ⟨hdone, habort, fun hmatch => ?_⟩
      rw [hcfg, cfg_of_keysMatch hmatch]
      refine ⟨fun i hi => ?_, fun a hnone => read_writtenBefore_other data _ hnone⟩
      exact read_writtenBefore_last (target := fun i => (byteTarget h i).toNat) data _ hi
        fun k hk hik => byteTarget_ne (hk.trans_le hle) (hi.trans_le hle) hik.ne'
    case unhonored =>
      change Memory.read t.cfg a = Memory.read s.cfg a
      rw [hcfg, cfg_of_not_keysMatch hother]

end Sys2Proof.Proofs.WriteConfig
end

section
/-! PROOFS. The two commands that end at their dispatch start: Reset Device and the default arm (44_writes_and_control.md R224 to R228). -/

namespace Sys2Proof.Proofs.Control

open Sys2Proof.Machine Sys2Proof.Safety Sys2Proof.Proofs.MutatingLoop

/-- The end of a command with a status byte writes that byte and no other (30_encoding.md R84). -/
theorem finish_status {s u : State} (hbuf : BufOk s) (hsame : u.buf = s.buf) (v : Byte) (len : Nat) :
    bufByte (finish (some v) len u) 9 = some v ∧ SameBufBut (· = 9) s (finish (some v) len u) := by
  obtain ⟨hlength, hw⟩ := hbuf
  refine ⟨?_, fun j hj => ?_⟩
  · rw [bufByte_finish_some, if_pos ⟨rfl, by rw [hsame]; omega⟩]
  · rw [bufByte_finish_some, if_neg fun hstatus => hj hstatus.1.symm, bufByte_congr hsame]

/-- Settles O50: the keys are loaded, the reset is marked as pending, and the command ends. -/
theorem resetDeviceAnswers : Obligations.ResetDeviceAnswers := by
  intro h s hbuf
  obtain ⟨hstatus, hsame⟩ := finish_status hbuf (u := setResetPending (loadKeys h s)) rfl statusSuccess 10
  have hframe := finish_loadKeys_frame h s (some statusSuccess) 10
  exact ⟨resetDeviceEnd h s, rfl, ⟨rfl, rfl, rfl, rfl⟩, hstatus, rfl, hsame, ⟨rfl, rfl⟩, hframe⟩

/-- Settles O51: the keys are loaded, and the command ends. -/
theorem invalidCommandAnswers : Obligations.InvalidCommandAnswers := by
  intro code h s hbuf
  obtain ⟨hstatus, hsame⟩ := finish_status hbuf (u := loadKeys h s) rfl statusInvalid 10
  have hframe := finish_loadKeys_frame h s (some statusInvalid) 10
  exact ⟨invalidEnd code h s, rfl, ⟨rfl, rfl, rfl, rfl⟩, hstatus, rfl, hsame, ⟨rfl, rfl⟩, hframe⟩

end Sys2Proof.Proofs.Control
end

section
/-! PROOFS. Decoding and encoding are inverse to each other (30_encoding.md R75 to R88). -/

namespace Sys2Proof.Proofs.Encoding

open Sys2Proof.Proofs.RequestLength

/-- Settles O2: the round trip of each command, which `Laws.RoundTrip` states one by one. -/
theorem decodeOfEncode : Obligations.DecodeOfEncode := by
  intro cap i rest hwf
  cases i with
  | readVersion h => exact Laws.RoundTrip.readVersion h cap rest hwf
  | readFlash h => exact Laws.RoundTrip.readFlash h cap rest hwf
  | writeFlash h data => exact Laws.RoundTrip.writeFlash h data cap rest hwf
  | eraseFlash h => exact Laws.RoundTrip.eraseFlash h cap rest hwf
  | readEEData h => exact Laws.RoundTrip.readEEData h cap rest hwf
  | writeEEData h data => exact Laws.RoundTrip.writeEEData h data cap rest hwf
  | readConfig h => exact Laws.RoundTrip.readConfig h cap rest hwf
  | writeConfig h data => exact Laws.RoundTrip.writeConfig h data cap rest hwf
  | calcChecksum h => exact Laws.RoundTrip.calcChecksum h cap rest hwf
  | resetDevice h => exact Laws.RoundTrip.resetDevice h cap rest hwf
  | invalid code h => exact Laws.RoundTrip.invalid code h cap rest hwf

/-! ## The frame the decoder reads -/

/-- The header the decoder assembles from bytes 1 to 8 (R75, R78). -/
def headerOf (l0 l1 k1 k2 a0 a1 a2 r : Byte) : Header := ⟨assemble16 l0 l1, k1, k2, assemble24 a0 a1 a2, r⟩

/-- How many payload bytes a request with this command byte has in a buffer of `cap` (R76; 40_frame_codec.md R103). -/
def payloadCount (cap : Nat) (code : Byte) (h : Header) : Nat := if isWriteClass code then min h.dlen.toNat cap else 0

theorem decode_frame (cap : Nat) (c l0 l1 k1 k2 a0 a1 a2 r : Byte) (tail : List Byte) :
    decode cap (c :: l0 :: l1 :: k1 :: k2 :: a0 :: a1 :: a2 :: r :: tail) =
      if tail.length < payloadCount cap c (headerOf l0 l1 k1 k2 a0 a1 a2 r) then .error .shortPayload
      else .ok (selectInstr c (headerOf l0 l1 k1 k2 a0 a1 a2 r)
          (tail.take (payloadCount cap c (headerOf l0 l1 k1 k2 a0 a1 a2 r))),
        tail.drop (payloadCount cap c (headerOf l0 l1 k1 k2 a0 a1 a2 r))) := rfl

/-- What the decoder accepts has nine header bytes and the payload they ask for. -/
theorem decode_eq_ok {cap : Nat} {bytes rest : List Byte} {i : Instr} (h : decode cap bytes = .ok (i, rest)) :
    ∃ c l0 l1 k1 k2 a0 a1 a2 r data,
      bytes = c :: l0 :: l1 :: k1 :: k2 :: a0 :: a1 :: a2 :: r :: (data ++ rest) ∧
      data.length = payloadCount cap c (headerOf l0 l1 k1 k2 a0 a1 a2 r) ∧
      i = selectInstr c (headerOf l0 l1 k1 k2 a0 a1 a2 r) data := by
  match bytes with
  | c :: l0 :: l1 :: k1 :: k2 :: a0 :: a1 :: a2 :: r :: tail =>
    rw [decode_frame] at h
    split at h
    case isTrue => cases h
    case isFalse hlen =>
      cases h
      exact ⟨c, l0, l1, k1, k2, a0, a1, a2, r, _, by rw [List.take_append_drop], List.length_take_of_le (Nat.le_of_not_lt hlen), rfl⟩
  | [] | [_] | [_, _] | [_, _, _] | [_, _, _, _] | [_, _, _, _, _] | [_, _, _, _, _, _] | [_, _, _, _, _, _, _]
  | [_, _, _, _, _, _, _, _] => cases h

/-- The request a command byte selects has that byte, that header and, if it is of the write class, that payload (R79 to R82). -/
theorem selectInstr_parts {c : Byte} {data : List Byte} (hdata : isWriteClass c = false → data = []) (h : Header) :
    commandByte (selectInstr c h data) = c ∧ (selectInstr c h data).header = h ∧ payloadOf (selectInstr c h data) = data := by
  rcases code_cases c with rfl | rfl | rfl | rfl | rfl | rfl | rfl | rfl | rfl | rfl | hge
  case inr.inr.inr.inr.inr.inr.inr.inr.inr.inr =>
    rw [selectInstr_of_ge hge, hdata (isWriteClass_of_ge hge)]
    exact ⟨rfl, rfl, rfl⟩
  -- codes 2, 5 and 7 select a request with a payload, the other seven one without
  case inr.inr.inl => exact ⟨rfl, rfl, rfl⟩
  case inr.inr.inr.inr.inr.inl => exact ⟨rfl, rfl, rfl⟩
  case inr.inr.inr.inr.inr.inr.inr.inl => exact ⟨rfl, rfl, rfl⟩
  all_goals exact ⟨rfl, rfl, (hdata rfl).symm⟩

theorem selectInstr_wf {cap : Nat} {c : Byte} {h : Header} {data : List Byte} (hlen : data.length = payloadCount cap c h) :
    (selectInstr c h data).wf cap = true := by
  rcases code_cases c with rfl | rfl | rfl | rfl | rfl | rfl | rfl | rfl | rfl | rfl | hge
  case inr.inr.inr.inr.inr.inr.inr.inr.inr.inr =>
    rw [selectInstr_of_ge hge]
    exact decide_eq_true hge
  case inr.inr.inl => exact beq_iff_eq.mpr hlen
  case inr.inr.inr.inr.inr.inl => exact beq_iff_eq.mpr hlen
  case inr.inr.inr.inr.inr.inr.inr.inl => exact beq_iff_eq.mpr hlen
  all_goals rfl

theorem encodeHeader_headerOf (l0 l1 k1 k2 a0 a1 a2 r : Byte) :
    encodeHeader (headerOf l0 l1 k1 k2 a0 a1 a2 r) = [l0, l1, k1, k2, a0, a1, a2, r] := by
  obtain ⟨h0, h1, h2⟩ := addrByte_assemble24 a0 a1 a2
  simp only [encodeHeader, headerOf, lowByte_assemble16, highByte_assemble16, h0, h1, h2]

/-- Settles O3: the parts of the request are the bytes the decoder took them from. -/
theorem encodeOfDecode : Obligations.EncodeOfDecode := by
  intro cap bytes i rest h
  obtain ⟨c, l0, l1, k1, k2, a0, a1, a2, r, data, rfl, hlen, rfl⟩ := decode_eq_ok h
  have hdata : isWriteClass c = false → data = [] := fun hc =>
    List.eq_nil_of_length_eq_zero (hlen.trans (if_neg (Bool.not_eq_true _ ▸ hc)))
  obtain ⟨hcode, hheader, hpayload⟩ := selectInstr_parts hdata (headerOf l0 l1 k1 k2 a0 a1 a2 r)
  refine ⟨selectInstr_wf hlen, ?_⟩
  rw [encode, hcode, hheader, hpayload, encodeHeader_headerOf]
  rfl

/-- Settles O4: a command byte that is no write-class code asks for no payload. -/
theorem readClassFramesAlwaysDecode : Obligations.ReadClassFramesAlwaysDecode := by
  intro cap c l0 l1 k1 k2 a0 a1 a2 r rest h2 h5 h7
  have hc : isWriteClass c = false :=
    Bool.eq_false_of_not_eq_true fun hw => ((isWriteClass_iff c).mp hw).elim h2 (Or.elim · h5 h7)
  obtain ⟨hcode, -, -⟩ := selectInstr_parts (c := c) (data := []) (fun _ => rfl) (headerOf l0 l1 k1 k2 a0 a1 a2 r)
  refine ⟨_, ?_, hcode⟩
  rw [decode_frame, payloadCount, hc]
  rfl

/-- Settles O1: the decoder runs on the three frames. -/
theorem specFramesDecode : Obligations.SpecFramesDecode := ⟨rfl, rfl, rfl⟩

end Sys2Proof.Proofs.Encoding
end

section
/-! PROOFS. What one step of the machine is, said once: one case per phase and per hold (00_scope.md R9; 10_state.md R25; 60_exceptions.md R247),
and what the time that passes in it does. -/

namespace Sys2Proof.Proofs.Steps

open Sys2Proof.Machine Sys2Proof.Safety Sys2Proof.Proofs.ReceiveByte

/-! ## A step by its phase -/

theorem step_of_reset {s : State} (h : s.resetAfter = some 0) : step s = .next (deviceReset s) := if_pos h

theorem step_of_application {s : State} (hreset : s.resetAfter ≠ some 0) (h : s.owner = .application) :
    step s = .next (tick s) := by
  simp [step, hreset, h]

theorem step_of_recv {s : State} (hrun : Running s) (h : s.phase = .recv) : step s = recvStep s :=
  (step_of_running hrun).trans (blockStep_of_recv h)

theorem step_of_dispatch {s : State} (hrun : Running s) (h : s.phase = .dispatch) : step s = dispatchStep s := by
  rw [step_of_running hrun, blockStep, h]

theorem step_of_xmit {s : State} (hrun : Running s) (h : s.phase = .xmit) : step s = xmitStep s := by
  rw [step_of_running hrun, blockStep, h]

theorem step_of_resetHold {s : State} (hrun : Running s) (h : s.phase = .resetHold) : step s = .next (tick s) := by
  rw [step_of_running hrun, blockStep, h]

theorem running_of_noReset {s : State} (hown : s.owner = .block) (hreset : NoReset s) : Running s :=
  ⟨hown, hreset.symm ▸ nofun⟩

theorem recvStep_of_empty {s : State} (h : s.rxQueue = []) : recvStep s = .next (tick s) := by
  rw [recvStep, h]

/-- The byte the transmitter hands over, and the frame byte that is next (40_frame_codec.md R110). -/
def Sends (s : State) (b : Byte) (next : Nat) : TxIndex → Prop
  | .sync => b = s.params.syncByte ∧ next = 0
  | .byte k => bufByte s k = some b ∧ next = k + 1

theorem xmitStep_of_sends {s : State} {n next : Nat} {ix : TxIndex} {b : Byte} (hlen : s.respLen = some n) (hix : s.txIndex = some ix)
    (hready : s.txReady = true) (hsends : Sends s b next ix) :
    xmitStep s = .next (tick (advanceTx n next (sendByte b s))) := by
  cases ix with
  | sync =>
    obtain ⟨rfl, rfl⟩ := hsends
    simp [xmitStep, hlen, hix, hready]
  | byte k =>
    obtain ⟨hb, rfl⟩ := hsends
    simp [xmitStep, hlen, hix, hready, hb]

theorem xmitStep_of_notReady {s : State} {n : Nat} {ix : TxIndex} (hlen : s.respLen = some n) (hix : s.txIndex = some ix)
    (hready : s.txReady = false) : xmitStep s = .next (tick s) := by
  simp [xmitStep, hlen, hix, hready]

theorem xmitStep_of_sent {s : State} (hlen : s.respLen = none) (hix : s.txIndex = none) (hpending : s.resetPending = true) :
    xmitStep s = .next (tick (assertReset s)) := by
  simp [xmitStep, hlen, hix, hpending]

/-! ## All that a step can be -/

/-- The length rule only sets the expected length, and to a new value only at the third byte (40_frame_codec.md R102). -/
theorem lengthRule_eq_some {u u' : State} (h : lengthRule u = some u') :
    ∃ n, u' = setExpected n u ∧ (u.rxCount ≠ 3 → n = u.rxExpected) ∧
      (u.rxCount = 3 → ∃ c l0 l1, bufByte u 0 = some c ∧ bufByte u 1 = some l0 ∧ bufByte u 2 = some l1 ∧
        n = requestLength c l0 l1) := by
  by_cases h3 : u.rxCount = 3
  case neg =>
    rw [lengthRule_of_ne h3] at h
    cases h
    exact ⟨u.rxExpected, rfl, fun _ => rfl, fun h => absurd h h3⟩
  case pos =>
    rw [lengthRule, if_pos h3] at h
    split at h
    case h_1 c l0 l1 h0 h1 h2 =>
      cases h
      exact ⟨_, rfl, fun h => absurd h3 h, fun _ => ⟨c, l0, l1, h0, h1, h2, rfl⟩⟩
    case h_2 => cases h

/-- A step of the receiver: with no byte to accept it holds (R101, R106). -/
inductive RecvStep (s : State) : State → Prop
  | held (hempty : s.rxQueue = []) : RecvStep s (tick s)
  | received (b : Byte) (rest : List Byte) (n : Nat) (hqueue : s.rxQueue = b :: rest)
      (hlen : lengthRule (storeByte b (takeByte rest s)) = some (setExpected n (storeByte b (takeByte rest s)))) :
      RecvStep s (receiveByte n b rest s)

/-- A step of the transmitter: a byte handed over, a hold, or the assertion of the pending reset (R110; 70_reset_and_hazards.md R265). -/
inductive XmitStep (s : State) : State → Prop
  | sent (n next : Nat) (ix : TxIndex) (b : Byte) (hlen : s.respLen = some n) (hix : s.txIndex = some ix) (hready : s.txReady = true)
      (hsends : Sends s b next ix) : XmitStep s (tick (advanceTx n next (sendByte b s)))
  | held (n : Nat) (ix : TxIndex) (hlen : s.respLen = some n) (hix : s.txIndex = some ix) (hready : s.txReady = false) :
      XmitStep s (tick s)
  | asserted (hlen : s.respLen = none) (hix : s.txIndex = none) (hpending : s.resetPending = true) : XmitStep s (tick (assertReset s))

/-- A step of the machine. -/
inductive StepTo (s : State) : State → Prop
  | deviceReset (hreset : s.resetAfter = some 0) : StepTo s (deviceReset s)
  | application (hreset : s.resetAfter ≠ some 0) (hown : s.owner = .application) : StepTo s (tick s)
  | recv {t : State} (hrun : Running s) (hphase : s.phase = .recv) (h : RecvStep s t) : StepTo s t
  | dispatch {t : State} (hrun : Running s) (hphase : s.phase = .dispatch) (h : dispatchStep s = .next t) : StepTo s t
  | xmit {t : State} (hrun : Running s) (hphase : s.phase = .xmit) (h : XmitStep s t) : StepTo s t
  | resetHold (hrun : Running s) (hphase : s.phase = .resetHold) : StepTo s (tick s)

theorem recvStep_cases {s t : State} (h : recvStep s = .next t) : RecvStep s t := by
  cases hqueue : s.rxQueue with
  | nil =>
    rw [recvStep_of_empty hqueue] at h
    cases h
    exact .held hqueue
  | cons b rest =>
    simp only [recvStep, hqueue] at h
    split at h
    case h_1 u hlen =>
      cases h
      obtain ⟨n, rfl, -, -⟩ := lengthRule_eq_some hlen
      rw [frameComplete_eq]
      exact .received b rest n hqueue hlen
    case h_2 => cases h

theorem xmitStep_cases {s t : State} (h : xmitStep s = .next t) : XmitStep s t := by
  unfold xmitStep at h
  split at h
  case h_1 n ix hlen hix =>
    split at h
    case isTrue hready =>
      cases ix with
      | sync =>
        cases h
        exact .sent n 0 .sync _ hlen hix hready ⟨rfl, rfl⟩
      | byte k =>
        cases hb : bufByte s k with
        | none => simp [hb] at h
        | some b =>
          simp only [hb] at h
          cases h
          exact .sent n (k + 1) (.byte k) b hlen hix hready ⟨hb, rfl⟩
    case isFalse hready =>
      cases h
      exact .held n ix hlen hix (Bool.eq_false_of_not_eq_true hready)
  case h_2 hlen hix =>
    split at h
    case isTrue hpending =>
      cases h
      exact .asserted hlen hix hpending
    case isFalse => cases h
  case h_3 => cases h

theorem step_cases {s t : State} (h : step s = .next t) : StepTo s t := by
  by_cases hreset : s.resetAfter = some 0
  · rw [step_of_reset hreset] at h
    cases h
    exact .deviceReset hreset
  cases hown : s.owner with
  | application =>
    rw [step_of_application hreset hown] at h
    cases h
    exact .application hreset hown
  | block =>
    have hrun : Running s := ⟨hown, hreset⟩
    cases hphase : s.phase with
    | recv => exact .recv hrun hphase (recvStep_cases ((step_of_recv hrun hphase).symm.trans h))
    | dispatch => exact .dispatch hrun hphase ((step_of_dispatch hrun hphase).symm.trans h)
    | xmit => exact .xmit hrun hphase (xmitStep_cases ((step_of_xmit hrun hphase).symm.trans h))
    | resetHold =>
      rw [step_of_resetHold hrun hphase] at h
      cases h
      exact .resetHold hrun hphase

/-! ## Time -/

/-- Sending and ending a response touch neither the memories nor anything that decides how time passes. -/
theorem advanceTx_cases (n t : Nat) (s : State) :
    (t < n ∧ advanceTx n t s = setTxIndex t s) ∨ (n ≤ t ∧ advanceTx n t s = idlePoint s) := by
  by_cases h : t < n
  · exact .inl ⟨h, if_pos h⟩
  · exact .inr ⟨Nat.le_of_not_lt h, if_neg h⟩

/-- Time brings no nearer an EEPROM that never leaves busy. -/
theorem tickEE_of_stuck {s : State} (h : s.eeStuck = true) : tickEE s = s := by
  have hends : eeEnds s = false := by
    unfold eeEnds
    split <;> simp [h]
  have hbusy : eeShortened s = s.eeBusy := by
    simp [eeShortened, h]
  cases s
  simp_all [tickEE]

theorem tickReset_of_noReset {s : State} (h : NoReset s) : tickReset s = s := by
  cases s
  simp_all [tickReset, NoReset]

theorem suspend_of_loc {s : State} {l : Loc} (h : s.loc = some l) : suspend l s = s := by
  cases s
  simp_all [suspend]

/-- Settles O14: every case of a step outside `DISPATCH` is a `tick`, of a state with the same EEPROM and the same coming reset. -/
theorem timePassesOutsideDispatch : Obligations.TimePassesOutsideDispatch := by
  intro s t hrun hphase hstep
  cases step_cases hstep with
  | deviceReset hreset => exact absurd hreset hrun.2
  | application | resetHold => exact ⟨rfl, rfl, rfl⟩
  | recv _ _ h => cases h <;> exact ⟨rfl, rfl, rfl⟩
  | dispatch _ hdispatch => exact absurd hdispatch hphase
  | xmit _ _ h =>
    cases h with
    | sent n next ix b =>
      rcases advanceTx_cases n next (sendByte b s) with ⟨-, heq⟩ | ⟨-, heq⟩ <;> rw [heq] <;> exact ⟨rfl, rfl, rfl⟩
    | held | asserted => exact ⟨rfl, rfl, rfl⟩

/-! ## Requests -/

/-- Settles O9: every dispatch start loads the keys before anything reads them. -/
theorem oldKeysMakeNoDifference : Obligations.OldKeysMakeNoDifference := by
  intro i s a b
  cases i with
  | readVersion h | readFlash h | writeFlash h data | eraseFlash h | readEEData h | writeEEData h data | readConfig h
  | writeConfig h data | calcChecksum h | resetDevice h | invalid code h => rfl

theorem fetchInstr_of_decode {s : State} {i : Instr} {rest : List Byte}
    (h : decode s.params.w (leadingValues s.buf) = .ok (i, rest)) : fetchInstr s = .ok i := by
  rw [fetchInstr, h]

/-- Settles O6: at this pace the dispatcher hands the fetched request to `exec`. -/
theorem stepRunsDecodedRequest : Obligations.StepRunsDecodedRequest := by
  intro s i rest hown hreset hpace hphase hloc hdecode
  rw [step_of_dispatch (running_of_noReset hown hreset) hphase, dispatchStep, fetchInstr_of_decode hdecode]
  simp only [hloc]
  exact if_pos ⟨hpace, hreset⟩

end Sys2Proof.Proofs.Steps
end

section
/-! PROOFS. Runs of steps; the transmitter and the idle point (40_frame_codec.md R110 to R112; 70_reset_and_hazards.md R265), the holds
(60_exceptions.md R247), the host between requests (70_reset_and_hazards.md R280). -/

namespace Sys2Proof.Proofs.Transmit

open Sys2Proof.Machine Sys2Proof.Safety Sys2Proof.Proofs.Steps

/-! ## Runs of steps -/

theorem runSteps_one (s : State) : runSteps 1 s = step s := by
  simp only [runSteps]
  split <;> rename_i h <;> exact h.symm

/-- A run goes on from where its first part ends. -/
theorem runSteps_add {j : Nat} {s u : State} (h : runSteps j s = .next u) (k : Nat) : runSteps (j + k) s = runSteps k u := by
  induction j generalizing s with
  | zero =>
    cases h
    rw [Nat.zero_add]
  | succ j ih =>
    rw [Nat.add_right_comm, runSteps]
    rw [runSteps] at h
    split at h
    · exact ih h
    · cases h
    · cases h

theorem runSteps_snoc {k : Nat} {s u : State} (h : runSteps k s = .next u) : runSteps (k + 1) s = step u :=
  (runSteps_add h 1).trans (runSteps_one u)

/-! ## One byte -/

/-- What the transmitter leaves unchanged, whether the byte is the last one or not (R111). -/
theorem sendByte_frame (n next : Nat) (b : Byte) (s : State) :
    (tick (advanceTx n next (sendByte b s))).sent = s.sent ++ [b] ∧ (tick (advanceTx n next (sendByte b s))).buf = s.buf ∧
      (tick (advanceTx n next (sendByte b s))).rxQueue = s.rxQueue ∧
      (tick (advanceTx n next (sendByte b s))).resetRequest = s.resetRequest ∧
      (tick (advanceTx n next (sendByte b s))).draws = s.draws ∧ SameBesidesCodec s (tick (advanceTx n next (sendByte b s))) := by
  rcases advanceTx_cases n next (sendByte b s) with ⟨-, heq⟩ | ⟨-, heq⟩
  all_goals
    rw [heq]
    exact ⟨rfl, rfl, rfl, rfl, rfl, rfl, rfl, rfl, rfl, rfl, rfl, ⟨fun _ => rfl, rfl⟩, ⟨fun _ => rfl, rfl⟩, rfl, rfl, rfl, rfl, rfl⟩

theorem phaseAfterResponse_eq (pending : Bool) : phaseAfterResponse pending = if pending then .xmit else .recv := by
  cases pending <;> rfl

/-- Settles O15: the step is `xmitStep_of_sends`; whether the next byte is one of the response decides where it leads. -/
theorem transmitOneByte : Obligations.TransmitOneByte := by
  intro s n ix b hrun hphase hlen hix _ hready hsync hbyte
  obtain ⟨next, hsends, hzero, hsucc⟩ :
      ∃ next, Sends s b next ix ∧ (ix = .sync → next = 0) ∧ ∀ k, ix = .byte k → next = k + 1 := by
    cases ix with
    | sync => exact ⟨0, ⟨hsync rfl, rfl⟩, fun _ => rfl, nofun⟩
    | byte k => exact ⟨k + 1, ⟨hbyte k rfl, rfl⟩, nofun, fun _ heq => by cases heq; rfl⟩
  obtain ⟨hsent, hbuf, hqueue, hrequest, hdraws, hsame⟩ := sendByte_frame n next b s
  refine ⟨_, next, (step_of_xmit hrun hphase).trans (xmitStep_of_sends hlen hix hready hsends), hzero, hsucc, hsent, hbuf, hqueue,
    hrequest, hdraws, hsame, fun hlt => ?more, fun hle => ?last⟩
  case more =>
    rw [advanceTx, if_pos hlt]
    exact ⟨hphase, rfl, hlen, rfl, rfl⟩
  case last =>
    rw [advanceTx, if_neg (Nat.not_lt.mpr hle)]
    exact ⟨rfl, rfl, rfl, rfl, phaseAfterResponse_eq s.resetPending⟩

/-! ## A whole response -/

/-- Where the transmitter is before it hands over byte `k` of the sync byte and the response (R110). -/
def txAt : Nat → TxIndex
  | 0 => .sync
  | k + 1 => .byte k

theorem sends_txAt {s : State} {bytes : List Byte} (hbuf : ∀ j < bytes.length, bufByte s j = bytes[j]?) {k : Nat} {b : Byte}
    (hb : (s.params.syncByte :: bytes)[k]? = some b) : Sends s b k (txAt k) := by
  cases k with
  | zero =>
    cases hb
    exact ⟨rfl, rfl⟩
  | succ k =>
    rw [List.getElem?_cons_succ] at hb
    obtain ⟨hlt, -⟩ := List.getElem?_eq_some_iff.mp hb
    exact ⟨(hbuf k hlt).trans hb, rfl⟩

theorem sameBesidesCodec_trans {s t u : State} (h : SameBesidesCodec s t) (h' : SameBesidesCodec t u) : SameBesidesCodec s u := by
  obtain ⟨hparams, hk1, hk2, hpending, hloc, hustate, ⟨hflash, hrow⟩, ⟨hcfg, hrec⟩, hready, hstuck, hline, hown, hpace⟩ := h
  obtain ⟨hparams', hk1', hk2', hpending', hloc', hustate', ⟨hflash', hrow'⟩, ⟨hcfg', hrec'⟩, hready', hstuck', hline', hown',
    hpace'⟩ := h'
  exact ⟨hparams'.trans hparams, hk1'.trans hk1, hk2'.trans hk2, hpending'.trans hpending, hloc'.trans hloc, hustate'.trans hustate,
    ⟨fun a => (hflash' a).trans (hflash a), hrow'.trans hrow⟩, ⟨fun a => (hcfg' a).trans (hcfg a), hrec'.trans hrec⟩,
    hready'.trans hready, hstuck'.trans hstuck, hline'.trans hline, hown'.trans hown, hpace'.trans hpace⟩

/-- What handing over bytes leaves unchanged, besides what `SameBesidesCodec` names. -/
structure SendFrame (s u : State) : Prop where
  same    : SameBesidesCodec s u
  noReset : NoReset u
  buf     : u.buf = s.buf
  queue   : u.rxQueue = s.rxQueue
  request : u.resetRequest = s.resetRequest
  draws   : u.draws = s.draws

theorem sendFrame_refl {s : State} (h : NoReset s) : SendFrame s s where
  same := ⟨rfl, rfl, rfl, rfl, rfl, rfl, ⟨fun _ => rfl, rfl⟩, ⟨fun _ => rfl, rfl⟩, rfl, rfl, rfl, rfl, rfl⟩
  noReset := h
  buf := rfl
  queue := rfl
  request := rfl
  draws := rfl

theorem SendFrame.send {s u : State} (h : SendFrame s u) (n next : Nat) (b : Byte) :
    SendFrame s (tick (advanceTx n next (sendByte b u))) := by
  obtain ⟨-, hbuf, hqueue, hrequest, hdraws, hsame⟩ := sendByte_frame n next b u
  refine ⟨sameBesidesCodec_trans h.same hsame, ?_, hbuf.trans h.buf, hqueue.trans h.queue, hrequest.trans h.request, hdraws.trans h.draws⟩
  have hnone : u.resetAfter = none := h.noReset
  rcases advanceTx_cases n next (sendByte b u) with ⟨-, heq⟩ | ⟨-, heq⟩ <;> simp [heq, NoReset, hnone]

/-- After `k` steps of a response: the first `k` of its bytes have been handed over, the sync byte among them. -/
structure Sending (s : State) (bytes : List Byte) (k : Nat) (u : State) : Prop where
  frame : SendFrame s u
  phase : u.phase = .xmit
  len   : u.respLen = some bytes.length
  index : u.txIndex = some (txAt k)
  sent  : u.sent = s.sent ++ (s.params.syncByte :: bytes).take k

section
variable {s : State} {bytes : List Byte} (hown : s.owner = .block) (hready : s.txReady = true)
  (hbuf : ∀ j < bytes.length, bufByte s j = bytes[j]?)
include hown hready hbuf

/-- The step that hands over byte `k`. -/
theorem Sending.step {k : Nat} {u : State} (hk : k ≤ bytes.length) (h : Sending s bytes k u) :
    ∃ b, (s.params.syncByte :: bytes)[k]? = some b ∧
      Machine.step u = .next (tick (advanceTx bytes.length k (sendByte b u))) ∧
      (tick (advanceTx bytes.length k (sendByte b u))).sent = s.sent ++ (s.params.syncByte :: bytes).take (k + 1) := by
  obtain ⟨⟨hparams, -, -, -, -, -, -, -, hready', -, -, hown', -⟩, hreset, hsame, -⟩ := h.frame
  have hlt : k < (s.params.syncByte :: bytes).length := Nat.lt_succ_of_le hk
  have hb := List.getElem?_eq_getElem hlt
  have hsends : Sends u (s.params.syncByte :: bytes)[k] k (txAt k) :=
    sends_txAt (fun j hj => (bufByte_congr hsame j).trans (hbuf j hj)) (hparams ▸ hb)
  refine ⟨_, hb, ?_, ?_⟩
  · rw [step_of_xmit (running_of_noReset (hown'.trans hown) hreset) h.phase]
    exact xmitStep_of_sends h.len h.index (hready'.trans hready) hsends
  · rw [(sendByte_frame _ _ _ u).1, h.sent, List.append_assoc, List.take_add_one, hb]
    rfl

theorem Sending.next {k : Nat} {u : State} (hk : k < bytes.length) (h : Sending s bytes k u) :
    ∃ u', Machine.step u = .next u' ∧ Sending s bytes (k + 1) u' := by
  obtain ⟨b, -, hstep, hsent⟩ := h.step hown hready hbuf hk.le
  refine ⟨_, hstep, h.frame.send _ _ _, ?_, ?_, ?_, hsent⟩
  all_goals rw [advanceTx, if_pos hk]
  · exact h.phase
  · exact h.len
  · rfl

theorem sending_runSteps (hreset : NoReset s) (hphase : s.phase = .xmit) (hlen : s.respLen = some bytes.length)
    (hix : s.txIndex = some .sync) {k : Nat} (hk : k ≤ bytes.length) : ∃ u, runSteps k s = .next u ∧ Sending s bytes k u := by
  induction k with
  | zero => exact ⟨s, rfl, sendFrame_refl hreset, hphase, hlen, hix, (List.append_nil _).symm⟩
  | succ k ih =>
    obtain ⟨u, hrun, hu⟩ := ih (Nat.le_of_succ_le hk)
    obtain ⟨u', hstep, hu'⟩ := hu.next hown hready hbuf hk
    exact ⟨u', (runSteps_snoc hrun).trans hstep, hu'⟩

end

/-- With nothing left to send and a reset pending, the step asserts the reset (R265). -/
theorem step_assertReset {s : State} (hown : s.owner = .block) (hreset : NoReset s) (hphase : s.phase = .xmit)
    (hlen : s.respLen = none) (hix : s.txIndex = none) (hpending : s.resetPending = true) :
    step s = .next (tick (assertReset s)) :=
  (step_of_xmit (running_of_noReset hown hreset) hphase).trans (xmitStep_of_sent hlen hix hpending)

theorem assertReset_frame (s : State) :
    (tick (assertReset s)).phase = .resetHold ∧ (tick (assertReset s)).resetRequest = true ∧
      (tick (assertReset s)).rxQueue = s.rxQueue ∧ (tick (assertReset s)).sent = s.sent ∧ (tick (assertReset s)).buf = s.buf ∧
      SameBesidesCodec s (tick (assertReset s)) :=
  ⟨rfl, rfl, rfl, rfl, rfl, rfl, rfl, rfl, rfl, rfl, rfl, ⟨fun _ => rfl, rfl⟩, ⟨fun _ => rfl, rfl⟩, rfl, rfl, rfl, rfl, rfl⟩

/-- Settles O16: byte by byte by `sending_runSteps`, and the last byte leads to the idle point. -/
theorem transmitterSendsWholeResponse : Obligations.TransmitterSendsWholeResponse := by
  intro s bytes hown hreset hready hphase _ hlen hix hbuf
  have hrunTo := fun k (hk : k ≤ bytes.length) => sending_runSteps hown hready hbuf hreset hphase hlen hix hk
  refine ⟨fun k hk => ?_, ?_⟩
  · obtain ⟨u, hrun, hu⟩ := hrunTo k hk
    exact ⟨u, hrun, hu.phase, hu.len, hu.frame.request, hu.sent, hu.frame.queue⟩
  · obtain ⟨u, hrun, hu⟩ := hrunTo bytes.length le_rfl
    obtain ⟨b, -, hstep, hsent⟩ := hu.step hown hready hbuf le_rfl
    obtain ⟨hsame, hreset', hsamebuf, hqueue, hrequest, hdraws⟩ := hu.frame.send bytes.length bytes.length b
    rw [advanceTx, if_neg (lt_irrefl _)] at hstep hsent hsame hreset' hsamebuf hqueue hrequest hdraws
    have ⟨_, _, _, hpending, _, _, _, _, _, _, _, hown', _⟩ := hsame
    rw [List.take_of_length_le (le_of_eq (List.length_cons ..))] at hsent
    have hpending' : u.resetPending = s.resetPending := hpending
    refine ⟨_, (runSteps_snoc hrun).trans hstep, hsent, hsamebuf, hqueue, ?_, hrequest, rfl, rfl, rfl, rfl, hdraws, hsame,
      fun hp => ⟨_, step_assertReset (hown'.trans hown) hreset' ?_ rfl rfl (hpending.trans hp), rfl, rfl⟩⟩
    · exact (phaseAfterResponse_eq u.resetPending).trans (by rw [hpending'])
    · exact (phaseAfterResponse_eq u.resetPending).trans (by rw [hpending', hp]; rfl)

/-! ## The idle point -/

/-- Settles O17: the last byte leads to the idle point, and there a pending reset is asserted. -/
theorem idlePointActsOnPendingReset : Obligations.IdlePointActsOnPendingReset := by
  intro s n b hown hreset hphase hlen hix hready hb hrequest
  have hstep : step s = .next (tick (idlePoint (sendByte b s))) := by
    rw [step_of_xmit (running_of_noReset hown hreset) hphase, xmitStep_of_sends hlen hix hready (b := b) ⟨hb, rfl⟩, advanceTx,
      if_neg (lt_irrefl _)]
  have hreset' : NoReset (tick (idlePoint (sendByte b s))) := by
    rw [NoReset] at hreset ⊢
    simp [hreset]
  refine ⟨_, hstep, rfl, hrequest, fun hpending => ⟨?_, rfl, rfl⟩, fun hpending => ⟨_, step_assertReset hown hreset' ?_ rfl rfl hpending,
    assertReset_frame _⟩⟩
  all_goals exact (phaseAfterResponse_eq s.resetPending).trans (by rw [hpending]; rfl)

/-! ## Holds -/

/-- A wait of Write EE Data while the EEPROM is busy: time passes, and the command-local state is as it was (44_writes_and_control.md R213). -/
theorem operateOn_wait {s : State} {h : Header} {data : List Byte} {l : Loc} (hbusy : s.eeBusy.isSome = true)
    (hpair : l.pair.isSome = true) (hi : l.i < l.n) (hsecond : l.second = false) :
    operateOn (.writeEEData h data) l s = .next (tickEE (suspend l s)) := by
  obtain ⟨pair, hpair⟩ := Option.isSome_iff_exists.mp hpair
  simp [operateOn, withPair, hpair, operate, hi, writeEEOp, hsecond, hbusy]

/-- Settles O19: each hold's step is a `tick`. -/
theorem holdsOnlyLetTimePass : Obligations.HoldsOnlyLetTimePass := by
  intro s hreset
  refine ⟨fun hown hphase hempty => ?recv, fun hown hphase hlen hix hready => ?xmit,
    fun hown hphase hstuck hbusy ⟨h, data, l, hfetch, hloc, hpair, hi, hsecond⟩ => ⟨?wait, fun hnone => ?still⟩,
    fun hown hphase => step_of_resetHold ⟨hown, hreset⟩ hphase, fun hown => step_of_application hreset hown⟩
  case recv => rw [step_of_recv ⟨hown, hreset⟩ hphase, recvStep_of_empty hempty]
  case xmit =>
    obtain ⟨n, hlen⟩ := Option.isSome_iff_exists.mp hlen
    obtain ⟨ix, hix⟩ := Option.isSome_iff_exists.mp hix
    rw [step_of_xmit ⟨hown, hreset⟩ hphase, xmitStep_of_notReady hlen hix hready]
  case wait =>
    rw [step_of_dispatch ⟨hown, hreset⟩ hphase, dispatchStep, hfetch]
    simp only [hloc]
    have hloc' : (tickReset s).loc = some l := hloc
    rw [operateOn_wait (s := tickReset s) hbusy hpair hi hsecond, suspend_of_loc hloc']
    rfl
  case still => rw [tick, tickEE_of_stuck hstuck, tickReset_of_noReset hnone]

/-! ## The end of an EEPROM write -/

/-- A block that waits in `RECV` with no byte to receive. -/
theorem step_idle {s : State} (hown : s.owner = .block) (hreset : NoReset s) (hphase : s.phase = .recv) (hempty : s.rxQueue = []) :
    step s = .next (tickEE s) := by
  rw [step_of_recv (running_of_noReset hown hreset) hphase, recvStep_of_empty hempty, tick]
  exact congrArg _ (tickReset_of_noReset (s := tickEE s) hreset)

/-- Settles O48: the busy condition shortens with each step, and the step at its end writes the byte. -/
theorem eeWriteBecomesDurable : Obligations.EEWriteBecomesDurable := by
  intro s w left hown hreset hphase hempty hready hbusy
  induction left generalizing s with
  | zero =>
    have hends : eeEnds s = true := by simp [eeEnds, hbusy, hready]
    refine ⟨tickEE s, (runSteps_one s).trans (step_idle hown hreset hphase hempty), by simp [tickEE, hends], fun a => ?_⟩
    have hee : (tickEE s).ee = Memory.write s.ee w.addr.toNat w.val := by simp [tickEE, hends, eeAfterBusy, eeWriting, hbusy]
    rw [hee, read_write]
    simp only [eq_comm]
  | succ left ih =>
    have hends : eeEnds s = false := by simp [eeEnds, hbusy, hready]
    have hee : (tickEE s).ee = s.ee := by simp [tickEE, hends]
    obtain ⟨t, hrun, hdone⟩ := ih (tickEE s) hown hreset hphase hempty hready (by simp [tickEE, hends, eeShortened, hbusy, hready])
    rw [hee] at hdone
    exact ⟨t, by rw [runSteps, step_idle hown hreset hphase hempty]; exact hrun, hdone⟩

/-! ## The host between requests -/

theorem hostSend_of_answering {s : State} (h : answering s = true) (bytes : List Byte) :
    hostSend bytes s = .refused .hostSendsDuringResponse := if_pos h

theorem hostSend_of_not_answering {s : State} (h : answering s = false) (bytes : List Byte) :
    hostSend bytes s = .next { s with rxQueue := s.rxQueue ++ bytes } := if_neg (Bool.eq_false_iff.mp h)

/-- In `RESET_HOLD` and while the application runs, time passes and nothing else (70_reset_and_hazards.md R266, R271). -/
theorem step_quiet {s : State} (hreset : s.resetAfter ≠ some 0) (hquiet : s.owner = .application ∨ s.phase = .resetHold) :
    step s = .next (tick s) := by
  cases hown : s.owner with
  | application => exact step_of_application hreset hown
  | block =>
    have hphase : s.phase = .resetHold := hquiet.resolve_left (by rw [hown]; exact nofun)
    exact step_of_resetHold ⟨hown, hreset⟩ hphase

/-- Settles O57: `answering` decides, by the owner and the phase. -/
theorem hostSendsOnlyBetweenRequests : Obligations.HostSendsOnlyBetweenRequests := by
  intro bytes s
  refine ⟨fun hown hbusy => hostSend_of_answering ?refused bytes,
    fun hfree => ⟨_, hostSend_of_not_answering ?accepted bytes, rfl, fun hquiet hreset => ?quiet⟩⟩
  case refused =>
    rcases hbusy with hphase | ⟨hphase, hlen⟩
    · simp only [answering, hown, hphase]
    · simp only [answering, hown, hphase, hlen]
  case accepted =>
    cases hown : s.owner with
    | application => simp only [answering, hown]
    | block =>
      rcases hfree with happ | hphase | hphase | ⟨hphase, hlen⟩
      · rw [happ] at hown
        cases hown
      · simp only [answering, hown, hphase]
      · simp only [answering, hown, hphase]
      · simp only [answering, hown, hphase, hlen, Option.isSome_none]
  case quiet => exact ⟨_, step_quiet (s := { s with rxQueue := s.rxQueue ++ bytes }) hreset hquiet, rfl, rfl, rfl, rfl⟩

end Sys2Proof.Proofs.Transmit
end

section
/-! PROOFS. Receiving a frame byte by byte is decoding it (40_frame_codec.md R100 to R104, R112). -/

namespace Sys2Proof.Proofs.ReceiveFrame

open Sys2Proof.Machine Sys2Proof.Safety Sys2Proof.Proofs.RequestLength Sys2Proof.Proofs.ReceiveByte Sys2Proof.Proofs.Encoding
  Sys2Proof.Proofs.Steps Sys2Proof.Proofs.Transmit

/-! ## Byte by byte -/

/-- After the first `k` bytes of `frame` have been received, from the start of `RECV` at `s`. -/
structure Receiving (s : State) (frame later : List Byte) (k : Nat) (u : State) : Prop where
  own      : u.owner = .block
  noReset  : NoReset u
  params   : u.params = s.params
  buf      : BufOk u
  count    : u.rxCount = k
  expected : u.rxExpected = if k < 3 then 9 else frame.length
  phase    : u.phase = if k = frame.length then .dispatch else .recv
  queue    : u.rxQueue = frame.drop k ++ later
  received : ∀ j < k, j < 9 + s.params.w → bufByte u j = frame[j]?
  rest     : ∀ j, k ≤ j → bufByte u j = bufByte s j
  loc      : u.loc = s.loc
  flash    : u.flash = s.flash
  cfg      : u.cfg = s.cfg

/-- A frame whose first three bytes tell its length (30_encoding.md R76; 40_frame_codec.md R102). -/
def HasLength (frame : List Byte) : Prop :=
  9 ≤ frame.length ∧ ∀ c l0 l1, frame[0]? = some c → frame[1]? = some l0 → frame[2]? = some l1 →
    requestLength c l0 l1 = frame.length

theorem Receiving.next {s u : State} {frame later : List Byte} {k : Nat} (hframe : HasLength frame) (hk : k < frame.length)
    (hu : Receiving s frame later k u) : ∃ u', step u = .next u' ∧ Receiving s frame later (k + 1) u' := by
  obtain ⟨hown, hreset, hparams, hbuf, rfl, hexpected, hphase, hqueue, hreceived, hrest, hloc, hflash, hcfg⟩ := hu
  obtain ⟨hnine, hrule⟩ := hframe
  have hrun := running_of_noReset hown hreset
  have hrecv : u.phase = .recv := hphase.trans (if_neg hk.ne)
  rw [List.drop_eq_getElem_cons hk, List.cons_append] at hqueue
  have hbyte : ∀ j < u.rxCount, u.rxCount = 2 → bufByte u j = frame[j]? := fun j hj h2 => hreceived j hj (by omega)
  have hpre : u.rxCount = 2 → (bufByte u 0).isSome = true ∧ (bufByte u 1).isSome = true := fun h2 => by
    rw [hbyte 0 (by omega) h2, hbyte 1 (by omega) h2, List.getElem?_eq_getElem (by omega), List.getElem?_eq_getElem (by omega)]
    exact ⟨rfl, rfl⟩
  obtain ⟨n, hlen, hsame, hthird⟩ := lengthRule_storeByte (s := takeByte (frame.drop (u.rxCount + 1) ++ later) u) frame[u.rxCount] hbuf hpre
  have hn : n = if u.rxCount + 1 < 3 then 9 else frame.length := by
    by_cases h2 : u.rxCount = 2
    · have h0 : bufByte u 0 = some frame[0] := (hbyte 0 (by omega) h2).trans (List.getElem?_eq_getElem (by omega))
      have h1 : bufByte u 1 = some frame[1] := (hbyte 1 (by omega) h2).trans (List.getElem?_eq_getElem (by omega))
      rw [hthird h2 _ _ h0 h1, if_neg (by omega)]
      refine hrule _ _ _ (List.getElem?_eq_getElem _) (List.getElem?_eq_getElem _) ?_
      rw [← h2]
      exact List.getElem?_eq_getElem hk
    · rw [hsame h2]
      exact hexpected.trans (by split <;> split <;> omega)
  have hlength : u.rxCount < 9 + u.params.w → u.rxCount < u.buf.length := fun h => hbuf.1 ▸ h
  refine ⟨_, step_receiveByte hrun hrecv hqueue hlen, hown, ?noReset, hparams, ?buf, rfl, hn, ?phase, rfl, ?received, ?rest, hloc, hflash,
    hcfg⟩
  case noReset => simp only [NoReset, receiveByte, tick_resetAfter, setExpected_resetAfter] at hreset ⊢; exact congrArg (Option.map _) hreset
  case buf =>
    refine ⟨?_, hbuf.2⟩
    rw [receiveByte_buf]
    split
    · exact List.length_set.trans hbuf.1
    · exact hbuf.1
  case phase =>
    have hlast : u.rxCount + 1 = n ↔ u.rxCount + 1 = frame.length := by
      rw [hn]
      split <;> omega
    simp only [receiveByte_phase, hlast, hrecv]
  case received =>
    intro j hj hcap
    rw [bufByte_receiveByte]
    rcases Nat.lt_succ_iff_lt_or_eq.mp hj with hlt | rfl
    · rw [if_neg (by omega)]
      exact hreceived j hlt hcap
    · rw [← hparams] at hcap
      rw [if_pos ⟨rfl, hcap, hlength hcap⟩, List.getElem?_eq_getElem hk]
  case rest =>
    intro j hj
    rw [bufByte_receiveByte, if_neg (by omega)]
    exact hrest j (by omega)

theorem receiving_runSteps {s : State} {frame later : List Byte} (hframe : HasLength frame) (h0 : Receiving s frame later 0 s) {k : Nat}
    (hk : k ≤ frame.length) : ∃ u, runSteps k s = .next u ∧ Receiving s frame later k u := by
  induction k with
  | zero => exact ⟨s, rfl, h0⟩
  | succ k ih =>
    obtain ⟨u, hrun, hu⟩ := ih (Nat.le_of_succ_le hk)
    obtain ⟨u', hstep, hu'⟩ := hu.next hframe hk
    exact ⟨u', (runSteps_snoc hrun).trans hstep, hu'⟩

/-! ## What the frame buffer holds of it -/

theorem encode_hasLength {i : Instr} (hwf : i.wf 65535 = true) : HasLength (encode i) := by
  refine ⟨by rw [length_encode]; exact Nat.le_add_right 9 _, fun c l0 l1 hc hl0 hl1 => ?_⟩
  cases hc
  cases hl0
  cases hl1
  rw [requestLengthRule i hwf, requestLength, assemble16_bytes]
  simp only [isWriteClass_iff]

theorem heldPart_parts (cap : Nat) (i : Instr) :
    commandByte (heldPart cap i) = commandByte i ∧ (heldPart cap i).header = i.header ∧
      payloadOf (heldPart cap i) = (payloadOf i).take cap := by
  cases i with
  | writeFlash h data | writeEEData h data | writeConfig h data => exact ⟨rfl, rfl, rfl⟩
  | readVersion h | readFlash h | eraseFlash h | readEEData h | readConfig h | calcChecksum h | resetDevice h | invalid code h =>
    exact ⟨rfl, rfl, List.take_nil.symm⟩

/-- The bytes a buffer of `cap` payload bytes keeps of a request are the encoding of the part of it that it holds (R103). -/
theorem encode_heldPart (cap : Nat) (i : Instr) : encode (heldPart cap i) = (encode i).take (9 + cap) := by
  obtain ⟨hcode, hheader, hpayload⟩ := heldPart_parts cap i
  have hlen : (commandByte i :: encodeHeader i.header).length = 9 := rfl
  rw [encode, encode, hcode, hheader, hpayload, List.take_append, hlen, Nat.add_sub_cancel_left,
    List.take_of_length_le (hlen.trans_le (Nat.le_add_right 9 cap))]

theorem heldPart_wf {i : Instr} (hwf : i.wf 65535 = true) (cap : Nat) : (heldPart cap i).wf cap = true := by
  have hpayload : ∀ h data, payloadOk 65535 h data = true → payloadOk cap h (data.take cap) = true := fun h data hok => by
    rw [payloadOk, beq_iff_eq, List.length_take, length_of_payloadOk hok, min_dlen_wire, Nat.min_comm]
  cases i with
  | writeFlash h data | writeEEData h data | writeConfig h data => exact hpayload h data hwf
  | readVersion h | readFlash h | eraseFlash h | readEEData h | readConfig h | calcChecksum h | resetDevice h => rfl
  | invalid code h => exact hwf

/-- Values at the front of a buffer are its leading values. -/
theorem leadingValues_of_prefix {bytes : List Byte} {buf : List (Option Byte)} (h : ∀ j < bytes.length, buf.getD j none = bytes[j]?) :
    leadingValues buf = bytes ++ leadingValues (buf.drop bytes.length) := by
  induction bytes generalizing buf with
  | nil => rfl
  | cons b bytes ih =>
    have h0 : buf.getD 0 none = some b := h 0 (Nat.succ_pos _)
    match buf with
    | [] => cases h0
    | x :: buf =>
      obtain rfl : x = some b := h0
      rw [leadingValues, ih fun j hj => h (j + 1) (Nat.succ_lt_succ hj)]
      rfl

/-- A buffer that starts with the encoding of a request it can hold decodes to that request (R104). -/
theorem fetchInstr_of_prefix {s : State} {i : Instr} (hwf : i.wf s.params.w = true)
    (h : ∀ j < (encode i).length, bufByte s j = (encode i)[j]?) : fetchInstr s = .ok i := by
  rw [fetchInstr, leadingValues_of_prefix h, decodeOfEncode _ _ _ hwf]

/-- Settles O13: after the last byte the buffer starts with the encoding of what it can hold of the request, and that decodes. -/
theorem receiverRefinesDecoder : Obligations.ReceiverRefinesDecoder := by
  intro s i later hown hreset hbuf hphase hcount hexpected hwf hqueue
  have hframe := encode_hasLength hwf
  have hstart : Receiving s (encode i) later 0 s :=
    { own := hown, noReset := hreset, params := rfl, buf := hbuf, count := hcount, expected := hexpected,
      phase := hphase.trans (if_neg (Nat.ne_of_lt (by have := hframe.1; omega))).symm, queue := hqueue, received := nofun,
      rest := fun _ _ => rfl, loc := rfl, flash := rfl, cfg := rfl }
  obtain ⟨t, hrun, ht⟩ := receiving_runSteps hframe hstart le_rfl
  refine ⟨t, hrun, ht.phase.trans (if_pos rfl), fetchInstr_of_prefix (ht.params ▸ heldPart_wf hwf _) fun j hj => ?_, ?_, ht.loc,
    ht.received, ht.rest, ht.flash, ht.cfg⟩
  · rw [encode_heldPart, List.length_take] at hj
    rw [encode_heldPart, List.getElem?_take, if_pos (by omega)]
    exact ht.received j (by omega) (by omega)
  · rw [ht.queue, List.drop_length, List.nil_append]

end Sys2Proof.Proofs.ReceiveFrame
end

section
/-! PROOFS. A request in `DISPATCH`, said once for all commands: what the dispatcher fetches (40_frame_codec.md R104), the start, the port operation
and the end of each command (43_dispatch_and_reads.md R165), and what one port operation leaves unchanged. -/

namespace Sys2Proof.Proofs.Requests

open Sys2Proof.Machine Sys2Proof.Safety Sys2Proof.Proofs.RequestLength Sys2Proof.Proofs.Encoding Sys2Proof.Proofs.ReceiveFrame

/-! ## The fetched request -/

theorem getD_of_leadingValues {buf : List (Option Byte)} {j : Nat} {b : Byte} (h : (leadingValues buf)[j]? = some b) :
    buf.getD j none = some b := by
  induction buf generalizing j with
  | nil => cases h
  | cons x buf ih =>
    cases x with
    | none => cases h
    | some v =>
      cases j with
      | zero => exact h
      | succ j => exact ih h

theorem length_leadingValues {buf : List (Option Byte)} {m : Nat} (h : ∀ j < m, (buf.getD j none).isSome = true) :
    m ≤ (leadingValues buf).length := by
  induction buf generalizing m with
  | nil =>
    refine Nat.le_of_not_lt fun hm => ?_
    cases h 0 hm
  | cons x buf ih =>
    cases m with
    | zero => exact Nat.zero_le _
    | succ m =>
      obtain ⟨v, rfl⟩ := Option.isSome_iff_exists.mp (h 0 (Nat.succ_pos m))
      exact Nat.succ_le_succ (ih fun j hj => h (j + 1) (Nat.succ_lt_succ hj))

/-- The fetched request is the one whose encoding the buffer starts with (R104). -/
theorem fetchInstr_iff {s : State} {i : Instr} :
    fetchInstr s = .ok i ↔ i.wf s.params.w = true ∧ ∀ j < (encode i).length, bufByte s j = (encode i)[j]? := by
  refine ⟨fun h => ?_, fun ⟨hwf, hbuf⟩ => fetchInstr_of_prefix hwf hbuf⟩
  unfold fetchInstr at h
  split at h
  case h_2 => cases h
  case h_1 rest hdecode =>
    cases h
    obtain ⟨hwf, hbytes⟩ := encodeOfDecode _ _ _ _ hdecode
    refine ⟨hwf, fun j hj => ?_⟩
    rw [List.getElem?_eq_getElem hj]
    refine getD_of_leadingValues ?_
    rw [← hbytes, List.getElem?_append_left hj, List.getElem?_eq_getElem hj]

theorem fetchInstr_wf {s : State} {i : Instr} (h : fetchInstr s = .ok i) : i.wf s.params.w = true := (fetchInstr_iff.mp h).1

theorem fetchInstr_congr {s t : State} (hparams : t.params = s.params) (hbuf : t.buf = s.buf) : fetchInstr t = fetchInstr s := by
  rw [fetchInstr, fetchInstr, hparams, hbuf]

/-- A request without an unlock pair carries no payload: it is its nine header bytes (30_encoding.md R76, R82). -/
theorem length_encode_of_not_mutating {cap : Nat} {i : Instr} (hwf : i.wf cap = true) (hi : isMutating i = false) :
    (encode i).length = 9 := by
  rw [length_encode]
  cases i with
  | writeFlash h data | eraseFlash h | writeEEData h data | writeConfig h data => cases hi
  | readVersion h | readFlash h | readEEData h | readConfig h | calcChecksum h | resetDevice h | invalid code h => rfl

/-- Payload bytes written by a request that needs no pair leave the request itself as it was (43_dispatch_and_reads.md R186). -/
theorem fetchInstr_bufSet {s : State} {i : Instr} (h : fetchInstr s = .ok i) (hi : isMutating i = false) {j : Nat} (hj : 9 ≤ j)
    (v : Byte) : fetchInstr (bufSet j v s) = .ok i := by
  obtain ⟨hwf, hbuf⟩ := fetchInstr_iff.mp h
  refine fetchInstr_iff.mpr ⟨hwf, fun k hk => ?_⟩
  have hlen := length_encode_of_not_mutating hwf hi
  rw [bufByte_bufSet_ne (by omega)]
  exact hbuf k hk

/-- A buffer with nine header bytes and the payload they ask for decodes (R104). -/
theorem exists_fetchInstr {s : State} {c l0 l1 : Byte} (h0 : bufByte s 0 = some c) (h1 : bufByte s 1 = some l0)
    (h2 : bufByte s 2 = some l1) (hbuf : ∀ j < requestLength c l0 l1, j < 9 + s.params.w → HasByte s j) :
    ∃ i, fetchInstr s = .ok i := by
  have hlen : min (requestLength c l0 l1) (9 + s.params.w) ≤ (leadingValues s.buf).length :=
    length_leadingValues fun j hj => hbuf j (by omega) (by omega)
  have hnine : 9 ≤ requestLength c l0 l1 := by
    unfold requestLength
    split <;> omega
  have hlead := fun j b => getD_of_leadingValues (buf := s.buf) (j := j) (b := b)
  unfold fetchInstr
  match hbytes : leadingValues s.buf with
  | c' :: l0' :: l1' :: k1 :: k2 :: a0 :: a1 :: a2 :: r :: tail =>
    rw [hbytes] at hlen hlead
    obtain rfl : c' = c := Option.some.inj ((hlead 0 c' rfl).symm.trans h0)
    obtain rfl : l0' = l0 := Option.some.inj ((hlead 1 l0' rfl).symm.trans h1)
    obtain rfl : l1' = l1 := Option.some.inj ((hlead 2 l1' rfl).symm.trans h2)
    have hpayload : ¬tail.length < payloadCount s.params.w c' (headerOf l0' l1' k1 k2 a0 a1 a2 r) := by
      simp only [requestLength, List.length_cons, payloadCount, headerOf] at hlen ⊢
      split at hlen <;> rename_i hc <;> simp only [hc, if_true, if_false, Bool.false_eq_true] <;> omega
    rw [decode_frame, if_neg hpayload]
    exact ⟨_, rfl⟩
  | [] | [_] | [_, _] | [_, _, _] | [_, _, _, _] | [_, _, _, _, _] | [_, _, _, _, _, _] | [_, _, _, _, _, _, _]
  | [_, _, _, _, _, _, _, _] =>
    rw [hbytes] at hlen
    simp only [List.length_cons, List.length_nil] at hlen
    omega

/-! ## The commands -/

/-- The commands that end at their dispatch start (44_writes_and_control.md R224, R228). -/
def endsAtStart : Instr → Bool
  | .resetDevice _ | .invalid _ _ => true
  | .readVersion _ | .readFlash _ | .writeFlash _ _ | .eraseFlash _ | .readEEData _ | .writeEEData _ _ | .readConfig _
  | .writeConfig _ _ | .calcChecksum _ => false

/-- The port operation of a command under an unlock pair; the two commands that end at their start perform none. -/
def opOf (pair : KeyPair) : Instr → Loc → State → Ctl
  | .readVersion _ => versionOp
  | .readFlash _ => readOp .flash nextAddr
  | .writeFlash _ data => writeFlashOp pair data
  | .eraseFlash _ => eraseFlashOp pair
  | .readEEData _ => readOp .ee nextEERead
  | .writeEEData _ data => writeEEOp pair data
  | .readConfig _ => readOp .cfg nextAddr
  | .writeConfig _ data => writeConfigOp pair data
  | .calcChecksum _ => checksumOp
  | .resetDevice _ | .invalid _ _ => fun _ s => .abort s

/-- The normal end of a command after its port operations. -/
def endOf : Instr → Loc → State → State
  | .readVersion _ => finishVersion
  | .readFlash _ | .readEEData _ | .readConfig _ => finishRead
  | .writeFlash _ _ | .eraseFlash _ | .writeEEData _ _ | .writeConfig _ _ => finishMutation
  | .calcChecksum _ => finishChecksum
  | .resetDevice _ | .invalid _ _ => fun _ s => abortOutOfRange s

/-- The pair a command works under; one that requires none never looks at it. -/
def pairOf (pair : Option KeyPair) : KeyPair := pair.getD ⟨0, 0⟩

/-- `exec` runs the start, the operations and the end of the command (R165). -/
theorem exec_eq_runCommand (i : Instr) (s : State) :
    exec i s = runCommand (startOf i s) (opOf (pairOf (requiredPair s.params i)) i) (endOf i) := by
  cases i with
  | readVersion h | readFlash h | writeFlash h data | eraseFlash h | readEEData h | writeEEData h data | readConfig h
  | writeConfig h data | calcChecksum h | resetDevice h | invalid code h => rfl

/-- A command goes on with one operation, under the pair of its command-local state. -/
theorem operateOn_eq_operate {i : Instr} {l : Loc} (hi : endsAtStart i = false) (hpair : isMutating i = true → l.pair.isSome = true)
    (s : State) : operateOn i l s = operate (opOf (pairOf l.pair) i) (endOf i) l s := by
  cases i with
  | readVersion h | readFlash h | readEEData h | readConfig h | calcChecksum h => rfl
  | writeFlash h data | eraseFlash h | writeEEData h data | writeConfig h data =>
    obtain ⟨pair, hpair⟩ := Option.isSome_iff_exists.mp (hpair rfl)
    simp only [operateOn, withPair, hpair]
    rfl
  | resetDevice h | invalid code h => cases hi

/-- A command that does not fault in the middle has operations, and the pair it needs. -/
theorem operateOn_next {i : Instr} {l : Loc} {s t : State} (h : operateOn i l s = .next t) :
    endsAtStart i = false ∧ (isMutating i = true → l.pair.isSome = true) := by
  have hpair : ∀ k, withPair l k = .next t → l.pair.isSome = true := fun k hk => by
    unfold withPair at hk
    split at hk
    case h_1 pair hsome => exact Option.isSome_iff_exists.mpr ⟨pair, hsome⟩
    case h_2 => cases hk
  cases i with
  | readVersion h | readFlash h | readEEData h | readConfig h | calcChecksum h => exact ⟨rfl, nofun⟩
  | writeFlash h data | eraseFlash h | writeEEData h data | writeConfig h data => exact ⟨rfl, fun _ => hpair _ h⟩
  | resetDevice h' | invalid code h' => cases h

/-! ## The dispatch start -/

/-- The first cursor and the number of elements of a request that passed its start checks (R170 to R217). -/
def StartsAt (p : Params) (cur : Addr) (n : Nat) : Instr → Prop
  | .readVersion _ => cur = versionAddr p 0 ∧ n = 6
  | .readFlash h | .readConfig h | .writeFlash h _ | .writeConfig h _ => cur = h.addr ∧ n = h.dlen.toNat ∧ n ≤ p.w
  | .readEEData h | .writeEEData h _ => cur = eeCursor (eeAddr h) ∧ n = h.dlen.toNat ∧ n ≤ p.w
  | .eraseFlash h => cur = eraseRowOf p h.addr ∧ n = h.dlen.toNat
  | .calcChecksum h => cur = h.addr ∧ n = checksumCount p h
  | .resetDevice _ | .invalid _ _ => False

theorem StartsAt.endsAtStart {p : Params} {cur : Addr} {n : Nat} {i : Instr} (h : StartsAt p cur n i) : endsAtStart i = false := by
  cases i with
  | readVersion _ | readFlash _ | writeFlash _ _ | eraseFlash _ | readEEData _ | writeEEData _ _ | readConfig _ | writeConfig _ _
  | calcChecksum _ => rfl
  | resetDevice _ | invalid _ _ => exact h.elim

/-- What the dispatch start of a request leads to (43_dispatch_and_reads.md R165): its loop with the keys loaded, an abort, or, for the two
commands without operations, their end. -/
inductive StartCase (i : Instr) (s : State) : Start → Prop
  | loop (cur : Addr) (n : Nat) (hstart : StartsAt s.params cur n i) :
      StartCase i s (startLoop i.header cur n (requiredPair s.params i) s)
  | refused (hi : endsAtStart i = false) : StartCase i s (startAbort i.header s)
  | illFormed (hwf : i.wf s.params.w = false) : StartCase i s (.refused .illFormedPayload)
  | resetDevice (h : Header) (hi : i = .resetDevice h) : StartCase i s (.ended (resetDeviceEnd h s))
  | invalid (code : Byte) (h : Header) (hi : i = .invalid code h) : StartCase i s (.ended (invalidEnd code h s))

/-- A payload shorter than a length field that fits the buffer is no payload of a request. -/
theorem payloadOk_eq_false {w : Nat} {h : Header} {data : List Byte} (hfits : h.dlen.toNat ≤ w) (hshort : data.length < h.dlen.toNat) :
    payloadOk w h data = false := by
  refine beq_eq_false_iff_ne.mpr ?_
  omega

theorem startOf_cases (i : Instr) (s : State) : StartCase i s (startOf i s) := by
  have fits {h : Header} (hover : ¬overCapacity s.params h = true) : h.dlen.toNat ≤ s.params.w := by
    simpa [overCapacity] using hover
  cases i with
  | readVersion h => exact .loop _ _ ⟨rfl, rfl⟩
  | readFlash h =>
    simp only [startOf, startReadFlash]
    split
    case isTrue => exact .refused (i := .readFlash h) rfl
    case isFalse hover => exact .loop (i := .readFlash h) _ _ ⟨rfl, rfl, fits hover⟩
  | writeFlash h data =>
    simp only [startOf, startWriteFlash]
    split
    case isTrue => exact .refused (i := .writeFlash h data) rfl
    case isFalse hover =>
      split
      case isTrue hshort => exact .illFormed (i := .writeFlash h data) (payloadOk_eq_false (fits hover) hshort)
      case isFalse =>
        split
        · exact .loop (i := .writeFlash h data) _ _ ⟨rfl, rfl, fits hover⟩
        · exact .refused (i := .writeFlash h data) rfl
  | eraseFlash h =>
    simp only [startOf, startEraseFlash]
    split
    · exact .loop (i := .eraseFlash h) _ _ ⟨rfl, rfl⟩
    · exact .refused (i := .eraseFlash h) rfl
  | readEEData h =>
    simp only [startOf, startReadEEData]
    split
    case isTrue => exact .refused (i := .readEEData h) rfl
    case isFalse hover => exact .loop (i := .readEEData h) _ _ ⟨rfl, rfl, fits hover⟩
  | writeEEData h data =>
    simp only [startOf, startWriteEEData]
    split
    case isTrue => exact .refused (i := .writeEEData h data) rfl
    case isFalse hover =>
      split
      case isTrue hshort => exact .illFormed (i := .writeEEData h data) (payloadOk_eq_false (fits hover) hshort)
      case isFalse => exact .loop (i := .writeEEData h data) _ _ ⟨rfl, rfl, fits hover⟩
  | readConfig h =>
    simp only [startOf, startReadConfig]
    split
    case isTrue => exact .refused (i := .readConfig h) rfl
    case isFalse hover =>
      split
      · exact .loop (i := .readConfig h) _ _ ⟨rfl, rfl, fits hover⟩
      · exact .refused (i := .readConfig h) rfl
  | writeConfig h data =>
    simp only [startOf, startWriteConfig]
    split
    case isTrue => exact .refused (i := .writeConfig h data) rfl
    case isFalse hover =>
      split
      case isTrue hshort => exact .illFormed (i := .writeConfig h data) (payloadOk_eq_false (fits hover) hshort)
      case isFalse =>
        split
        · exact .loop (i := .writeConfig h data) _ _ ⟨rfl, rfl, fits hover⟩
        · exact .refused (i := .writeConfig h data) rfl
  | calcChecksum h => exact .loop _ _ ⟨rfl, rfl⟩
  | resetDevice h => exact .resetDevice h rfl
  | invalid code h => exact .invalid code h rfl

/-! ## What one port operation does to the rest of the machine -/

/-- What one port operation may write, as it is in `u`: the frame buffer, the command-local state, the unlock state machine, the memories and
the count of draws. -/
def withOperated (u s : State) : State :=
  { s with
    buf := u.buf, loc := u.loc, ustate := u.ustate, flash := u.flash, ee := u.ee, cfg := u.cfg, rowBuf := u.rowBuf,
    cfgRec := u.cfgRec, eeBusy := u.eeBusy, draws := u.draws }

/-- Nothing else differs. -/
def OpFrame (s u : State) : Prop := u = withOperated u s

section
variable {s u : State} (h : OpFrame s u)
include h

theorem OpFrame.params : u.params = s.params := (congrArg State.params h).trans rfl
theorem OpFrame.k1 : u.k1 = s.k1 := (congrArg State.k1 h).trans rfl
theorem OpFrame.k2 : u.k2 = s.k2 := (congrArg State.k2 h).trans rfl
theorem OpFrame.resetPending : u.resetPending = s.resetPending := (congrArg State.resetPending h).trans rfl
theorem OpFrame.phase : u.phase = s.phase := (congrArg State.phase h).trans rfl
theorem OpFrame.resetRequest : u.resetRequest = s.resetRequest := (congrArg State.resetRequest h).trans rfl
theorem OpFrame.eeStuck : u.eeStuck = s.eeStuck := (congrArg State.eeStuck h).trans rfl
theorem OpFrame.resetAfter : u.resetAfter = s.resetAfter := (congrArg State.resetAfter h).trans rfl
theorem OpFrame.owner : u.owner = s.owner := (congrArg State.owner h).trans rfl

theorem OpFrame.trans {t : State} (h' : OpFrame u t) : OpFrame s t := Eq.trans h' ((congrArg (withOperated t) h).trans rfl)

end

theorem opFrame_refl (s : State) : OpFrame s s := rfl

theorem writeFlashOp_frame (pair : KeyPair) (data : List Byte) (l : Loc) (s : State) :
    CtlSat (fun _ => OpFrame s) (OpFrame s) (OpFrame s) (writeFlashOp pair data l s) := by
  unfold writeFlashOp
  split
  · exact rfl
  · split <;> exact rfl

theorem eraseFlashOp_frame (pair : KeyPair) (l : Loc) (s : State) :
    CtlSat (fun _ => OpFrame s) (OpFrame s) (OpFrame s) (eraseFlashOp pair l s) := by
  unfold eraseFlashOp
  split <;> exact rfl

theorem writeEEOp_frame (pair : KeyPair) (data : List Byte) (l : Loc) (s : State) :
    CtlSat (fun _ => OpFrame s) (OpFrame s) (OpFrame s) (writeEEOp pair data l s) := by
  unfold writeEEOp
  split
  · exact rfl
  · split <;> exact rfl

theorem writeConfigOp_frame (pair : KeyPair) (data : List Byte) (l : Loc) (s : State) :
    CtlSat (fun _ => OpFrame s) (OpFrame s) (OpFrame s) (writeConfigOp pair data l s) := by
  unfold writeConfigOp
  split
  · exact rfl
  · split <;> exact rfl

theorem opOf_frame (pair : KeyPair) (i : Instr) (l : Loc) (s : State) :
    CtlSat (fun _ => OpFrame s) (OpFrame s) (OpFrame s) (opOf pair i l s) := by
  cases i with
  | readVersion h | readFlash h | readEEData h | readConfig h | calcChecksum h | resetDevice h | invalid code h => exact rfl
  | writeFlash h data => exact writeFlashOp_frame pair data l s
  | eraseFlash h => exact eraseFlashOp_frame pair l s
  | writeEEData h data => exact writeEEOp_frame pair data l s
  | writeConfig h data => exact writeConfigOp_frame pair data l s

/-- The operations of one command go on, abort or hold with the frame of its start. -/
theorem opOf_keepsFrame (pair : KeyPair) (i : Instr) {s0 s : State} (h : OpFrame s0 s) (l : Loc) :
    CtlSat (fun _ => OpFrame s0) (OpFrame s0) (OpFrame s0) (opOf pair i l s) :=
  (opOf_frame pair i l s).mono (fun _ _ => h.trans) (fun _ => h.trans) (fun _ => h.trans)

/-- A whole loop keeps the frame too. -/
theorem continueLoop_frame (pair : KeyPair) (i : Instr) (l : Loc) (s : State) :
    CtlSat (fun _ => OpFrame s) (OpFrame s) (OpFrame s) (continueLoop (opOf pair i) l s) :=
  runLoop_sat (element_sat (fun _ _ h => h) (fun _ _ _ h _ => h.trans rfl) fun l _ h => opOf_keepsFrame pair i h l) _ l s
    (opFrame_refl s)

/-! ## Where one port operation leads -/

/-- The command-local state after an operation: the second operation of the same element is next, or the next element is. -/
def OpNext (l l' : Loc) : Prop :=
  l'.n = l.n ∧ l'.pair = l.pair ∧
    ((l.second = false ∧ l'.second = true ∧ l'.i = l.i ∧ l'.cur = l.cur) ∨ (l'.second = false ∧ l'.i = l.i + 1))

theorem opNext_secondNext {l : Loc} (h : ¬l.second = true) : OpNext l (secondNext l) :=
  ⟨rfl, rfl, .inl ⟨Bool.eq_false_of_not_eq_true h, rfl, rfl, rfl⟩⟩

theorem opNext_nextLoc (cur : Addr) (l : Loc) : OpNext l (nextLoc cur l) := ⟨rfl, rfl, .inr ⟨rfl, rfl⟩⟩

/-- A hold of Write EE Data: the EEPROM is busy, and the command is recorded where it stands (R213). -/
def HoldsAt (i : Instr) (l : Loc) (s t : State) : Prop :=
  (∃ h data, i = .writeEEData h data) ∧ l.second = false ∧ s.eeBusy.isSome = true ∧ t = suspend l s

theorem opOf_next (pair : KeyPair) (i : Instr) (l : Loc) (s : State) :
    CtlSat (fun l' _ => OpNext l l') (fun _ => True) (HoldsAt i l s) (opOf pair i l s) := by
  cases i with
  | readVersion h | readFlash h | readEEData h | readConfig h | calcChecksum h => exact ⟨rfl, rfl, .inr ⟨rfl, rfl⟩⟩
  | resetDevice h | invalid code h => trivial
  | writeFlash h data =>
    simp only [opOf, writeFlashOp]
    split
    · exact opNext_nextLoc _ l
    · rename_i hsecond
      split
      · show OpNext l (if _ then _ else _)
        split
        · exact opNext_secondNext hsecond
        · exact opNext_nextLoc _ l
      · trivial
  | eraseFlash h =>
    simp only [opOf, eraseFlashOp]
    split
    · exact opNext_nextLoc _ l
    · trivial
  | writeEEData h data =>
    simp only [opOf, writeEEOp]
    split
    · exact opNext_nextLoc _ l
    · rename_i hsecond
      split
      · rename_i hbusy
        exact ⟨⟨h, data, rfl⟩, Bool.eq_false_of_not_eq_true hsecond, hbusy, rfl⟩
      · exact opNext_secondNext hsecond
  | writeConfig h data =>
    simp only [opOf, writeConfigOp]
    split
    · exact opNext_nextLoc _ l
    · rename_i hsecond
      split
      · exact opNext_secondNext hsecond
      · trivial

theorem CtlSat.and {G G' : Loc → State → Prop} {A A' S S' : State → Prop} {r : Ctl} (h : CtlSat G A S r) (h' : CtlSat G' A' S' r) :
    CtlSat (fun l s => G l s ∧ G' l s) (fun s => A s ∧ A' s) (fun s => S s ∧ S' s) r := by
  cases r with
  | go l s | abort s | stop s => exact ⟨h, h'⟩

/-! ## The elements of a loop, counted -/

section
variable {op : Loc → State → Ctl} {G : Loc → State → Prop} {A S : State → Prop}

/-- What every operation keeps while elements are to come, an element keeps, and it leads to the next one. -/
theorem element_sat_counted (hfresh : ∀ l s, G l s → G { l with second := false } s)
    (hready : ∀ l s t, G l s → op l s = .stop t → G l (completeEE s))
    (hop : ∀ l s, l.i < l.n → G l s → CtlSat (fun l' s' => G l' s' ∧ OpNext l l') A S (op l s)) {l : Loc} {s : State}
    (hi : l.i < l.n) (h : G l s) :
    CtlSat (fun l' s' => G l' s' ∧ l'.n = l.n ∧ l'.i = l.i + 1) A S (element op l s) := by
  have hw : CtlSat (fun l' s' => G l' s' ∧ OpNext { l with second := false } l') A S (whenReady op { l with second := false } s) := by
    have hb := hop { l with second := false } s hi (hfresh l s h)
    unfold whenReady
    cases heq : op { l with second := false } s with
    | go l' s' => rw [heq] at hb; exact hb
    | abort s' => rw [heq] at hb; exact hb
    | stop s' =>
      rw [heq] at hb
      show CtlSat _ _ _ (if s.eeStuck then _ else _)
      split
      · exact hb
      · exact hop _ _ hi (hready _ _ _ (hfresh l s h) heq)
  unfold element
  cases heq : whenReady op { l with second := false } s with
  | abort s' => rw [heq] at hw; exact hw
  | stop s' => rw [heq] at hw; exact hw
  | go l' s' =>
    rw [heq] at hw
    obtain ⟨hg, hn, -, hnext⟩ := hw
    show CtlSat _ _ _ (if l'.second then _ else _)
    rcases hnext with ⟨-, hsecond, hi', -⟩ | ⟨hsecond, hi'⟩
    · have hi' : l'.i = l.i := hi'
      rw [if_pos hsecond]
      refine (hop l' s' (by rw [hn, hi']; exact hi) hg).mono (fun l'' s'' ⟨hg', hn', _, hnext'⟩ => ?_) (fun _ => id) (fun _ => id)
      rcases hnext' with ⟨hfalse, -⟩ | ⟨-, hi''⟩
      · rw [hsecond] at hfalse
        cases hfalse
      · exact ⟨hg', hn'.trans hn, by rw [hi'', hi']⟩
    · rw [if_neg (by rw [hsecond]; exact nofun)]
      exact ⟨hg, hn, hi'⟩

/-- A loop that every element leads on ends after its last element. -/
theorem runLoop_sat_counted {body : Loc → State → Ctl}
    (hbody : ∀ l s, l.i < l.n → G l s → CtlSat (fun l' s' => G l' s' ∧ l'.n = l.n ∧ l'.i = l.i + 1) A S (body l s)) :
    ∀ k l s, l.i + k = l.n → G l s → CtlSat (fun l' s' => G l' s' ∧ l'.n = l.n ∧ l'.i = l.n) A S (runLoop body k l s) := by
  intro k
  induction k with
  | zero => exact fun l s hi h => ⟨h, rfl, hi⟩
  | succ k ih =>
    intro l s hi h
    rw [runLoop]
    have hb := hbody l s (by omega) h
    cases heq : body l s with
    | abort s' => rw [heq] at hb; exact hb
    | stop s' => rw [heq] at hb; exact hb
    | go l' s' =>
      rw [heq] at hb
      obtain ⟨hg, hn, hi'⟩ := hb
      rw [← hn]
      exact ih l' s' (by omega) hg

theorem continueLoop_sat_counted (hfresh : ∀ l s, G l s → G { l with second := false } s)
    (hready : ∀ l s t, G l s → op l s = .stop t → G l (completeEE s))
    (hop : ∀ l s, l.i < l.n → G l s → CtlSat (fun l' s' => G l' s' ∧ OpNext l l') A S (op l s)) {l : Loc} {s : State}
    (hi : l.i ≤ l.n) (h : G l s) :
    CtlSat (fun l' s' => G l' s' ∧ l'.n = l.n ∧ l'.i = l.n) A S (continueLoop op l s) :=
  runLoop_sat_counted (fun _ _ hi h => element_sat_counted hfresh hready hop hi h) _ l s (by omega) h

end

end Sys2Proof.Proofs.Requests
end

section
/-! PROOFS. The device reset and the boot decision (70_reset_and_hazards.md R260 to R271; 10_state.md R35; 20_memory.md R64). -/

namespace Sys2Proof.Proofs.Reset

open Sys2Proof.Machine Sys2Proof.Safety Sys2Proof.Proofs.PayloadReads Sys2Proof.Proofs.Steps

/-! ## The device reset -/

/-- Reading the application vector takes draws and does nothing else (20_memory.md R65). -/
theorem readFlashWord_state (n : Nat) (a : Addr) (s : State) : ∃ d, (readFlashWord n a s).2 = { s with draws := d } := by
  induction n generalizing a s with
  | zero => exact ⟨s.draws, rfl⟩
  | succ n ih =>
    obtain ⟨d, hd⟩ := ih (nextAddr a) (afterRead .flash a.toNat s)
    exact ⟨d, hd⟩

/-- After a device reset: the three resets, and the boot decision's draws and owner. -/
theorem deviceReset_eq (s : State) :
    ∃ d o, deviceReset s = { environmentReset (collaboratorsReset (blockReset s)) with draws := d, owner := o } := by
  obtain ⟨d, hd⟩ := readFlashWord_state ((s.params.appVectorWidth + 7) / 8) s.params.appVectorAddr
    (environmentReset (collaboratorsReset (blockReset s)))
  exact ⟨d, _, congrArg (fun u : State => { u with owner := (deviceReset s).owner }) hd⟩

theorem bufByte_replicate_none {s : State} {n : Nat} (h : s.buf = List.replicate n none) (j : Nat) : bufByte s j = none := by
  rw [bufByte, h, List.getD_eq_getElem?_getD, List.getElem?_replicate]
  split <;> rfl

/-- Settles O20: field by field, by `deviceReset_eq`. -/
theorem deviceResetRestoresBlock : Obligations.DeviceResetRestoresBlock := by
  intro s hreset
  obtain ⟨d, o, ht⟩ := deviceReset_eq s
  refine ⟨_, (step_of_reset hreset).trans (congrArg _ ht), rfl, List.length_replicate, bufByte_replicate_none rfl, rfl, rfl, rfl, rfl, rfl,
    rfl, rfl, rfl, rfl, rfl, rfl, rfl, rfl, rfl, fun _ => rfl, fun _ => rfl, fun _ => rfl, rfl⟩

/-! ## The boot decision -/

/-- The little-endian word of the `n` durable flash bytes from `a` on (R270; log 13). -/
def flashWord (m : Memory) : Nat → Addr → Nat
  | 0, _ => 0
  | n + 1, a => (Memory.read m a.toNat).toNat + 256 * flashWord m n (nextAddr a)

theorem nextAddr_add (a : Addr) (i : Nat) : nextAddr a + BitVec.ofNat 24 i = a + BitVec.ofNat 24 (i + 1) := by
  rw [nextAddr, BitVec.add_assoc, Nat.add_comm i 1, BitVec.ofNat_add]
  rfl

/-- Where the vector is implemented, the port gives its durable bytes (20_memory.md R56). -/
theorem readFlashWord_fst {s : State} {n : Nat} {a : Addr} (himpl : ImplementedFrom s .flash a n) :
    (readFlashWord n a s).1 = flashWord s.flash n a := by
  induction n generalizing a with
  | zero => rfl
  | succ n ih =>
    obtain ⟨hvalue, hafter⟩ := memRead_durable (by simpa using himpl 0 (Nat.succ_pos n)) (sp := .flash) nofun
    have hrest : ImplementedFrom s .flash (nextAddr a) n := fun i hi => by
      rw [nextAddr_add]
      exact himpl (i + 1) (Nat.succ_lt_succ hi)
    rw [readFlashWord, hvalue, hafter, ih hrest]
    rfl

theorem flashWord_lt (m : Memory) (n : Nat) (a : Addr) : flashWord m n a < 256 ^ n := by
  induction n generalizing a with
  | zero => exact Nat.one_pos
  | succ n ih =>
    have hbyte := (Memory.read m a.toNat).isLt
    have hrest := ih (nextAddr a)
    rw [flashWord, Nat.pow_succ]
    omega

/-- The word is all ones exactly when every byte of it is. -/
theorem flashWord_eq_iff (m : Memory) (n : Nat) (a : Addr) :
    flashWord m n a = 256 ^ n - 1 ↔ ∀ i < n, Memory.read m (a + BitVec.ofNat 24 i).toNat = 0xFF := by
  induction n generalizing a with
  | zero => exact ⟨fun _ _ h => absurd h (Nat.not_lt_zero _), fun _ => rfl⟩
  | succ n ih =>
    have hbyte := (Memory.read m a.toNat).isLt
    have hrest := flashWord_lt m n (nextAddr a)
    have hones : (Memory.read m a.toNat).toNat = 255 ↔ Memory.read m a.toNat = 0xFF := BitVec.toNat_inj (y := 0xFF)
    have hsplit : flashWord m (n + 1) a = 256 ^ (n + 1) - 1 ↔
        (Memory.read m a.toNat).toNat = 255 ∧ flashWord m n (nextAddr a) = 256 ^ n - 1 := by
      rw [flashWord, Nat.pow_succ]
      omega
    rw [hsplit, hones, ih, Nat.forall_lt_succ_left]
    simp only [nextAddr_add, BitVec.add_zero]

/-- Settles O21: the word read is the vector's bytes, and it is all ones exactly when they are. -/
theorem bootDecisionChoosesOwner : Obligations.BootDecisionChoosesOwner := by
  intro s n hreset hwidth himpl
  have hcount : (8 * n + 7) / 8 = n := by omega
  have hpow : 2 ^ (8 * n) = 256 ^ n := Nat.pow_mul 2 8 n
  have hword : (readAppVector (environmentReset (collaboratorsReset (blockReset s)))).1 = flashWord s.flash n s.params.appVectorAddr := by
    have hfst := readFlashWord_fst (s := environmentReset (collaboratorsReset (blockReset s))) himpl
    change (readFlashWord ((s.params.appVectorWidth + 7) / 8) s.params.appVectorAddr _).1 % 2 ^ s.params.appVectorWidth = _
    rw [hwidth, hcount, hpow, hfst]
    exact Nat.mod_eq_of_lt (flashWord_lt s.flash n s.params.appVectorAddr)
  have howner : (deviceReset s).owner =
      if (∀ i < n, Memory.read s.flash (s.params.appVectorAddr + BitVec.ofNat 24 i).toNat = 0xFF) then .block
      else if s.requestLine then .block else .application := by
    have hdecide : (deviceReset s).owner =
        if flashWord s.flash n s.params.appVectorAddr = 2 ^ s.params.appVectorWidth - 1 then .block
        else if s.requestLine then .block else .application := by
      rw [← hword]
      rfl
    rw [hdecide, hwidth, hpow]
    simp only [flashWord_eq_iff]
  refine ⟨_, step_of_reset hreset, fun hones => howner.trans (if_pos hones), fun hline => ?line, fun ⟨i, hi, hne⟩ hline => ?app⟩
  case line => rw [howner, hline, if_pos rfl, ite_self]
  case app => rw [howner, if_neg fun hones => hne (hones i hi), hline, if_neg Bool.false_ne_true]

end Sys2Proof.Proofs.Reset
end

section
/-! PROOFS. The invariant: it holds at reset, a state with it always steps, and every step keeps it (10_state.md R21 to R35; 40_frame_codec.md R101
to R108). -/

namespace Sys2Proof.Proofs.Invariant

open Sys2Proof.Machine Sys2Proof.Safety Sys2Proof.Proofs.RequestLength Sys2Proof.Proofs.ReceiveByte Sys2Proof.Proofs.GuardBounds
  Sys2Proof.Proofs.PayloadReads Sys2Proof.Proofs.FlashRoundTrip Sys2Proof.Proofs.Steps Sys2Proof.Proofs.Requests Sys2Proof.Proofs.Reset

/-! ## The forms that every operation keeps -/

/-- The memories have their canonical form, and the unlock state machine rests in LOCKED (42_unlock_sequence.md R147). -/
structure Stored (s : State) : Prop where
  flash  : Memory.wf s.flash
  ee     : Memory.wf s.ee
  cfg    : Memory.wf s.cfg
  rowBuf : cellsSorted s.rowBuf
  cfgRec : cellsSorted s.cfgRec
  ustate : s.ustate = .locked

theorem stored_of_inv {s : State} (h : Inv s) : Stored s := ⟨h.flash, h.ee, h.cfg, h.rowBuf, h.cfgRec, h.ustate⟩

section
variable {s : State} (h : Stored s)
include h

theorem Stored.commitFlash (row : Addr) (pair : KeyPair) : Stored (commitFlash row pair s) :=
  { h with
    flash := commitFlash_wf h.flash row pair
    rowBuf := commitFlash_sorted h.rowBuf row pair
    ustate := commitFlash_ustate row pair s }

theorem Stored.eraseRow (row : Addr) (pair : KeyPair) : Stored (eraseRow row pair s) :=
  { h with flash := eraseRow_wf h.flash row pair, ustate := eraseRow_ustate row pair s }

theorem Stored.eeWrite (a : Half) (v : Byte) (pair : KeyPair) : Stored (eeWrite a v pair s) :=
  { h with ustate := eeWrite_ustate a v pair s }

theorem Stored.commitCfg (a : Addr) (pair : KeyPair) : Stored (commitCfg a pair s) :=
  { h with
    cfg := commitCfg_wf h.cfg a pair
    cfgRec := commitCfg_sorted h.cfgRec a pair
    ustate := commitCfg_ustate a pair s }

theorem Stored.bufWrite (a : Addr) (v : Byte) : Stored (bufWrite a v s) := { h with rowBuf := cellsInsert_sorted h.rowBuf _ _ }

theorem Stored.cfgWrite (a : Addr) (v : Byte) : Stored (cfgWrite a v s) := { h with cfgRec := cellsInsert_sorted h.cfgRec _ _ }

theorem Stored.dropStale : Stored (dropStale s) := { h with rowBuf := dropStale_sorted h.rowBuf }

theorem Stored.completeEE : Stored (completeEE s) := { h with ee := eeAfterBusy_wf h.ee }

theorem Stored.tickEE : Stored (tickEE s) := { h with ee := tickEE_wf h.ee }

end

/-! ## The frame buffer only gains values -/

theorem hasByte_congr {s t : State} (h : t.buf = s.buf) (j : Nat) : HasByte t j ↔ HasByte s j := by
  rw [HasByte, HasByte, bufByte_congr h]

theorem hasByte_of_eq_some {s : State} {j : Nat} {v : Byte} (h : bufByte s j = some v) : HasByte s j := by
  rw [HasByte, h]
  rfl

theorem hasByte_bufSet {s : State} {j k : Nat} (h : HasByte s k) (v : Byte) : HasByte (bufSet j v s) k := by
  rw [HasByte, bufByte_bufSet]
  split
  · rfl
  · exact h

theorem hasByte_bufSet_self {s : State} {j : Nat} (h : j < s.buf.length) (v : Byte) : HasByte (bufSet j v s) j :=
  hasByte_of_eq_some ((bufByte_bufSet j j v s).trans (if_pos ⟨rfl, h⟩))

theorem hasByte_clearKeys {s : State} {j : Nat} (h : HasByte s j) : HasByte (clearKeys s) j := by
  rw [HasByte, bufByte_clearKeys]
  split
  · rfl
  · split
    · rfl
    · exact h

/-- The response to a command with a status byte: its header, and the status (30_encoding.md R84). -/
theorem hasByte_finish_status {u : State} (hheader : ∀ j < 9, HasByte u j) (hlen : 9 < u.buf.length) (v : Byte) (len : Nat) {j : Nat}
    (hj : j < 10) : HasByte (finish (some v) len u) j := by
  rw [HasByte, bufByte_finish_some]
  split
  · rfl
  · exact hheader j (by omega)

/-! ## A request in `DISPATCH` -/

/-- What the invariant says of a block that executes the request `i`, besides the command-local state: its frame has been received, its keys
are loaded, and it has answered nothing yet. -/
structure Executing (i : Instr) (p : Params) (s : State) : Prop where
  params   : s.params = p
  buf      : s.buf.length = 9 + p.w
  stored   : Stored s
  counters : 9 ≤ s.rxExpected ∧ s.rxExpected ≤ 65544 ∧ s.rxCount = s.rxExpected
  received : ∀ j < s.rxCount, j < 9 + p.w → HasByte s j
  length   : ∃ c l0 l1, bufByte s 0 = some c ∧ bufByte s 1 = some l0 ∧ bufByte s 2 = some l1 ∧ s.rxExpected = requestLength c l0 l1
  phase    : s.phase = .dispatch
  pending  : s.resetPending = false
  request  : s.resetRequest = false
  quiet    : s.respLen = none ∧ s.txIndex = none
  fetched  : fetchInstr s = .ok i
  keys     : KeysLoaded i.header s

section
variable {i : Instr} {p : Params} {s : State} (h : Executing i p s)
include h

theorem Executing.header {j : Nat} (hj : j < 9) : HasByte s j := by
  obtain ⟨hnine, -, hcount⟩ := h.counters
  exact h.received j (by omega) (by omega)

theorem Executing.bufSet (hi : isMutating i = false) {j : Nat} (hj : 9 ≤ j) (v : Byte) : Executing i p (bufSet j v s) := by
  have hsame : ∀ k < 9, bufByte (Machine.bufSet j v s) k = bufByte s k := fun k hk => bufByte_bufSet_ne (by omega) v s
  obtain ⟨c, l0, l1, h0, h1, h2, hlen⟩ := h.length
  exact { h with
    buf := (length_bufSet j v s).trans h.buf
    stored := { h.stored with }
    received := fun k hk hcap => hasByte_bufSet (h.received k hk hcap) v
    length := ⟨c, l0, l1, (hsame 0 (by decide)).trans h0, (hsame 1 (by decide)).trans h1, (hsame 2 (by decide)).trans h2, hlen⟩
    fetched := fetchInstr_bufSet h.fetched hi hj v }

end

theorem not_mutating_of_no_pair {p : Params} {i : Instr} (h : ∀ pair, ¬requiredPair p i = some pair) : isMutating i = false := by
  cases i with
  | writeFlash h' data | eraseFlash h' | writeEEData h' data | writeConfig h' data => exact absurd rfl (h _)
  | readVersion h' | readFlash h' | readEEData h' | readConfig h' | calcChecksum h' | resetDevice h' | invalid code h' => rfl

theorem dvd_eraseRowOf {p : Params} (he : isPowerOfTwo p.e) (a : Addr) : p.e ∣ (eraseRowOf p a).toNat := by
  rw [eraseRowOf_toNat he]
  exact Nat.dvd_sub_mod _

/-- The cursor of an erase stays at the start of a row (20_memory.md R57; 44_writes_and_control.md R207). -/
theorem eraseRowOf_nextRow {p : Params} (he : isPowerOfTwo p.e) {a : Addr} (ha : eraseRowOf p a = a) :
    eraseRowOf p (nextRow p a) = nextRow p a := by
  have hdvd : p.e ∣ a.toNat := ha ▸ dvd_eraseRowOf he a
  refine eraseRowOf_of_dvd he ?_
  rw [nextRow, BitVec.toNat_add, BitVec.toNat_ofNat]
  have hspace := dvd_of_isPowerOfTwo he
  exact (Nat.dvd_mod_iff hspace).mpr (Nat.dvd_add hdvd ((Nat.dvd_mod_iff hspace).mpr dvd_rfl))

/-- Every operation of the request keeps it executing. -/
theorem executing_keeps {p : Params} (hwf : p.wf) (i : Instr) :
    Keeps (fun pair => requiredPair p i = some pair) (fun a => eraseRowOf p a = a) (Executing i p) where
  suspend _ _ h := { h with stored := { h.stored with } }
  afterRead _ _ _ h := { h with stored := { h.stored with } }
  bufSet _ v _ hj hnone h := h.bufSet (not_mutating_of_no_pair hnone) hj v
  bufWrite a v _ _ h := { h with stored := h.stored.bufWrite a v }
  dropStale _ _ h := { h with stored := h.stored.dropStale }
  commitFlash _ pair _ _ _ h := { h with stored := h.stored.commitFlash _ pair }
  eraseRow _ pair _ _ _ _ h := { h with stored := h.stored.eraseRow _ pair }
  nextRow _ _ hc h := h.params.symm ▸ eraseRowOf_nextRow hwf.2.2.1 hc
  completeEE _ _ h := { h with stored := h.stored.completeEE }
  tickEE _ _ h := { h with stored := h.stored.tickEE }
  eeWrite a v pair _ _ h := { h with stored := h.stored.eeWrite a v pair }
  cfgWrite a v _ _ h := { h with stored := h.stored.cfgWrite a v }
  commitCfg _ pair _ _ _ h := { h with stored := h.stored.commitCfg _ pair }

/-! ## A request in the middle of its port operations -/

/-- The request is executing and its command-local state is right for it, with an element to come or none. -/
structure Midway (i : Instr) (p : Params) (l : Loc) (s : State) : Prop where
  executing : Executing i p s
  pair      : l.pair = requiredPair p i
  soFar     : SoFar i l s

theorem soFar_fresh {i : Instr} {l : Loc} {s : State} (h : SoFar i l s) : SoFar i { l with second := false } s := by
  cases i with
  | writeFlash h' data | writeConfig h' data => exact nofun
  | readVersion _ | readFlash _ | eraseFlash _ | readEEData _ | writeEEData _ _ | readConfig _ | calcChecksum _ | resetDevice _
  | invalid _ _ => exact h

/-- How far a request has come is told by its buffer and its command-local state. -/
theorem soFar_congr {i : Instr} {l : Loc} {s t : State} (hparams : t.params = s.params) (hbuf : t.buf = s.buf) :
    SoFar i l t ↔ SoFar i l s := by
  cases i with
  | readVersion _ | readFlash _ | writeFlash _ _ | eraseFlash _ | readEEData _ | writeEEData _ _ | readConfig _ | writeConfig _ _
  | calcChecksum _ | resetDevice _ | invalid _ _ => simp only [SoFar, hparams, hasByte_congr hbuf]

theorem readOp_soFar {p : Params} {sp : Space} {l : Loc} {s : State} (hbuf : s.buf.length = 9 + p.w)
    (hi : l.i < l.n) (hn : l.n ≤ p.w) (hread : ∀ j < 9 + l.i, HasByte s j) {j : Nat} (hj : j < 9 + (l.i + 1)) :
    HasByte (bufSet (9 + l.i) (memValue sp l.cur.toNat s) (afterRead sp l.cur.toNat s)) j := by
  rcases Nat.lt_succ_iff_lt_or_eq.mp hj with hlt | rfl
  · exact hasByte_bufSet (hread j hlt) _
  · exact hasByte_bufSet_self (by rw [afterRead_buf, hbuf]; omega) _

section
variable {i : Instr} {p : Params} (hwf : p.wf)
include hwf

/-- One port operation of a request in the middle, with an element to come. -/
theorem Midway.op {l : Loc} {s : State} (h : Midway i p l s) (hi : l.i < l.n) :
    CtlSat (fun l' s' => Executing i p s' ∧ SoFar i l' s') (Executing i p) (Executing i p) (opOf (pairOf l.pair) i l s) := by
  have hP := executing_keeps hwf i
  obtain ⟨hexec, hpair, hsoFar⟩ := h
  have hread : isMutating i = false → ∀ {j : Nat}, 9 ≤ j → ∀ v sp a, Executing i p (bufSet j v (afterRead sp a s)) :=
    fun hmut _ hj v sp a => (hP.afterRead sp a s hexec).bufSet hmut hj v
  rw [hpair]
  cases i with
  | readVersion h =>
    obtain ⟨hn, hslots⟩ := hsoFar
    have hslot := versionSlot_ge l.i
    refine ⟨hread rfl (by omega) _ _ _, hn, fun k hk => ?_⟩
    have hlow := versionSlot_lt (k := l.i) (by omega)
    rcases Nat.lt_succ_iff_lt_or_eq.mp hk with hlt | rfl
    · exact hasByte_bufSet (hslots k hlt) _
    · exact hasByte_bufSet_self (by rw [afterRead_buf, hexec.buf]; have := hwf.2.1; omega) _
  | readFlash h | readEEData h | readConfig h =>
    obtain ⟨hn, hbytes⟩ := hsoFar
    refine ⟨hread rfl (by omega) _ _ _, hn, fun j hj => readOp_soFar hexec.buf hi ?_ hbytes hj⟩
    rwa [← hexec.params]
  | calcChecksum h => exact ⟨hP.afterRead _ _ _ hexec, trivial⟩
  | resetDevice h | invalid code h => exact hsoFar.elim
  | writeFlash h data =>
    exact (hP.writeFlashOp rfl data l s ⟨hexec, hsoFar⟩).mono (fun _ _ h => h) (fun _ => id) (fun _ h => h.1)
  | eraseFlash h =>
    rw [SoFar, hexec.params] at hsoFar
    refine (hP.eraseFlashOp rfl l s ⟨hexec, hsoFar⟩).mono (fun l' s' ⟨h, hc⟩ => ⟨h, ?_⟩) (fun _ => id) (fun _ h => h.1)
    rwa [SoFar, h.params]
  | writeEEData h data =>
    exact (hP.writeEEOp rfl data l s hexec).mono (fun _ _ h => ⟨h, trivial⟩) (fun _ => id) (fun _ h => h.1)
  | writeConfig h data =>
    exact (hP.writeConfigOp rfl data l s ⟨hexec, hsoFar⟩).mono (fun _ _ h => h) (fun _ => id) (fun _ h => h.1)

/-- A request that holds does so where it stands. -/
def Holding (i : Instr) (p : Params) (t : State) : Prop := ∃ l s, Midway i p l s ∧ l.i < l.n ∧ t = suspend l s

omit hwf in
theorem holding_intro {l : Loc} {s t : State} (h : Midway i p l s) (hi : l.i < l.n) (hholds : HoldsAt i l s t) : Holding i p t := by
  obtain ⟨-, -, -, rfl⟩ := hholds
  exact ⟨l, s, h, hi, rfl⟩

theorem Midway.step {l : Loc} {s : State} (h : Midway i p l s) (hi : l.i < l.n) :
    CtlSat (fun l' s' => Midway i p l' s' ∧ OpNext l l') (Executing i p) (Holding i p) (opOf (pairOf l.pair) i l s) :=
  (CtlSat.and (h.op hwf hi) (opOf_next (pairOf l.pair) i l s)).mono
    (fun _ _ ⟨⟨hexec, hsoFar⟩, hnext⟩ => ⟨⟨hexec, hnext.2.1.trans h.pair, hsoFar⟩, hnext⟩) (fun _ h => h.1)
    (fun _ hholds => holding_intro h hi hholds.2)

omit hwf in
theorem Midway.fresh {l : Loc} {s : State} (h : Midway i p l s) : Midway i p { l with second := false } s :=
  { h with soFar := soFar_fresh h.soFar }

omit hwf in
/-- Where a request holds, it may go on with the EEPROM's write complete. -/
theorem Midway.completeEE {l : Loc} {s : State} (h : Midway i p l s) : Midway i p l (completeEE s) :=
  { h with executing := { h.executing with stored := h.executing.stored.completeEE }, soFar := (soFar_congr rfl rfl).mpr h.soFar }

theorem Midway.loop {l : Loc} {s : State} (h : Midway i p l s) (hi : l.i ≤ l.n) :
    CtlSat (fun l' s' => Midway i p l' s' ∧ l'.n ≤ l'.i) (Executing i p) (Holding i p) (continueLoop (opOf (pairOf l.pair) i) l s) := by
  rw [h.pair]
  refine (continueLoop_sat_counted (G := Midway i p) (fun _ _ h => h.fresh) (fun _ _ _ h _ => h.completeEE) (fun l s hi h => ?_) hi h).mono
    (fun _ _ ⟨h, hn, hi⟩ => ⟨h, by omega⟩) (fun _ => id) (fun _ => id)
  have hop := h.step hwf hi
  rwa [h.pair] at hop

/-! ## The end of a request -/

omit hwf in
/-- A response of 9 to `9 + W` bytes, each with a value, has the invariant (40_frame_codec.md R107, R108). -/
theorem inv_finish {u : State} {st : Option Byte} {len : Nat} (hparams : u.params.wf) (hbuf : u.buf.length = 9 + u.params.w)
    (hstored : Stored u) (hcounters : 9 ≤ u.rxExpected ∧ u.rxExpected ≤ 65544 ∧ u.rxCount = u.rxExpected)
    (hrequest : u.resetRequest = false) (hlow : 9 ≤ len) (hhigh : len ≤ 9 + u.params.w)
    (hbytes : ∀ j < len, HasByte (finish st len u) j) : Inv (finish st len u) where
  params := hparams
  buf := (length_finish st len u).trans hbuf
  flash := hstored.flash
  ee := hstored.ee
  cfg := hstored.cfg
  rowBuf := hstored.rowBuf
  cfgRec := hstored.cfgRec
  ustate := hstored.ustate
  counters := ⟨hcounters.1, hcounters.2.1, hcounters.2.2.le⟩
  received := fun h => h.elim nofun nofun
  expected := fun h => h.elim nofun nofun
  receiving := nofun
  dispatching := nofun
  suspended := nofun
  pending := fun _ => .inl rfl
  request := ⟨fun h => absurd (hrequest.symm.trans h) Bool.false_ne_true, nofun⟩
  holding := nofun
  responding := fun _ => .inl ⟨len, rfl, hlow, hhigh, hbytes, .sync, rfl, nofun⟩
  quiet := fun h => absurd rfl h

theorem Executing.inv_abort {s : State} (h : Executing i p s) : Inv (abortOutOfRange s) := by
  obtain rfl := h.params
  have ⟨_, hw, _⟩ := hwf
  exact inv_finish hwf h.buf h.stored h.counters h.request (by decide) (by omega) fun _ =>
    hasByte_finish_status (fun _ => h.header) (by rw [h.buf]; omega) _ _

theorem Executing.inv_completeMutation {s : State} (h : Executing i p s) : Inv (completeMutation s) := by
  obtain rfl := h.params
  have ⟨_, hw, _⟩ := hwf
  exact inv_finish (u := clearKeys s) hwf ((length_clearKeys s).trans h.buf) { h.stored with } h.counters h.request (by decide)
    (show 10 ≤ 9 + s.params.w by omega) fun _ => hasByte_finish_status (fun _ hj => hasByte_clearKeys (h.header hj))
      (by rw [length_clearKeys, h.buf]; omega) _ _

theorem Executing.inv_finishRead {l : Loc} {s : State} (h : Executing i p s) (hn : l.n ≤ p.w) (hbytes : ∀ j < 9 + l.n, HasByte s j) :
    Inv (finishRead l s) := by
  obtain rfl := h.params
  exact inv_finish hwf h.buf h.stored h.counters h.request (Nat.le_add_right 9 _) (Nat.add_le_add_left hn 9) hbytes

theorem Executing.inv_finishChecksum {l : Loc} {s : State} (h : Executing i p s) : Inv (finishChecksum l s) := by
  obtain rfl := h.params
  have ⟨_, hw, _⟩ := hwf
  have hbuf := h.buf
  refine inv_finish (u := Machine.bufSet 10 (highByte l.sum) (Machine.bufSet 9 (lowByte l.sum) s)) hwf
    (by rw [length_bufSet, length_bufSet]; exact hbuf)
    { h.stored with } h.counters h.request (by decide) (show 11 ≤ 9 + s.params.w by omega) fun j hj => ?_
  rcases Nat.lt_succ_iff_lt_or_eq.mp hj with hlt | rfl
  · refine hasByte_bufSet ?_ _
    rcases Nat.lt_succ_iff_lt_or_eq.mp hlt with hlt | rfl
    · exact hasByte_bufSet (h.header hlt) _
    · exact hasByte_bufSet_self (by omega) _
  · exact hasByte_bufSet_self (by rw [length_bufSet]; omega) _

omit hwf in
/-- Every byte of Read Version's payload is written, by a port or at the end (43_dispatch_and_reads.md R170). -/
theorem hasByte_finishVersion {l : Loc} {s : State} (hlen : 25 ≤ s.buf.length) (hheader : ∀ j < 9, HasByte s j)
    (hslots : ∀ k < 6, HasByte s (versionSlot k)) {j : Nat} (hj : j < 25) : HasByte (finishVersion l s) j := by
  have hbyte : ∀ {bytes : List Byte} {k : Nat}, k < bytes.length → bytes[k]?.isSome = true := fun hk =>
    Option.isSome_iff_exists.mpr ⟨_, List.getElem?_eq_getElem hk⟩
  rw [HasByte, bufByte_finishVersion hlen]
  split
  case isTrue hin => exact hbyte (by simp only [List.length_cons, List.length_nil]; omega)
  case isFalse hout =>
    split
    case isTrue hin => exact hbyte (by simp only [List.length_cons, List.length_nil]; omega)
    case isFalse hout' =>
      have hport : j < 9 ∨ j = 15 ∨ j = 16 ∨ j = 21 ∨ j = 22 ∨ j = 23 ∨ j = 24 := by omega
      rcases hport with hlt | rfl | rfl | rfl | rfl | rfl | rfl
      · exact hheader j hlt
      · exact hslots 0 (by decide)
      · exact hslots 1 (by decide)
      · exact hslots 2 (by decide)
      · exact hslots 3 (by decide)
      · exact hslots 4 (by decide)
      · exact hslots 5 (by decide)

theorem Executing.inv_finishVersion {l : Loc} {s : State} (h : Executing i p s) (hslots : ∀ k < 6, HasByte s (versionSlot k)) :
    Inv (finishVersion l s) := by
  obtain rfl := h.params
  have ⟨_, hw, _⟩ := hwf
  have hbuf := h.buf
  have hbytes := fun j => hasByte_finishVersion (l := l) (j := j) (by omega) (fun _ => h.header) hslots
  have hlen : (finishVersion l s).buf.length = 9 + s.params.w := by simpa [finishVersion, bufSetList] using hbuf
  exact inv_finish (st := none) (len := 25) hwf hlen { h.stored with } h.counters h.request (by decide)
    (show 25 ≤ 9 + s.params.w by omega) hbytes

/-- The normal end of a request whose elements are all done. -/
theorem Midway.inv_end {l : Loc} {s : State} (h : Midway i p l s) (hi : l.n ≤ l.i) : Inv (endOf i l s) := by
  obtain ⟨hexec, -, hsoFar⟩ := h
  cases i with
  | readVersion h =>
    obtain ⟨hn, hslots⟩ := hsoFar
    exact hexec.inv_finishVersion hwf (l := l) fun k hk => hslots k (by omega)
  | readFlash h | readEEData h | readConfig h =>
    obtain ⟨hn, hbytes⟩ := hsoFar
    exact hexec.inv_finishRead hwf (hexec.params ▸ hn) fun j hj => hbytes j (by omega)
  | calcChecksum h => exact hexec.inv_finishChecksum hwf
  | writeFlash h data | eraseFlash h | writeEEData h data | writeConfig h data => exact hexec.inv_completeMutation hwf
  | resetDevice h | invalid code h => exact hsoFar.elim

/-- A request between two of its operations. -/
theorem Midway.inv_suspend {l : Loc} {s : State} (h : Midway i p l s) (hi : l.i < l.n) : Inv (suspend l s) := by
  obtain ⟨⟨rfl, hbuf, hstored, ⟨hnine, hmax, hcount⟩, hreceived, hlength, hphase, hpending, hrequest, hquiet, hfetched, hkeys⟩, hpair,
    hsoFar⟩ := h
  exact {
    params := hwf, buf := hbuf, flash := hstored.flash, ee := hstored.ee, cfg := hstored.cfg, rowBuf := hstored.rowBuf,
    cfgRec := hstored.cfgRec, ustate := hstored.ustate
    counters := ⟨hnine, hmax, hcount.le⟩
    received := fun _ => hreceived
    expected := fun _ => ⟨fun hlt => absurd (hcount ▸ hlt) (by omega), fun _ => hlength⟩
    receiving := fun hrecv => absurd (hphase.symm.trans hrecv) nofun
    dispatching := fun _ => hcount
    suspended := fun l' hl => by
      cases hl
      exact ⟨hphase, i, hfetched, hi, hpair, hkeys, (soFar_congr (s := s) rfl rfl).mpr hsoFar⟩
    pending := fun hp => absurd (hpending.symm.trans hp) Bool.false_ne_true
    request := ⟨fun hr => absurd (hrequest.symm.trans hr) Bool.false_ne_true, fun hh => absurd (hphase.symm.trans hh) nofun⟩
    holding := fun hh => absurd (hphase.symm.trans hh) nofun
    responding := fun hx => absurd (hphase.symm.trans hx) nofun
    quiet := fun _ => hquiet }

theorem inv_of_holding {t : State} (h : Holding i p t) : Inv t := by
  obtain ⟨l, s, hmid, hi, rfl⟩ := h
  exact hmid.inv_suspend hwf hi

theorem inv_tickEE_of_holding {t : State} (h : Holding i p t) : Inv (tickEE t) := by
  obtain ⟨l, s, hmid, hi, rfl⟩ := h
  have hticked : Midway i p l (tickEE s) :=
    { hmid with
      executing := { hmid.executing with stored := hmid.executing.stored.tickEE }, soFar := (soFar_congr rfl rfl).mpr hmid.soFar }
  exact hticked.inv_suspend hwf hi

end

end Sys2Proof.Proofs.Invariant
end

section
/-! PROOFS. Every step of a state with the invariant: it is taken, and it keeps the invariant, phase by phase. -/

namespace Sys2Proof.Proofs.InvariantStep

open Sys2Proof.Machine Sys2Proof.Safety Sys2Proof.Proofs.ReceiveByte Sys2Proof.Proofs.GuardBounds Sys2Proof.Proofs.Steps
  Sys2Proof.Proofs.Transmit Sys2Proof.Proofs.Requests Sys2Proof.Proofs.Reset Sys2Proof.Proofs.Invariant

/-! ## `DISPATCH` -/

/-- The whole frame is in the buffer, so the dispatcher fetches a request (40_frame_codec.md R104). -/
theorem exists_fetchInstr_of_inv {s : State} (h : Inv s) (hphase : s.phase = .dispatch) : ∃ i, fetchInstr s = .ok i := by
  have hcount := h.dispatching hphase
  obtain ⟨-, hlong⟩ := h.expected (.inr hphase)
  have hreceived := h.received (.inr hphase)
  obtain ⟨hnine, -, -⟩ := h.counters
  obtain ⟨c, l0, l1, h0, h1, h2, hlen⟩ := hlong (by omega)
  exact exists_fetchInstr h0 h1 h2 fun j hj => hreceived j (by omega)

theorem loadKeys_of_keysLoaded {h : Header} {s : State} (hkeys : KeysLoaded h s) : loadKeys h s = s := by
  obtain ⟨hk1, hk2⟩ := hkeys
  cases s
  simp_all [loadKeys]

/-- The dispatch start of a fetched request. -/
theorem executing_of_inv {s : State} {i : Instr} (h : Inv s) (hphase : s.phase = .dispatch) (hfetch : fetchInstr s = .ok i) :
    Executing i s.params (loadKeys i.header s) := by
  have hcount := h.dispatching hphase
  obtain ⟨hnine, hmax, -⟩ := h.counters
  exact {
    params := rfl
    buf := h.buf
    stored := { stored_of_inv h with }
    counters := ⟨hnine, hmax, hcount⟩
    received := h.received (.inr hphase)
    length := (h.expected (.inr hphase)).2 (by omega)
    phase := hphase
    pending := Bool.eq_false_of_not_eq_true fun hp => (h.pending hp).elim (fun hx => absurd (hphase.symm.trans hx) nofun)
      fun hx => absurd (hphase.symm.trans hx) nofun
    request := Bool.eq_false_of_not_eq_true fun hr => absurd (hphase.symm.trans (h.request.mp hr)) nofun
    quiet := h.quiet (hphase ▸ nofun)
    fetched := hfetch
    keys := ⟨rfl, rfl⟩ }

theorem executing_tickReset {i : Instr} {p : Params} {s : State} (h : Executing i p s) : Executing i p (tickReset s) :=
  { h with stored := { h.stored with } }

/-- A command whose start checks have passed (43_dispatch_and_reads.md R165). -/
theorem midway_start {i : Instr} {p : Params} {s : State} (hwf : p.wf) (h : Executing i p s) {cur : Addr} {n : Nat}
    (hstart : StartsAt p cur n i) : Midway i p (startLoc cur n (requiredPair p i)) s := by
  refine ⟨h, rfl, ?_⟩
  have hparams := h.params
  cases i with
  | readVersion _ => exact ⟨hstart.2, nofun⟩
  | readFlash _ | readEEData _ | readConfig _ => exact ⟨hparams.symm ▸ hstart.2.2, fun _ => h.header⟩
  | writeFlash _ _ | writeConfig _ _ => exact nofun
  | eraseFlash h' =>
    obtain ⟨rfl, -⟩ := hstart
    rw [SoFar, hparams]
    exact eraseRowOf_of_dvd hwf.2.2.1 (dvd_eraseRowOf hwf.2.2.1 h'.addr)
  | writeEEData _ _ | calcChecksum _ => trivial
  | resetDevice _ | invalid _ _ => exact hstart.elim

section
variable {i : Instr} {p : Params} (hwf : p.wf)
include hwf

/-- A dispatch start leads to a request in the middle, or ends it. -/
theorem inv_start {s : State} {st : Start} (h : Executing i p (loadKeys i.header s)) (hcase : StartCase i s st) :
    (∃ l u, st = .loop l u ∧ Midway i p l u ∧ l.i ≤ l.n ∧ endsAtStart i = false) ∨ ∃ t, st = .ended t ∧ Inv t := by
  obtain rfl : s.params = p := h.params
  have ⟨_, hw, _⟩ := hwf
  have hstatus : ∀ v j, j < 10 → HasByte (finish (some v) 10 (loadKeys i.header s)) j := fun v _ =>
    hasByte_finish_status (fun _ => h.header) (by have := h.buf; omega) v 10
  cases hcase with
  | loop cur n hstart => exact .inl ⟨_, _, rfl, midway_start hwf h hstart, Nat.zero_le _, hstart.endsAtStart⟩
  | refused => exact .inr ⟨_, rfl, h.inv_abort hwf⟩
  | illFormed hill =>
    have hfetched : i.wf s.params.w = true := fetchInstr_wf h.fetched
    rw [hill] at hfetched
    cases hfetched
  | resetDevice h' hi =>
    subst hi
    exact .inr ⟨_, rfl, inv_finish (u := setResetPending (loadKeys h' s)) hwf h.buf { h.stored with } h.counters h.request (by decide)
      (show 10 ≤ 9 + s.params.w by omega) (hstatus statusSuccess)⟩
  | invalid code h' hi =>
    subst hi
    exact .inr ⟨_, rfl, inv_finish hwf h.buf h.stored h.counters h.request (by decide) (show 10 ≤ 9 + s.params.w by omega)
      (hstatus statusInvalid)⟩

/-- One port operation of a request in the middle (00_scope.md R9). -/
theorem inv_operate {l : Loc} {s : State} (h : Midway i p l s) (hi : l.i ≤ l.n) :
    ∃ t, operate (opOf (pairOf l.pair) i) (endOf i) l s = .next t ∧ Inv t := by
  rcases hi.eq_or_lt with heq | hlt
  case inl => exact ⟨_, if_neg (by omega), h.inv_end hwf (by omega)⟩
  case inr =>
    obtain ⟨t, ht, hcases⟩ := operate_sat (normal := endOf i) (h.step hwf hlt)
    refine ⟨t, ht, ?_⟩
    rcases hcases with ⟨hle, -⟩ | ⟨-, ⟨l', s', ⟨hmid, -⟩, hi', rfl⟩ | ⟨l', s', ⟨hmid, -⟩, hi', rfl⟩ | ⟨s', hexec, rfl⟩ |
      ⟨s', hhold, rfl⟩⟩
    · omega
    · exact hmid.inv_suspend hwf hi'
    · exact hmid.inv_end hwf hi'
    · exact hexec.inv_abort hwf
    · exact inv_tickEE_of_holding hwf hhold

/-- All port operations of a request in the middle. -/
theorem inv_endCommand {l : Loc} {s : State} (h : Midway i p l s) (hi : l.i ≤ l.n) :
    ∃ t, endCommand (continueLoop (opOf (pairOf l.pair) i) l s) (endOf i) = .next t ∧ Inv t := by
  obtain ⟨t, ht, hcases⟩ := endCommand_sat (normal := endOf i) (h.loop hwf hi)
  refine ⟨t, ht, ?_⟩
  rcases hcases with ⟨l', s', ⟨hmid, hi'⟩, rfl⟩ | ⟨s', hexec, rfl⟩ | hhold
  · exact hmid.inv_end hwf hi'
  · exact hexec.inv_abort hwf
  · exact inv_of_holding hwf hhold

end

/-- A command in the middle is one with operations, and it has its pair. -/
theorem operateOn_of_midway {i : Instr} {p : Params} {l : Loc} {s : State} (h : Midway i p l s) :
    operateOn i l s = operate (opOf (pairOf l.pair) i) (endOf i) l s := by
  obtain ⟨-, hpair, hsoFar⟩ := h
  refine operateOn_eq_operate ?_ (fun hmut => ?_) s
  · cases i with
    | readVersion _ | readFlash _ | writeFlash _ _ | eraseFlash _ | readEEData _ | writeEEData _ _ | readConfig _ | writeConfig _ _
    | calcChecksum _ => rfl
    | resetDevice _ | invalid _ _ => exact hsoFar.elim
  · obtain ⟨pair, hsome⟩ := UnlockKeys.requiredPair_of_isMutating hmut p
    rw [hpair, hsome]
    rfl

theorem inv_dispatchStep {s : State} (h : Inv s) (hphase : s.phase = .dispatch) : ∃ t, dispatchStep s = .next t ∧ Inv t := by
  have hwf := h.params
  obtain ⟨i, hfetch⟩ := exists_fetchInstr_of_inv h hphase
  have hexec := executing_of_inv h hphase hfetch
  rw [dispatchStep, hfetch]
  cases hloc : s.loc with
  | some l =>
    obtain ⟨-, i', hfetch', hi, hpair, hkeys, hsoFar⟩ := h.suspended l hloc
    obtain rfl : i = i' := by rw [hfetch] at hfetch'; injection hfetch'
    rw [loadKeys_of_keysLoaded hkeys] at hexec
    have hmid : Midway i s.params l (tickReset s) := ⟨(executing_tickReset hexec), hpair, (soFar_congr rfl rfl).mpr hsoFar⟩
    simp only [operateOn_of_midway hmid]
    exact inv_operate hwf hmid hi.le
  | none =>
    dsimp only
    split
    · rw [exec_eq_runCommand]
      rcases inv_start hwf hexec (startOf_cases i s) with ⟨l, u, hst, hmid, hi, -⟩ | ⟨t, hst, ht⟩
      · rw [hst, runCommand, ← hmid.pair]
        exact inv_endCommand hwf hmid hi
      · exact ⟨t, by rw [hst]; rfl, ht⟩
    · rw [openRequest]
      rcases inv_start (s := tickReset s) hwf (executing_tickReset hexec) (startOf_cases i (tickReset s)) with
        ⟨l, u, hst, hmid, hi, -⟩ | ⟨t, hst, ht⟩
      · simp only [hst, operateOn_of_midway hmid]
        exact inv_operate hwf hmid hi
      · exact ⟨t, by simp only [hst], ht⟩

/-! ## Time, and the device reset -/

theorem inv_tick {s : State} (h : Inv s) : Inv (tick s) :=
  { h with
    ee := tickEE_wf h.ee
    suspended := fun l hl => by
      obtain ⟨hphase, i, hfetch, hi, hpair, hkeys, hsoFar⟩ := h.suspended l hl
      exact ⟨hphase, i, hfetch, hi, hpair, hkeys, (soFar_congr rfl rfl).mpr hsoFar⟩ }

/-- The block at its reset values, whatever the collaborators hold in canonical form (10_state.md R35). -/
theorem inv_reset_values {s : State} (hwf : s.params.wf) (hbuf : s.buf = List.replicate (9 + s.params.w) none) (hstored : Stored s)
    (hcount : s.rxCount = 0) (hexpected : s.rxExpected = 9) (hphase : s.phase = .recv) (hloc : s.loc = none)
    (hpending : s.resetPending = false) (hrequest : s.resetRequest = false) (hlen : s.respLen = none) (hix : s.txIndex = none) :
    Inv s where
  params := hwf
  buf := hbuf ▸ List.length_replicate
  flash := hstored.flash
  ee := hstored.ee
  cfg := hstored.cfg
  rowBuf := hstored.rowBuf
  cfgRec := hstored.cfgRec
  ustate := hstored.ustate
  counters := by omega
  received := fun _ j hj => absurd hj (by omega)
  expected := fun _ => ⟨fun _ => hexpected, fun h => absurd h (by omega)⟩
  receiving := fun _ => by omega
  dispatching := fun h => absurd (hphase.symm.trans h) nofun
  suspended := fun l h => absurd (hloc.symm.trans h) nofun
  pending := fun h => absurd (hpending.symm.trans h) nofun
  request := ⟨fun h => absurd (hrequest.symm.trans h) nofun, fun h => absurd (hphase.symm.trans h) nofun⟩
  holding := fun h => absurd (hphase.symm.trans h) nofun
  responding := fun h => absurd (hphase.symm.trans h) nofun
  quiet := fun _ => ⟨hlen, hix⟩

theorem inv_deviceReset {s : State} (h : Inv s) : Inv (deviceReset s) := by
  obtain ⟨d, o, heq⟩ := deviceReset_eq s
  rw [heq]
  exact inv_reset_values h.params rfl ⟨h.flash, h.ee, h.cfg, collaboratorsReset_sorted _, h.cfgRec, rfl⟩ rfl rfl rfl rfl rfl rfl rfl rfl

/-- Settles O58: the parameters of R8 obey R6, and the memories are empty. -/
theorem invAtReset : Obligations.InvAtReset :=
  inv_reset_values (s := State.reset) (by decide) rfl ⟨wf_nil, wf_nil, wf_nil, List.Pairwise.nil, List.Pairwise.nil, rfl⟩ rfl rfl
    rfl rfl rfl rfl rfl rfl

/-! ## `RECV` -/

theorem requestLength_bounds (c l0 l1 : Byte) : 9 ≤ requestLength c l0 l1 ∧ requestLength c l0 l1 ≤ 65544 := by
  have := (assemble16 l0 l1).isLt
  unfold requestLength
  split <;> omega

/-- With the third byte stored, the header bytes it needs are stored too, and the expected length is the one they ask for (R102). -/
theorem expected_receiveByte {s : State} {n : Nat} {b : Byte} (rest : List Byte) (h : Inv s) (hphase : s.phase = .recv)
    (hsame : s.rxCount ≠ 2 → n = s.rxExpected)
    (hthird : s.rxCount = 2 → ∀ c l0, bufByte s 0 = some c → bufByte s 1 = some l0 → n = requestLength c l0 b) (hthree : 2 ≤ s.rxCount) :
    ∃ c l0 l1, bufByte (receiveByte n b rest s) 0 = some c ∧ bufByte (receiveByte n b rest s) 1 = some l0 ∧
      bufByte (receiveByte n b rest s) 2 = some l1 ∧ n = requestLength c l0 l1 := by
  have ⟨_, hw, _⟩ := h.params
  have hreceived := h.received (.inl hphase)
  have hlong := (h.expected (.inl hphase)).2
  have hbuf := h.buf
  have hother : ∀ j < s.rxCount, bufByte (receiveByte n b rest s) j = bufByte s j := fun j hj => by
    rw [bufByte_receiveByte, if_neg fun hstored => hj.ne hstored.1.symm]
  rcases hthree.eq_or_lt with h2 | hlt
  · obtain ⟨c, h0⟩ := Option.isSome_iff_exists.mp (hreceived 0 (by omega) (by omega))
    obtain ⟨l0, h1⟩ := Option.isSome_iff_exists.mp (hreceived 1 (by omega) (by omega))
    refine ⟨c, l0, b, (hother 0 (by omega)).trans h0, (hother 1 (by omega)).trans h1, ?_, hthird h2.symm c l0 h0 h1⟩
    rw [bufByte_receiveByte, if_pos ⟨h2.symm, by omega, by omega⟩]
  · obtain ⟨c, l0, l1, h0, h1, h2, hlen⟩ := hlong (by omega)
    exact ⟨c, l0, l1, (hother 0 (by omega)).trans h0, (hother 1 (by omega)).trans h1, (hother 2 hlt).trans h2,
      (hsame hlt.ne').trans hlen⟩

/-- A byte received keeps the invariant, the length rule having left `n` as the expected length (40_frame_codec.md R101 to R104). -/
theorem inv_receiveByte {s : State} {n : Nat} {b : Byte} (rest : List Byte) (h : Inv s) (hphase : s.phase = .recv)
    (hsame : s.rxCount ≠ 2 → n = s.rxExpected)
    (hthird : s.rxCount = 2 → ∀ c l0, bufByte s 0 = some c → bufByte s 1 = some l0 → n = requestLength c l0 b) :
    Inv (receiveByte n b rest s) := by
  have hlt := h.receiving hphase
  have hreceived := h.received (.inl hphase)
  obtain ⟨hshort, -⟩ := h.expected (.inl hphase)
  obtain ⟨hnine, hmax, -⟩ := h.counters
  have hbuf := h.buf
  have hother : ∀ j, s.rxCount ≠ j → bufByte (receiveByte n b rest s) j = bufByte s j := fun j hj => by
    rw [bufByte_receiveByte, if_neg fun hstored => hj hstored.1]
  have hstored : s.rxCount < 9 + s.params.w → bufByte (receiveByte n b rest s) s.rxCount = some b := fun hcap => by
    rw [bufByte_receiveByte, if_pos ⟨rfl, hcap, by omega⟩]
  have hlength := expected_receiveByte rest h hphase hsame hthird
  have hbounds : 9 ≤ n ∧ n ≤ 65544 ∧ s.rxCount + 1 ≤ n := by
    by_cases h2 : s.rxCount = 2
    · obtain ⟨c, l0, l1, -, -, -, rfl⟩ := hlength (by omega)
      have := requestLength_bounds c l0 l1
      omega
    · have := hsame h2
      omega
  have hphase' : (receiveByte n b rest s).phase = if s.rxCount + 1 = n then .dispatch else .recv := by
    rw [receiveByte_phase, hphase]
  have hnot : ∀ ph, ph ≠ .recv → ph ≠ .dispatch → (receiveByte n b rest s).phase ≠ ph := fun ph hr hd => by
    rw [hphase']
    split
    · exact hd.symm
    · exact hr.symm
  have hpending : s.resetPending = false := Bool.eq_false_of_not_eq_true fun hp =>
    (h.pending hp).elim (fun hx => absurd (hphase.symm.trans hx) nofun) fun hx => absurd (hphase.symm.trans hx) nofun
  exact {
    params := h.params
    buf := by
      rw [receiveByte_buf]
      split
      · exact List.length_set.trans hbuf
      · exact hbuf
    flash := h.flash
    ee := tickEE_wf h.ee
    cfg := h.cfg
    rowBuf := h.rowBuf
    cfgRec := h.cfgRec
    ustate := h.ustate
    counters := hbounds
    received := fun _ j hj hcap => by
      rcases Nat.lt_succ_iff_lt_or_eq.mp (show j < s.rxCount + 1 from hj) with hlt | rfl
      · rw [HasByte, hother j (by omega)]
        exact hreceived j hlt hcap
      · exact hasByte_of_eq_some (hstored hcap)
    expected := fun _ => ⟨fun (hlt' : s.rxCount + 1 < 3) => (hsame (by omega)).trans (hshort (by omega)),
      fun (hthree : 3 ≤ s.rxCount + 1) => hlength (by omega)⟩
    receiving := fun hr => by
      rw [hphase'] at hr
      split at hr
      · cases hr
      · show s.rxCount + 1 < n
        omega
    dispatching := fun hd => by
      rw [hphase'] at hd
      split at hd
      · assumption
      · cases hd
    suspended := fun l hl => absurd (hphase.symm.trans (h.suspended l hl).1) nofun
    pending := fun hp => absurd (hpending.symm.trans hp) nofun
    request := ⟨fun hr => absurd (hphase.symm.trans (h.request.mp hr)) nofun, fun hh => absurd hh (hnot _ nofun nofun)⟩
    holding := fun hh => absurd hh (hnot _ nofun nofun)
    responding := fun hx => absurd hx (hnot _ nofun nofun)
    quiet := fun _ => h.quiet (hphase ▸ nofun) }

theorem inv_recv {s : State} (h : Inv s) (hrun : Running s) (hphase : s.phase = .recv) : ∃ t, step s = .next t ∧ Inv t := by
  cases hqueue : s.rxQueue with
  | nil => exact ⟨_, (step_of_recv hrun hphase).trans (recvStep_of_empty hqueue), inv_tick h⟩
  | cons b rest =>
    have hreceived := h.received (.inl hphase)
    obtain ⟨n, hlen, hsame, hthird⟩ := lengthRule_storeByte (s := takeByte rest s) b ⟨h.buf, h.params.2.1⟩
      fun h2 => by
        have h2' : s.rxCount = 2 := h2
        exact ⟨hreceived 0 (by omega) (by omega), hreceived 1 (by omega) (by omega)⟩
    exact ⟨_, step_receiveByte hrun hphase hqueue hlen, inv_receiveByte rest h hphase hsame hthird⟩

/-! ## `XMIT` -/

section
variable {s : State} (h : Inv s) (hphase : s.phase = .xmit)
include h hphase

theorem resetRequest_of_xmit : s.resetRequest = false :=
  Bool.eq_false_of_not_eq_true fun hr => absurd (hphase.symm.trans (h.request.mp hr)) nofun

theorem loc_of_xmit : s.loc = none := by
  cases hloc : s.loc with
  | none => rfl
  | some l => exact absurd (hphase.symm.trans (h.suspended l hloc).1) nofun

/-- A byte of the response handed over, with another one to follow (40_frame_codec.md R110). -/
theorem inv_setTxIndex {n t : Nat} (b : Byte) (hlen : s.respLen = some n) (ht : t < n) : Inv (setTxIndex t (sendByte b s)) := by
  obtain ⟨n', hlen', hlow, hhigh, hbytes, -⟩ := (h.responding hphase).resolve_right fun ⟨hnone, _⟩ => by
    rw [hlen] at hnone
    cases hnone
  obtain rfl : n = n' := Option.some.inj (hlen.symm.trans hlen')
  have hloc := loc_of_xmit h hphase
  exact { h with
    suspended := fun l hl => absurd (hloc.symm.trans hl) nofun
    responding := fun _ => .inl ⟨n, hlen, hlow, hhigh, hbytes, .byte t, rfl, fun t' heq => by cases heq; exact ht⟩
    quiet := fun hx => absurd hphase hx }

/-- The idle point: in `RECV`, or with a reset pending still in `XMIT` (70_reset_and_hazards.md R265; log 24). -/
theorem inv_idlePoint (b : Byte) : Inv (idlePoint (sendByte b s)) := by
  have hloc := loc_of_xmit h hphase
  have hrequest := resetRequest_of_xmit h hphase
  have hphase' : (idlePoint (sendByte b s)).phase = if s.resetPending then .xmit else .recv := phaseAfterResponse_eq s.resetPending
  exact { h with
    counters := ⟨le_rfl, (by decide : 9 ≤ 65544), Nat.zero_le _⟩
    received := fun _ _ hj => absurd hj (Nat.not_lt_zero _)
    expected := fun _ => ⟨fun _ => rfl, fun hthree => absurd hthree (by decide : ¬3 ≤ 0)⟩
    receiving := fun _ => (by decide : 0 < 9)
    dispatching := fun hd => by
      rw [hphase'] at hd
      split at hd <;> cases hd
    suspended := fun l hl => absurd (hloc.symm.trans hl) nofun
    pending := fun hp => .inl (hphase'.trans (if_pos hp))
    request := ⟨fun hr => absurd (hrequest.symm.trans hr) nofun, fun hh => by
      rw [hphase'] at hh
      split at hh <;> cases hh⟩
    holding := fun hh => by
      rw [hphase'] at hh
      split at hh <;> cases hh
    responding := fun hx => .inr ⟨rfl, rfl, by
      rw [hphase'] at hx
      split at hx
      · assumption
      · cases hx⟩
    quiet := fun _ => ⟨rfl, rfl⟩ }

theorem inv_assertReset (hpending : s.resetPending = true) (hlen : s.respLen = none) (hix : s.txIndex = none) : Inv (assertReset s) := by
  have hloc := loc_of_xmit h hphase
  exact { h with
    received := fun hr => hr.elim nofun nofun
    expected := fun hr => hr.elim nofun nofun
    receiving := nofun
    dispatching := nofun
    suspended := fun l hl => absurd (hloc.symm.trans hl) nofun
    pending := fun _ => .inr rfl
    request := ⟨fun _ => rfl, fun _ => rfl⟩
    holding := fun _ => hpending
    responding := nofun
    quiet := fun _ => ⟨hlen, hix⟩ }

theorem inv_advanceTx {n t : Nat} (b : Byte) (hlen : s.respLen = some n) : Inv (advanceTx n t (sendByte b s)) := by
  rcases advanceTx_cases n t (sendByte b s) with ⟨ht, heq⟩ | ⟨-, heq⟩
  · rw [heq]
    exact inv_setTxIndex h hphase b hlen ht
  · rw [heq]
    exact inv_idlePoint h hphase b

theorem inv_xmitStep : ∃ t, xmitStep s = .next t ∧ Inv t := by
  rcases h.responding hphase with ⟨n, hlen, -, -, hbytes, ix, hix, hlt⟩ | ⟨hlen, hix, hpending⟩
  case inr => exact ⟨_, xmitStep_of_sent hlen hix hpending, inv_tick (inv_assertReset h hphase hpending hlen hix)⟩
  case inl =>
    cases hready : s.txReady with
    | false => exact ⟨_, xmitStep_of_notReady hlen hix hready, inv_tick h⟩
    | true =>
      obtain ⟨b, next, hsends⟩ : ∃ b next, Sends s b next ix := by
        cases ix with
        | sync => exact ⟨_, _, rfl, rfl⟩
        | byte t =>
          obtain ⟨b, hb⟩ := Option.isSome_iff_exists.mp (hbytes t (hlt t rfl))
          exact ⟨b, _, hb, rfl⟩
      exact ⟨_, xmitStep_of_sends hlen hix hready hsends, inv_tick (inv_advanceTx h hphase b hlen)⟩

end

/-! ## Every step -/

theorem inv_step {s : State} (h : Inv s) : ∃ t, step s = .next t ∧ Inv t := by
  by_cases hreset : s.resetAfter = some 0
  · exact ⟨_, step_of_reset hreset, inv_deviceReset h⟩
  cases hown : s.owner with
  | application => exact ⟨_, step_of_application hreset hown, inv_tick h⟩
  | block =>
    have hrun : Running s := ⟨hown, hreset⟩
    cases hphase : s.phase with
    | recv => exact inv_recv h hrun hphase
    | dispatch => rw [step_of_dispatch hrun hphase]; exact inv_dispatchStep h hphase
    | xmit => rw [step_of_xmit hrun hphase]; exact inv_xmitStep h hphase
    | resetHold => exact ⟨_, step_of_resetHold hrun hphase, inv_tick h⟩

/-- Settles O59: phase by phase, by `inv_step`. -/
theorem stepKeepsInv : Obligations.StepKeepsInv := by
  intro s t h hstep
  obtain ⟨t', hstep', ht'⟩ := inv_step h
  obtain rfl : t = t' := by rw [hstep] at hstep'; injection hstep'
  exact ht'

/-- Settles O60: the same step. -/
theorem invStateAlwaysSteps : Obligations.InvStateAlwaysSteps := by
  intro s h
  obtain ⟨t, hstep, -⟩ := inv_step h
  exact ⟨t, hstep⟩

end Sys2Proof.Proofs.InvariantStep
end

section
/-! PROOFS. The rules of the whole machine: what no step does to the memories (60_exceptions.md R248; 41_address_guard.md R128;
44_writes_and_control.md R230), to the keys (42_unlock_sequence.md R153) and to the pending reset (10_state.md R24;
70_reset_and_hazards.md R266). -/

namespace Sys2Proof.Proofs.MachineSafety

open Sys2Proof.Machine Sys2Proof.Safety Sys2Proof.Proofs.ReceiveByte Sys2Proof.Proofs.GuardBounds Sys2Proof.Proofs.ReadClass
  Sys2Proof.Proofs.FlashRoundTrip Sys2Proof.Proofs.MutatingLoop Sys2Proof.Proofs.Steps Sys2Proof.Proofs.Transmit
  Sys2Proof.Proofs.Requests Sys2Proof.Proofs.Reset Sys2Proof.Proofs.Invariant Sys2Proof.Proofs.InvariantStep

/-! ## Commands without an unlock pair -/

/-- The commands that need no pair: the read class and the two that end at their start. -/
theorem not_mutating_cases {i : Instr} (hi : isMutating i = false) :
    isReadClass i = true ∨ (∃ h, i = .resetDevice h) ∨ ∃ code h, i = .invalid code h := by
  cases i with
  | readVersion h | readFlash h | readEEData h | readConfig h | calcChecksum h => exact .inl rfl
  | writeFlash h data | eraseFlash h | writeEEData h data | writeConfig h data => cases hi
  | resetDevice h => exact .inr (.inl ⟨h, rfl⟩)
  | invalid code h => exact .inr (.inr ⟨code, h, rfl⟩)

/-- Settles O55: the frame of the read class, and of the end of a command. -/
theorem onlyMutatingCommandsChangeMemory : Obligations.OnlyMutatingCommandsChangeMemory := by
  intro i s t hi hexec
  rcases not_mutating_cases hi with hread | ⟨h, rfl⟩ | ⟨code, h, rfl⟩
  · exact (exec_readFrame hread hexec).memory
  · cases hexec
    exact (finish_loadKeys_frame h s (some statusSuccess) 10).2.1
  · cases hexec
    exact (finish_loadKeys_frame h s (some statusInvalid) 10).2.1

/-- Settles O37: the frame of the read class; the other two write the status byte only. -/
theorem otherCommandsKeepKeys : Obligations.OtherCommandsKeepKeys := by
  intro i s t hi hexec
  have hstatus : ∀ (v : Byte) (u : State), u.buf = s.buf → ∀ j < 9, bufByte (finish (some v) 10 u) j = bufByte s j := fun v u hu j hj => by
    rw [bufByte_finish_some, if_neg (by omega), bufByte_congr hu]
  rcases not_mutating_cases hi with hread | ⟨h, rfl⟩ | ⟨code, h, rfl⟩
  · have hframe := exec_readFrame hread hexec
    exact ⟨hframe.keys, hframe.header 3 (by decide), hframe.header 4 (by decide)⟩
  · cases hexec
    exact ⟨⟨rfl, rfl⟩, hstatus _ (setResetPending (loadKeys h s)) rfl 3 (by decide),
      hstatus _ (setResetPending (loadKeys h s)) rfl 4 (by decide)⟩
  · cases hexec
    exact ⟨⟨rfl, rfl⟩, hstatus _ (loadKeys h s) rfl 3 (by decide), hstatus _ (loadKeys h s) rfl 4 (by decide)⟩

/-! ## The pending reset -/

/-- What a step in `DISPATCH` does to the reset registers and the phase: nothing, but that the command may end. -/
structure Quiet (s t : State) : Prop where
  pending : t.resetPending = s.resetPending
  request : t.resetRequest = s.resetRequest
  phase   : t.phase = s.phase ∨ HasEnded t

theorem hasEnded_endOf (i : Instr) (l : Loc) (s : State) : HasEnded (endOf i l s) := by
  cases i with
  | readVersion _ | readFlash _ | writeFlash _ _ | eraseFlash _ | readEEData _ | writeEEData _ _ | readConfig _ | writeConfig _ _
  | calcChecksum _ | resetDevice _ | invalid _ _ => exact ⟨rfl, rfl, rfl, rfl⟩

section
variable {s u : State} (h : OpFrame s u)
include h

theorem quiet_of_frame : Quiet s u := ⟨h.resetPending, h.resetRequest, .inl h.phase⟩

theorem quiet_endOf (i : Instr) (l : Loc) : Quiet s (endOf i l u) := by
  refine ⟨?_, ?_, .inr (hasEnded_endOf i l u)⟩
  · cases i with
    | readVersion _ | readFlash _ | writeFlash _ _ | eraseFlash _ | readEEData _ | writeEEData _ _ | readConfig _ | writeConfig _ _
    | calcChecksum _ | resetDevice _ | invalid _ _ => exact h.resetPending
  · cases i with
    | readVersion _ | readFlash _ | writeFlash _ _ | eraseFlash _ | readEEData _ | writeEEData _ _ | readConfig _ | writeConfig _ _
    | calcChecksum _ | resetDevice _ | invalid _ _ => exact h.resetRequest

theorem quiet_abort : Quiet s (abortOutOfRange u) := ⟨h.resetPending, h.resetRequest, .inr ⟨rfl, rfl, rfl, rfl⟩⟩

end

theorem quiet_operate {i : Instr} {pair : KeyPair} {l : Loc} {s t : State}
    (h : operate (opOf pair i) (endOf i) l s = .next t) : Quiet s t := by
  obtain ⟨t', ht', hcases⟩ := operate_sat (normal := endOf i) (opOf_frame pair i l s)
  obtain rfl : t = t' := by rw [h] at ht'; injection ht'
  rcases hcases with ⟨-, rfl⟩ | ⟨-, ⟨l', u, hu, -, rfl⟩ | ⟨l', u, hu, -, rfl⟩ | ⟨u, hu, rfl⟩ | ⟨u, hu, rfl⟩⟩
  · exact quiet_endOf (opFrame_refl s) i l
  · exact quiet_of_frame (hu.trans rfl)
  · exact quiet_endOf hu i l'
  · exact quiet_abort hu
  · exact quiet_of_frame (hu.trans rfl)

theorem quiet_endCommand {i : Instr} {pair : KeyPair} {l : Loc} {s t : State}
    (h : endCommand (continueLoop (opOf pair i) l s) (endOf i) = .next t) : Quiet s t := by
  obtain ⟨t', ht', hcases⟩ := endCommand_sat (normal := endOf i) (continueLoop_frame pair i l s)
  obtain rfl : t = t' := by rw [h] at ht'; injection ht'
  rcases hcases with ⟨l', u, hu, rfl⟩ | ⟨u, hu, rfl⟩ | hu
  · exact quiet_endOf hu i l'
  · exact quiet_abort hu
  · exact quiet_of_frame hu

theorem quiet_operateOn {i : Instr} {l : Loc} {s t : State} (h : operateOn i l s = .next t) : Quiet s t := by
  obtain ⟨hi, hpair⟩ := operateOn_next h
  exact quiet_operate ((operateOn_eq_operate hi hpair s).symm.trans h)

/-- A dispatch start: the loop it leads to has its keys loaded, and an end is `Quiet`, but that of Reset Device (44_writes_and_control.md
R225). -/
theorem startOf_quiet (i : Instr) (s : State) :
    (∃ l, startOf i s = .loop l (loadKeys i.header s)) ∨ (∃ r, startOf i s = .refused r) ∨
      ∃ u, startOf i s = .ended u ∧ (Quiet s u ∨ ∃ hd, i = .resetDevice hd ∧ u = resetDeviceEnd hd s) := by
  have hcase := startOf_cases i s
  generalize startOf i s = st at hcase
  cases hcase with
  | loop cur n => exact .inl ⟨_, rfl⟩
  | illFormed => exact .inr (.inl ⟨_, rfl⟩)
  | refused | invalid _ _ _ => exact .inr (.inr ⟨_, rfl, .inl ⟨rfl, rfl, .inr ⟨rfl, rfl, rfl, rfl⟩⟩⟩)
  | resetDevice hd hi => exact .inr (.inr ⟨_, rfl, .inr ⟨hd, hi, rfl⟩⟩)

theorem exec_quiet {i : Instr} {s t : State} (h : exec i s = .next t) :
    Quiet s t ∨ ∃ hd, i = .resetDevice hd ∧ t = resetDeviceEnd hd s := by
  rw [exec_eq_runCommand] at h
  rcases startOf_quiet i s with ⟨l, hst⟩ | ⟨r, hst⟩ | ⟨u, hst, hu⟩ <;> rw [hst, runCommand] at h
  · obtain ⟨hpending, hrequest, hphase⟩ := quiet_endCommand h
    exact .inl ⟨hpending, hrequest, hphase⟩
  · cases h
  · cases h
    exact hu

theorem openRequest_quiet {i : Instr} {s t : State} (h : openRequest i s = .next t) :
    Quiet s t ∨ ∃ hd, i = .resetDevice hd ∧ t = resetDeviceEnd hd s := by
  rcases startOf_quiet i s with ⟨l, hst⟩ | ⟨r, hst⟩ | ⟨u, hst, hu⟩ <;> simp only [openRequest, hst] at h
  · obtain ⟨hpending, hrequest, hphase⟩ := quiet_operateOn h
    exact .inl ⟨hpending, hrequest, hphase⟩
  · cases h
  · cases h
    exact hu

theorem dispatchStep_quiet {s t : State} (h : dispatchStep s = .next t) :
    Quiet s t ∨ ∃ hd, fetchInstr s = .ok (.resetDevice hd) ∧ (t = resetDeviceEnd hd s ∨ t = resetDeviceEnd hd (tickReset s)) := by
  unfold dispatchStep at h
  split at h
  case h_1 => cases h
  case h_2 i hfetch =>
    rw [hfetch]
    split at h
    case h_1 l _ =>
      obtain ⟨hpending, hrequest, hphase⟩ := quiet_operateOn h
      exact .inl ⟨hpending, hrequest, hphase⟩
    case h_2 =>
      split at h
      · exact (exec_quiet h).imp_right fun ⟨hd, hi, ht⟩ => ⟨hd, by rw [hi], .inl ht⟩
      · rcases openRequest_quiet h with ⟨hpending, hrequest, hphase⟩ | ⟨hd, hi, ht⟩
        · exact .inl ⟨hpending, hrequest, hphase⟩
        · exact .inr ⟨hd, by rw [hi], .inr ht⟩

/-- Settles O56: no step outside `DISPATCH` but a device reset writes the register, and in `DISPATCH` only Reset Device does. -/
theorem pendingResetIsSticky : Obligations.PendingResetIsSticky := by
  intro s t hstep hreset
  suffices hkept : t.resetPending = s.resetPending ∨
      (t.resetPending = true ∧ ∃ h, s.phase = .dispatch ∧ fetchInstr s = .ok (.resetDevice h)) by
    rcases hkept with hsame | ⟨hset, hfetch⟩
    · exact ⟨fun hp => hsame.trans hp, fun hp ht => absurd (hp.symm.trans (hsame.symm.trans ht)) nofun⟩
    · exact ⟨fun _ => hset, fun _ _ => hfetch⟩
  cases step_cases hstep with
  | deviceReset h => exact absurd h hreset
  | application | resetHold => exact .inl rfl
  | recv _ _ h => cases h <;> exact .inl rfl
  | dispatch _ hphase h =>
    rcases dispatchStep_quiet h with hquiet | ⟨hd, hfetch, rfl | rfl⟩
    · exact .inl hquiet.pending
    · exact .inr ⟨rfl, hd, hphase, hfetch⟩
    · exact .inr ⟨rfl, hd, hphase, hfetch⟩
  | xmit _ _ h =>
    cases h with
    | sent n next ix b =>
      obtain ⟨-, -, -, -, -, -, -, -, hpending, -⟩ := sendByte_frame n next b s
      exact .inl hpending
    | held | asserted => exact .inl rfl

/-! ## The request of a reset -/

/-- A step in `DISPATCH` requests no reset, and a command that ends there has a response to send. -/
theorem dispatchStep_response {s t : State} (hphase : s.phase = .dispatch) (h : dispatchStep s = .next t) :
    t.resetRequest = s.resetRequest ∧ (t.phase = .dispatch ∨ t.respLen.isSome = true) := by
  rcases dispatchStep_quiet h with ⟨-, hrequest, hsame | ⟨-, -, hlen, -⟩⟩ | ⟨hd, -, rfl | rfl⟩
  · exact ⟨hrequest, .inl (hsame.trans hphase)⟩
  · exact ⟨hrequest, .inr hlen⟩
  · exact ⟨rfl, .inr rfl⟩
  · exact ⟨rfl, .inr rfl⟩

/-- The byte that ends a response is the last one of the frame buffer's response bytes (40_frame_codec.md R107, R110). -/
theorem last_byte_of_inv {s : State} (h : Inv s) (hphase : s.phase = .xmit) {n next : Nat} {ix : TxIndex} {b : Byte}
    (hlen : s.respLen = some n) (hix : s.txIndex = some ix) (hsends : Sends s b next ix) (hlast : n ≤ next) :
    ∃ k, n = k + 1 ∧ ix = .byte k ∧ bufByte s k = some b := by
  rcases h.responding hphase with ⟨n', hlen', hlow, -, -, ix', hix', hlt⟩ | ⟨hnone, -⟩
  case inr =>
    rw [hlen] at hnone
    cases hnone
  case inl =>
    obtain rfl : n = n' := Option.some.inj (hlen.symm.trans hlen')
    obtain rfl : ix = ix' := Option.some.inj (hix.symm.trans hix')
    cases ix with
    | sync =>
      obtain ⟨-, rfl⟩ := hsends
      omega
    | byte k =>
      obtain ⟨hb, rfl⟩ := hsends
      have := hlt k rfl
      exact ⟨k, by omega, rfl, hb⟩

/-- Settles O18: only the step with nothing left to send asserts the reset, and only the last byte leads there. -/
theorem resetRequestedOnlyAfterLastByte : Obligations.ResetRequestedOnlyAfterLastByte := by
  intro s t hinv hstep
  have hunchanged : t.resetRequest = s.resetRequest →
      s.resetRequest = false → t.resetRequest = true → s.phase = .xmit ∧ s.resetPending = true ∧ s.respLen = none ∧ t.sent = s.sent :=
    fun hsame hfalse htrue => absurd (hfalse.symm.trans (hsame.symm.trans htrue)) nofun
  cases step_cases hstep with
  | deviceReset =>
    obtain ⟨d, o, heq⟩ := deviceReset_eq s
    rw [heq]
    exact ⟨fun _ => nofun, fun _ => nofun⟩
  | application | resetHold =>
    exact ⟨hunchanged rfl, fun hsome hphase hnone => absurd (hsome hphase) (by rw [show s.respLen = none from hnone]; exact nofun)⟩
  | recv _ hphase h =>
    cases h with
    | held => exact ⟨hunchanged rfl, fun _ hx => absurd (hphase.symm.trans hx) nofun⟩
    | received b rest n =>
      refine ⟨hunchanged rfl, fun _ hx => ?_⟩
      rw [receiveByte_phase, hphase] at hx
      split at hx <;> cases hx
  | dispatch _ hphase h =>
    obtain ⟨hrequest, hended⟩ := dispatchStep_response hphase h
    refine ⟨hunchanged hrequest, fun _ hx hnone => ?_⟩
    rcases hended with hd | hsome
    · rw [hd] at hx
      cases hx
    · rw [hnone] at hsome
      cases hsome
  | xmit _ hphase h =>
    cases h with
    | sent n next ix b hlen hix hready hsends =>
      obtain ⟨hsent, -, -, hrequest, -⟩ := sendByte_frame n next b s
      refine ⟨hunchanged hrequest, fun _ hx hnone => ?_⟩
      rcases advanceTx_cases n next (sendByte b s) with ⟨-, heq⟩ | ⟨hlast, heq⟩
      · rw [heq] at hnone
        cases hlen.symm.trans hnone
      · obtain ⟨k, rfl, rfl, hb⟩ := last_byte_of_inv hinv hphase hlen hix hsends hlast
        rw [heq] at hx
        have hpending : s.resetPending = true := by
          have hx' := (phaseAfterResponse_eq s.resetPending).symm.trans hx
          split at hx'
          · assumption
          · cases hx'
        exact ⟨hphase, hpending, hready, k, b, hlen, hix, hb, hsent⟩
    | held n ix hlen => exact ⟨hunchanged rfl, fun _ _ hnone => absurd (hlen.symm.trans hnone) nofun⟩
    | asserted hlen _ hpending => exact ⟨fun _ _ => ⟨hphase, hpending, hlen, rfl⟩, fun _ => nofun⟩

/-! ## The memories outside a dispatch -/

/-- No step outside `DISPATCH` changes a byte, but that an EEPROM write in progress may complete (20_memory.md R62, R64). -/
theorem stepTo_memory {s t : State} (h : StepTo s t) (hphase : Running s → s.phase ≠ .dispatch) :
    t.flash = s.flash ∧ t.cfg = s.cfg ∧ (t.ee = s.ee ∨ t.ee = eeAfterBusy s) := by
  have htick := (tickEE_ee s).symm
  cases h with
  | deviceReset =>
    obtain ⟨d, o, heq⟩ := deviceReset_eq s
    rw [heq]
    exact ⟨rfl, rfl, .inl rfl⟩
  | application | resetHold => exact ⟨rfl, rfl, htick⟩
  | recv _ _ h => cases h <;> exact ⟨rfl, rfl, htick⟩
  | dispatch hrun hd => exact absurd hd (hphase hrun)
  | xmit _ _ h =>
    cases h with
    | sent n next ix b =>
      rcases advanceTx_cases n next (sendByte b s) with ⟨-, heq⟩ | ⟨-, heq⟩ <;> rw [heq] <;> exact ⟨rfl, rfl, htick⟩
    | held | asserted => exact ⟨rfl, rfl, htick⟩

/-! ## The memories in a dispatch -/

theorem guarded_of_soFar {i : Instr} {l : Loc} {s : State} (h : SoFar i l s) : Guarded i l s := fun hsecond =>
  ⟨fun _ _ hi => by subst hi; exact h hsecond, fun _ _ hi => by subst hi; exact h hsecond⟩

/-- The request's keys are loaded, and no memory of `s` is written yet. -/
structure LoadedFrom (h : Header) (s u : State) : Prop where
  keys   : KeysLoaded h u
  params : u.params = s.params
  flash  : u.flash = s.flash
  ee     : u.ee = s.ee
  cfg    : u.cfg = s.cfg
  eeBusy : u.eeBusy = s.eeBusy

theorem loadedFrom_loadKeys (h : Header) (s : State) : LoadedFrom h s (loadKeys h s) := ⟨⟨rfl, rfl⟩, rfl, rfl, rfl, rfl, rfl⟩

/-- `Q` holds of the state `u`, and of every end of a request in it. -/
def HoldsAtEnds (Q : State → Prop) (u : State) : Prop :=
  Q u ∧ Q (abortOutOfRange u) ∧ Q (completeMutation u) ∧ ∀ st len, Q (finish st len u)

theorem HoldsAtEnds.of_ends {Q : State → Prop} {i : Instr} {u t : State} (h : HoldsAtEnds Q u) (hends : Ends i u t) : Q t := by
  obtain ⟨hheld, habort, hdone, hfinish⟩ := h
  rcases hends with ⟨rfl, -⟩ | rfl | ⟨-, rfl⟩ | ⟨-, st, len, rfl⟩
  · exact hheld
  · exact habort
  · exact hdone
  · exact hfinish st len

/-- A step of a request, from a state with the invariant: what its operations keep decides what holds at its end. -/
theorem dispatchStep_keeps {s t : State} {i : Instr} {C : Addr → Prop} {P Q : State → Prop} (hinv : Inv s) (hfetch : fetchInstr s = .ok i)
    (hstep : dispatchStep s = .next t)
    (hP : Keeps (fun pair => requiredPair s.params i = some pair) C P) (hC : ∀ a, eraseRowOf s.params a = a → C a)
    (hstart : ∀ u, LoadedFrom i.header s u → P u) (hend : ∀ u, P u → HoldsAtEnds Q u) : Q t := by
  have he := hinv.params.2.2.1
  have hsuspended : ∀ l, s.loc = some l → P (tickReset s) ∧ l.pair = requiredPair s.params i ∧
      (∀ h, i = .eraseFlash h → C l.cur) ∧ Guarded i l s := fun l hl => by
    obtain ⟨-, i', hfetch', -, hpair, hkeys, hsoFar⟩ := hinv.suspended l hl
    obtain rfl : i = i' := by rw [hfetch] at hfetch'; injection hfetch'
    exact ⟨hstart _ ⟨hkeys, rfl, rfl, rfl, rfl, rfl⟩, hpair, fun h hi => by subst hi; exact hC _ hsoFar, guarded_of_soFar hsoFar⟩
  rcases dispatchStep_ends i s hfetch hP hsuspended (hstart _ ⟨⟨rfl, rfl⟩, rfl, rfl, rfl, rfl, rfl⟩)
    (hstart _ ⟨⟨rfl, rfl⟩, rfl, rfl, rfl, rfl, rfl⟩) (hC _ (eraseRowOf_of_dvd he (dvd_eraseRowOf he _)))
    (fun h hi => by subst hi; exact ⟨hstart _ ⟨⟨rfl, rfl⟩, rfl, rfl, rfl, rfl, rfl⟩, hstart _ ⟨⟨rfl, rfl⟩, rfl, rfl, rfl, rfl, rfl⟩⟩)
    with h | h | ⟨t', ht', u, hu, hends⟩
  · cases h.symm.trans hstep
  · cases h.symm.trans hstep
  · obtain rfl : t = t' := by rw [hstep] at ht'; injection ht'
    exact (hend u hu).of_ends hends

/-- The same for a whole request from its dispatch, whatever the state. -/
theorem exec_keeps {s t : State} {i : Instr} {C : Addr → Prop} {P Q : State → Prop} (hexec : exec i s = .next t)
    (hP : Keeps (fun pair => requiredPair s.params i = some pair) C P) (hC : C (eraseRowOf s.params i.header.addr))
    (hstart : ∀ u, LoadedFrom i.header s u → P u) (hend : ∀ u, P u → HoldsAtEnds Q u) : Q t := by
  rcases exec_ends i s hP (hstart _ (loadedFrom_loadKeys _ s)) hC
    (fun h hi => by subst hi; exact hstart _ ⟨⟨rfl, rfl⟩, rfl, rfl, rfl, rfl, rfl⟩) with h | ⟨t', ht', u, hu, hends⟩
  · cases h.symm.trans hexec
  · obtain rfl : t = t' := by rw [hexec] at ht'; injection ht'
    exact (hend u hu).of_ends hends

end Sys2Proof.Proofs.MachineSafety
end

section
/-! PROOFS. No step changes a byte outside the writable ranges (60_exceptions.md R248 (a); 41_address_guard.md R125, R128), and none does without
the request's own keys (R248 (b); 42_unlock_sequence.md R149, R154). -/

namespace Sys2Proof.Proofs.MemorySafety

open Sys2Proof.Machine Sys2Proof.Safety Sys2Proof.Proofs.GuardBounds Sys2Proof.Proofs.FlashRoundTrip Sys2Proof.Proofs.MutatingLoop
  Sys2Proof.Proofs.Steps Sys2Proof.Proofs.Requests Sys2Proof.Proofs.Invariant Sys2Proof.Proofs.InvariantStep
  Sys2Proof.Proofs.MachineSafety

/-! ## Rows and ranges -/

/-- The row of an address in a range of whole rows lies in that range. -/
theorem row_in_range {n lo hi a b : Nat} (hlo : n ∣ lo) (hhi : n ∣ hi) (hla : lo ≤ a) (hah : a < hi) (hrow : a - a % n ≤ b)
    (hb : b < a - a % n + n) : lo ≤ b ∧ b < hi := by
  obtain ⟨p, rfl⟩ := hlo
  obtain ⟨q, rfl⟩ := hhi
  have hpos : 0 < n := by
    rcases Nat.eq_zero_or_pos n with rfl | hpos
    · simp at hah
    · exact hpos
  have hdiv : a - a % n = n * (a / n) := by
    have := Nat.div_add_mod a n
    omega
  have hp : p ≤ a / n := (Nat.le_div_iff_mul_le hpos).mpr (by rwa [Nat.mul_comm])
  have hq : a / n + 1 ≤ q := Nat.succ_le_of_lt ((Nat.div_lt_iff_lt_mul hpos).mpr (by rwa [Nat.mul_comm]))
  have hlow := Nat.mul_le_mul_left n hp
  have hhigh := Nat.mul_le_mul_left n hq
  rw [Nat.mul_add, Nat.mul_one] at hhigh
  omega

/-- A commit leaves every byte outside its row, whatever the order of the row buffer's entries. -/
theorem read_commitRange_outside (mode : FlashProgram) {lo hi b : Nat} (hout : ¬(lo ≤ b ∧ b < hi)) (c : Cells) (m : Memory) :
    Memory.read (Memory.commitRange mode lo hi c m) b = Memory.read m b := by
  unfold Memory.commitRange
  induction c generalizing m with
  | nil => rfl
  | cons x rest ih =>
    rw [List.foldl_cons, ih]
    split
    case isTrue hin => exact read_write_other _ _ fun heq => hout (heq ▸ hin)
    case isFalse => rfl

/-! ## The writable ranges -/

/-- The flash and config bytes outside the writable ranges read as in `s`. -/
structure OutsideKept (s u : State) : Prop where
  params : u.params = s.params
  flash  : ∀ a, a < s.params.floor ∨ s.params.flashEnd ≤ a → Memory.read u.flash a = Memory.read s.flash a
  cfg    : ∀ a, a < s.params.floor ∨ s.params.configEnd ≤ a → Memory.read u.cfg a = Memory.read s.cfg a

section
variable {s u : State} (h : OutsideKept s u)
include h

theorem OutsideKept.commitFlash (hwf : s.params.wf) {cur : Addr} (hin : inFlash u.params cur = true) (pair : KeyPair) :
    OutsideKept s (commitFlash (writeRow u.params cur) pair u) := by
  refine { h with flash := fun a ha => ?_ }
  obtain ⟨hw, -, -, hfloor, -, hend, -⟩ := hwf
  rw [h.params] at hin ⊢
  rw [inFlash, decide_eq_true_iff] at hin
  have hout : ¬((writeRow s.params cur).toNat ≤ a ∧ a < (writeRow s.params cur).toNat + u.params.w) := fun ⟨hlow, hhigh⟩ => by
    rw [h.params] at hhigh
    rw [writeRow_toNat hw] at hlow hhigh
    have := row_in_range hfloor hend hin.1 hin.2 hlow hhigh
    omega
  simp only [Machine.commitFlash]
  split
  · exact (read_commitRange_outside _ hout _ _).trans (h.flash a ha)
  · exact h.flash a ha

theorem OutsideKept.eraseRow (hwf : s.params.wf) {cur : Addr} (hrow : eraseRowOf s.params cur = cur) (hin : inFlash u.params cur = true)
    (pair : KeyPair) : OutsideKept s (eraseRow cur pair u) := by
  refine { h with flash := fun a ha => ?_ }
  obtain ⟨-, -, he, -, hfloor, -, hend, -⟩ := hwf
  rw [h.params, inFlash, decide_eq_true_iff] at hin
  have hmod : cur.toNat % s.params.e = 0 := Nat.mod_eq_zero_of_dvd (hrow ▸ dvd_eraseRowOf he cur)
  have hout : ¬(cur.toNat ≤ a ∧ a < cur.toNat + u.params.e) := fun ⟨hlow, hhigh⟩ => by
    rw [h.params] at hhigh
    have := row_in_range (n := s.params.e) (b := a) hfloor hend hin.1 hin.2 (by omega) (by omega)
    omega
  rw [eraseRow_flash]
  split
  · rw [read_eraseRange, if_neg hout]
    exact h.flash a ha
  · exact h.flash a ha

theorem OutsideKept.commitCfg {cur : Addr} (hin : inCfg u.params cur = true) (pair : KeyPair) : OutsideKept s (commitCfg cur pair u) := by
  refine { h with cfg := fun a ha => ?_ }
  rw [h.params, inCfg, decide_eq_true_iff] at hin
  simp only [Machine.commitCfg, cfgAfterCommit]
  split
  · split
    · exact (read_write_other _ _ (by omega)).trans (h.cfg a ha)
    · exact h.cfg a ha
  · exact h.cfg a ha

end

theorem outsideKept_keeps {s : State} (hwf : s.params.wf) (K : KeyPair → Prop) :
    Keeps K (fun a => eraseRowOf s.params a = a) (OutsideKept s) where
  suspend _ _ h := { h with }
  afterRead _ _ _ h := { h with }
  bufSet _ _ _ _ _ h := { h with }
  bufWrite _ _ _ _ h := { h with }
  dropStale _ _ h := { h with }
  commitFlash _ pair _ _ hin h := h.commitFlash hwf hin pair
  eraseRow _ pair _ _ hrow hin h := h.eraseRow hwf hrow hin pair
  nextRow _ _ hrow h := h.params.symm ▸ eraseRowOf_nextRow hwf.2.2.1 hrow
  completeEE _ _ h := { h with }
  tickEE _ _ h := { h with }
  eeWrite _ _ _ _ _ h := { h with }
  cfgWrite _ _ _ _ h := { h with }
  commitCfg _ pair _ _ hin h := h.commitCfg hin pair

theorem outsideKept_of_loadedFrom {hd : Header} {s u : State} (h : LoadedFrom hd s u) : OutsideKept s u :=
  ⟨h.params, fun _ _ => by rw [h.flash], fun _ _ => by rw [h.cfg]⟩

theorem OutsideKept.ends {s u : State} (h : OutsideKept s u) : HoldsAtEnds (OutsideKept s) u :=
  ⟨h, { h with }, { h with }, fun _ _ => { h with }⟩

/-- Settles O53: every operation that changes a byte is checked against its range, and a row has no byte outside it. -/
theorem requestsStayInWritableRanges : Obligations.RequestsStayInWritableRanges := by
  refine ⟨fun i s t hwf hexec => ?request, fun s t hinv hstep => ?step⟩
  case request =>
    have he := hwf.2.2.1
    have hkept := exec_keeps hexec (outsideKept_keeps hwf _) (eraseRowOf_of_dvd he (dvd_eraseRowOf he _))
      (fun _ => outsideKept_of_loadedFrom) (fun _ h => h.ends)
    exact ⟨hkept.flash, hkept.cfg⟩
  case step =>
    have hto := step_cases hstep
    by_cases hdispatch : Running s ∧ s.phase = .dispatch
    case neg =>
      obtain ⟨hflash, hcfg, -⟩ := stepTo_memory hto fun hrun hphase => hdispatch ⟨hrun, hphase⟩
      exact ⟨fun _ _ => by rw [hflash], fun _ _ => by rw [hcfg]⟩
    case pos =>
      obtain ⟨hrun, hphase⟩ := hdispatch
      obtain ⟨i, hfetch⟩ := exists_fetchInstr_of_inv hinv hphase
      have hkept := dispatchStep_keeps hinv hfetch ((step_of_dispatch hrun hphase).symm.trans hstep)
        (outsideKept_keeps hinv.params _) (fun _ => id) (fun _ => outsideKept_of_loadedFrom) (fun _ h => h.ends)
      exact ⟨hkept.flash, hkept.cfg⟩

/-- Settles O52: the reserved region lies below the writable range. -/
theorem reservedRegionNeverChanges : Obligations.ReservedRegionNeverChanges := by
  intro s t hinv hstep a ha
  obtain ⟨hflash, -⟩ := requestsStayInWritableRanges.2 s t hinv hstep
  exact hflash a (.inl ha)

/-! ## The keys -/

/-- A request without its keys: the keys are as loaded, and the memories read as in `s`, but that the EEPROM write in progress there may be
complete. -/
structure Unmutated (hd : Header) (s u : State) : Prop where
  keys     : KeysLoaded hd u
  flash    : SameSpace .flash s u
  cfg      : SameSpace .cfg s u
  complete : ∀ a, Memory.read (eeAfterBusy u) a = Memory.read (eeAfterBusy s) a
  ee       : ∀ a, Memory.read u.ee a = Memory.read s.ee a ∨ Memory.read u.ee a = Memory.read (eeAfterBusy s) a

section
variable {hd : Header} {s u : State} (h : Unmutated hd s u)
include h

theorem Unmutated.commitFlash {pair : KeyPair} (hother : ¬KeysMatch pair hd) (row : Addr) : Unmutated hd s (commitFlash row pair u) := by
  obtain ⟨hflash, -⟩ := commitFlash_unhonored (row := row) (honored_eq_false hother h.keys)
  exact { h with flash := fun a => (congrArg (Memory.read · a) hflash).trans (h.flash a) }

theorem Unmutated.eraseRow {pair : KeyPair} (hother : ¬KeysMatch pair hd) (row : Addr) : Unmutated hd s (eraseRow row pair u) := by
  have hflash : (Machine.eraseRow row pair u).flash = u.flash := by
    rw [eraseRow_flash, honored_eq_false hother h.keys]
    rfl
  exact { h with flash := fun a => (congrArg (Memory.read · a) hflash).trans (h.flash a) }

theorem Unmutated.commitCfg {pair : KeyPair} (hother : ¬KeysMatch pair hd) (a : Addr) : Unmutated hd s (commitCfg a pair u) := by
  have hcfg : (Machine.commitCfg a pair u).cfg = u.cfg := by
    simp only [Machine.commitCfg, honored_eq_false hother h.keys]
    rfl
  exact { h with cfg := fun b => (congrArg (Memory.read · b) hcfg).trans (h.cfg b) }

theorem Unmutated.eeWrite {pair : KeyPair} (hother : ¬KeysMatch pair hd) (a : Half) (v : Byte) : Unmutated hd s (eeWrite a v pair u) := by
  obtain ⟨hee, hbusy⟩ := eeWrite_unhonored (a := a) (v := v) (honored_eq_false hother h.keys)
  have hcomplete : eeAfterBusy (Machine.eeWrite a v pair u) = eeAfterBusy u := by
    simp only [eeAfterBusy, eeWriting, hee, hbusy]
  exact { h with complete := fun b => hcomplete ▸ h.complete b }

theorem Unmutated.completeEE : Unmutated hd s (completeEE u) := { h with ee := fun a => .inr (h.complete a) }

theorem Unmutated.tickEE : Unmutated hd s (tickEE u) :=
  { h with
    complete := fun a => eeAfterBusy_tickEE u ▸ h.complete a
    ee := fun a => by
      rcases tickEE_ee u with hee | hee
      · exact .inr (hee ▸ h.complete a)
      · exact hee ▸ h.ee a }

end

theorem unmutated_keeps {hd : Header} {s : State} {K : KeyPair → Prop} (hother : ∀ pair, K pair → ¬KeysMatch pair hd) :
    Keeps K (fun _ => True) (Unmutated hd s) where
  suspend _ _ h := { h with }
  afterRead _ _ _ h := { h with }
  bufSet _ _ _ _ _ h := { h with }
  bufWrite _ _ _ _ h := { h with }
  dropStale _ _ h := { h with }
  commitFlash _ pair _ hK _ h := h.commitFlash (hother pair hK) _
  eraseRow _ pair _ hK _ _ h := h.eraseRow (hother pair hK) _
  nextRow _ _ _ _ := trivial
  completeEE _ _ h := h.completeEE
  tickEE _ _ h := h.tickEE
  eeWrite a v pair _ hK h := h.eeWrite (hother pair hK) a v
  cfgWrite _ _ _ _ h := { h with }
  commitCfg a pair _ hK _ h := h.commitCfg (hother pair hK) a

theorem unmutated_of_loadedFrom {hd : Header} {s u : State} (h : LoadedFrom hd s u) : Unmutated hd s u := by
  have hcomplete : eeAfterBusy u = eeAfterBusy s := by simp only [eeAfterBusy, eeWriting, h.ee, h.eeBusy]
  exact ⟨h.keys, fun a => congrArg (Memory.read · a) h.flash, fun a => congrArg (Memory.read · a) h.cfg, fun _ => by rw [hcomplete],
    fun _ => .inl (by rw [h.ee])⟩

/-- What `Unmutated` says of the memories: the end of a command may clear the keys. -/
def MemoryUnmutated (s t : State) : Prop :=
  SameSpace .flash s t ∧ SameSpace .cfg s t ∧ (∀ a, Memory.read (eeAfterBusy t) a = Memory.read (eeAfterBusy s) a) ∧
    ∀ a, Memory.read t.ee a = Memory.read s.ee a ∨ Memory.read t.ee a = Memory.read (eeAfterBusy s) a

theorem Unmutated.ends {hd : Header} {s u : State} (h : Unmutated hd s u) : HoldsAtEnds (MemoryUnmutated s) u := by
  obtain ⟨-, hflash, hcfg, hcomplete, hee⟩ := h
  exact ⟨⟨hflash, hcfg, hcomplete, hee⟩, ⟨hflash, hcfg, hcomplete, hee⟩, ⟨hflash, hcfg, hcomplete, hee⟩,
    fun _ _ => ⟨hflash, hcfg, hcomplete, hee⟩⟩

/-- Settles O54: without its keys no operation of a request is honored, and outside a dispatch only the EEPROM write in progress completes. -/
theorem noMutationWithoutTheKeys : Obligations.NoMutationWithoutTheKeys := by
  refine ⟨fun i s t hexec hother => ?request, fun s t hinv hstep hother => ?step⟩
  case request =>
    obtain ⟨hflash, hcfg, hcomplete, -⟩ := exec_keeps hexec (unmutated_keeps hother) trivial (fun _ => unmutated_of_loadedFrom)
      fun _ h => h.ends
    exact ⟨hflash, hcfg, hcomplete⟩
  case step =>
    have hto := step_cases hstep
    by_cases hdispatch : Running s ∧ s.phase = .dispatch
    case neg =>
      obtain ⟨hflash, hcfg, hee⟩ := stepTo_memory hto fun hrun hphase => hdispatch ⟨hrun, hphase⟩
      exact ⟨fun a => congrArg (Memory.read · a) hflash, fun a => congrArg (Memory.read · a) hcfg,
        fun a => hee.imp (congrArg (Memory.read · a)) (congrArg (Memory.read · a))⟩
    case pos =>
      obtain ⟨hrun, hphase⟩ := hdispatch
      obtain ⟨i, hfetch⟩ := exists_fetchInstr_of_inv hinv hphase
      obtain ⟨hflash, hcfg, -, hee⟩ := dispatchStep_keeps hinv hfetch ((step_of_dispatch hrun hphase).symm.trans hstep)
        (unmutated_keeps fun pair hpair => hother hrun.2 hrun.1 hphase i pair hfetch hpair) (fun _ _ => trivial)
        (fun _ => unmutated_of_loadedFrom) fun _ h => h.ends
      exact ⟨hflash, hcfg, hee⟩

end Sys2Proof.Proofs.MemorySafety
end

section
/-! PROOFS. A request port operation by port operation: what each step performs (00_scope.md R9; 20_memory.md R65), how a request ends or holds
(43_dispatch_and_reads.md R167), and where a Write EE Data holds (60_exceptions.md R247 (c)). -/

namespace Sys2Proof.Proofs.Operations

open Sys2Proof.Machine Sys2Proof.Safety Sys2Proof.Proofs.UnlockKeys Sys2Proof.Proofs.PayloadReads Sys2Proof.Proofs.FlashRoundTrip
  Sys2Proof.Proofs.WriteEEData Sys2Proof.Proofs.Steps Sys2Proof.Proofs.Requests Sys2Proof.Proofs.MachineSafety

/-! ## One operation -/

/-- What the statement's `portOperation` and `nextUp` say of one operation that goes on. -/
def PerformsNext (i : Instr) (l : Loc) (s : State) (l' : Loc) (s' : State) : Prop :=
  SameCollaborators (portOperation i l s) s' ∧
    ((nextUp i l s = .second ∧ l' = { l with second := true }) ∨
      ∃ cur sum, nextUp i l s = .element cur ∧ l' = ⟨cur, l.i + 1, l.n, l.pair, sum, false⟩)

/-- The same of a check that fails. -/
def PerformsAbort (i : Instr) (l : Loc) (s s' : State) : Prop :=
  SameCollaborators (portOperation i l s) s' ∧ nextUp i l s = .aborted

/-- The same of a wait. -/
def PerformsWait (i : Instr) (l : Loc) (s s' : State) : Prop :=
  SameCollaborators (portOperation i l s) (tickEE s') ∧ nextUp i l s = .wait ∧ s' = suspend l s

theorem sameCollaborators_refl (s : State) : SameCollaborators s s := ⟨rfl, rfl, rfl, rfl, rfl, rfl, rfl⟩

section
variable (h : Header) (data : List Byte) {pair : KeyPair} {l : Loc} (hpair : l.pair = some pair) (s : State)
include hpair

theorem writeFlashOp_performs : CtlSat (PerformsNext (.writeFlash h data) l s) (PerformsAbort (.writeFlash h data) l s)
    (PerformsWait (.writeFlash h data) l s) (writeFlashOp pair data l s) := by
  unfold writeFlashOp PerformsNext PerformsAbort
  simp only [portOperation, nextUp, underPair, hpair]
  split
  case isTrue => exact ⟨sameCollaborators_refl _, .inr ⟨_, _, rfl, by rw [← hpair]; rfl⟩⟩
  case isFalse =>
    split
    case isTrue =>
      refine ⟨sameCollaborators_refl _, ?_⟩
      split
      · exact .inl ⟨rfl, by rw [← hpair]; rfl⟩
      · exact .inr ⟨_, _, rfl, by rw [← hpair]; rfl⟩
    case isFalse => exact ⟨sameCollaborators_refl _, rfl⟩

theorem eraseFlashOp_performs : CtlSat (PerformsNext (.eraseFlash h) l s) (PerformsAbort (.eraseFlash h) l s)
    (PerformsWait (.eraseFlash h) l s) (eraseFlashOp pair l s) := by
  unfold eraseFlashOp PerformsNext PerformsAbort
  simp only [portOperation, nextUp, underPair, hpair]
  split
  case isTrue => exact ⟨sameCollaborators_refl _, .inr ⟨_, _, rfl, by rw [← hpair]; rfl⟩⟩
  case isFalse => exact ⟨sameCollaborators_refl _, rfl⟩

theorem writeEEOp_performs : CtlSat (PerformsNext (.writeEEData h data) l s) (PerformsAbort (.writeEEData h data) l s)
    (PerformsWait (.writeEEData h data) l s) (writeEEOp pair data l s) := by
  unfold writeEEOp PerformsNext PerformsWait
  simp only [portOperation, nextUp, underPair, hpair]
  split
  case isTrue => exact ⟨sameCollaborators_refl _, .inr ⟨_, _, rfl, by rw [← hpair]; rfl⟩⟩
  case isFalse =>
    split
    case isTrue => exact ⟨sameCollaborators_refl (tickEE s), rfl, rfl⟩
    case isFalse => exact ⟨sameCollaborators_refl _, .inl ⟨rfl, by rw [← hpair]; rfl⟩⟩

theorem writeConfigOp_performs : CtlSat (PerformsNext (.writeConfig h data) l s) (PerformsAbort (.writeConfig h data) l s)
    (PerformsWait (.writeConfig h data) l s) (writeConfigOp pair data l s) := by
  unfold writeConfigOp PerformsNext PerformsAbort
  simp only [portOperation, nextUp, underPair, hpair]
  split
  case isTrue => exact ⟨sameCollaborators_refl _, .inr ⟨_, _, rfl, by rw [← hpair]; rfl⟩⟩
  case isFalse =>
    split
    case isTrue => exact ⟨sameCollaborators_refl _, .inl ⟨rfl, by rw [← hpair]; rfl⟩⟩
    case isFalse => exact ⟨sameCollaborators_refl _, rfl⟩

end

theorem opOf_performs {i : Instr} {l : Loc} (hpair : isMutating i = true → l.pair.isSome = true) (s : State) :
    CtlSat (PerformsNext i l s) (PerformsAbort i l s) (PerformsWait i l s) (opOf (pairOf l.pair) i l s) := by
  have hsome : isMutating i = true → l.pair = some (pairOf l.pair) := fun hi => by
    obtain ⟨pair, hp⟩ := Option.isSome_iff_exists.mp (hpair hi)
    rw [hp]
    rfl
  cases i with
  | readVersion h | readFlash h | readEEData h | readConfig h | calcChecksum h =>
    exact ⟨sameCollaborators_refl _, .inr ⟨_, _, rfl, rfl⟩⟩
  | resetDevice h | invalid code h => exact ⟨sameCollaborators_refl _, rfl⟩
  | writeFlash h data => exact writeFlashOp_performs h data (hsome rfl) s
  | eraseFlash h => exact eraseFlashOp_performs h (hsome rfl) s
  | writeEEData h data => exact writeEEOp_performs h data (hsome rfl) s
  | writeConfig h data => exact writeConfigOp_performs h data (hsome rfl) s

theorem sameCollaborators_trans {s t u : State} (h : SameCollaborators s t) (h' : SameCollaborators t u) : SameCollaborators s u := by
  obtain ⟨hflash, hee, hcfg, hrow, hrec, hbusy, hdraws⟩ := h
  obtain ⟨hflash', hee', hcfg', hrow', hrec', hbusy', hdraws'⟩ := h'
  exact ⟨hflash'.trans hflash, hee'.trans hee, hcfg'.trans hcfg, hrow'.trans hrow, hrec'.trans hrec, hbusy'.trans hbusy,
    hdraws'.trans hdraws⟩

theorem sameCollaborators_bufSetList (j : Nat) (bytes : List Byte) (s : State) : SameCollaborators s (bufSetList j bytes s) := by
  obtain ⟨b, hb, -⟩ := bufSetList_eq bytes j s
  rw [hb]
  exact sameCollaborators_refl s

/-- The end of a command performs no port operation. -/
theorem sameCollaborators_endOf (i : Instr) (l : Loc) (u : State) : SameCollaborators u (endOf i l u) := by
  cases i with
  | readVersion _ => exact sameCollaborators_trans (sameCollaborators_bufSetList _ _ u) (sameCollaborators_bufSetList _ _ _)
  | readFlash _ | readEEData _ | readConfig _ | calcChecksum _ | resetDevice _ | invalid _ _ => exact sameCollaborators_refl u
  | writeFlash _ _ | eraseFlash _ | writeEEData _ _ | writeConfig _ _ => exact sameCollaborators_refl u

/-- A step at a command-local state with an element to come. -/
theorem operationStep_of_operate {i : Instr} {l : Loc} {s t : State} (hi : l.i < l.n) (hphase : s.phase = .dispatch)
    (hpair : isMutating i = true → l.pair.isSome = true) (h : operate (opOf (pairOf l.pair) i) (endOf i) l s = .next t) :
    OperationStep i l s t := by
  have hgoes : ∀ {l' : Loc} {u : State}, OpFrame s u → GoesOn l' s (suspend l' u) := fun hu => ⟨hu.phase.trans hphase, rfl, hu.k1, hu.k2⟩
  obtain ⟨t', ht', hcases⟩ := operate_sat (normal := endOf i) (CtlSat.and (opOf_performs hpair s) (opOf_frame (pairOf l.pair) i l s))
  obtain rfl : t = t' := by rw [h] at ht'; injection ht'
  rcases hcases with ⟨hle, -⟩ | ⟨-, ⟨l', u, ⟨⟨hsame, hnext⟩, hu⟩, hi', rfl⟩ | ⟨l', u, ⟨⟨hsame, hnext⟩, hu⟩, hi', rfl⟩ |
    ⟨u, ⟨⟨hsame, hnext⟩, hu⟩, rfl⟩ | ⟨u, ⟨⟨hsame, hnext, hsus⟩, hu⟩, rfl⟩⟩
  · omega
  · refine ⟨hsame, ?_⟩
    rcases hnext with ⟨hnext, rfl⟩ | ⟨cur, sum, hnext, rfl⟩ <;> rw [hnext]
    · exact hgoes hu
    · exact ⟨fun _ => ⟨sum, hgoes hu⟩, fun hle => absurd hi' (Nat.not_lt.mpr hle)⟩
  · refine ⟨sameCollaborators_trans hsame (sameCollaborators_endOf i l' u), ?_⟩
    rcases hnext with ⟨hnext, rfl⟩ | ⟨cur, sum, hnext, rfl⟩ <;> rw [hnext]
    · exact absurd hi (Nat.not_lt.mpr hi')
    · exact ⟨fun hlt => absurd hlt (Nat.not_lt.mpr hi'), fun _ => hasEnded_endOf i _ u⟩
  · refine ⟨hsame, ?_⟩
    rw [hnext]
    exact ⟨⟨rfl, rfl, rfl, rfl⟩, rfl⟩
  · refine ⟨hsame, ?_⟩
    subst hsus
    rw [hnext]
    exact ⟨hphase, rfl, rfl, rfl⟩

/-- Settles O7: the step is `operate` at the command-local state, or the dispatch start and, if it leads to a loop, its first `operate`. -/
theorem oneOperationPerStep : Obligations.OneOperationPerStep := by
  intro i s t hrun hphase hpace hfetch hstep
  have hdispatch : dispatchStep s = .next t := (step_of_dispatch hrun hphase).symm.trans hstep
  rw [dispatchStep, hfetch] at hdispatch
  refine ⟨fun l hloc hi => ?goesOn, fun hloc => ⟨fun l u hstart => ?loop, fun u hstart => ?ended⟩⟩
  case goesOn =>
    simp only [hloc] at hdispatch
    obtain ⟨hops, hpair⟩ := operateOn_next hdispatch
    rw [operateOn_eq_operate hops hpair] at hdispatch
    exact operationStep_of_operate hi hphase hpair hdispatch
  all_goals
    simp only [hloc, hpace] at hdispatch
    simp only [reduceCtorEq, false_and, if_false, openRequest, hstart] at hdispatch
    have hcase := startOf_cases i (tickReset s)
    rw [hstart] at hcase
  case loop =>
    obtain ⟨hops, hpair⟩ := operateOn_next hdispatch
    rw [operateOn_eq_operate hops hpair] at hdispatch
    cases hcase with
    | loop cur n =>
      refine ⟨rfl, rfl, rfl, rfl, fun hn => operationStep_of_operate hn hphase hpair hdispatch, fun hn => ?_⟩
      rw [operate, if_neg (by change ¬0 < n; change n = 0 at hn; omega)] at hdispatch
      cases hdispatch
      exact ⟨sameCollaborators_trans (sameCollaborators_refl s) (sameCollaborators_endOf i _ _), hasEnded_endOf i _ _⟩
  case ended =>
    cases hdispatch
    cases hcase with
    | refused | resetDevice _ _ | invalid _ _ _ =>
      exact ⟨rfl, sameCollaborators_refl s, ⟨rfl, rfl, rfl, rfl⟩, by subst_vars; exact ⟨rfl, rfl⟩⟩

end Sys2Proof.Proofs.Operations
end

section
/-! PROOFS. How a whole request ends: every request is answered, but for a Write EE Data that an EEPROM which never leaves busy holds
(43_dispatch_and_reads.md R167; 60_exceptions.md R247 (c)). -/

namespace Sys2Proof.Proofs.RequestEnds

open Sys2Proof.Machine Sys2Proof.Safety Sys2Proof.Proofs.UnlockKeys Sys2Proof.Proofs.WriteEEData Sys2Proof.Proofs.Steps
  Sys2Proof.Proofs.Transmit Sys2Proof.Proofs.Requests Sys2Proof.Proofs.MachineSafety

/-! ## Where a Write EE Data is held -/

/-- A Write EE Data of `n` bytes is at byte `l.i`, before its wait: the cursor is that byte's address. -/
def AtEEByte (p : Params) (h : Header) (n : Nat) (l : Loc) : Prop := l.n = n ∧ l.cur = eeCursor (eeTarget p h l.i)

/-- A Write EE Data that began its loop in `s` is held before the wait of one of its bytes (60_exceptions.md R247 (c)). -/
def HeldAt (p : Params) (h : Header) (n : Nat) (s t : State) : Prop :=
  ∃ l u, t = suspend l u ∧ OpFrame s u ∧ AtEEByte p h n l ∧ l.i < n ∧ l.second = false ∧ u.eeBusy.isSome = true ∧ u.eeStuck = true

theorem opFrame_writeEEElement {s u : State} (hu : OpFrame s u) (a : Half) (v : Byte) (pair : KeyPair) :
    OpFrame s (eeWrite a v pair (completeEE u)) := hu.trans rfl

theorem continueLoop_writeEEOp (h : Header) (data : List Byte) (pair : KeyPair) (q : Option KeyPair) {n : Nat} (s : State) :
    CtlSat (fun l' u => OpFrame s u ∧ l'.n = n) (fun _ => False) (HeldAt s.params h n s)
      (continueLoop (writeEEOp pair data) (startLoc (eeCursor (eeAddr h)) n q) s) := by
  refine CtlSat.mono (runLoop_sat_counted (G := fun l u => OpFrame s u ∧ AtEEByte s.params h n l) ?body n _ s (Nat.zero_add n)
    ⟨opFrame_refl s, rfl, eeCursor_eeAddr _ h⟩) (fun _ _ ⟨⟨hu, hn, _⟩, _⟩ => ⟨hu, hn⟩) (fun _ => id) (fun _ => id)
  case body =>
    intro l u hi ⟨hu, hn, hcur⟩
    rw [element_writeEEOp]
    split
    case isTrue hheld =>
      obtain ⟨hbusy, hstuck⟩ := hheld
      exact ⟨{ l with second := false }, u, rfl, hu, ⟨hn, hcur⟩, hn ▸ hi, rfl, hbusy, hstuck⟩
    case isFalse =>
      refine ⟨⟨opFrame_writeEEElement hu _ _ _, hn, ?_⟩, rfl, rfl⟩
      rw [nextLoc, hu.params, hcur, nextEEWrite_eeTarget]

/-! ## Every loop -/

/-- Only a Write EE Data stops before its end, and only where it is held. -/
theorem continueLoop_ends {i : Instr} {p : Params} {cur : Addr} {n : Nat} (pair : KeyPair) (q : Option KeyPair) {s : State}
    (hp : s.params = p) (hstart : StartsAt p cur n i) :
    CtlSat (fun l' u => OpFrame s u ∧ l'.n = n) (OpFrame s) (fun t => ∃ h data, i = .writeEEData h data ∧ HeldAt p h n s t)
      (continueLoop (opOf pair i) (startLoc cur n q) s) := by
  subst hp
  by_cases hee : ∃ h data, i = .writeEEData h data
  case pos =>
    obtain ⟨h, data, rfl⟩ := hee
    obtain ⟨rfl, -⟩ := hstart
    exact (continueLoop_writeEEOp h data pair q s).mono (fun _ _ => id) (fun _ => False.elim) fun _ hheld => ⟨h, data, rfl, hheld⟩
  case neg =>
    have hop : ∀ l u, l.i < l.n → OpFrame s u ∧ l.n = n →
        CtlSat (fun l' u' => (OpFrame s u' ∧ l'.n = n) ∧ OpNext l l') (OpFrame s)
          (fun t => ∃ h data, i = .writeEEData h data ∧ HeldAt s.params h n s t) (opOf pair i l u) := fun l u _ ⟨hu, hn⟩ =>
      (CtlSat.and (opOf_keepsFrame pair i hu l) (opOf_next pair i l u)).mono
        (fun _ _ ⟨hu', hnext⟩ => ⟨⟨hu', hnext.1.trans hn⟩, hnext⟩) (fun _ ⟨hu', _⟩ => hu') fun _ ⟨_, hholds, _⟩ => absurd hholds hee
    exact (continueLoop_sat_counted (fun _ _ => id) (fun _ _ _ ⟨hu, hn⟩ _ => ⟨hu.trans rfl, hn⟩) hop (Nat.zero_le n)
      ⟨opFrame_refl s, rfl⟩).mono (fun _ _ ⟨hg, _⟩ => hg) (fun _ => id) fun _ => id

/-! ## The end of a request -/

/-- The length of the response at the normal end of a command (43_dispatch_and_reads.md R170 to R181, R186). -/
def responseLength (n : Nat) : Instr → Nat
  | .readVersion _ => 25
  | .readFlash _ | .readEEData _ | .readConfig _ => 9 + n
  | .calcChecksum _ => 11
  | .writeFlash _ _ | .eraseFlash _ | .writeEEData _ _ | .writeConfig _ _ | .resetDevice _ | .invalid _ _ => 10

theorem answers_endOf (i : Instr) (l : Loc) (u : State) : Answers (responseLength l.n i) (endOf i l u) := by
  cases i with
  | readVersion _ | readFlash _ | writeFlash _ _ | eraseFlash _ | readEEData _ | writeEEData _ _ | readConfig _ | writeConfig _ _
  | calcChecksum _ | resetDevice _ | invalid _ _ => exact ⟨rfl, rfl, rfl, rfl⟩

theorem answers_abortOutOfRange (u : State) : Answers 10 (abortOutOfRange u) := ⟨rfl, rfl, rfl, rfl⟩

theorem responseLength_bounds {p : Params} {cur : Addr} {n : Nat} {i : Instr} (hstart : StartsAt p cur n i) (hw : 16 ≤ p.w) :
    9 ≤ responseLength n i ∧ responseLength n i ≤ 9 + p.w := by
  cases i with
  | readFlash _ | readEEData _ | readConfig _ =>
    obtain ⟨-, -, hn⟩ := hstart
    exact ⟨Nat.le_add_right 9 n, Nat.add_le_add_left hn 9⟩
  | readVersion _ | calcChecksum _ | writeFlash _ _ | eraseFlash _ | writeEEData _ _ | writeConfig _ _ | resetDevice _ | invalid _ _ =>
    simp only [responseLength]
    omega

/-- A request is answered, or is a Write EE Data that is held; only one the decoder never answers is refused. -/
theorem exec_answers_or_held (i : Instr) (s : State) :
    (i.wf s.params.w = false ∧ exec i s = .refused .illFormedPayload) ∨
      ∃ t, exec i s = .next t ∧
        ((∃ len, Answers len t ∧ (16 ≤ s.params.w → 9 ≤ len ∧ len ≤ 9 + s.params.w)) ∨
          ∃ h data n, i = .writeEEData h data ∧ HeldAt s.params h n (loadKeys i.header s) t) := by
  have hshort : 16 ≤ s.params.w → 9 ≤ 10 ∧ 10 ≤ 9 + s.params.w := by omega
  have hcase := startOf_cases i s
  rw [exec_eq_runCommand]
  generalize startOf i s = start at hcase
  cases hcase with
  | loop cur n hstart =>
    have hends := continueLoop_ends (pairOf (requiredPair s.params i)) (requiredPair s.params i) (s := loadKeys i.header s) rfl hstart
    simp only [runCommand, startLoop]
    cases hrun : continueLoop (opOf (pairOf (requiredPair s.params i)) i) (startLoc cur n (requiredPair s.params i))
      (loadKeys i.header s) with
    | go l u =>
      rw [hrun] at hends
      obtain ⟨-, rfl⟩ := hends
      exact .inr ⟨_, rfl, .inl ⟨_, answers_endOf i l u, responseLength_bounds hstart⟩⟩
    | abort u => exact .inr ⟨_, rfl, .inl ⟨_, answers_abortOutOfRange u, hshort⟩⟩
    | stop u =>
      rw [hrun] at hends
      obtain ⟨h, data, hi, hheld⟩ := hends
      exact .inr ⟨u, rfl, .inr ⟨h, data, n, hi, hheld⟩⟩
  | refused => exact .inr ⟨_, rfl, .inl ⟨_, answers_abortOutOfRange _, hshort⟩⟩
  | illFormed hill => exact .inl ⟨hill, rfl⟩
  | resetDevice h | invalid code h => exact .inr ⟨_, rfl, .inl ⟨10, ⟨rfl, rfl, rfl, rfl⟩, hshort⟩⟩

/-- Settles O10: nothing holds a request where the EEPROM leaves busy. -/
theorem everyRequestIsAnswered : Obligations.EveryRequestIsAnswered := by
  intro i s hbuf hready hwf
  obtain ⟨hill, -⟩ | ⟨t, hexec, hanswered | hheld⟩ := exec_answers_or_held i s
  · exact absurd (hwf.symm.trans hill) nofun
  · obtain ⟨len, hanswers, hlen⟩ := hanswered
    exact ⟨t, len, hexec, hanswers, hlen hbuf.2⟩
  · obtain ⟨h, data, n, -, l, u, -, hu, -, -, -, -, hstuck⟩ := hheld
    exact absurd ((hu.eeStuck.trans hready).symm.trans hstuck) nofun

/-- A request that has not ended is a Write EE Data that is held. -/
theorem held_of_exec {i : Instr} {s t : State} (hexec : exec i s = .next t) (hphase : t.phase = .dispatch) :
    ∃ h data n, i = .writeEEData h data ∧ HeldAt s.params h n (loadKeys i.header s) t := by
  obtain ⟨-, hrefused⟩ | ⟨u, hexec', hends⟩ := exec_answers_or_held i s
  · exact absurd (hexec.symm.trans hrefused) nofun
  · obtain rfl : t = u := Host.Outcome.next.inj (hexec.symm.trans hexec')
    refine hends.resolve_left fun ⟨_, ⟨hxmit, _⟩, _⟩ => ?_
    exact absurd (hxmit.symm.trans hphase) nofun

/-- Settles O11: the command that is held stands before the wait of one of its bytes. -/
theorem onlyHoldKeepsDispatch : Obligations.OnlyHoldKeepsDispatch := by
  intro i s t _ hexec hphase
  obtain ⟨h, data, n, hi, l, u, rfl, hu, ⟨hn, hcur⟩, hlt, hsecond, hbusy, hstuck⟩ := held_of_exec hexec hphase
  exact ⟨h, data, l, hi, hstuck, hbusy, rfl, hn.symm ▸ hlt, hsecond, hcur⟩

end Sys2Proof.Proofs.RequestEnds
end

section
/-! PROOFS. A request port operation by port operation arrives where `exec`, which runs it as a whole, says (00_scope.md R9; log 6, 7), and a
Write EE Data that was held goes on there too. -/

namespace Sys2Proof.Proofs.Stepwise

open Sys2Proof.Machine Sys2Proof.Safety Sys2Proof.Proofs.UnlockKeys Sys2Proof.Proofs.WriteEEData Sys2Proof.Proofs.Steps
  Sys2Proof.Proofs.Transmit Sys2Proof.Proofs.Requests Sys2Proof.Proofs.MachineSafety Sys2Proof.Proofs.RequestEnds

/-! ## Where steps lead -/

/-- From the outcome `o` of a step, some number of steps gives `r`. -/
def Leads (o r : Host.Outcome State Fault Refusal) : Prop := ∃ t k, o = .next t ∧ runSteps k t = r

theorem leads_self (t : State) : Leads (.next t) (.next t) := ⟨t, 0, rfl, rfl⟩

theorem runSteps_of_leads {s : State} {r : Host.Outcome State Fault Refusal} (h : Leads (step s) r) : ∃ k, runSteps (k + 1) s = r := by
  obtain ⟨t, k, hstep, hrun⟩ := h
  exact ⟨k, by rw [runSteps, hstep]; exact hrun⟩

theorem leads_of_step {s : State} {r : Host.Outcome State Fault Refusal} (h : Leads (step s) r) : Leads (.next s) r := by
  obtain ⟨k, hrun⟩ := runSteps_of_leads h
  exact ⟨s, k + 1, rfl, hrun⟩

/-! ## The command-local state is looked at by no operation and by no end -/

/-- The outcome of a port operation, its command-local state forgotten where it goes on or aborts. -/
def Ctl.suspended (m : Loc) : Ctl → Ctl
  | .go l s => .go l (suspend m s)
  | .abort s => .abort (suspend m s)
  | .stop s => .stop s

theorem opOf_suspend (pair : KeyPair) (i : Instr) (l m : Loc) (s : State) :
    opOf pair i l (suspend m s) = Ctl.suspended m (opOf pair i l s) := by
  cases i with
  | readVersion h | readFlash h | readEEData h | readConfig h | calcChecksum h | resetDevice h | invalid code h => rfl
  | writeFlash h data =>
    simp only [opOf, writeFlashOp]
    split
    · rfl
    · change (if inFlash s.params l.cur then _ else _) = _
      split <;> rfl
  | eraseFlash h =>
    change (if inFlash s.params l.cur then _ else _) = Ctl.suspended m (if inFlash s.params l.cur then _ else _)
    split <;> rfl
  | writeEEData h data =>
    simp only [opOf, writeEEOp]
    split
    · rfl
    · change (if s.eeBusy.isSome then _ else _) = _
      split <;> rfl
  | writeConfig h data =>
    simp only [opOf, writeConfigOp]
    split
    · rfl
    · change (if inCfg s.params l.cur then _ else _) = _
      split <;> rfl

theorem bufSetList_suspend (m : Loc) (bytes : List Byte) :
    ∀ (j : Nat) (s : State), bufSetList j bytes (suspend m s) = suspend m (bufSetList j bytes s) := by
  induction bytes with
  | nil => exact fun _ _ => rfl
  | cons v bytes ih => exact fun j s => ih (j + 1) (bufSet j v s)

theorem endOf_suspend (i : Instr) (l m : Loc) (s : State) : endOf i l (suspend m s) = endOf i l s := by
  cases i with
  | readVersion h =>
    simp only [endOf, finishVersion, bufSetList_suspend]
    rfl
  | readFlash h | readEEData h | readConfig h | calcChecksum h | resetDevice h | invalid code h => rfl
  | writeFlash h data | eraseFlash h | writeEEData h data | writeConfig h data => rfl

theorem operate_suspend (pair : KeyPair) (i : Instr) (l m : Loc) (s : State) :
    operate (opOf pair i) (endOf i) l (suspend m s) = operate (opOf pair i) (endOf i) l s := by
  unfold operate
  rw [opOf_suspend, endOf_suspend]
  cases opOf pair i l s with
  | go l' s' => simp only [Ctl.suspended, endOf_suspend]; rfl
  | abort s' | stop s' => rfl

/-! ## A request in progress -/

/-- The block is at an operation of the request `i`, and no reset is to come. -/
structure Ready (i : Instr) (s : State) : Prop where
  owner   : s.owner = .block
  noReset : NoReset s
  phase   : s.phase = .dispatch
  fetch   : fetchInstr s = .ok i

theorem Ready.frame {i : Instr} {s u : State} (h : Ready i s) (hu : OpFrame s u) (hfetch : fetchInstr u = .ok i) : Ready i u :=
  ⟨hu.owner.trans h.owner, hu.resetAfter.trans h.noReset, hu.phase.trans h.phase, hfetch⟩

theorem Ready.loadKeys {i : Instr} {s : State} (h : Ready i s) : Ready i (loadKeys i.header s) :=
  ⟨h.owner, h.noReset, h.phase, h.fetch⟩

theorem Ready.setEEStuck {i : Instr} {s : State} (h : Ready i s) (stuck : Bool) : Ready i (setEEStuck stuck s) :=
  ⟨h.owner, h.noReset, h.phase, h.fetch⟩

/-- A port operation leaves the request in the frame buffer as it was. -/
theorem opOf_fetch {i : Instr} {s : State} (h : fetchInstr s = .ok i) (pair : KeyPair) (l : Loc) :
    CtlSat (fun _ u => fetchInstr u = .ok i) (fun _ => True) (fun _ => True) (opOf pair i l s) := by
  cases i with
  | readVersion _ =>
    refine fetchInstr_bufSet (s := afterRead .cfg l.cur.toNat s) h rfl ?_ _
    unfold versionSlot
    split <;> omega
  | readFlash _ | readEEData _ | readConfig _ => exact fetchInstr_bufSet (s := afterRead _ l.cur.toNat s) h rfl (Nat.le_add_right 9 l.i) _
  | calcChecksum _ => exact h
  | resetDevice _ | invalid _ _ => trivial
  | writeFlash _ data =>
    simp only [opOf, writeFlashOp]
    split
    · exact h
    · split
      · exact h
      · trivial
  | eraseFlash _ =>
    simp only [opOf, eraseFlashOp]
    split
    · exact h
    · trivial
  | writeEEData _ data =>
    simp only [opOf, writeEEOp]
    split
    · exact h
    · split
      · trivial
      · exact h
  | writeConfig _ data =>
    simp only [opOf, writeConfigOp]
    split
    · exact h
    · split
      · exact h
      · trivial

theorem opOf_ready {i : Instr} {s : State} (h : Ready i s) (pair : KeyPair) (l : Loc) :
    CtlSat (fun l' u => Ready i u ∧ OpNext l l') (fun _ => True) (HoldsAt i l s) (opOf pair i l s) :=
  (CtlSat.and (opOf_next pair i l s) (CtlSat.and (opOf_frame pair i l s) (opOf_fetch h.fetch pair l))).mono
    (fun _ _ ⟨hnext, hu, hfetch⟩ => ⟨h.frame hu hfetch, hnext⟩) (fun _ _ => trivial) fun _ ⟨hholds, _⟩ => hholds

/-! ## One element -/

section
variable {op : Loc → State → Ctl} {l : Loc} {s : State}

theorem fresh_of_second (hsecond : l.second = false) : { l with second := false } = l := by
  cases l
  cases hsecond
  rfl

theorem element_of_go {l' : Loc} {s' : State} (hsecond : l.second = false) (h : op l s = .go l' s') :
    element op l s = if l'.second then op l' s' else .go l' s' := by
  rw [element, fresh_of_second hsecond, whenReady, h]

theorem element_of_abort {t : State} (hsecond : l.second = false) (h : op l s = .abort t) : element op l s = .abort t := by
  rw [element, fresh_of_second hsecond, whenReady, h]

theorem element_of_stop {t : State} (hsecond : l.second = false) (h : op l s = .stop t) (hstuck : s.eeStuck = true) :
    element op l s = .stop t := by
  rw [element, fresh_of_second hsecond, whenReady, h]
  simp only [hstuck, if_true]

theorem continueLoop_of_ge (hi : l.n ≤ l.i) : continueLoop op l s = .go l s := by
  rw [continueLoop, Nat.sub_eq_zero_of_le hi, runLoop]

theorem continueLoop_of_lt (hi : l.i < l.n) : continueLoop op l s = runLoop (element op) (l.n - (l.i + 1) + 1) l s := by
  rw [continueLoop, show l.n - l.i = l.n - (l.i + 1) + 1 by omega]

theorem continueLoop_of_abort {t : State} (hi : l.i < l.n) (h : element op l s = .abort t) : continueLoop op l s = .abort t := by
  rw [continueLoop_of_lt hi, runLoop, h]

theorem continueLoop_of_stop {t : State} (hi : l.i < l.n) (h : element op l s = .stop t) : continueLoop op l s = .stop t := by
  rw [continueLoop_of_lt hi, runLoop, h]

theorem continueLoop_of_go {l' : Loc} {s' : State} (hi : l.i < l.n) (h : element op l s = .go l' s') (hn : l'.n = l.n)
    (hi' : l'.i = l.i + 1) : continueLoop op l s = continueLoop op l' s' := by
  rw [continueLoop_of_lt hi, runLoop, h, continueLoop, hn, hi']

theorem continueLoop_congr {s' : State} (hi : l.i < l.n) (h : element op l s = element op l s') :
    continueLoop op l s = continueLoop op l s' := by
  rw [continueLoop_of_lt hi, continueLoop_of_lt hi, runLoop, runLoop, h]

end

/-! ## Step by step -/

section
variable {i : Instr} {q : Option KeyPair} (hops : endsAtStart i = false) (hq : isMutating i = true → q.isSome = true)
include hops hq

theorem step_suspend {l : Loc} {s : State} (h : Ready i s) (hl : l.pair = q) :
    step (suspend l s) = operate (opOf (pairOf q) i) (endOf i) l s := by
  have hfetch : fetchInstr (suspend l s) = .ok i := h.fetch
  rw [step_of_dispatch (running_of_noReset (s := suspend l s) h.owner h.noReset) h.phase, dispatchStep, hfetch]
  change operateOn i l (tickReset (suspend l s)) = _
  rw [tickReset_of_noReset (s := suspend l s) h.noReset, operateOn_eq_operate hops (hl ▸ hq), hl, operate_suspend]

/-- One step of an element's loop leads on where the rest of the loop does. -/
theorem suspended_leads {l : Loc} {s : State} {r : Host.Outcome State Fault Refusal} (h : Ready i s) (hl : l.pair = q)
    (hleads : Leads (operate (opOf (pairOf q) i) (endOf i) l s) r) : Leads (.next (suspend l s)) r :=
  leads_of_step (by rw [step_suspend hops hq h hl]; exact hleads)

end

/-! ## The wait -/

section
variable {h : Header} {data : List Byte} {l : Loc} {s : State} (pair : KeyPair)

theorem opOf_of_busy (hsecond : l.second = false) (hbusy : s.eeBusy.isSome = true) :
    opOf pair (.writeEEData h data) l s = .stop (suspend l s) := by
  simp only [opOf, writeEEOp, hsecond, hbusy, Bool.false_eq_true, if_false, if_true]

theorem operate_of_busy (hi : l.i < l.n) (hsecond : l.second = false) (hbusy : s.eeBusy.isSome = true) :
    operate (opOf pair (.writeEEData h data)) (endOf (.writeEEData h data)) l s = .next (suspend l (tickEE s)) := by
  rw [operate, if_pos hi, opOf_of_busy pair hsecond hbusy]
  rfl

theorem Ready.tickEE {i : Instr} (h : Ready i s) : Ready i (tickEE s) := ⟨h.owner, h.noReset, h.phase, h.fetch⟩

theorem completeEE_tickEE (s : State) : completeEE (tickEE s) = completeEE s := by
  simp only [completeEE, eeAfterBusy_tickEE]
  rfl

/-- Where the EEPROM leaves busy, an element that waits is the element after the wait. -/
theorem continueLoop_completeEE (hi : l.i < l.n) (hstuck : s.eeStuck = false) :
    continueLoop (opOf pair (.writeEEData h data)) l s = continueLoop (opOf pair (.writeEEData h data)) l (completeEE s) := by
  have hfree : ∀ u : State, u.eeStuck = false → ¬(u.eeBusy.isSome = true ∧ u.eeStuck = true) := fun u hu hheld => by
    rw [hu] at hheld
    exact absurd hheld.2 nofun
  have helement : element (writeEEOp pair data) l s = element (writeEEOp pair data) l (completeEE s) := by
    rw [element_writeEEOp, element_writeEEOp, if_neg (hfree s hstuck), if_neg (hfree (completeEE s) hstuck),
      completeEE_of_none (s := completeEE s) rfl]
    rfl
  exact continueLoop_congr hi helement

/-- A wait passes, step by step, to the state in which the EEPROM has left busy (20_memory.md R62). -/
theorem wait_leads {q : Option KeyPair} {r : Host.Outcome State Fault Refusal} (hq : q.isSome = true) (hl : l.pair = q) (hi : l.i < l.n)
    (hsecond : l.second = false)
    (hdone : Leads (operate (opOf (pairOf q) (.writeEEData h data)) (endOf (.writeEEData h data)) l (completeEE s)) r) :
    ∀ left b u, completeEE u = completeEE s → Ready (.writeEEData h data) u → u.eeStuck = false → u.eeBusy = some ⟨b, left⟩ →
      Leads (operate (opOf (pairOf q) (.writeEEData h data)) (endOf (.writeEEData h data)) l u) r := by
  intro left
  induction left with
  | zero =>
    intro b u hcomplete hready hstuck hbusy
    have hends : tickEE u = completeEE u := by
      simp [tickEE, completeEE, eeEnds, hbusy, hstuck]
    rw [operate_of_busy _ hi hsecond (by rw [hbusy]; rfl)]
    exact suspended_leads rfl (fun _ => hq) hready.tickEE hl (by rw [hends.trans hcomplete]; exact hdone)
  | succ left ih =>
    intro b u hcomplete hready hstuck hbusy
    have hshorter : (tickEE u).eeBusy = some ⟨b, left⟩ := by
      simp [tickEE, eeShortened, eeEnds, hbusy, hstuck]
    rw [operate_of_busy _ hi hsecond (by rw [hbusy]; rfl)]
    exact suspended_leads rfl (fun _ => hq) hready.tickEE hl
      (ih b _ ((completeEE_tickEE u).trans hcomplete) hready.tickEE hstuck hshorter)

end

/-! ## The loop -/

section
variable {i : Instr} {q : Option KeyPair} (hops : endsAtStart i = false) (hq : isMutating i = true → q.isSome = true)
include hops hq

/-- After an operation that ended its element, the rest of the loop is to come. -/
theorem next_leads {l : Loc} {s : State}
    (hrest : l.i < l.n → Leads (operate (opOf (pairOf q) i) (endOf i) l s) (endCommand (continueLoop (opOf (pairOf q) i) l s) (endOf i)))
    (h : Ready i s) (hl : l.pair = q) :
    Leads (if l.i < l.n then .next (suspend l s) else .next (endOf i l s))
      (endCommand (continueLoop (opOf (pairOf q) i) l s) (endOf i)) := by
  split
  case isTrue hi => exact suspended_leads hops hq h hl (hrest hi)
  case isFalse hi =>
    rw [continueLoop_of_ge (Nat.le_of_not_lt hi)]
    exact leads_self _

/-- The element that an operation begins, where it does not hold, and the rest of the loop. -/
theorem element_leads {l : Loc} {s : State} (h : Ready i s) (hl : l.pair = q) (hi : l.i < l.n) (hsecond : l.second = false)
    (hgoes : ∀ t, opOf (pairOf q) i l s ≠ .stop t)
    (hrest : ∀ l' s', Ready i s' → l'.pair = q → l'.second = false → l'.n = l.n → l'.i = l.i + 1 → l'.i < l'.n →
      Leads (operate (opOf (pairOf q) i) (endOf i) l' s') (endCommand (continueLoop (opOf (pairOf q) i) l' s') (endOf i))) :
    Leads (operate (opOf (pairOf q) i) (endOf i) l s) (endCommand (continueLoop (opOf (pairOf q) i) l s) (endOf i)) := by
  have hop := opOf_ready h (pairOf q) l
  rw [operate, if_pos hi]
  cases hfirst : opOf (pairOf q) i l s with
  | stop t => exact absurd hfirst (hgoes t)
  | abort t =>
    rw [continueLoop_of_abort hi (element_of_abort hsecond hfirst)]
    exact leads_self _
  | go l' s' =>
    rw [hfirst] at hop
    obtain ⟨hready, hn, hpair, ⟨-, hsecond', hi', -⟩ | ⟨hsecond', hi'⟩⟩ := hop
    all_goals
      have helement := element_of_go hsecond hfirst
      rw [hsecond'] at helement
    case inr =>
      rw [continueLoop_of_go hi helement hn hi']
      exact next_leads hops hq (hrest l' s' hready (hpair.trans hl) hsecond' hn hi') hready (hpair.trans hl)
    case inl =>
      have hlt : l'.i < l'.n := by rw [hi', hn]; exact hi
      have hop' := opOf_ready hready (pairOf q) l'
      simp only [if_pos hlt]
      refine suspended_leads hops hq hready (hpair.trans hl) ?_
      rw [operate, if_pos hlt]
      cases hnext : opOf (pairOf q) i l' s' with
      | stop t =>
        rw [hnext] at hop'
        exact absurd (hsecond'.symm.trans hop'.2.1) nofun
      | abort t =>
        rw [continueLoop_of_abort hi (helement.trans hnext)]
        exact leads_self _
      | go l'' s'' =>
        have helement := helement.trans hnext
        rw [hnext] at hop'
        obtain ⟨hready'', hn'', hpair'', ⟨hfalse, -⟩ | ⟨hsecond'', hi''⟩⟩ := hop'
        · exact absurd (hsecond'.symm.trans hfalse) nofun
        · have hn : l''.n = l.n := hn''.trans hn
          have hi'' : l''.i = l.i + 1 := by rw [hi'', hi']
          have hl : l''.pair = q := hpair''.trans (hpair.trans hl)
          rw [continueLoop_of_go hi helement hn hi'']
          exact next_leads hops hq (hrest l'' s'' hready'' hl hsecond'' hn hi'') hready'' hl

/-- Port operation by port operation, a loop arrives where it arrives as a whole. -/
theorem operate_leads : ∀ k (l : Loc) (s : State), l.i + k = l.n → Ready i s → l.pair = q → l.second = false → l.i < l.n →
    Leads (operate (opOf (pairOf q) i) (endOf i) l s) (endCommand (continueLoop (opOf (pairOf q) i) l s) (endOf i)) := by
  intro k
  induction k with
  | zero => exact fun l s hk _ _ _ hi => absurd hi (by omega)
  | succ k ih =>
    intro l s hk h hl hsecond hi
    have hrest : ∀ l' s', Ready i s' → l'.pair = q → l'.second = false → l'.n = l.n → l'.i = l.i + 1 → l'.i < l'.n →
        Leads (operate (opOf (pairOf q) i) (endOf i) l' s') (endCommand (continueLoop (opOf (pairOf q) i) l' s') (endOf i)) :=
      fun l' s' hready hpair hsecond' hn hi' => ih l' s' (by omega) hready hpair hsecond'
    by_cases hstops : ∃ t, opOf (pairOf q) i l s = .stop t
    case neg => exact element_leads hops hq h hl hi hsecond (fun t ht => hstops ⟨t, ht⟩) hrest
    case pos =>
      obtain ⟨t, ht⟩ := hstops
      have hholds := opOf_next (pairOf q) i l s
      rw [ht] at hholds
      obtain ⟨⟨h', data, rfl⟩, -, hbusy, rfl⟩ := hholds
      cases hstuck : s.eeStuck with
      | true =>
        rw [continueLoop_of_stop hi (element_of_stop hsecond ht hstuck), operate_of_busy _ hi hsecond hbusy, tickEE_of_stuck hstuck]
        exact leads_self _
      | false =>
        obtain ⟨⟨b, left⟩, hsome⟩ := Option.isSome_iff_exists.mp hbusy
        have hready : Ready (.writeEEData h' data) (completeEE s) := ⟨h.owner, h.noReset, h.phase, h.fetch⟩
        have hgoes : ∀ t, opOf (pairOf q) (.writeEEData h' data) l (completeEE s) ≠ .stop t := fun t => by
          simp [opOf, writeEEOp, hsecond]
        rw [continueLoop_completeEE (pairOf q) hi hstuck]
        exact wait_leads (hq rfl) hl hi hsecond (element_leads hops hq hready hl hi hsecond hgoes hrest) left b s rfl h hstuck hsome

end

/-- A request that has loaded its keys arrives, operation by operation, where its loop does. -/
theorem start_leads {i : Instr} {p : Params} {cur : Addr} {n : Nat} {s : State} (hstart : StartsAt p cur n i) (h : Ready i s) :
    Leads (operateOn i (startLoc cur n (requiredPair p i)) s)
      (endCommand (continueLoop (opOf (pairOf (requiredPair p i)) i) (startLoc cur n (requiredPair p i)) s) (endOf i)) := by
  have hq : isMutating i = true → (requiredPair p i).isSome = true := fun hi => by
    obtain ⟨pair, hpair⟩ := requiredPair_of_isMutating hi p
    rw [hpair]
    rfl
  rw [operateOn_eq_operate hstart.endsAtStart hq]
  by_cases hn : (startLoc cur n (requiredPair p i)).i < n
  case pos => exact operate_leads hstart.endsAtStart hq n _ s (Nat.zero_add n) h rfl rfl hn
  case neg =>
    rw [operate]
    rw [if_neg (c := (startLoc cur n (requiredPair p i)).i < (startLoc cur n (requiredPair p i)).n) hn,
      continueLoop_of_ge (Nat.le_of_not_lt hn)]
    exact leads_self _

/-- Settles O8: where a step does not run the request as a whole, its operations do, one by one. -/
theorem operationsReachTheRequestsEnd : Obligations.OperationsReachTheRequestsEnd := by
  intro s i rest hown hreset hphase hloc hdecode
  have h : Ready i s := ⟨hown, hreset, hphase, fetchInstr_of_decode hdecode⟩
  refine runSteps_of_leads ?_
  rw [step_of_dispatch (running_of_noReset hown hreset) hphase, dispatchStep, h.fetch]
  simp only [hloc]
  split
  case isTrue =>
    obtain ⟨hill, -⟩ | ⟨t, hexec, -⟩ := exec_answers_or_held i s
    · exact absurd (fetchInstr_wf h.fetch) (by rw [hill]; exact nofun)
    · rw [hexec]
      exact leads_self t
  case isFalse =>
    have hcase := startOf_cases i s
    rw [tickReset_of_noReset hreset, openRequest, exec_eq_runCommand]
    generalize startOf i s = start at hcase
    cases hcase with
    | loop cur n hstart => exact start_leads hstart h.loadKeys
    | refused | resetDevice h | invalid code h => exact leads_self _
    | illFormed hill => exact absurd (fetchInstr_wf h.fetch) (by rw [hill]; exact nofun)

end Sys2Proof.Proofs.Stepwise
end

section
/-! PROOFS. A Write EE Data that an EEPROM which never leaves busy holds: where it stands, and where it goes on to (60_exceptions.md R247 (c);
10_state.md R28; 44_writes_and_control.md R213). -/

namespace Sys2Proof.Proofs.HeldWrites

open Sys2Proof.Machine Sys2Proof.Safety Sys2Proof.Proofs.PayloadReads Sys2Proof.Proofs.FlashRoundTrip Sys2Proof.Proofs.WriteEEData
  Sys2Proof.Proofs.Steps Sys2Proof.Proofs.Requests Sys2Proof.Proofs.MachineSafety Sys2Proof.Proofs.Stepwise

/-! ## The start -/

theorem exec_writeEEData_of_loop {h : Header} {data : List Byte} {s : State} (hfits : ¬overCapacity s.params h = true)
    (hlong : ¬data.length < h.dlen.toNat) :
    exec (.writeEEData h data) s =
      endCommand (continueLoop (writeEEOp s.params.nvmKey data) (startLoc (eeCursor (eeAddr h)) h.dlen.toNat (some s.params.nvmKey))
        (loadKeys h s)) finishMutation := by
  rw [exec, execWriteEEData, startWriteEEData, if_neg hfits, if_neg hlong]
  rfl

/-- A Write EE Data that has not ended passed its start checks. -/
theorem starts_of_exec {h : Header} {data : List Byte} {s t : State} (hexec : exec (.writeEEData h data) s = .next t)
    (hphase : t.phase = .dispatch) : ¬overCapacity s.params h = true ∧ ¬data.length < h.dlen.toNat := by
  rw [exec, execWriteEEData, startWriteEEData] at hexec
  split at hexec
  case isTrue =>
    cases hexec
    cases hphase
  case isFalse hfits =>
    split at hexec
    case isTrue => cases hexec
    case isFalse hlong => exact ⟨hfits, hlong⟩

/-! ## The loop -/

section
variable {pair : KeyPair} {data : List Byte} {l : Loc} {s : State}

/-- A byte that finds the EEPROM ready, or leaving busy, is written. -/
theorem element_writeEEOp_of_goes (hgoes : ¬(s.eeBusy.isSome = true ∧ s.eeStuck = true)) :
    element (writeEEOp pair data) l s =
      .go (nextLoc (nextEEWrite s.params l.cur) l) (eeWrite (eeOfCursor l.cur) (payloadByte data l.i) pair (completeEE s)) := by
  rw [element_writeEEOp, if_neg hgoes]

theorem continueLoop_of_held (hi : l.i < l.n) (hsecond : l.second = false) (hheld : s.eeBusy.isSome = true ∧ s.eeStuck = true) :
    continueLoop (writeEEOp pair data) l s = .stop (suspend l s) := by
  refine continueLoop_of_stop hi ?_
  rw [element_writeEEOp, if_pos hheld, fresh_of_second hsecond]

end

/-- A Write EE Data, begun in `s` at `l0`, is at the byte of `l`, and from there it goes on, if the EEPROM leaves busy after all, as one that
was never held. -/
structure GoesOnFrom (pair : KeyPair) (data : List Byte) (l0 : Loc) (s : State) (l : Loc) (u : State) : Prop where
  frame  : OpFrame s u
  buf    : u.buf = s.buf
  locs   : l.n = l0.n ∧ l.pair = l0.pair ∧ l.second = false
  rest   : continueLoop (writeEEOp pair data) l (setEEStuck false u) = continueLoop (writeEEOp pair data) l0 (setEEStuck false s)

theorem GoesOnFrom.next {pair : KeyPair} {data : List Byte} {l0 l : Loc} {s u : State} (h : GoesOnFrom pair data l0 s l u)
    (hi : l.i < l.n) :
    GoesOnFrom pair data l0 s (nextLoc (nextEEWrite u.params l.cur) l)
      (eeWrite (eeOfCursor l.cur) (payloadByte data l.i) pair (completeEE u)) := by
  obtain ⟨hn, hpair, -⟩ := h.locs
  refine ⟨h.frame.trans rfl, h.buf, ⟨hn, hpair, rfl⟩, Eq.trans ?_ h.rest⟩
  exact (continueLoop_of_go hi (element_writeEEOp_of_goes (s := setEEStuck false u) fun hheld => absurd hheld.2 nofun) rfl rfl).symm

theorem continueLoop_goesOnFrom (pair : KeyPair) (data : List Byte) {l0 : Loc} (s : State) (hsecond : l0.second = false)
    (hi : l0.i ≤ l0.n) :
    CtlSat (fun _ _ => True) (fun _ => False) (fun t => ∃ l u, t = suspend l u ∧ GoesOnFrom pair data l0 s l u ∧ l.i < l.n)
      (continueLoop (writeEEOp pair data) l0 s) := by
  refine CtlSat.mono (runLoop_sat_counted (G := GoesOnFrom pair data l0 s) ?body _ l0 s (Nat.add_sub_of_le hi)
    ⟨opFrame_refl s, rfl, ⟨rfl, rfl, hsecond⟩, rfl⟩) (fun _ _ _ => trivial) (fun _ => id) (fun _ => id)
  case body =>
    intro l u hlt h
    by_cases hheld : u.eeBusy.isSome = true ∧ u.eeStuck = true
    case pos =>
      rw [element_writeEEOp, if_pos hheld, fresh_of_second h.locs.2.2]
      exact ⟨l, u, rfl, h, hlt⟩
    case neg =>
      rw [element_writeEEOp_of_goes hheld]
      exact ⟨h.next hlt, rfl, rfl⟩

/-- Settles O47: from where it is held, the operations that are left lead to the end of the loop that was never held. -/
theorem heldWriteEEDataGoesOn : Obligations.HeldWriteEEDataGoesOn := by
  intro h data s t hown hreset hphase hstuck hfetch hexec htphase
  obtain ⟨hfits, hlong⟩ := starts_of_exec hexec htphase
  have hloop := continueLoop_goesOnFrom s.params.nvmKey data (l0 := startLoc (eeCursor (eeAddr h)) h.dlen.toNat (some s.params.nvmKey))
    (loadKeys h s) rfl (Nat.zero_le _)
  rw [exec_writeEEData_of_loop hfits hlong] at hexec
  rw [exec_writeEEData_of_loop (s := setEEStuck false s) hfits hlong]
  cases hrun : continueLoop (writeEEOp s.params.nvmKey data) (startLoc (eeCursor (eeAddr h)) h.dlen.toNat (some s.params.nvmKey))
    (loadKeys h s) with
  | go l u =>
    rw [hrun] at hexec
    cases hexec
    cases htphase
  | abort u =>
    rw [hrun] at hloop
    exact hloop.elim
  | stop u =>
    rw [hrun] at hexec hloop
    cases hexec
    obtain ⟨l, u, rfl, hat, hi⟩ := hloop
    obtain ⟨-, hpair, hsecond⟩ := hat.locs
    have hready : Ready (.writeEEData h data) u :=
      Ready.frame (s := loadKeys h s) ⟨hown, hreset, hphase, hfetch⟩ hat.frame
        ((fetchInstr_congr (s := s) hat.frame.params hat.buf).trans hfetch)
    obtain ⟨w, k, hw, hsteps⟩ := suspended_leads (q := some s.params.nvmKey) rfl (fun _ => rfl) (hready.setEEStuck false) hpair
      (operate_leads rfl (fun _ => rfl) (l.n - l.i) l _ (by omega) (hready.setEEStuck false) hpair hsecond hi)
    cases hw
    exact ⟨k, hsteps.trans (congrArg (endCommand · finishMutation) hat.rest)⟩

/-- Settles O46: the first byte finds the EEPROM ready and is written; the second waits for it. -/
theorem writeEEDataHoldsOnStuckEEPROM : Obligations.WriteEEDataHoldsOnStuckEEPROM := by
  intro h data s hstuck hready hphase htwo hfits hdata hmatch
  have hcap := not_overCapacity hfits
  obtain ⟨hee, hbusy⟩ := eeWrite_honored (a := eeAddr h) (v := payloadByte data 0)
    (honored_of_keysMatch hmatch (u := loadKeys h s) ⟨rfl, rfl⟩)
  have hnext : nextEEWrite s.params (eeCursor (eeAddr h)) = eeCursor (eeTarget s.params h 1) := by
    rw [eeCursor_eeAddr s.params, nextEEWrite_eeTarget]
  have hfirst : element (writeEEOp s.params.nvmKey data) (startLoc (eeCursor (eeAddr h)) h.dlen.toNat (some s.params.nvmKey))
      (loadKeys h s) =
      .go (nextLoc (eeCursor (eeTarget s.params h 1)) (startLoc (eeCursor (eeAddr h)) h.dlen.toNat (some s.params.nvmKey)))
        (eeWrite (eeAddr h) (payloadByte data 0) s.params.nvmKey (loadKeys h s)) := by
    rw [element_writeEEOp_of_goes (by rw [loadKeys_eeBusy, hready]; exact fun hheld => absurd hheld.1 nofun),
      completeEE_of_none (s := loadKeys h s) hready]
    simp only [startLoc, eeOfCursor_eeCursor, loadKeys_params, hnext]
  have hsecond := continueLoop_of_held (pair := s.params.nvmKey) (data := data)
    (l := nextLoc (eeCursor (eeTarget s.params h 1)) (startLoc (eeCursor (eeAddr h)) h.dlen.toNat (some s.params.nvmKey)))
    (s := eeWrite (eeAddr h) (payloadByte data 0) s.params.nvmKey (loadKeys h s)) htwo rfl ⟨by rw [hbusy]; rfl, hstuck⟩
  have hexec := exec_writeEEData_of_loop (data := data) (s := s) hcap (by omega)
  rw [continueLoop_of_go (Nat.lt_of_lt_of_le Nat.zero_lt_two htwo) hfirst rfl rfl, hsecond] at hexec
  exact ⟨_, _, _, hexec, hphase, rfl, rfl, rfl, rfl, rfl, rfl, hbusy, hee, rfl, rfl⟩

end Sys2Proof.Proofs.HeldWrites
end

section
/-! PROOFS. The start check of the writers (41_address_guard.md R127, R134), the row mask (20_memory.md R57), and the unlock sequence
(42_unlock_sequence.md R147). -/

namespace Sys2Proof.Proofs.StartChecks

open Sys2Proof.Machine Sys2Proof.Safety Sys2Proof.Proofs.GuardBounds Sys2Proof.Proofs.GuardAborts Sys2Proof.Proofs.PayloadReads
  Sys2Proof.Proofs.FlashRoundTrip Sys2Proof.Proofs.MutatingLoop

/-- Settles O33. -/
theorem rowMaskRoundsDown : Obligations.RowMaskRoundsDown := fun _ a hn => alignTo_toNat hn a

/-- Settles O34: from `LOCKED`, only the pair itself arms the unlock state machine for the operation. -/
theorem unlockHonorsExactlyThePair : Obligations.UnlockHonorsExactlyThePair := by
  intro pair k1 k2
  have hloaded : KeysLoaded ⟨0, k1, k2, 0, 0⟩ (loadKeys ⟨0, k1, k2, 0, 0⟩ State.reset) := ⟨rfl, rfl⟩
  refine ⟨unlockStrobe_locked _, ?_⟩
  by_cases hmatch : KeysMatch pair ⟨0, k1, k2, 0, 0⟩
  case pos => exact iff_of_true (honored_of_keysMatch hmatch hloaded) hmatch
  case neg => exact iff_of_false (Bool.eq_false_iff.mp (honored_eq_false hmatch hloaded)) hmatch

/-! ## Below the floor -/

theorem not_aboveFloor {p : Params} {a : Addr} (h : a.toNat < p.floor) : ¬aboveFloor p a = true := fun habove =>
  absurd (of_decide_eq_true habove) (Nat.not_le.mpr h)

theorem exec_writeFlash_of_below {h : Header} {data : List Byte} {s : State} (hdata : data.length = min h.dlen.toNat s.params.w)
    (hbelow : ¬aboveFloor s.params h.addr = true) : exec (.writeFlash h data) s = .next (abortOutOfRange (loadKeys h s)) := by
  by_cases hfits : h.dlen.toNat ≤ s.params.w
  case pos =>
    have hcap := not_overCapacity hfits
    rw [exec, execWriteFlash, startWriteFlash, if_neg hcap, if_neg (not_short_of_fits hdata hcap), if_neg hbelow, runCommand_startAbort]
  case neg => exact exec_of_overCapacity rfl (Nat.lt_of_not_le hfits)

/-- Settles O30: each of the three commands ends at its start check. -/
theorem belowFloorAnswersOutOfRange : Obligations.BelowFloorAnswersOutOfRange := by
  intro h data s hbuf hdata
  have hrefused : AnswersOutOfRange h s (abortOutOfRange (loadKeys h s)) ∧ SameControl s (abortOutOfRange (loadKeys h s)) ∧
      SameMemory s (abortOutOfRange (loadKeys h s)) ∧ SamePorts s (abortOutOfRange (loadKeys h s)) :=
    ⟨abortOutOfRange_answers hbuf (unanswered_loadKeys h s), refusedStart_frame h s⟩
  refine ⟨fun hbelow => ⟨⟨_, exec_writeFlash_of_below hdata (not_aboveFloor hbelow), hrefused⟩, ⟨_, ?config, hrefused⟩⟩,
    fun hbelow => ⟨_, EraseFlash.exec_eraseFlash_of_below (not_aboveFloor hbelow), hrefused⟩⟩
  case config =>
    exact WriteConfig.exec_writeConfig_refused hdata fun ⟨_, habove⟩ => not_aboveFloor hbelow habove

end Sys2Proof.Proofs.StartChecks
end

section
/-! PROOFS. Write Flash (44_writes_and_control.md R200 to R203; 20_memory.md R59, R60): its loop, and what it leaves in the row buffer and in the
flash, byte by byte. -/

namespace Sys2Proof.Proofs.FlashWrites

open Sys2Proof.Machine Sys2Proof.Safety Sys2Proof.Proofs.GuardAborts Sys2Proof.Proofs.UnlockKeys Sys2Proof.Proofs.PayloadReads
  Sys2Proof.Proofs.FlashRoundTrip Sys2Proof.Proofs.MutatingLoop

/-! ## The loop -/

/-- The row buffer takes byte `i` (R59). -/
def bufferByte (h : Header) (data : List Byte) (i : Nat) (u : State) : State := bufWrite (byteTarget h i) (payloadByte data i) u

/-- Byte `i` of a Write Flash: buffered and, at a commit point, committed with its row (R200, R203). -/
def flashElement (p : Params) (h : Header) (data : List Byte) (i : Nat) (u : State) : State :=
  if commitPoint p (byteTarget h i) i h.dlen.toNat then
    commitFlash (writeRow p (byteTarget h i)) p.nvmKey (bufferByte h data i u)
  else bufferByte h data i u

theorem flashElement_keeps {P : State → Prop} {p : Params} {h : Header} {data : List Byte} {i : Nat} {u : State}
    (hbuffer : P (bufferByte h data i u))
    (hcommit : P (bufferByte h data i u) → P (commitFlash (writeRow p (byteTarget h i)) p.nvmKey (bufferByte h data i u))) :
    P (flashElement p h data i u) := by
  unfold flashElement
  split
  · exact hcommit hbuffer
  · exact hbuffer

theorem underway_bufferByte {h : Header} {data : List Byte} {s u : State} (i : Nat) (hu : Underway h s u) :
    Underway h s (bufferByte h data i u) :=
  { hu with unanswered := { hu.unanswered with } }

theorem underway_flashElement {p : Params} {h : Header} {data : List Byte} {s : State} (i : Nat) (u : State) (hu : Underway h s u) :
    Underway h s (flashElement p h data i u) := by
  refine flashElement_keeps (P := Underway h s) (underway_bufferByte i hu) fun hu => ?_
  obtain ⟨hunanswered, ⟨hparams, hcount, hexpected, -, hrequest⟩, hports⟩ := hu
  exact ⟨{ hunanswered with }, ⟨hparams, hcount, hexpected, fun _ => commitFlash_ustate _ _ _, hrequest⟩, hports⟩

theorem underway_before (h : Header) (data : List Byte) (s : State) (j : Nat) :
    Underway h s (stateBefore (flashElement s.params h data) h s j) :=
  stateBefore_keeps (underway_loadKeys h s) underway_flashElement j

/-- Before byte `j` of a Write Flash. -/
def BeforeByte (h : Header) (data : List Byte) (s : State) (j : Nat) (l : Loc) (u : State) : Prop :=
  BeforeElement (byteTarget h) (flashElement s.params h data) h s j l u ∧ l.n = h.dlen.toNat

section
variable {h : Header} {data : List Byte} {s : State}

theorem BeforeByte.element_eq {j : Nat} {l : Loc} {u : State} (hat : BeforeByte h data s j l u) :
    element (writeFlashOp s.params.nvmKey data) l u =
      if inFlash s.params (byteTarget h j) then
        .go (nextLoc (byteTarget h (j + 1)) l) (stateBefore (flashElement s.params h data) h s (j + 1))
      else .abort (dropStale (stateBefore (flashElement s.params h data) h s j)) := by
  obtain ⟨⟨hcur, rfl, rfl⟩, hn⟩ := hat
  have hnext : nextAddr (byteTarget h l.i) = byteTarget h (l.i + 1) := nextAddr_add_ofNat h.addr l.i
  rw [element_writeFlashOp, (underway_before h data s l.i).unanswered.params, hcur, hn, hnext]
  rfl

theorem BeforeByte.next {j : Nat} {l : Loc} {u : State} (hat : BeforeByte h data s j l u)
    (hpass : inFlash s.params (byteTarget h j) = true) :
    ∃ l' u', element (writeFlashOp s.params.nvmKey data) l u = .go l' u' ∧ BeforeByte h data s (j + 1) l' u' := by
  have helement := hat.element_eq
  rw [if_pos hpass] at helement
  obtain ⟨⟨-, rfl, -⟩, hn⟩ := hat
  exact ⟨_, _, helement, ⟨rfl, rfl, rfl⟩, hn⟩

theorem BeforeByte.refused {j : Nat} {l : Loc} {u : State} (hat : BeforeByte h data s j l u)
    (hfalse : inFlash s.params (byteTarget h j) = false) :
    ∃ u', element (writeFlashOp s.params.nvmKey data) l u = .abort u' ∧
      u' = dropStale (stateBefore (flashElement s.params h data) h s j) :=
  ⟨_, by rw [hat.element_eq, hfalse]; rfl, rfl⟩

/-- The state a Write Flash of `n` bytes ends in, `u` the state after the `m` bytes before the first one out of range. -/
def EndsWrite (n m : Nat) (u t : State) : Prop := (m = n ∧ t = completeMutation u) ∨ (m < n ∧ t = abortOutOfRange (dropStale u))

/-- A Write Flash that passed its start checks writes the bytes before the first one out of range. -/
theorem exec_writeFlash_ends (hfits : h.dlen.toNat ≤ s.params.w) (hdata : data.length = h.dlen.toNat)
    (hfloor : s.params.floor ≤ h.addr.toNat) {m : Nat} (hcut : IsCut (fun i => inFlash s.params (byteTarget h i)) h.dlen.toNat m) :
    ∃ t, exec (.writeFlash h data) s = .next t ∧
      EndsWrite h.dlen.toNat m (stateBefore (flashElement s.params h data) h s m) t := by
  obtain ⟨hle, hpass, hstop⟩ := hcut
  have hstart : BeforeByte h data s 0 (startLoc h.addr h.dlen.toNat (some s.params.nvmKey)) (loadKeys h s) :=
    ⟨⟨(BitVec.add_zero _).symm, rfl, rfl⟩, rfl⟩
  have hnext := fun j l u (hj : j < m) (hat : BeforeByte h data s j l u) => hat.next (hpass j hj)
  rw [exec, execWriteFlash, startWriteFlash, if_neg (not_overCapacity hfits), if_neg hdata.not_lt,
    if_pos (show aboveFloor s.params h.addr = true from decide_eq_true hfloor), runCommand_startLoop, continueLoop, startLoc, Nat.sub_zero]
  rcases hle.eq_or_lt with heq | hlt
  · obtain ⟨l, u, hrun, ⟨-, -, rfl⟩, -⟩ := runLoop_go hnext m 0 _ _ (Nat.zero_add m) hstart
    rw [heq] at hrun
    exact ⟨_, congrArg (endCommand · finishMutation) hrun, .inl ⟨heq, by rw [heq]; rfl⟩⟩
  · obtain ⟨u, hrun, rfl⟩ := runLoop_abort hnext (fun l u hat => BeforeByte.refused (l := l) (u := u) hat (hstop.resolve_left hlt.ne))
      h.dlen.toNat 0 _ _ (Nat.zero_le m) (by omega) hstart
    exact ⟨_, congrArg (endCommand · finishMutation) hrun, .inr ⟨hlt, rfl⟩⟩

end

/-! ## What waits for a commit -/

/-- What the row buffer holds for an address before byte `j`, where no commit has emptied its row (R59). -/
def pendingByte (h : Header) (data : List Byte) (c : Cells) : Nat → Nat → Option Byte
  | 0, a => cellsFind c a
  | j + 1, a => if (byteTarget h j).toNat = a then some (payloadByte data j) else pendingByte h data c j a

theorem pendingByte_other {h : Header} {c : Cells} {j a : Nat} (data : List Byte) (hother : ∀ i < j, (byteTarget h i).toNat ≠ a) :
    pendingByte h data c j a = cellsFind c a := by
  induction j with
  | zero => rfl
  | succ j ih =>
    rw [pendingByte, if_neg (hother j (Nat.lt_succ_self j))]
    exact ih fun i hi => hother i (Nat.lt_succ_of_lt hi)

theorem pendingByte_target {h : Header} {c : Cells} {i j : Nat} (data : List Byte) (hi : i < j) (hj : j ≤ h.dlen.toNat) :
    pendingByte h data c j (byteTarget h i).toNat = some (payloadByte data i) := by
  induction j with
  | zero => omega
  | succ j ih =>
    rw [pendingByte]
    rcases Nat.lt_succ_iff_lt_or_eq.mp hi with hlt | rfl
    · rw [if_neg (byteTarget_ne hj (by omega) (by omega))]
      exact ih hlt (by omega)
    · exact if_pos rfl

/-- A cell after a commit of what the row buffer holds for it (R60). -/
def programmed (mode : FlashProgram) (old : Byte) (v : Option Byte) : Byte := (v.map (programByte mode old)).getD old

/-- The address waits for the commit of its row. -/
def Pending (h : Header) (data : List Byte) (s : State) (j : Nat) (u : State) (a : Nat) : Prop :=
  cellsFind u.rowBuf a = pendingByte h data s.rowBuf j a ∧ Memory.read u.flash a = Memory.read s.flash a

/-- The commit of its row has emptied the row buffer at the address and, with matching keys, programmed the cell. -/
def Committed (h : Header) (data : List Byte) (s : State) (j : Nat) (u : State) (a : Nat) : Prop :=
  cellsFind u.rowBuf a = none ∧
    (KeysMatch s.params.nvmKey h →
      Memory.read u.flash a =
        programmed s.params.flashProgram (Memory.read s.flash a) (pendingByte h data s.rowBuf j a))

section
variable {h : Header} {data : List Byte} {s u : State} {j a : Nat}

theorem Pending.bufferByte (hpending : Pending h data s j u a) : Pending h data s (j + 1) (bufferByte h data j u) a := by
  obtain ⟨hfind, hread⟩ := hpending
  refine ⟨(cellsFind_insert u.rowBuf (byteTarget h j).toNat a (payloadByte data j)).trans ?_, hread⟩
  rw [pendingByte, hfind]

theorem Committed.bufferByte (hcommitted : Committed h data s j u a) (hne : (byteTarget h j).toNat ≠ a) :
    Committed h data s (j + 1) (bufferByte h data j u) a := by
  obtain ⟨hfind, hread⟩ := hcommitted
  refine ⟨(cellsFind_bufWrite_ne hne _ u).trans hfind, fun hmatch => (hread hmatch).trans ?_⟩
  rw [pendingByte, if_neg hne]

end

/-! ## A commit -/

section
variable {h : Header} {data : List Byte} {s u : State} {row : Addr} {j a : Nat} (hu : Underway h s u)
  (hsorted : KeysMatch s.params.nvmKey h → cellsSorted u.rowBuf)
include hu

/-- A commit that is honored, or drops what it was not allowed to make durable, empties its row in the row buffer (R60, U6). -/
theorem cellsFind_commitFlash_row (hempties : KeysMatch s.params.nvmKey h ∨ s.params.staleRowBuffer = .dropped) :
    cellsFind (commitFlash row s.params.nvmKey u).rowBuf a =
      if row.toNat ≤ a ∧ a < row.toNat + s.params.w then none else cellsFind u.rowBuf a := by
  rw [← hu.unanswered.params]
  by_cases hmatch : KeysMatch s.params.nvmKey h
  case pos => exact cellsFind_commitFlash (hu.unanswered.params ▸ hu.honored hmatch) a
  case neg =>
    have hdropped : u.params.staleRowBuffer = .dropped := hu.unanswered.params ▸ hempties.resolve_left hmatch
    rw [(commitFlash_unhonored (hu.unanswered.params ▸ hu.unhonored hmatch)).2, hdropped]
    exact cellsFind_outside _ _ _ _

include hsorted in
theorem read_commitFlash_row (hmatch : KeysMatch s.params.nvmKey h) (hrow : InRow s.params row a) :
    Memory.read (commitFlash row s.params.nvmKey u).flash a =
      programmed s.params.flashProgram (Memory.read u.flash a) (cellsFind u.rowBuf a) := by
  rw [(commitFlash_honored (hu.honored hmatch)).1, read_commitRange _ _ _ (hsorted hmatch), hu.unanswered.params,
    if_pos (show row.toNat ≤ a ∧ a < row.toNat + s.params.w from hrow)]
  cases cellsFind u.rowBuf a <;> rfl

theorem flash_commitFlash_unhonored (hother : ¬KeysMatch s.params.nvmKey h) : (commitFlash row s.params.nvmKey u).flash = u.flash :=
  (commitFlash_unhonored (hu.unhonored hother)).1

variable (hempties : KeysMatch s.params.nvmKey h ∨ s.params.staleRowBuffer = .dropped)
include hsorted hempties

theorem Pending.commit (hpending : Pending h data s j u a) (hrow : InRow s.params row a) :
    Committed h data s j (commitFlash row s.params.nvmKey u) a := by
  obtain ⟨hfind, hread⟩ := hpending
  refine ⟨(cellsFind_commitFlash_row hu hempties).trans (if_pos hrow), fun hmatch => ?_⟩
  rw [read_commitFlash_row hu hsorted hmatch hrow, hread, hfind]

theorem Pending.commit_outside (hpending : Pending h data s j u a) (hout : ¬InRow s.params row a) :
    Pending h data s j (commitFlash row s.params.nvmKey u) a := by
  obtain ⟨hfind, hread⟩ := hpending
  refine ⟨(cellsFind_commitFlash_row hu hempties).trans ((if_neg hout).trans hfind), ?_⟩
  by_cases hmatch : KeysMatch s.params.nvmKey h
  · exact (read_commitFlash_outside hu.unanswered.params (hu.honored hmatch) (hsorted hmatch) hout).trans hread
  · rw [flash_commitFlash_unhonored hu hmatch, hread]

theorem Committed.commit (hcommitted : Committed h data s j u a) : Committed h data s j (commitFlash row s.params.nvmKey u) a := by
  obtain ⟨hnone, hread⟩ := hcommitted
  refine ⟨?_, fun hmatch => ?_⟩
  · rw [cellsFind_commitFlash_row hu hempties, hnone, ite_self]
  · exact (read_commitFlash_of_none (hu.honored hmatch) (hsorted hmatch) hnone).trans (hread hmatch)

end

/-! ## Row by row -/

section
variable {h : Header} {data : List Byte} {s : State}

theorem inTouchedRow_succ {j a : Nat} :
    InTouchedRow s.params h.addr (j + 1) a ↔
      InTouchedRow s.params h.addr j a ∨ InRow s.params (writeRow s.params (byteTarget h j)) a :=
  Nat.exists_lt_succ_right

/-- The address lies in the row of the byte before byte `j`, which no commit has followed. -/
def Open (h : Header) (s : State) (j a : Nat) : Prop :=
  ∃ k, j = k + 1 ∧ commitPoint s.params (byteTarget h k) k h.dlen.toNat = false ∧
    InRow s.params (writeRow s.params (byteTarget h k)) a

/-- A row that no commit has followed is the row of the next byte too. -/
theorem Open.inRow (hw : isPowerOfTwo s.params.w) {j a : Nat} (hopen : Open h s j a) :
    InRow s.params (writeRow s.params (byteTarget h j)) a := by
  obtain ⟨k, rfl, hcommit, hrow⟩ := hopen
  have hend : ¬((byteTarget h k).toNat + 1) % s.params.w = 0 := fun hend => of_decide_eq_false hcommit (.inl hend)
  rw [byteTarget_add]
  exact (writeRow_succ hw hend).symm ▸ hrow

/-- Of `m` bytes, before byte `j`: the address is committed, and no byte to come has it, or it is pending, in the open row if in a touched one. -/
def AtAddress (h : Header) (data : List Byte) (s : State) (m j : Nat) (u : State) (a : Nat) : Prop :=
  (InTouchedRow s.params h.addr j a ∧ Committed h data s j u a ∧ ∀ i, j ≤ i → i < m → (byteTarget h i).toNat ≠ a) ∨
    (Pending h data s j u a ∧ (InTouchedRow s.params h.addr j a → Open h s j a))

theorem inTouchedRow_byteTarget (hw : isPowerOfTwo s.params.w) {i m : Nat} (hi : i < m) :
    InTouchedRow s.params h.addr m (byteTarget h i).toNat := ⟨i, hi, inRow_writeRow hw (byteTarget h i)⟩

theorem sorted_before (hsorted : cellsSorted s.rowBuf) (j : Nat) :
    cellsSorted (stateBefore (flashElement s.params h data) h s j).rowBuf :=
  stateBefore_keeps (P := fun u => cellsSorted u.rowBuf) hsorted
    (fun _ _ hu => flashElement_keeps (P := fun u => cellsSorted u.rowBuf) (cellsInsert_sorted hu _ _)
      fun hu => commitFlash_sorted hu _ _) j

section
variable {m : Nat} (hw : isPowerOfTwo s.params.w) (hm : m ≤ h.dlen.toNat) (hfits : h.dlen.toNat ≤ s.params.w)
  (hrange : h.addr.toNat + m ≤ 2 ^ 24 ∨ s.params.w < 2 ^ 24)
include hw hm hfits hrange

/-- After a commit point, no byte to come lies in the row. -/
theorem byteTarget_ne_of_commitPoint {i j a : Nat} (hcommit : commitPoint s.params (byteTarget h j) j h.dlen.toNat = true)
    (hrow : InRow s.params (writeRow s.params (byteTarget h j)) a) (hj : j + 1 ≤ i) (hi : i < m) : (byteTarget h i).toNat ≠ a := by
  rcases of_decide_eq_true hcommit with hend | hlast
  case inr => omega
  case inl =>
    obtain ⟨d, rfl⟩ := Nat.exists_eq_add_of_lt hj
    rintro rfl
    rw [Nat.add_assoc, byteTarget_add] at hrow
    refine not_inRow_past_end hw hend (Nat.succ_pos d) (by omega) (hrange.imp_left fun hle => ?_) hrow
    have : (byteTarget h j).toNat ≤ h.addr.toNat + j := by
      rw [byteTarget, BitVec.toNat_add, BitVec.toNat_ofNat]
      omega
    omega

theorem AtAddress.next (hempties : KeysMatch s.params.nvmKey h ∨ s.params.staleRowBuffer = .dropped) {j a : Nat} (hj : j < m) {u : State}
    (hu : Underway h s (bufferByte h data j u)) (hsorted : KeysMatch s.params.nvmKey h → cellsSorted (bufferByte h data j u).rowBuf)
    (hat : AtAddress h data s m j u a) : AtAddress h data s m (j + 1) (flashElement s.params h data j u) a := by
  rw [flashElement]
  cases hcommit : commitPoint s.params (byteTarget h j) j h.dlen.toNat with
  | false =>
    rw [if_neg nofun]
    rcases hat with ⟨htouched, hcommitted, hbytes⟩ | ⟨hpending, hopen⟩
    · exact .inl ⟨inTouchedRow_succ.mpr (.inl htouched), hcommitted.bufferByte (hbytes j le_rfl hj),
        fun i hi => hbytes i (Nat.le_of_succ_le hi)⟩
    · exact .inr ⟨hpending.bufferByte, fun htouched => ⟨j, rfl, hcommit,
        (inTouchedRow_succ.mp htouched).elim (fun hbefore => (hopen hbefore).inRow hw) id⟩⟩
  | true =>
    rw [if_pos rfl]
    rcases hat with ⟨htouched, hcommitted, hbytes⟩ | ⟨hpending, hopen⟩
    · exact .inl ⟨inTouchedRow_succ.mpr (.inl htouched), (hcommitted.bufferByte (hbytes j le_rfl hj)).commit hu hsorted hempties,
        fun i hi => hbytes i (Nat.le_of_succ_le hi)⟩
    · by_cases hrow : InRow s.params (writeRow s.params (byteTarget h j)) a
      case pos =>
        exact .inl ⟨inTouchedRow_succ.mpr (.inr hrow), hpending.bufferByte.commit hu hsorted hempties hrow,
          fun i hi him => byteTarget_ne_of_commitPoint hw hm hfits hrange hcommit hrow hi him⟩
      case neg =>
        exact .inr ⟨hpending.bufferByte.commit_outside hu hsorted hempties hrow, fun htouched =>
          absurd ((inTouchedRow_succ.mp htouched).elim (fun hbefore => (hopen hbefore).inRow hw) id) hrow⟩

theorem atAddress_before (hempties : KeysMatch s.params.nvmKey h ∨ s.params.staleRowBuffer = .dropped)
    (hsorted : KeysMatch s.params.nvmKey h → cellsSorted s.rowBuf) (a : Nat) {j : Nat} (hj : j ≤ m) :
    AtAddress h data s m j (stateBefore (flashElement s.params h data) h s j) a := by
  induction j with
  | zero => exact .inr ⟨⟨rfl, rfl⟩, fun ⟨_, hi, _⟩ => absurd hi (Nat.not_lt_zero _)⟩
  | succ j ih =>
    exact (ih (Nat.le_of_succ_le hj)).next hw hm hfits hrange hempties hj (underway_bufferByte j (underway_before h data s j))
      fun hmatch => cellsInsert_sorted (sorted_before (hsorted hmatch) j) _ _

/-- After bytes that end with a commit, the addresses of their rows are committed, and no other is (R60). -/
theorem committed_or_pending (hempties : KeysMatch s.params.nvmKey h ∨ s.params.staleRowBuffer = .dropped)
    (hsorted : KeysMatch s.params.nvmKey h → cellsSorted s.rowBuf)
    (hclosed : ∀ k, m = k + 1 → commitPoint s.params (byteTarget h k) k h.dlen.toNat = true) (a : Nat) :
    (InTouchedRow s.params h.addr m a → Committed h data s m (stateBefore (flashElement s.params h data) h s m) a) ∧
      (¬InTouchedRow s.params h.addr m a → Pending h data s m (stateBefore (flashElement s.params h data) h s m) a) := by
  rcases atAddress_before (data := data) hw hm hfits hrange hempties hsorted a le_rfl with
    ⟨htouched, hcommitted, -⟩ | ⟨hpending, hopen⟩
  · exact ⟨fun _ => hcommitted, fun hout => absurd htouched hout⟩
  · refine ⟨fun htouched => ?_, fun _ => hpending⟩
    obtain ⟨k, hk, hcommit, -⟩ := hopen htouched
    rw [hclosed k hk] at hcommit
    cases hcommit

theorem rowsEmptied_before (hempties : KeysMatch s.params.nvmKey h ∨ s.params.staleRowBuffer = .dropped)
    (hsorted : KeysMatch s.params.nvmKey h → cellsSorted s.rowBuf)
    (hclosed : ∀ k, m = k + 1 → commitPoint s.params (byteTarget h k) k h.dlen.toNat = true) :
    RowsEmptied s (stateBefore (flashElement s.params h data) h s m) h.addr m := by
  intro a
  obtain ⟨hcommitted, hpending⟩ := committed_or_pending (data := data) hw hm hfits hrange hempties hsorted hclosed a
  refine ⟨fun htouched => (hcommitted htouched).1, fun hout => (hpending hout).1.trans ?_⟩
  exact pendingByte_other data fun i hi heq => hout (heq ▸ inTouchedRow_byteTarget hw hi)

theorem flashCommitted_before (hmatch : KeysMatch s.params.nvmKey h) (hsorted : cellsSorted s.rowBuf)
    (hclosed : ∀ k, m = k + 1 → commitPoint s.params (byteTarget h k) k h.dlen.toNat = true) :
    FlashCommitted s (stateBefore (flashElement s.params h data) h s m) h.addr m data := by
  have hcell := committed_or_pending (data := data) hw hm hfits hrange (.inl hmatch) (fun _ => hsorted) hclosed
  refine ⟨fun i hi => ?_, fun a hother htouched => ?_, fun a hout => ((hcell a).2 hout).2⟩
  · refine (((hcell _).1 (inTouchedRow_byteTarget hw hi)).2 hmatch).trans ?_
    rw [pendingByte_target data hi hm]
    rfl
  · refine (((hcell a).1 htouched).2 hmatch).trans ?_
    rw [pendingByte_other data hother]
    cases cellsFind s.rowBuf a <;> rfl

end

/-! ## Other keys -/

/-- With other keys no byte of flash changes (R202). -/
theorem flash_before (hother : ¬KeysMatch s.params.nvmKey h) (j : Nat) :
    (stateBefore (flashElement s.params h data) h s j).flash = s.flash := by
  induction j with
  | zero => rfl
  | succ j ih =>
    have hu := underway_bufferByte (data := data) j (underway_before h data s j)
    exact flashElement_keeps (P := (·.flash = s.flash)) ih (flash_commitFlash_unhonored hu hother).trans

/-- With other keys, and stale entries kept, the row buffer holds every byte so far (R60, U6). -/
theorem rowBuf_before (hother : ¬KeysMatch s.params.nvmKey h) (hkept : s.params.staleRowBuffer = .kept) (a j : Nat) :
    cellsFind (stateBefore (flashElement s.params h data) h s j).rowBuf a = pendingByte h data s.rowBuf j a := by
  induction j with
  | zero => rfl
  | succ j ih =>
    have hu := underway_bufferByte (data := data) j (underway_before h data s j)
    refine flashElement_keeps (P := fun u => cellsFind u.rowBuf a = pendingByte h data s.rowBuf (j + 1) a) ?_ fun hfind => ?_
    · exact (cellsFind_insert _ (byteTarget h j).toNat a _).trans (by rw [pendingByte, ih])
    · rw [(commitFlash_unhonored (hu.unhonored hother)).2, hu.unanswered.params, hkept]
      exact hfind

end

/-! ## The requests -/

theorem byteTarget_toNat {h : Header} {i : Nat} (hlt : h.addr.toNat + i < 2 ^ 24) : (byteTarget h i).toNat = h.addr.toNat + i := by
  rw [byteTarget, BitVec.toNat_add, BitVec.toNat_ofNat]
  omega

theorem inFlash_byteTarget {p : Params} {h : Header} {i : Nat} (hend : p.flashEnd ≤ 2 ^ 24) (hfloor : p.floor ≤ h.addr.toNat)
    (hlt : h.addr.toNat + i < p.flashEnd) : inFlash p (byteTarget h i) = true := by
  rw [inFlash, byteTarget_toNat (by omega), decide_eq_true_iff]
  omega

theorem rowBuf_dropStale_of_kept {u : State} (hkept : u.params.staleRowBuffer = .kept) : (dropStale u).rowBuf = u.rowBuf := by
  rw [dropStale, hkept]
  rfl

theorem rowBuf_dropStale_of_dropped {u : State} (hdropped : u.params.staleRowBuffer = .dropped) : (dropStale u).rowBuf = [] := by
  rw [dropStale, hdropped]
  rfl

/-- What a Write Flash leaves, besides its answer and the flash, whichever way it ends. -/
theorem EndsWrite.frame {h : Header} {data : List Byte} {s t : State} {n m : Nat}
    (hend : EndsWrite n m (stateBefore (flashElement s.params h data) h s m) t) :
    SameControl s t ∧ SameEE s t ∧ SameCfg s t ∧ SamePorts s t := by
  obtain ⟨-, hcontrol, hports⟩ := underway_before h data s m
  have hee : SameEE s (stateBefore (flashElement s.params h data) h s m) :=
    stateBefore_keeps ⟨fun _ => rfl, rfl⟩ (fun _ _ hu => flashElement_keeps (P := SameEE s) hu id) m
  have hcfg : SameCfg s (stateBefore (flashElement s.params h data) h s m) :=
    stateBefore_keeps ⟨fun _ => rfl, rfl⟩ (fun _ _ hu => flashElement_keeps (P := SameCfg s) hu id) m
  rcases hend with ⟨-, rfl⟩ | ⟨-, rfl⟩ <;> exact ⟨hcontrol, hee, hcfg, hports⟩

section
variable {h : Header} {data : List Byte} {s : State} (hfits : h.dlen.toNat ≤ s.params.w) (hdata : data.length = h.dlen.toNat)
  (hfloor : s.params.floor ≤ h.addr.toNat)
include hfits hdata hfloor

/-- A Write Flash with every byte in range ends after its last one. -/
theorem exec_writeFlash_of_inFlash (hin : ∀ i < h.dlen.toNat, inFlash s.params (byteTarget h i) = true) :
    exec (.writeFlash h data) s = .next (completeMutation (stateBefore (flashElement s.params h data) h s h.dlen.toNat)) := by
  obtain ⟨t, hexec, hend⟩ := exec_writeFlash_ends hfits hdata hfloor ⟨le_rfl, hin, .inl rfl⟩
  obtain ⟨-, rfl⟩ := hend.resolve_right fun ⟨hlt, _⟩ => lt_irrefl _ hlt
  exact hexec

theorem writeFlash_completes (hbuf : BufOk s) (hw : isPowerOfTwo s.params.w) (hsorted : cellsSorted s.rowBuf)
    (hrange : h.addr.toNat + h.dlen.toNat ≤ 2 ^ 24 ∨ s.params.w < 2 ^ 24)
    (hin : ∀ i < h.dlen.toNat, inFlash s.params (byteTarget h i) = true) :
    ∃ t, exec (.writeFlash h data) s = .next t ∧ AnswersMutated s t ∧
      SameControl s t ∧ SameEE s t ∧ SameCfg s t ∧ SamePorts s t ∧
      (KeysMatch s.params.nvmKey h → FlashCommitted s t h.addr h.dlen.toNat data ∧ RowsEmptied s t h.addr h.dlen.toNat) ∧
      (¬KeysMatch s.params.nvmKey h → SameSpace .flash s t) := by
  have hclosed : ∀ k, h.dlen.toNat = k + 1 → commitPoint s.params (byteTarget h k) k h.dlen.toNat = true :=
    fun k hk => decide_eq_true (.inr hk.symm)
  obtain ⟨hcontrol, hee, hcfg, hports⟩ := EndsWrite.frame (h := h) (data := data) (s := s) (n := h.dlen.toNat) (.inl ⟨rfl, rfl⟩)
  exact ⟨_, exec_writeFlash_of_inFlash hfits hdata hfloor hin,
    completeMutation_answers hbuf (underway_before h data s h.dlen.toNat).unanswered, hcontrol, hee, hcfg, hports,
    fun hmatch => ⟨flashCommitted_before hw le_rfl hfits hrange hmatch hsorted hclosed,
      rowsEmptied_before hw le_rfl hfits hrange (.inl hmatch) (fun _ => hsorted) hclosed⟩,
    fun hother a => congrArg (Memory.read · a) (flash_before hother h.dlen.toNat)⟩

end

/-- Settles O38: a range below `FLASH_END` does not wrap. -/
theorem writeFlashInRangeCompletes : Obligations.WriteFlashInRangeCompletes := by
  intro h data s hbuf hwf hsorted hfits hdata hfloor hlast
  obtain ⟨hw, -, -, -, -, -, -, -, hend, -⟩ := hwf
  exact writeFlash_completes hfits hdata hfloor hbuf hw hsorted (.inl (hlast.trans hend)) fun i hi =>
    inFlash_byteTarget hend hfloor (by omega)

/-- Settles O39: a row smaller than the space is not met again after the wrap. -/
theorem writeFlashByteByByte : Obligations.WriteFlashByteByByte := by
  intro h data s hbuf hwf hsmall hsorted hfits hdata hfloor hin
  exact writeFlash_completes hfits hdata hfloor hbuf hwf.1 hsorted (.inr hsmall) hin

/-- Settles O40: no commit is honored, so the row buffer keeps the bytes or, where it drops them, empties their rows. -/
theorem unhonoredWriteLeavesRowBuffer : Obligations.UnhonoredWriteLeavesRowBuffer := by
  intro h data s hbuf hwf hfits hdata hfloor hlast hother
  obtain ⟨hw, -, -, -, -, -, -, -, hend, -⟩ := hwf
  have hin : ∀ i < h.dlen.toNat, inFlash s.params (byteTarget h i) = true := fun i hi => inFlash_byteTarget hend hfloor (by omega)
  have htarget : ∀ i < h.dlen.toNat, (byteTarget h i).toNat = h.addr.toNat + i := fun i hi => byteTarget_toNat (by omega)
  refine ⟨_, exec_writeFlash_of_inFlash hfits hdata hfloor hin,
    completeMutation_answers hbuf (underway_before h data s h.dlen.toNat).unanswered,
    fun a => congrArg (Memory.read · a) (flash_before hother h.dlen.toNat), fun hkept a => ?kept, fun hdropped => ?dropped⟩
  case kept =>
    refine (rowBuf_before hother hkept a h.dlen.toNat).trans ?_
    split
    case isTrue hrange =>
      have hi : a - h.addr.toNat < h.dlen.toNat := by omega
      have ha : (byteTarget h (a - h.addr.toNat)).toNat = a := by rw [htarget _ hi]; omega
      conv_lhs => rw [← ha]
      exact pendingByte_target data hi le_rfl
    case isFalse hrange =>
      refine pendingByte_other data fun i hi heq => hrange ?_
      rw [htarget i hi] at heq
      omega
  case dropped =>
    exact rowsEmptied_before hw le_rfl hfits (.inl (by omega)) (.inr hdropped) (fun hmatch => absurd hmatch hother)
      fun k hk => decide_eq_true (.inr hk.symm)

/-- Settles O42: the loop aborts, and an abort drops the whole row buffer. -/
theorem abortedWriteDropsRowBuffer : Obligations.AbortedWriteDropsRowBuffer := by
  intro h data s hdropped hfits hdata hfloor ⟨i, hi, hfalse⟩
  obtain ⟨m, hcut⟩ := exists_isCut (fun i => inFlash s.params (byteTarget h i)) h.dlen.toNat
  obtain ⟨t, hexec, hend⟩ := exec_writeFlash_ends hfits hdata hfloor hcut
  obtain ⟨-, hpass, -⟩ := hcut
  have hcutShort : ¬m = h.dlen.toNat := fun hm => absurd (hfalse.symm.trans (hpass i (hm ▸ hi))) nofun
  obtain ⟨-, rfl⟩ := hend.resolve_left fun ⟨hm, _⟩ => hcutShort hm
  refine ⟨_, hexec, ?_⟩
  exact rowBuf_dropStale_of_dropped ((congrArg Params.staleRowBuffer (underway_before h data s m).unanswered.params).trans hdropped)

/-! ## A write cut at the end of the flash -/

/-- The bytes before the first one at or above `FLASH_END` (41_address_guard.md R134). -/
theorem isCut_flashEnd {p : Params} {h : Header} (hend : p.flashEnd ≤ 2 ^ 24) (hbounds : 0 < p.floor ∨ p.flashEnd < 2 ^ 24)
    (hfloor : p.floor ≤ h.addr.toNat) (hpos : 0 < h.dlen.toNat) (hover : p.flashEnd < h.addr.toNat + h.dlen.toNat) :
    IsCut (fun i => inFlash p (byteTarget h i)) h.dlen.toNat (p.flashEnd - h.addr.toNat) := by
  refine ⟨by omega, fun i hi => inFlash_byteTarget hend hfloor (by omega), .inr ?_⟩
  have haddr := h.addr.isLt
  change inFlash p (byteTarget h (p.flashEnd - h.addr.toNat)) = false
  rw [inFlash, byteTarget, BitVec.toNat_add, BitVec.toNat_ofNat, decide_eq_false_iff_not]
  omega

/-- Settles O41: `FLASH_END` is a row's end, so the bytes below it are committed before the abort. -/
theorem writeFlashAcrossEndAborts : Obligations.WriteFlashAcrossEndAborts := by
  intro h data s hbuf hwf hsorted hbounds hfits hdata hfloor hpos hover
  obtain ⟨hw, -, -, -, -, hrows, -, -, hend, -⟩ := hwf
  have hcut := isCut_flashEnd hend hbounds hfloor hpos hover
  have hshort : s.params.flashEnd - h.addr.toNat < h.dlen.toNat := by omega
  have hrange : h.addr.toNat + (s.params.flashEnd - h.addr.toNat) ≤ 2 ^ 24 ∨ s.params.w < 2 ^ 24 := .inl (by omega)
  have hclosed : ∀ k, s.params.flashEnd - h.addr.toNat = k + 1 → commitPoint s.params (byteTarget h k) k h.dlen.toNat = true :=
    fun k hk => decide_eq_true (.inl (by
      rw [byteTarget_toNat (by omega), show h.addr.toNat + k + 1 = s.params.flashEnd by omega]
      exact Nat.mod_eq_zero_of_dvd hrows))
  obtain ⟨t, hexec, hends⟩ := exec_writeFlash_ends hfits hdata hfloor hcut
  obtain ⟨hcontrol, hee, hcfg, hports⟩ := hends.frame
  obtain ⟨-, rfl⟩ := hends.resolve_left fun ⟨heq, _⟩ => hshort.ne heq
  have hunanswered := (underway_before h data s (s.params.flashEnd - h.addr.toNat)).unanswered
  refine ⟨_, hexec, abortOutOfRange_answers hbuf { hunanswered with }, hcontrol, hee, hcfg, hports,
    fun hmatch => ⟨flashCommitted_before hw hshort.le hfits hrange hmatch hsorted hclosed, fun hkept a => ?emptied⟩,
    fun hother a => congrArg (Memory.read · a) (flash_before hother _)⟩
  case emptied =>
    rw [show (abortOutOfRange (dropStale _)).rowBuf = _ from rowBuf_dropStale_of_kept
      ((congrArg Params.staleRowBuffer hunanswered.params).trans hkept)]
    exact rowsEmptied_before hw hshort.le hfits hrange (.inl hmatch) (fun _ => hsorted) hclosed a

end Sys2Proof.Proofs.FlashWrites
end
